-- ==== Sys2Proof/Word.lean ====
section
/-!
DEFINITION. The word types of the ports: the bytes that the depot line, the pilot link and the supervisor
port carry (chapter 11). Every other value of the part is a whole number in the manual's units
(00_scope.md, "Units and conventions"), so it is a Nat, or an Int where it is signed.
-/

namespace Sys2Proof

/-- One byte on a port. -/
abbrev Byte := BitVec 8

/-- The 16-bit frame check of section 11.1. -/
abbrev Check := BitVec 16

/-- A value is within the closed range `lo` to `hi`. -/
abbrev InRange (lo hi n : Nat) : Prop := lo ≤ n ∧ n ≤ hi

/-- A signed value is within the closed range `lo` to `hi`. -/
abbrev InRangeInt (lo hi n : Int) : Prop := lo ≤ n ∧ n ≤ hi

end Sys2Proof
end

