-- ==== Sys2Proof/Syntax.lean ====
section
/-!
DEFINITION. The commands of the part: one constructor for each row of spec/opcode_table.json. The table
gives the rows no operand bits; the operands are the fields that the frames of chapter 11 and the rules
give them, as the wire carries them, before the corrections of R184, R185 and R186 (log 4).
-/

namespace Sys2Proof

/-- The fields of a received STANDING payload (section 11.1), uncorrected. -/
structure StandingWire where
  mode : Nat
  flags : Nat
  cls : Nat
  offer : Nat
  share : Nat
  actual : Nat
  energy : Nat
  served : Nat
  temperature : Int
  deriving DecidableEq, Repr

/-- The fields of a received DISPATCH payload (section 11.1), uncorrected. -/
structure DispatchWire where
  callId : Nat
  revision : Nat
  kind : Nat
  origin : Nat
  carried : Nat
  target : Nat
  ramp : Nat
  duration : Nat
  countdown : Nat
  deriving DecidableEq, Repr

/-- The fields of a received CURB payload (section 11.1), uncorrected. -/
structure CurbWire where
  level : Nat
  hold : Nat
  temperature : Int
  deriving DecidableEq, Repr

/-- The arguments of the supervisor's CALL (section 11.3). -/
structure CallArgs where
  callId : Nat
  revision : Nat
  kind : Nat
  target : Nat
  delay : Nat
  duration : Nat
  ramp : Nat
  deriving DecidableEq, Repr

/-- The four kinds of depot-line frame (section 11.1). -/
inductive FrameKind where
  | standing | dispatch | curb | leave
  deriving DecidableEq, Repr

/-- The commands. Each docstring names the row and the rule that governs it. -/
inductive Instr where
  /-- HARDWARE_RESET (R168): RESET_N low or power-up, with the straps on STALL[5:0] at its end. -/
  | hardwareReset (straps : Nat)
  /-- SELECT (R169): the key byte. -/
  | select (key : Nat)
  /-- VALUE (R169): the signed 4-byte value. -/
  | value (v : Int)
  /-- JOIN (R170). -/
  | join
  /-- CALL (R41). -/
  | call (args : CallArgs)
  /-- PARK (R171). -/
  | park
  /-- WAKE (R174). -/
  | wake
  /-- RESTART (R177). -/
  | restart
  /-- STATUS (R179). -/
  | status
  /-- POINT (R180): the report byte and the starting index. -/
  | point (report index : Nat)
  /-- READ (R180). -/
  | read
  /-- UNKNOWN_COMMAND (R176, R186): a code that names no command, or a wrong length byte. -/
  | unknownCommand (code length : Nat)
  /-- STANDING (R5): a good STANDING heard on the line. -/
  | standing (stall seq : Nat) (frame : StandingWire)
  /-- LEAVE (R7): a good LEAVE heard on the line. -/
  | leave (stall seq reason : Nat)
  /-- DISPATCH (R42): a good DISPATCH heard on the line. -/
  | dispatch (stall seq : Nat) (frame : DispatchWire)
  /-- CURB (R109): a good CURB heard on the line. -/
  | curb (stall seq : Nat) (frame : CurbWire)
  /-- BAD_FRAME (R32): a bad frame heard on the line. -/
  | badFrame
  /-- DUPLICATE_STALL (R34): a good frame of any kind that carries the own stall. -/
  | duplicateStall (kind : FrameKind)
  /-- STANDING_TIMER (R25). -/
  | standingTimer
  /-- LINE_IDLE (R26): the line goes idle. -/
  | lineIdle
  /-- ECHO_SUCCESS (R29): the whole frame is read back as sent; the level of the line after it. -/
  | echoSuccess (idle : Bool)
  /-- COLLISION (R30): a mismatch in the read-back; the level of the line after the stop. -/
  | collision (idle : Bool)
  /-- BACKOFF_END (R30): the backoff ends; the level of the line at that moment. -/
  | backoffEnd (idle : Bool)
  /-- SWEEP (R9). -/
  | sweep
  /-- LAST_HEARD_EXPIRY (R13). -/
  | lastHeardExpiry
  /-- REJOIN_HOLD_EXPIRY (R16). -/
  | rejoinHoldExpiry
  /-- CALL_TIMER (R48). -/
  | callTimer
  /-- START_COUNTDOWN_EXPIRY (R48) of one record. -/
  | startCountdownExpiry (callId : Nat)
  /-- REMAINING_ACTIVE_EXPIRY (R50) of one record. -/
  | remainingActiveExpiry (callId : Nat)
  /-- DEFERRED_EXPIRY (R49) of one record. -/
  | deferredExpiry (callId : Nat)
  /-- RETENTION_EXPIRY (R53) of one record. -/
  | retentionExpiry (callId : Nat)
  /-- ECHO_TIMER (R55). -/
  | echoTimer
  /-- REPEAT_COPY_DUE (R54): the next outstanding copy falls due. -/
  | repeatCopyDue
  /-- APPORTION_STEP (R83). -/
  | apportionStep
  /-- METER_SAMPLE (R77). -/
  | meterSample
  /-- DEPARTURE_MINUTE (R64). -/
  | departureMinute
  /-- SENSOR_SAMPLE (R106): the level on TSENSE converted to whole °C. -/
  | sensorSample (reading : Int)
  /-- CURB_EXPIRY (R114). -/
  | curbExpiry
  /-- MEAS_STB (R131): a strobe, with the value on MEAS. -/
  | measStb (sample : Nat)
  /-- FAULT_HIGH (R122): FAULT goes high. -/
  | faultHigh
  /-- PRECHARGE_EXPIRY (R121): the precharge timer runs out, with the level of READY. -/
  | prechargeExpiry (ready : Bool)
  /-- STABLE_EXPIRY (R123). -/
  | stableExpiry
  /-- RETRY_EXPIRY (R124): the converter's retry timer runs out. -/
  | retryExpiry
  /-- LINGER_EXPIRY (R125). -/
  | lingerExpiry
  /-- STOP_COMPLETE (R126): the held stop is tested. -/
  | stopComplete
  /-- SLEW_STEP (R128). -/
  | slewStep
  /-- PLUG_HIGH (R137). -/
  | plugHigh
  /-- PLUG_LOW (R138). -/
  | plugLow
  /-- WAKE_EXPIRY (R137). -/
  | wakeExpiry
  /-- PILOT_REQUEST_TAKEN (R139). -/
  | pilotRequestTaken
  /-- REQUEST_SENT (R139): the sending of the request in flight ends. -/
  | requestSent
  /-- REPLY_TIMER_EXPIRY (R140). -/
  | replyTimerExpiry
  /-- PILOT_FRAME_DISREGARDED (R139). -/
  | pilotFrameDisregarded
  /-- ITEM (R142): request number, item and value. -/
  | item (number item : Nat) (v : Int)
  /-- NOT_READY (R142): request number and item. -/
  | notReady (number item : Nat)
  /-- UNSUPPORTED (R142): request number and item. -/
  | unsupported (number item : Nat)
  /-- IDENTIFY_EXPIRY (R143). -/
  | identifyExpiry
  /-- REQUERY_EXPIRY (R142). -/
  | requeryExpiry
  /-- SESSION_RETRY_EXPIRY (R145). -/
  | sessionRetryExpiry
  /-- POLL_EXPIRY (R147). -/
  | pollExpiry
  /-- REFRESH_EXPIRY (R148). -/
  | refreshExpiry
  /-- TUNED (R154): request number, status and level. -/
  | tuned (number status level : Nat)
  /-- TUNING_EXPIRY (R156). -/
  | tuningExpiry
  /-- STEP_DELAY_EXPIRY (R154). -/
  | stepDelayExpiry
  /-- SETTLE_EXPIRY (R155). -/
  | settleExpiry
  /-- RETUNE_EXPIRY (R157). -/
  | retuneExpiry
  /-- RETUNE_BEGIN (R157). -/
  | retuneBegin
  /-- ENGAGED (R159): request number. -/
  | engaged (number : Nat)
  /-- DECLINED (R159): request number. -/
  | declined (number : Nat)
  /-- ENGAGE_HOLD_EXPIRY (R159). -/
  | engageHoldExpiry
  /-- SHARE_ZERO_EXPIRY (R160). -/
  | shareZeroExpiry
  /-- RELEASED (R161): request number. -/
  | released (number : Nat)
  /-- POLLED (R163): request number, flags, ceiling level and pack temperature. -/
  | polled (number flags ceiling : Nat) (temperature : Int)
  /-- PARK_COMPLETE (R172): the park's completion is tested. -/
  | parkComplete
  /-- RESTART_WAIT_EXPIRY (R177). -/
  | restartWaitExpiry
  deriving DecidableEq, Repr

end Sys2Proof
end

