-- ==== Sys2Proof/WellFormed.lean ====
section
/-!
DEFINITION. Which operands a port can carry: every field fits the bytes, pins or bits that chapter 11 and
the pin summary of 00_scope.md give it. A term outside them is no command of the part.
-/

namespace Sys2Proof

/-- A one-byte field. -/
abbrev FitsByte (n : Nat) : Prop := n < 256

/-- A two-byte field. -/
abbrev FitsWord (n : Nat) : Prop := n < 65536

/-- A two-byte signed field. -/
abbrev FitsSigned (n : Int) : Prop := -32768 ≤ n ∧ n ≤ 32767

abbrev StandingWire.WellFormed (f : StandingWire) : Prop :=
  FitsByte f.mode ∧ FitsByte f.flags ∧ FitsByte f.cls ∧ FitsWord f.offer ∧ FitsWord f.share ∧
    FitsWord f.actual ∧ FitsWord f.energy ∧ FitsWord f.served ∧ FitsSigned f.temperature

abbrev DispatchWire.WellFormed (f : DispatchWire) : Prop :=
  FitsWord f.callId ∧ FitsByte f.revision ∧ FitsByte f.kind ∧ FitsByte f.origin ∧
    FitsByte f.carried ∧ FitsWord f.target ∧ FitsWord f.ramp ∧ FitsWord f.duration ∧
    FitsWord f.countdown

abbrev CurbWire.WellFormed (f : CurbWire) : Prop :=
  FitsByte f.level ∧ FitsWord f.hold ∧ FitsSigned f.temperature

abbrev CallArgs.WellFormed (a : CallArgs) : Prop :=
  FitsWord a.callId ∧ FitsByte a.revision ∧ FitsByte a.kind ∧ FitsWord a.target ∧
    FitsWord a.delay ∧ FitsWord a.duration ∧ FitsWord a.ramp

/-- The argument count of each command code (section 11.3), or none where the code names no command. -/
def argumentCount (code : Nat) : Option Nat :=
  match code with
  | 1 => some 1
  | 2 => some 4
  | 3 => some 0
  | 4 => some 12
  | 5 => some 0
  | 6 => some 0
  | 7 => some 0
  | 8 => some 0
  | 9 => some 2
  | 10 => some 0
  | _ => none

/-- The operands of a command fit the port that carries it. An UNKNOWN_COMMAND is one whose code names
no command or whose length byte differs from the code's argument count (R176, R186); STATUS is never
one, since row 1 of R176 answers it first (log 23). -/
def Instr.wellFormed (i : Instr) : Bool :=
  match i with
  | .hardwareReset straps => decide (straps < 64)
  | .select k => decide (FitsByte k)
  | .value v => decide (InRangeInt (-2147483648) 2147483647 v)
  | .join => true
  | .call a => decide a.WellFormed
  | .park => true
  | .wake => true
  | .restart => true
  | .status => true
  | .point report index => decide (FitsByte report ∧ FitsByte index)
  | .read => true
  | .unknownCommand code length =>
    decide (FitsByte code ∧ FitsByte length ∧ code ≠ 8 ∧ argumentCount code ≠ some length)
  | .standing stall seq f => decide (FitsByte stall ∧ FitsByte seq ∧ f.WellFormed)
  | .leave stall seq reason => decide (FitsByte stall ∧ FitsByte seq ∧ FitsByte reason)
  | .dispatch stall seq f => decide (FitsByte stall ∧ FitsByte seq ∧ f.WellFormed)
  | .curb stall seq f => decide (FitsByte stall ∧ FitsByte seq ∧ f.WellFormed)
  | .badFrame => true
  | .duplicateStall _ => true
  | .standingTimer => true
  | .lineIdle => true
  | .echoSuccess _ => true
  | .collision _ => true
  | .backoffEnd _ => true
  | .sweep => true
  | .lastHeardExpiry => true
  | .rejoinHoldExpiry => true
  | .callTimer => true
  | .startCountdownExpiry callId => decide (InRange 1 65535 callId)
  | .remainingActiveExpiry callId => decide (InRange 1 65535 callId)
  | .deferredExpiry callId => decide (InRange 1 65535 callId)
  | .retentionExpiry callId => decide (InRange 1 65535 callId)
  | .echoTimer => true
  | .repeatCopyDue => true
  | .apportionStep => true
  | .meterSample => true
  | .departureMinute => true
  | .sensorSample _ => true
  | .curbExpiry => true
  | .measStb sample => decide (sample < 1024)
  | .faultHigh => true
  | .prechargeExpiry _ => true
  | .stableExpiry => true
  | .retryExpiry => true
  | .lingerExpiry => true
  | .stopComplete => true
  | .slewStep => true
  | .plugHigh => true
  | .plugLow => true
  | .wakeExpiry => true
  | .pilotRequestTaken => true
  | .requestSent => true
  | .replyTimerExpiry => true
  | .pilotFrameDisregarded => true
  | .item number k v => decide (FitsByte number ∧ FitsByte k ∧ FitsSigned v)
  | .notReady number k => decide (FitsByte number ∧ FitsByte k)
  | .unsupported number k => decide (FitsByte number ∧ FitsByte k)
  | .identifyExpiry => true
  | .requeryExpiry => true
  | .sessionRetryExpiry => true
  | .pollExpiry => true
  | .refreshExpiry => true
  | .tuned number st level => decide (FitsByte number ∧ FitsByte st ∧ FitsByte level)
  | .tuningExpiry => true
  | .stepDelayExpiry => true
  | .settleExpiry => true
  | .retuneExpiry => true
  | .retuneBegin => true
  | .engaged number => decide (FitsByte number)
  | .declined number => decide (FitsByte number)
  | .engageHoldExpiry => true
  | .shareZeroExpiry => true
  | .released number => decide (FitsByte number)
  | .polled number flags ceiling t =>
    decide (FitsByte number ∧ FitsByte flags ∧ FitsByte ceiling ∧ FitsSigned t)
  | .parkComplete => true
  | .restartWaitExpiry => true

/-- The predicate of `Instr.wellFormed`. -/
abbrev Instr.WellFormed (i : Instr) : Prop := i.wellFormed = true

end Sys2Proof
end

