-- ==== Sys2Proof/Decode.lean ====
section
/-!
DEFINITION. From bits to commands. The rows of spec/opcode_table.json give no bits, so no table word spells a
command (log 22). What arrives on the depot line, on the pilot link and on the supervisor port is bytes (chapter
11): the frame check, and the reading of each as the command that it is. With it stands the writing of the four
received depot-line frames and of the replies, from the same tables.
-/

namespace Sys2Proof

/-- The command that a table word spells: the table gives its rows no bits (log 22). -/
def decodeTableWord (nbits w : Nat) : Option Instr :=
  let _ := (nbits, w)
  none

/-! ### Fields -/

/-- A byte field. -/
def byteField (n : Nat) : List Byte := [BitVec.ofNat 8 n]

/-- The two bytes of a 16-bit word, the high byte first (chapter 11). -/
def wordBytes (w : BitVec 16) : List Byte := [w.extractLsb' 8 8, w.extractLsb' 0 8]

/-- A two-byte field. -/
def wordField (n : Nat) : List Byte := wordBytes (BitVec.ofNat 16 n)

/-- A two-byte signed field. -/
def signedField (v : Int) : List Byte := wordBytes (BitVec.ofInt 16 v)

/-- The number that two bytes carry. -/
def wordOf (hi lo : Byte) : Nat := (hi ++ lo).toNat

/-- The signed number that two bytes carry. -/
def signedOf (hi lo : Byte) : Int := (hi ++ lo).toInt

/-! ### The frame check (section 11.1) -/

/-- The generator x¹⁶ + x¹² + x⁵ + 1, without its leading term. -/
def checkGenerator : Check := 0x1021#16

/-- One bit enters the register. The high bit of a byte enters first (PRESUMED, log 20). -/
def checkBit (reg : Check) (bit : Bool) : Check :=
  if reg.msb != bit then (reg <<< 1) ^^^ checkGenerator else reg <<< 1

/-- One byte enters the register. -/
def checkByte (reg : Check) (b : Byte) : Check :=
  [7, 6, 5, 4, 3, 2, 1, 0].foldl (fun r k => checkBit r (b.getLsbD k)) reg

/-- The frame check of bytes: the register starts at all ones, with no final inversion. -/
def frameCheck (bs : List Byte) : Check := bs.foldl checkByte 0xFFFF#16

/-- A frame: bytes with their check behind them. -/
def withCheck (bs : List Byte) : List Byte := bs ++ wordBytes (frameCheck bs)

/-- The bytes before the check, where the check passes. -/
def checked (frame : List Byte) : Option (List Byte) :=
  let body := frame.take (frame.length - 2)
  if 2 ≤ frame.length ∧ frame.drop (frame.length - 2) = wordBytes (frameCheck body) then some body
  else none

/-! ### The depot line (section 11.1, R184) -/

/-- A STANDING payload. -/
def standingPayload (f : StandingWire) : List Byte :=
  byteField f.mode ++ byteField f.flags ++ byteField f.cls ++ wordField f.offer ++
    wordField f.share ++ wordField f.actual ++ wordField f.energy ++ wordField f.served ++
    signedField f.temperature

/-- A DISPATCH payload. -/
def dispatchPayload (f : DispatchWire) : List Byte :=
  wordField f.callId ++ byteField f.revision ++ byteField f.kind ++ byteField f.origin ++
    byteField f.carried ++ wordField f.target ++ wordField f.ramp ++ wordField f.duration ++
    wordField f.countdown

/-- A CURB payload. -/
def curbPayload (f : CurbWire) : List Byte :=
  byteField f.level ++ wordField f.hold ++ signedField f.temperature

/-- A depot-line frame: kind, stall and sequence, the payload, the check. -/
def lineFrame (kind stall seq : Nat) (payload : List Byte) : List Byte :=
  withCheck (byteField kind ++ byteField stall ++ byteField seq ++ payload)

/-- The frame that a received depot-line command was carried by; none for the other commands. -/
def lineBytes : Instr → Option (List Byte)
  | .standing stall seq f => some (lineFrame 1 stall seq (standingPayload f))
  | .dispatch stall seq f => some (lineFrame 2 stall seq (dispatchPayload f))
  | .curb stall seq f => some (lineFrame 3 stall seq (curbPayload f))
  | .leave stall seq reason => some (lineFrame 4 stall seq (byteField reason))
  | _ => none

/-- The STANDING that 15 payload bytes carry. -/
def standingOf : List Byte → Option StandingWire
  | [m, fl, c, o1, o0, s1, s0, a1, a0, e1, e0, v1, v0, t1, t0] =>
    some ⟨m.toNat, fl.toNat, c.toNat, wordOf o1 o0, wordOf s1 s0, wordOf a1 a0, wordOf e1 e0,
      wordOf v1 v0, signedOf t1 t0⟩
  | _ => none

/-- The DISPATCH that 14 payload bytes carry. -/
def dispatchOf : List Byte → Option DispatchWire
  | [i1, i0, r, k, o, c, t1, t0, p1, p0, d1, d0, n1, n0] =>
    some ⟨wordOf i1 i0, r.toNat, k.toNat, o.toNat, c.toNat, wordOf t1 t0, wordOf p1 p0, wordOf d1 d0,
      wordOf n1 n0⟩
  | _ => none

/-- The CURB that 5 payload bytes carry. -/
def curbOf : List Byte → Option CurbWire
  | [l, h1, h0, t1, t0] => some ⟨l.toNat, wordOf h1 h0, signedOf t1 t0⟩
  | _ => none

/-- The command that a checked frame of another stall is; none for a bad one (R184). -/
def lineContent : List Byte → Option Instr
  | kind :: stall :: seq :: payload =>
    match kind.toNat with
    | 1 => (standingOf payload).map (Instr.standing stall.toNat seq.toNat)
    | 2 => (dispatchOf payload).map (Instr.dispatch stall.toNat seq.toNat)
    | 3 => (curbOf payload).map (Instr.curb stall.toNat seq.toNat)
    | 4 =>
      match payload with
      | [reason] => some (.leave stall.toNat seq.toNat reason.toNat)
      | _ => none
    | _ => none
  | _ => none

/-- A frame that carries the own stall is a duplicate stall, whatever its kind (R34). -/
def meetStall (own : Nat) : Instr → Instr
  | .standing stall seq f => if stall = own then .duplicateStall .standing else .standing stall seq f
  | .dispatch stall seq f => if stall = own then .duplicateStall .dispatch else .dispatch stall seq f
  | .curb stall seq f => if stall = own then .duplicateStall .curb else .curb stall seq f
  | .leave stall seq r => if stall = own then .duplicateStall .leave else .leave stall seq r
  | i => i

/-- The command that a frame heard on the depot line is, for a post of the given stall (R32, R34, R184). -/
def lineCommand (own : Nat) (frame : List Byte) : Instr :=
  match (checked frame).bind lineContent with
  | some i => meetStall own i
  | none => .badFrame

/-! ### The pilot link (section 11.2, R185) -/

/-- The frame of a reply of the bus: request number, code, fields, check; none for the other commands. -/
def replyBytes : Instr → Option (List Byte)
  | .item number k v =>
    some (withCheck (byteField number ++ byteField 0x20 ++ byteField k ++ signedField v))
  | .notReady number k => some (withCheck (byteField number ++ byteField 0x21 ++ byteField k))
  | .unsupported number k => some (withCheck (byteField number ++ byteField 0x22 ++ byteField k))
  | .tuned number st level =>
    some (withCheck (byteField number ++ byteField 0x23 ++ byteField st ++ byteField level))
  | .engaged number => some (withCheck (byteField number ++ byteField 0x24))
  | .declined number => some (withCheck (byteField number ++ byteField 0x25))
  | .released number => some (withCheck (byteField number ++ byteField 0x26))
  | .polled number flags ceiling t =>
    some (withCheck (byteField number ++ byteField 0x27 ++ byteField flags ++ byteField ceiling ++
      signedField t))
  | _ => none

/-- The reply that a checked frame is, by its code and the length of that code (R185). -/
def replyContent : List Byte → Option Instr
  | number :: code :: fields =>
    match code.toNat, fields with
    | 0x20, [k, v1, v0] => some (.item number.toNat k.toNat (signedOf v1 v0))
    | 0x21, [k] => some (.notReady number.toNat k.toNat)
    | 0x22, [k] => some (.unsupported number.toNat k.toNat)
    | 0x23, [st, level] => some (.tuned number.toNat st.toNat level.toNat)
    | 0x24, [] => some (.engaged number.toNat)
    | 0x25, [] => some (.declined number.toNat)
    | 0x26, [] => some (.released number.toNat)
    | 0x27, [flags, c, t1, t0] =>
      some (.polled number.toNat flags.toNat c.toNat (signedOf t1 t0))
    | _, _ => none
  | _ => none

/-- The command that a frame from the bus is; one that is not good is disregarded (R139, R185). -/
def pilotCommand (frame : List Byte) : Instr :=
  match (checked frame).bind replyContent with
  | some i => i
  | none => .pilotFrameDisregarded

/-! ### The supervisor port (section 11.3, R186) -/

/-- The arguments of a CALL. -/
def callArgsOf : List Byte → Option CallArgs
  | [i1, i0, r, k, t1, t0, d1, d0, n1, n0, p1, p0] =>
    some ⟨wordOf i1 i0, r.toNat, k.toNat, wordOf t1 t0, wordOf d1 d0, wordOf n1 n0, wordOf p1 p0⟩
  | _ => none

/-- The command of a code with its arguments (section 11.3); none where the shape is wrong. -/
def supervisorContent (code : Nat) (args : List Byte) : Option Instr :=
  match code, args with
  | 1, [k] => some (.select k.toNat)
  | 2, [a, b, c, d] => some (.value (a ++ b ++ c ++ d : BitVec 32).toInt)
  | 3, [] => some .join
  | 4, as => (callArgsOf as).map Instr.call
  | 5, [] => some .park
  | 6, [] => some .wake
  | 7, [] => some .restart
  | 8, _ => some .status
  | 9, [r, i] => some (.point r.toNat i.toNat)
  | 10, [] => some .read
  | _, _ => none

/-- The command of an SPI exchange: code, length and as many argument bytes (section 11.3). A wrong shape is an
UNKNOWN_COMMAND (R186). Fewer argument bytes than the length byte gives, and more, are no command: section 11.3 does
not say what becomes of either (DESIGN CHOICE, log 37). -/
def supervisorCommand : List Byte → Option Instr
  | code :: length :: args =>
    if args.length = length.toNat then
      some ((supervisorContent code.toNat args).getD (.unknownCommand code.toNat length.toNat))
    else none
  | _ => none

end Sys2Proof
end

