-- ==== Sys2Proof/Config.lean ====
section
/-!
DEFINITION. What is fixed for one part: the configuration keys with their types (section 10.2), and the
free values of the model: the random intervals, which the spec gives only by their range.
-/

namespace Sys2Proof

/-- FREE VALUE (log 8): the n-th random draw of the part. The spec gives each random interval by its range
alone ("each use draws a fresh value", 00_scope.md); nothing can be proved of what is drawn. -/
opaque Config.randomDraw : Nat → Nat

/-- The eight indicator signals, coded 0 to 7 in this order (R183, section 11.3). -/
inductive IndSignal where
  | serving | exporting | isolated | callActive | curbInForce | vehicleReady | lockout | off
  deriving DecidableEq, Repr

/-- TUNE_START, coded 0 and 1 (section 11.3). -/
inductive TuneStart where
  | default | top
  deriving DecidableEq, Repr

/-- The configuration keys in the order of section 10.2; SELECT codes them 1 to 24. -/
inductive ConfigKey where
  | posts | xfmrRating | derateSlope | derateRef | derateFloor | tempFallback | sensorFitted
  | curbTemp | curbLevel | curbHold | convRating | allowCeil | allowFloor | tuneStart
  | reserveMargin | routeDefault | departGuard | classBias | riseStep | precharge | energyNotice
  | indA | indB | eventMask
  deriving DecidableEq, Repr

/-- The configuration set (R168): one value for each key, in the units of section 10.2. -/
structure Configuration where
  posts : Nat
  xfmrRating : Nat
  derateSlope : Nat
  derateRef : Nat
  derateFloor : Nat
  tempFallback : Nat
  sensorFitted : Bool
  curbTemp : Nat
  curbLevel : Nat
  curbHold : Nat
  convRating : Nat
  allowCeil : Nat
  allowFloor : Nat
  tuneStart : TuneStart
  reserveMargin : Nat
  routeDefault : Nat
  departGuard : Nat
  classBias : Nat
  riseStep : Nat
  precharge : Nat
  energyNotice : Nat
  indA : IndSignal
  indB : IndSignal
  eventMask : BitVec 31
  deriving DecidableEq, Repr

/-- Every key at its default (section 10.2). -/
def Configuration.default : Configuration where
  posts := 12
  xfmrRating := 5000
  derateSlope := 8
  derateRef := 30
  derateFloor := 50
  tempFallback := 40
  sensorFitted := false
  curbTemp := 110
  curbLevel := 60
  curbHold := 120
  convRating := 600
  allowCeil := 60
  allowFloor := 3
  tuneStart := .default
  reserveMargin := 50
  routeDefault := 800
  departGuard := 90
  classBias := 0
  riseStep := 5
  precharge := 5
  energyNotice := 100
  indA := .serving
  indB := .isolated
  eventMask := 0x7FFFFFFF#31

end Sys2Proof
end

