-- ==== Sys2Proof/Machine/State.lean ====
section
/-!
DEFINITION. The state of the part, block by block, as plain data, and its value after hardware reset.
Every timer is held as the moment, in ms of `State.now`, at which it runs out, or `none` when it is
stopped (log 1). What the spec makes a function of other state is computed in Machine/Flags.lean and not
held here a second time (log 9).
-/

namespace Sys2Proof.Machine

/-- The moment at which a timer runs out, or none when it is stopped. -/
abbrev Timer := Option Nat

/-! ### Names of modes, states and kinds -/

/-- The post mode (R168), in the order of section 10.3. -/
inductive PostMode where
  | config | active | parking | hold | dormant | lockout
  deriving DecidableEq, Repr

/-- The session state (R136), in its table's order. -/
inductive SessionState where
  | absent | attached | identifying | tuning | ready | engaging | exporting | releasing
  | retryWait | faulted
  deriving DecidableEq, Repr

/-- The converter state (R118), in its table's order. -/
inductive ConverterState where
  | off | precharging | on | retryWait | convFault
  deriving DecidableEq, Repr

/-- The state of a call record (R40). -/
inductive CallState where
  | pending | active | ending | done | cancelled
  deriving DecidableEq, Repr

/-- The kind of a call record or DISPATCH (R40, section 11.1). -/
inductive CallKind where
  | new | revise | cancel | echo
  deriving DecidableEq, Repr

/-- The carried state of a DISPATCH (section 11.1). -/
inductive CarriedState where
  | absent | pending | active | ending
  deriving DecidableEq, Repr

/-- The result of the latest own frame whose sending has finished (R12). -/
inductive OwnOutcome where
  | noOutcome | echoed | notEchoed
  deriving DecidableEq, Repr

/-- The state of a peer entry, which follows from its age (R8). -/
inductive EntryState where
  | fresh | stale | lost
  deriving DecidableEq, Repr

/-- The ten offer gates in the order of R74. -/
inductive Gate where
  | mode | session | allowanceFloor | departureGuard | coldLock | energyMinimum | isolation
  | cutHold | converterDown | busStop
  deriving DecidableEq, Repr

/-- The term that sets the offer (R72). -/
inductive SettingTerm where
  | converter | allowance | energy | gated
  deriving DecidableEq, Repr

/-- What limited the own result (R81). -/
inductive ClipCause where
  | allowance | energy | converter | headroom | noCause
  deriving DecidableEq, Repr

/-- What started the latest computation (R81). -/
inductive Trigger where
  | step | curb | call | gate
  deriving DecidableEq, Repr

/-- Where the derating temperature came from (R81). -/
inductive TempSource where
  | ownSensor
  | peer (stall : Nat)
  | fallback
  deriving DecidableEq, Repr

/-- The sensor state (R105). -/
inductive SensorState where
  | noSample | valid | invalid
  deriving DecidableEq, Repr

/-- The side of the notice comparator (R76). -/
inductive NoticeSide where
  | noRecord | above | below
  deriving DecidableEq, Repr

/-- The codes of a TUNE (R139, section 11.2). -/
inductive TuneCode where
  | startDefault | startTop | up | down | hold
  deriving DecidableEq, Repr

/-- The status of a TUNED (section 11.2). -/
inductive TuneStatus where
  | moved | atTop | atBottom | unchanged
  deriving DecidableEq, Repr

/-- Where tuning stands (R152). -/
inductive TuningPhase where
  | idle | stepping | settling
  deriving DecidableEq, Repr

/-- Whether tuning followed an identify or a READY (R152). -/
inductive TuningKind where
  | initial | retune
  deriving DecidableEq, Repr

/-- The cause of the latest session failure (R136). -/
inductive LastFailure where
  | noFailure
  | identifyTimeout
  | identifyItem (item : Nat)
  | tuning
  | link
  deriving DecidableEq, Repr

/-- The 31 event kinds in the order of the introduction's event table; EVENT_MASK and STATUS number them
0 to 30 in this order (section 11.3). -/
inductive EventKind where
  | peerNew | peerLost | rosterMismatch | isolationOn | isolationOff | duplicateStall | frameDropped
  | callNew | callRevised | callState | callDiscarded | callWake
  | curbSent | curbReceived | cut | sensorFault
  | vehicleAttached | vehicleDetached | vehicleReady | tuneFailed | rangeClamp | linkLost
  | vehicleFault | stopRequest | ceilingLowered
  | convStartFail | convTrip | convFault
  | energyLow | energyRestored | meterSaturated
  deriving DecidableEq, Repr

/-! ### Line Port -/

/-- The announced fields of a STANDING (R1, R27), within their ranges. -/
structure Announced where
  mode : PostMode
  isolated : Bool
  rejoining : Bool
  cut : Bool
  cls : Nat
  offer : Nat
  share : Nat
  actual : Nat
  energy : Nat
  served : Option Nat
  temperature : Option Int
  deriving DecidableEq, Repr

/-- The content of a DISPATCH, within the ranges of R40 (R42, R54, R55). -/
structure CallFrame where
  callId : Nat
  revision : Nat
  kind : CallKind
  origin : Nat
  carried : CarriedState
  cancelledMark : Bool
  target : Nat
  ramp : Nat
  duration : Nat
  countdown : Nat
  deriving DecidableEq, Repr

/-- The content of a CURB, within the ranges of R109. -/
structure CurbFrame where
  level : Nat
  hold : Nat
  temperature : Int
  deriving DecidableEq, Repr

/-- A waiting own frame (R22): a STANDING waits as a request without content. -/
inductive QueuedFrame where
  | curb (c : CurbFrame)
  | dispatch (d : CallFrame)
  | leave
  | standing
  deriving DecidableEq, Repr

/-- The content of a frame in flight (R26, R27). -/
inductive FrameBody where
  | curb (c : CurbFrame)
  | dispatch (d : CallFrame)
  | leave
  | standing (a : Announced)
  deriving DecidableEq, Repr

/-- Where the frame in flight stands (section 2.3). -/
inductive AttemptPhase where
  /-- an attempt is under way -/
  | sending
  /-- after a collision, with the slots drawn: the backoff begins when the line next goes idle -/
  | awaitingIdle (slots : Nat)
  /-- the backoff runs until this moment -/
  | backoff (ends : Nat)
  /-- the backoff has ended with the line busy: the next attempt begins when the line goes idle -/
  | awaitingLine
  deriving DecidableEq, Repr

/-- The frame in flight (R26). -/
structure InFlight where
  seq : Nat
  body : FrameBody
  attempt : Nat
  phase : AttemptPhase
  deriving DecidableEq, Repr

/-- The line statistics (R38). -/
structure LineStats where
  sent : Nat
  received : Nat
  bad : Nat
  collisions : Nat
  attemptDrops : Nat
  queueDrops : Nat
  deriving DecidableEq, Repr

/-- The Line Port's state (chapter 2). -/
structure LinePort where
  stall : Nat
  seq : Nat
  queue : List QueuedFrame
  inFlight : Option InFlight
  echoFailures : Nat
  standingAt : Timer
  lineIdle : Bool
  stats : LineStats
  deriving DecidableEq, Repr

/-! ### Peer View -/

/-- One entry of the peer table (R1). -/
structure PeerEntry where
  stall : Nat
  lastSeq : Nat
  gap : Nat
  announced : Announced
  received : Nat
  lostMark : Bool
  deriving DecidableEq, Repr

/-- The Peer View's state (R1, R12). -/
structure PeerView where
  entries : List PeerEntry
  isolated : Bool
  causeSilence : Bool
  causeEcho : Bool
  rejoining : Bool
  rejoinAt : Timer
  lastHeardAt : Timer
  lastAccepted : Option Nat
  lastOutcome : OwnOutcome
  sweepAt : Timer
  deriving DecidableEq, Repr

/-! ### Call Unit -/

/-- The accumulators of a call record (R40, R56, R57). -/
structure Accumulators where
  delivered : Nat
  shortfall : Nat
  deliveredJ : Nat
  shortfallJ : Nat
  allowanceS : Nat
  energyS : Nat
  converterS : Nat
  headroomS : Nat
  deriving DecidableEq, Repr

/-- One call record (R40). -/
structure CallRecord where
  callId : Nat
  revision : Nat
  kind : CallKind
  origin : Nat
  state : CallState
  deferred : Bool
  target : Nat
  ramp : Nat
  duration : Nat
  countdown : Nat
  startTime : Option Nat
  remaining : Nat
  goal : Nat
  cancelledMark : Bool
  serving : Bool
  accumulators : Option Accumulators
  retention : Nat
  deriving DecidableEq, Repr

/-- The outstanding copies of one supervisor CALL (R54): the frame and the moments its copies fall due. -/
structure RepeatEntry where
  frame : CallFrame
  due : List Nat
  deriving DecidableEq, Repr

/-- The Call Unit's state (chapter 3). -/
structure CallUnit where
  records : List CallRecord
  tickAt : Timer
  echoAt : Timer
  repeats : List RepeatEntry
  deriving DecidableEq, Repr

/-! ### Energy Account and Meter -/

/-- The bus record copy (R62). -/
structure BusRecord where
  bus : Nat
  capacity : Nat
  soe : Nat
  route : Nat
  routeDefaulted : Bool
  departure : Option Nat
  packTemp : Int
  minTemp : Int
  minTempDefaulted : Bool
  deriving DecidableEq, Repr

/-- The gate conditions as the Apportioner was last notified of them (R73, R84); R12 makes ISOLATED and
REJOINING each a change of gate, and R103 a change of mode (log 28). -/
structure GateView where
  mode : PostMode
  session : Bool
  allowanceFloor : Bool
  departureGuard : Bool
  coldLock : Bool
  energyMinimum : Bool
  isolated : Bool
  rejoining : Bool
  cutHold : Bool
  converterDown : Bool
  busStop : Bool
  deriving DecidableEq, Repr

/-- The Energy Account's state (chapter 4). -/
structure EnergyAccount where
  record : Option BusRecord
  estimate : Nat
  reported : Nat
  residue : Nat
  departureLeft : Option Nat
  minuteAt : Timer
  side : NoticeSide
  gates : GateView
  deriving DecidableEq, Repr

/-- The Meter's state (R77, R78). -/
structure Meter where
  total : Nat
  residue : Nat
  sampleAt : Timer
  deriving DecidableEq, Repr

/-! ### Apportioner -/

/-- The values of the latest computation (R81) and the apportion step's timer (R83). -/
structure Apportioner where
  thetaMax : Int
  source : TempSource
  derating : Nat
  lTherm : Nat
  lEff : Nat
  census : Nat
  lView : Nat
  call : Option Nat
  goal : Nat
  fixedLoad : Nat
  available : Nat
  participants : Nat
  tier : Option Nat
  result : Nat
  clip : ClipCause
  trigger : Trigger
  stepAt : Timer
  deriving DecidableEq, Repr

/-! ### Curb Unit -/

/-- The curb in force (R105). -/
structure Curb where
  level : Nat
  expiry : Nat
  deriving DecidableEq, Repr

/-- The latest CURB received from another post (R105). -/
structure CurbHeard where
  stall : Nat
  frame : CurbFrame
  deriving DecidableEq, Repr

/-- The Curb Unit's state (R105). -/
structure CurbUnit where
  sensor : SensorState
  sample : Option Int
  lastOrigination : Option Nat
  curb : Option Curb
  cutHold : Bool
  lastHeard : Option CurbHeard
  sampleAt : Timer
  tsense : Int
  deriving DecidableEq, Repr

/-! ### Converter Control -/

/-- Converter Control's state (R118), with the levels of READY and FAULT (R135) and the start request as
last evaluated (R119). -/
structure Converter where
  state : ConverterState
  prechargeAt : Timer
  retryAt : Timer
  stableAt : Timer
  lingerAt : Timer
  failures : Nat
  stopPending : Bool
  setpoint : Nat
  measured : Nat
  startHeld : Bool
  slewAt : Timer
  ready : Bool
  fault : Bool
  deriving DecidableEq, Repr

/-! ### Vehicle Link -/

/-- A request on the pilot link with its argument (R139). -/
inductive Request where
  | release
  | engage
  | tune (code : TuneCode)
  | identifyQuery (item : Nat)
  | refreshQuery (item : Nat)
  | poll
  deriving DecidableEq, Repr

/-- The due requests, at most one of each kind (R136). -/
structure DueRequests where
  release : Bool
  engage : Bool
  tune : Option TuneCode
  identify : Bool
  refresh : Option Nat
  poll : Bool
  deriving DecidableEq, Repr

/-- The request in flight (R136). The reply timer is stopped while the request is being sent (R139). -/
structure RequestInFlight where
  request : Request
  number : Nat
  attempt : Nat
  replyAt : Timer
  deriving DecidableEq, Repr

/-- The Vehicle Link's state (R136, R152). `items` holds the items read at this identify, `none` for one
answered UNSUPPORTED; the identify position is their number (R142). -/
structure VehicleLink where
  session : SessionState
  plug : Bool
  wakeAt : Timer
  inFlight : Option RequestInFlight
  counter : Nat
  due : DueRequests
  items : List (Option Int)
  identifyAt : Timer
  requeryAt : Timer
  retryAt : Timer
  failures : Nat
  lastFailure : LastFailure
  releaseOwed : Bool
  pollAt : Timer
  refreshAt : Timer
  allowance : Nat
  desired : Nat
  phase : TuningPhase
  kind : TuningKind
  code : Option TuneCode
  busLevel : Option Nat
  busStatus : Option TuneStatus
  tuningAt : Timer
  stepAt : Timer
  settleAt : Timer
  holdAnswered : Bool
  retuneAt : Timer
  retuneDue : Bool
  engageHoldAt : Timer
  shareZeroAt : Timer
  shareZeroOut : Bool
  stopLatch : Bool
  lastCeiling : Option Nat
  deriving DecidableEq, Repr

/-! ### Mode Control and Supervisor Port -/

/-- The occurrence count of each event kind, 0 for a kind that is absent (R168, R181). -/
abbrev EventSet := Vector Nat 31

/-- A restart that waits for its LEAVE (R168, R177). -/
structure Restarting where
  origin : PostMode
  duplicateHeld : Bool
  waitAt : Nat
  deriving DecidableEq, Repr

/-- The read pointer (R180): PEERS and CALLS hold the key of the last record returned, 0 below every key;
OWN and CONFIG hold a position. -/
inductive ReadPointer where
  | peers (key : Nat)
  | calls (key : Nat)
  | own (position : Nat)
  | config (position : Nat)
  deriving DecidableEq, Repr

/-- The result codes (section 11.3). -/
inductive ResultCode where
  | accepted | acceptedClamped | sequence | locked | notJoined | state | invalid | busy
  deriving DecidableEq, Repr

/-- The intake outcomes (R41), in the order of section 11.3. -/
inductive IntakeOutcome where
  | created | tombstone | revised | merged | ignored | discarded
  deriving DecidableEq, Repr

/-- What STATUS returns (R179). -/
structure StatusData where
  mode : PostMode
  isolated : Bool
  rejoining : Bool
  cut : Bool
  curbInForce : Bool
  restarting : Bool
  keyPending : Bool
  clampedPresent : Bool
  plug : Bool
  gate : Option Gate
  session : SessionState
  converter : ConverterState
  share : Nat
  setpoint : Nat
  events : EventSet
  deriving DecidableEq, Repr

/-- The returned data of a response (section 11.3). -/
inductive ResponseData where
  | empty
  | storedValue (v : Int)
  | failingItem (item : Nat)
  | intake (outcome : IntakeOutcome)
  | status (d : StatusData)
  | record (tag : Nat) (fields : List (Option Int))
  | endOfReport
  deriving DecidableEq, Repr

/-- A response: a result code and the returned data (chapter 10). -/
structure Response where
  result : ResultCode
  data : ResponseData
  deriving DecidableEq, Repr

/-- The Mode Control block's state (R168) and the response to the latest command. -/
structure Supervisor where
  mode : PostMode
  config : Configuration
  clamped : Vector Bool 24
  pendingKey : Option ConfigKey
  locked : Bool
  restarting : Option Restarting
  events : EventSet
  pointer : ReadPointer
  response : Option Response
  deriving DecidableEq, Repr

/-! ### The whole part -/

/-- The levels that the environment presents on the input pins at one millisecond (log 3): PLUG_DET, READY,
FAULT, the line level, TSENSE in °C, and the value on MEAS where MEAS_STB strobes. -/
structure InputLevels where
  plug : Bool
  ready : Bool
  fault : Bool
  lineIdle : Bool
  tsense : Int
  strobe : Option Nat
  deriving DecidableEq, Repr

/-- The state of the part. -/
structure State where
  now : Nat
  draws : Nat
  lp : LinePort
  pv : PeerView
  ct : CallUnit
  ea : EnergyAccount
  mt : Meter
  ap : Apportioner
  cu : CurbUnit
  cc : Converter
  vl : VehicleLink
  sp : Supervisor
  pending : List Instr
  inputs : List InputLevels
  deriving DecidableEq, Repr

/-- The reasons a machine of this interface can stop with a fault. No rule of the spec stops the part
(INVENTORY.md, "Faults"), so no meaning raises one. -/
inductive Fault where
  /-- Raised by no meaning: it stands for a stop that the spec does not give this part. Safe. -/
  | stopped
  deriving DecidableEq, Repr

/-- The reasons a command can be refused by the model. -/
inductive Refusal where
  /-- Raised by `exec` alone, for a command without a meaning yet; there is none. Safe. -/
  | notModelled (mnemonic : String)
  deriving DecidableEq, Repr

/-! ### After hardware reset -/

/-- The line statistics after hardware reset (R38). -/
def LineStats.zero : LineStats := ⟨0, 0, 0, 0, 0, 0⟩

/-- R37; the line level is DESIGN CHOICE (log 6). -/
def LinePort.reset (straps : Nat) : LinePort where
  stall := straps
  seq := 0
  queue := []
  inFlight := none
  echoFailures := 0
  standingAt := none
  lineIdle := true
  stats := .zero

/-- R18. -/
def PeerView.reset : PeerView where
  entries := []
  isolated := false
  causeSilence := false
  causeEcho := false
  rejoining := false
  rejoinAt := none
  lastHeardAt := none
  lastAccepted := none
  lastOutcome := .noOutcome
  sweepAt := none

/-- R59. -/
def CallUnit.reset : CallUnit where
  records := []
  tickAt := none
  echoAt := none
  repeats := []

/-- The gate conditions after hardware reset (R79): the mode is CONFIG, the session is ABSENT, the
allowance of 0 is below the default ALLOW_FLOOR, and e is 0. -/
def GateView.reset : GateView where
  mode := .config
  session := true
  allowanceFloor := true
  departureGuard := false
  coldLock := false
  energyMinimum := true
  isolated := false
  rejoining := false
  cutHold := false
  converterDown := false
  busStop := false

/-- R79. -/
def EnergyAccount.reset : EnergyAccount where
  record := none
  estimate := 0
  reported := 0
  residue := 0
  departureLeft := none
  minuteAt := none
  side := .noRecord
  gates := .reset

/-- R78. -/
def Meter.reset : Meter := ⟨0, 0, none⟩

/-- R102. -/
def Apportioner.reset : Apportioner where
  thetaMax := 0
  source := .fallback
  derating := 0
  lTherm := 0
  lEff := 0
  census := 1
  lView := 0
  call := none
  goal := 0
  fixedLoad := 0
  available := 0
  participants := 0
  tier := none
  result := 0
  clip := .noCause
  trigger := .step
  stepAt := none

/-- R115; the level of TSENSE is DESIGN CHOICE (log 6). -/
def CurbUnit.reset : CurbUnit where
  sensor := .noSample
  sample := none
  lastOrigination := none
  curb := none
  cutHold := false
  lastHeard := none
  sampleAt := none
  tsense := -41

/-- R132; the levels of READY and FAULT are DESIGN CHOICE (log 6). -/
def Converter.reset : Converter where
  state := .off
  prechargeAt := none
  retryAt := none
  stableAt := none
  lingerAt := none
  failures := 0
  stopPending := false
  setpoint := 0
  measured := 0
  startHeld := false
  slewAt := none
  ready := false
  fault := false

/-- No request is due. -/
def DueRequests.nothing : DueRequests := ⟨false, false, none, false, none, false⟩

/-- R149, R165; the plug level is DESIGN CHOICE (log 6), D and the tuning kind too (log 7), and so is the identify
position, which is the number of the items held: none, so 0 (log 36). -/
def VehicleLink.reset : VehicleLink where
  session := .absent
  plug := false
  wakeAt := none
  inFlight := none
  counter := 0
  due := .nothing
  items := []
  identifyAt := none
  requeryAt := none
  retryAt := none
  failures := 0
  lastFailure := .noFailure
  releaseOwed := false
  pollAt := none
  refreshAt := none
  allowance := 0
  desired := 60
  phase := .idle
  kind := .initial
  code := none
  busLevel := none
  busStatus := none
  tuningAt := none
  stepAt := none
  settleAt := none
  holdAnswered := false
  retuneAt := none
  retuneDue := false
  engageHoldAt := none
  shareZeroAt := none
  shareZeroOut := false
  stopLatch := false
  lastCeiling := none

/-- R168; that no response stands is DESIGN CHOICE (log 21). -/
def Supervisor.reset : Supervisor where
  mode := .config
  config := .default
  clamped := Vector.replicate 24 false
  pendingKey := none
  locked := false
  restarting := none
  events := Vector.replicate 31 0
  pointer := .peers 0
  response := none

/-- The part right after hardware reset with the given straps. -/
def State.resetWith (straps : Nat) : State where
  now := 0
  draws := 0
  lp := .reset straps
  pv := .reset
  ct := .reset
  ea := .reset
  mt := .reset
  ap := .reset
  cu := .reset
  cc := .reset
  vl := .reset
  sp := .reset
  pending := []
  inputs := []

/-- The part right after hardware reset (R168), strapped as stall 1 (DESIGN CHOICE, log 5). -/
def State.reset : State := State.resetWith 1

end Sys2Proof.Machine
end

