-- ==== Sys2Proof/Machine/Ops.lean ====
section
/-!
DEFINITION. The named operations over the state that every block's meaning is written with: replacing one
block, raising an event, letting time reach a moment, drawing a random interval, answering the supervisor,
saturating counts, and the mode change with what follows from it at once.
-/

namespace Sys2Proof.Machine

/-! ### Numbers -/

/-- `n` held within `lo` to `hi` (the nearest limit). -/
def clampNat (lo hi n : Nat) : Nat := if n < lo then lo else if hi < n then hi else n

/-- `n` held within `lo` to `hi` (the nearest limit). -/
def clampInt (lo hi n : Int) : Int := if n < lo then lo else if hi < n then hi else n

/-- One more, saturating at `limit` (00_scope.md: a count that saturates stays at its stated maximum). -/
def satSucc (limit n : Nat) : Nat := if n < limit then n + 1 else limit

/-- The quotient rounded up. -/
def ceilDiv (n d : Nat) : Nat := (n + (d - 1)) / d

/-! ### Replacing one block -/

def State.setLp (s : State) (x : LinePort) : State := { s with lp := x }
def State.setPv (s : State) (x : PeerView) : State := { s with pv := x }
def State.setCt (s : State) (x : CallUnit) : State := { s with ct := x }
def State.setEa (s : State) (x : EnergyAccount) : State := { s with ea := x }
def State.setMt (s : State) (x : Meter) : State := { s with mt := x }
def State.setAp (s : State) (x : Apportioner) : State := { s with ap := x }
def State.setCu (s : State) (x : CurbUnit) : State := { s with cu := x }
def State.setCc (s : State) (x : Converter) : State := { s with cc := x }
def State.setVl (s : State) (x : VehicleLink) : State := { s with vl := x }
def State.setSp (s : State) (x : Supervisor) : State := { s with sp := x }
def State.setNow (s : State) (x : Nat) : State := { s with now := x }
def State.setDraws (s : State) (x : Nat) : State := { s with draws := x }
def State.setPending (s : State) (x : List Instr) : State := { s with pending := x }
def State.setInputs (s : State) (x : List InputLevels) : State := { s with inputs := x }

/-! ### Events, responses, time and random draws -/

/-- The number of an event kind, 0 to 30 (section 11.3). -/
def EventKind.code : EventKind → Fin 31
  | .peerNew => 0
  | .peerLost => 1
  | .rosterMismatch => 2
  | .isolationOn => 3
  | .isolationOff => 4
  | .duplicateStall => 5
  | .frameDropped => 6
  | .callNew => 7
  | .callRevised => 8
  | .callState => 9
  | .callDiscarded => 10
  | .callWake => 11
  | .curbSent => 12
  | .curbReceived => 13
  | .cut => 14
  | .sensorFault => 15
  | .vehicleAttached => 16
  | .vehicleDetached => 17
  | .vehicleReady => 18
  | .tuneFailed => 19
  | .rangeClamp => 20
  | .linkLost => 21
  | .vehicleFault => 22
  | .stopRequest => 23
  | .ceilingLowered => 24
  | .convStartFail => 25
  | .convTrip => 26
  | .convFault => 27
  | .energyLow => 28
  | .energyRestored => 29
  | .meterSaturated => 30

/-- The occurrence count of a kind; 0 when it is absent from the set. -/
def EventSet.count (e : EventSet) (k : EventKind) : Nat := e[k.code]

/-- Raising a kind (R181): an absent kind enters with a count of 1, a present one counts on to 255. -/
def EventSet.raise (e : EventSet) (k : EventKind) : EventSet :=
  e.set k.code (satSucc 255 (e.count k))

/-- Raise an event kind (R181). -/
def State.raise (s : State) (k : EventKind) : State :=
  s.setSp { s.sp with events := s.sp.events.raise k }

/-- Raise a kind `n` times (R181: two raisings of one kind in one instant add 2). -/
def State.raiseTimes (s : State) (k : EventKind) : Nat → State
  | 0 => s
  | n + 1 => (s.raiseTimes k n).raise k

/-- Raise a kind when a condition holds. -/
def State.raiseIf (s : State) (p : Bool) (k : EventKind) : State := if p then s.raise k else s

/-- Let time reach the moment `t`, if it has not yet (log 1). -/
def State.reach (s : State) (t : Nat) : State := s.setNow (max s.now t)

/-- The value in `lo` to `lo + span` that the next random draw gives (log 8). -/
def State.drawn (s : State) (lo span : Nat) : Nat := lo + Config.randomDraw s.draws % (span + 1)

/-- Count one random draw. -/
def State.countDraw (s : State) : State := s.setDraws (s.draws + 1)

/-- Answer the supervisor (chapter 10). -/
def State.respond (s : State) (r : ResultCode) (d : ResponseData) : State :=
  s.setSp { s.sp with response := some ⟨r, d⟩ }

/-! ### The post mode -/

/-- The modes in which the poll timer has its slow period (R147). -/
def PostMode.slowPoll : PostMode → Bool
  | .hold => true
  | .lockout => true
  | _ => false

/-- The poll period of a mode (R147). -/
def PostMode.pollPeriod (m : PostMode) : Nat := if m.slowPoll then 5000 else 500

/-- Change the post mode (R168); a change into or out of HOLD or LOCKOUT restarts a running poll timer at
the new period at once (R147). -/
def State.setMode (s : State) (m : PostMode) : State :=
  let restart := (s.sp.mode != m) && (s.sp.mode.slowPoll || m.slowPoll) && s.vl.pollAt.isSome
  let s := if restart then s.setVl { s.vl with pollAt := some (s.now + m.pollPeriod) } else s
  s.setSp { s.sp with mode := m }

end Sys2Proof.Machine
end

