-- ==== Sys2Proof/Machine/Operands.lean ====
section
/-!
DEFINITION. Every operand form: how a received field is brought into its range before a rule meets it
(R184 for the depot line, R185 for the pilot link, R41 and R169 for the supervisor), and the codes of the
enumerated values (chapter 11).
-/

namespace Sys2Proof

open Machine

/-! ### Depot line (R184) -/

/-- The announced mode of a STANDING; a code above 3 is delivered as DORMANT. -/
def modeOfCode : Nat → PostMode
  | 0 => .active
  | 1 => .parking
  | 2 => .hold
  | _ => .dormant

/-- A STANDING payload as the Peer View meets it. -/
def StandingWire.corrected (f : StandingWire) : Announced where
  mode := modeOfCode f.mode
  isolated := f.flags.testBit 0
  rejoining := f.flags.testBit 1
  cut := f.flags.testBit 2
  cls := min 3 f.cls
  offer := min 600 f.offer
  share := min 600 f.share
  actual := min 600 f.actual
  energy := min 6000 f.energy
  served := if f.served = 0 then none else some f.served
  temperature :=
    if f.flags.testBit 3 = true ∧ -40 ≤ f.temperature ∧ f.temperature ≤ 150 then
      some f.temperature
    else none

/-- The kind of a DISPATCH; any other code names none. -/
def callKindOfCode : Nat → Option CallKind
  | 1 => some .new
  | 2 => some .revise
  | 3 => some .cancel
  | 4 => some .echo
  | _ => none

/-- The carried state in bits 0 and 1. -/
def carriedOfCode (n : Nat) : CarriedState :=
  match n % 4 with
  | 0 => .absent
  | 1 => .pending
  | 2 => .active
  | _ => .ending

/-- The most that a carried countdown may be (R42, R184). -/
def countdownLimit (kind : CallKind) (carried : CarriedState) : Nat :=
  match kind, carried with
  | .echo, .active => 14400
  | _, _ => 3600

/-- A DISPATCH payload as the Call Unit meets it, or none when the Call Unit discards it: call id 0 (R42),
an unknown kind, or an ECHO without a carried state (R184). -/
def DispatchWire.corrected (f : DispatchWire) : Option CallFrame :=
  match callKindOfCode f.kind with
  | none => none
  | some kind =>
    let carried := if kind = .echo then carriedOfCode f.carried else .absent
    if f.callId = 0 ∨ (kind = .echo ∧ carried = .absent) then none
    else some {
      callId := f.callId
      revision := f.revision
      kind := kind
      origin := clampNat 1 48 f.origin
      carried := carried
      cancelledMark := f.carried.testBit 7 && carried == .ending
      target := min 30000 f.target
      ramp := clampNat 1 1000 f.ramp
      duration := clampNat 60 14400 f.duration
      countdown := min (countdownLimit kind carried) f.countdown }

/-- A CURB payload as the Curb Unit meets it. -/
def CurbWire.corrected (f : CurbWire) : CurbFrame where
  level := min 100 f.level
  hold := clampNat 10 600 f.hold
  temperature := clampInt (-40) 150 f.temperature

/-! ### Pilot link (R185) -/

/-- The range of each item of the bus record (R62); item 7 has none and arrives as received. -/
def itemRange : Nat → Option (Int × Int)
  | 0 => some (1, 9999)
  | 1 => some (100, 6000)
  | 2 => some (0, 6000)
  | 3 => some (0, 6000)
  | 4 => some (0, 1440)
  | 5 => some (-40, 100)
  | 6 => some (-40, 40)
  | _ => none

/-- An item's value as its owner meets it. -/
def itemCorrected (item : Nat) (v : Int) : Int :=
  match itemRange item with
  | some (lo, hi) => clampInt lo hi v
  | none => v

/-- The status of a TUNED; a code above 3 is delivered as UNCHANGED. -/
def tuneStatusOfCode : Nat → TuneStatus
  | 0 => .moved
  | 1 => .atTop
  | 2 => .atBottom
  | _ => .unchanged

/-- A level as delivered: at most 63. -/
def levelCorrected (n : Nat) : Nat := min 63 n

/-- A POLLED pack temperature as delivered. -/
def packTempCorrected (t : Int) : Int := clampInt (-40) 100 t

/-! ### Supervisor port (R41, R169, R186) -/

/-- The kind of a CALL; any other code is refused (R186). -/
def supervisorKindOfCode : Nat → Option CallKind
  | 1 => some .new
  | 2 => some .revise
  | 3 => some .cancel
  | _ => none

/-- A CALL's fields after clamping (R41), with the own stall as origin and the start delay as countdown. -/
def CallArgs.corrected (a : CallArgs) (kind : CallKind) (stall : Nat) : CallFrame where
  callId := a.callId
  revision := a.revision
  kind := kind
  origin := stall
  carried := .absent
  cancelledMark := false
  target := min 30000 a.target
  ramp := clampNat 1 1000 a.ramp
  duration := clampNat 60 14400 a.duration
  countdown := min 3600 a.delay

/-- A field of the CALL needed clamping (R41). -/
def CallArgs.outOfRange (a : CallArgs) : Bool :=
  decide (30000 < a.target ∨ 3600 < a.delay ∨ a.duration < 60 ∨ 14400 < a.duration ∨
    a.ramp < 1 ∨ 1000 < a.ramp)

/-- The key that a SELECT code names: 1 to 24 in the order of section 10.2. -/
def configKeyOfCode : Nat → Option ConfigKey
  | 1 => some .posts
  | 2 => some .xfmrRating
  | 3 => some .derateSlope
  | 4 => some .derateRef
  | 5 => some .derateFloor
  | 6 => some .tempFallback
  | 7 => some .sensorFitted
  | 8 => some .curbTemp
  | 9 => some .curbLevel
  | 10 => some .curbHold
  | 11 => some .convRating
  | 12 => some .allowCeil
  | 13 => some .allowFloor
  | 14 => some .tuneStart
  | 15 => some .reserveMargin
  | 16 => some .routeDefault
  | 17 => some .departGuard
  | 18 => some .classBias
  | 19 => some .riseStep
  | 20 => some .precharge
  | 21 => some .energyNotice
  | 22 => some .indA
  | 23 => some .indB
  | 24 => some .eventMask
  | _ => none

/-- The position of a key in section 10.2, from 0. -/
def ConfigKey.index : ConfigKey → Fin 24
  | .posts => 0
  | .xfmrRating => 1
  | .derateSlope => 2
  | .derateRef => 3
  | .derateFloor => 4
  | .tempFallback => 5
  | .sensorFitted => 6
  | .curbTemp => 7
  | .curbLevel => 8
  | .curbHold => 9
  | .convRating => 10
  | .allowCeil => 11
  | .allowFloor => 12
  | .tuneStart => 13
  | .reserveMargin => 14
  | .routeDefault => 15
  | .departGuard => 16
  | .classBias => 17
  | .riseStep => 18
  | .precharge => 19
  | .energyNotice => 20
  | .indA => 21
  | .indB => 22
  | .eventMask => 23

/-- The range of each key (section 10.2); the codes of an enumerated key; every 31-bit set for EVENT_MASK. -/
def ConfigKey.range : ConfigKey → Int × Int
  | .posts => (2, 48)
  | .xfmrRating => (100, 30000)
  | .derateSlope => (0, 50)
  | .derateRef => (0, 80)
  | .derateFloor => (20, 100)
  | .tempFallback => (0, 80)
  | .sensorFitted => (0, 1)
  | .curbTemp => (60, 150)
  | .curbLevel => (0, 100)
  | .curbHold => (10, 600)
  | .convRating => (50, 600)
  | .allowCeil => (1, 63)
  | .allowFloor => (0, 20)
  | .tuneStart => (0, 1)
  | .reserveMargin => (0, 500)
  | .routeDefault => (50, 3000)
  | .departGuard => (30, 240)
  | .classBias => (0, 3)
  | .riseStep => (1, 50)
  | .precharge => (1, 20)
  | .energyNotice => (0, 1000)
  | .indA => (0, 7)
  | .indB => (0, 7)
  | .eventMask => (0, 2147483647)

/-- The value lies within the key's range, so that it is stored as it is (R169). -/
def ConfigKey.accepts (k : ConfigKey) (v : Int) : Bool :=
  decide (k.range.1 ≤ v ∧ v ≤ k.range.2)

/-- The value that a VALUE stores (R169): the nearest limit, or for EVENT_MASK the set without the codes
that name no kind, which is bit 31 of the 4-byte value (R186). -/
def ConfigKey.stored (k : ConfigKey) (v : Int) : Int :=
  match k with
  | .eventMask => v % 2147483648
  | k => clampInt k.range.1 k.range.2 v

/-- The indicator signal of a code (section 11.3). -/
def indSignalOfCode : Nat → IndSignal
  | 0 => .serving
  | 1 => .exporting
  | 2 => .isolated
  | 3 => .callActive
  | 4 => .curbInForce
  | 5 => .vehicleReady
  | 6 => .lockout
  | _ => .off

/-- The code of an indicator signal (section 11.3). -/
def IndSignal.code : IndSignal → Nat
  | .serving => 0
  | .exporting => 1
  | .isolated => 2
  | .callActive => 3
  | .curbInForce => 4
  | .vehicleReady => 5
  | .lockout => 6
  | .off => 7

/-- The code of TUNE_START (section 11.3). -/
def TuneStart.code : TuneStart → Nat
  | .default => 0
  | .top => 1

/-- The configuration with one key written with a stored value (R169). -/
def Configuration.write (c : Configuration) (k : ConfigKey) (v : Int) : Configuration :=
  match k with
  | .posts => { c with posts := v.toNat }
  | .xfmrRating => { c with xfmrRating := v.toNat }
  | .derateSlope => { c with derateSlope := v.toNat }
  | .derateRef => { c with derateRef := v.toNat }
  | .derateFloor => { c with derateFloor := v.toNat }
  | .tempFallback => { c with tempFallback := v.toNat }
  | .sensorFitted => { c with sensorFitted := v == 1 }
  | .curbTemp => { c with curbTemp := v.toNat }
  | .curbLevel => { c with curbLevel := v.toNat }
  | .curbHold => { c with curbHold := v.toNat }
  | .convRating => { c with convRating := v.toNat }
  | .allowCeil => { c with allowCeil := v.toNat }
  | .allowFloor => { c with allowFloor := v.toNat }
  | .tuneStart => { c with tuneStart := if v = 0 then .default else .top }
  | .reserveMargin => { c with reserveMargin := v.toNat }
  | .routeDefault => { c with routeDefault := v.toNat }
  | .departGuard => { c with departGuard := v.toNat }
  | .classBias => { c with classBias := v.toNat }
  | .riseStep => { c with riseStep := v.toNat }
  | .precharge => { c with precharge := v.toNat }
  | .energyNotice => { c with energyNotice := v.toNat }
  | .indA => { c with indA := indSignalOfCode v.toNat }
  | .indB => { c with indB := indSignalOfCode v.toNat }
  | .eventMask => { c with eventMask := BitVec.ofNat 31 v.toNat }

/-- The value of one key, as the CONFIG report gives it (R180). -/
def Configuration.read (c : Configuration) (k : ConfigKey) : Int :=
  match k with
  | .posts => c.posts
  | .xfmrRating => c.xfmrRating
  | .derateSlope => c.derateSlope
  | .derateRef => c.derateRef
  | .derateFloor => c.derateFloor
  | .tempFallback => c.tempFallback
  | .sensorFitted => if c.sensorFitted then 1 else 0
  | .curbTemp => c.curbTemp
  | .curbLevel => c.curbLevel
  | .curbHold => c.curbHold
  | .convRating => c.convRating
  | .allowCeil => c.allowCeil
  | .allowFloor => c.allowFloor
  | .tuneStart => c.tuneStart.code
  | .reserveMargin => c.reserveMargin
  | .routeDefault => c.routeDefault
  | .departGuard => c.departGuard
  | .classBias => c.classBias
  | .riseStep => c.riseStep
  | .precharge => c.precharge
  | .energyNotice => c.energyNotice
  | .indA => c.indA.code
  | .indB => c.indB.code
  | .eventMask => c.eventMask.toNat

end Sys2Proof
end

