-- ==== Sys2Proof/Machine/Flags.lean ====
section
/-!
DEFINITION. What the spec makes a function of the state at every moment: ages and census (R8, R11), the
call in force and the nearest call (R58), the Energy Account's values (R68 to R72), the offer gates (R74),
the share in force (R82), the start request (R119), the setpoint's target (R127), the output pins (R118,
R182, R183) and the other conditions that rules test.
-/

namespace Sys2Proof.Machine

/-! ### Peer View -/

/-- The state of an entry of the given age in ms (R8). -/
def entryStateOfAge (age : Nat) : EntryState :=
  if age < 3000 then .fresh else if age < 8000 then .stale else .lost

/-- The age of an entry at a moment. -/
def PeerEntry.age (e : PeerEntry) (now : Nat) : Nat := now - e.received

/-- The state of an entry at a moment (R8). -/
def PeerEntry.state (e : PeerEntry) (now : Nat) : EntryState := entryStateOfAge (e.age now)

/-- The entry is counted in the census (R11). -/
def PeerEntry.present (e : PeerEntry) (now : Nat) : Bool := e.state now != .lost

/-- The census c (R11): the own post and every entry that is not LOST. -/
def State.census (s : State) : Nat := 1 + s.pv.entries.countP (·.present s.now)

/-- A stall of the depot other than the range test fails on: 1 to N (R3). -/
def State.inRoster (s : State) (stall : Nat) : Bool :=
  decide (1 ≤ stall ∧ stall ≤ s.sp.config.posts)

/-! ### Line Port -/

/-- The Line Port has been started by JOIN (R37). -/
def State.joined (s : State) : Bool := s.sp.mode != .config

/-- An own attempt is on the line (R29). -/
def State.transmitting (s : State) : Bool :=
  match s.lp.inFlight with
  | some f => f.phase == .sending
  | none => false

/-- A frame heard now is a received frame (R32, R37). -/
def State.receives (s : State) : Bool := s.joined && !s.transmitting

/-- The Line Port takes frames for sending: from JOIN on in every mode but LOCKOUT (R25, R35, R37). -/
def State.transmitEnabled (s : State) : Bool := s.joined && s.sp.mode != .lockout

/-! ### Call Unit (R58) -/

/-- The record holds the active slot (R40). -/
def CallRecord.inForce (r : CallRecord) : Bool := r.state == .active || r.state == .ending

/-- The call in force: the record that is ACTIVE or ENDING. -/
def callInForce (rs : List CallRecord) : Option CallRecord := rs.find? (·.inForce)

/-- The call in force of the part. -/
def State.call (s : State) : Option CallRecord := callInForce s.ct.records

/-- The start countdown of a record as its readers take it: a deferred record counts as 0. -/
def CallRecord.lead (r : CallRecord) : Nat := if r.deferred then 0 else r.countdown

/-- The nearest PENDING record: least countdown, and of equal ones the lower id; the table is ascending by
id, so the first of the least. -/
def nearestPending : List CallRecord → Option CallRecord
  | [] => none
  | r :: rs =>
    match r.state with
    | .pending =>
      match nearestPending rs with
      | none => some r
      | some m => if r.lead ≤ m.lead then some r else some m
    | _ => nearestPending rs

/-! ### Energy Account -/

/-- The cold adder a in % (R68). -/
def coldAdder (packTemp : Int) : Nat :=
  if 10 ≤ packTemp then 0 else min 40 (2 * (10 - packTemp).toNat)

/-- The reserve floor of a route energy, a pack temperature and a margin (R68). -/
def reserveFloorOf (route : Nat) (packTemp : Int) (margin : Nat) : Nat :=
  ceilDiv (route * (100 + coldAdder packTemp)) 100 + margin

/-- The cold adder, 0 without a record (R63). -/
def State.adder (s : State) : Nat :=
  match s.ea.record with
  | none => 0
  | some r => coldAdder r.packTemp

/-- The reserve floor, 0 without a record (R63, R68). -/
def State.reserveFloor (s : State) : Nat :=
  match s.ea.record with
  | none => 0
  | some r => reserveFloorOf r.route r.packTemp s.sp.config.reserveMargin

/-- The exportable energy e (R69), 0 without a record (R63). -/
def State.energy (s : State) : Nat :=
  match s.ea.record with
  | none => 0
  | some _ => s.ea.estimate - s.reserveFloor

/-- The base class of an exportable energy against a capacity (R70). -/
def baseClass (e capacity : Nat) : Nat :=
  if capacity ≤ 2 * e then 0 else if capacity ≤ 4 * e then 1 else if capacity ≤ 10 * e then 2 else 3

/-- The class (R70), 3 without a record. -/
def State.cls (s : State) : Nat :=
  match s.ea.record with
  | none => 3
  | some r => min 3 (baseClass s.energy r.capacity + s.sp.config.classBias)

/-- The time base t (R71). -/
def State.timeBase (s : State) : Nat :=
  match s.call with
  | some r => if r.state = .active then max 60 r.remaining else 60
  | none =>
    match nearestPending s.ct.records with
    | some r => max 60 r.duration
    | none => 60

/-- The energy-limited power p_e (R72). -/
def State.energyPower (s : State) : Nat := 3600 * s.energy / s.timeBase

/-- The session is one that can export (R74, gate SESSION). -/
def SessionState.canOffer : SessionState → Bool
  | .ready => true
  | .exporting => true
  | _ => false

/-- Whether a gate holds (R74). -/
def State.gateHolds (s : State) : Gate → Bool
  | .mode => s.sp.mode != .active
  | .session => !s.vl.session.canOffer
  | .allowanceFloor => decide (s.vl.allowance < s.sp.config.allowFloor)
  | .departureGuard =>
    match s.ea.departureLeft with
    | none => false
    | some m => decide (m ≤ s.sp.config.departGuard)
  | .coldLock =>
    match s.ea.record with
    | none => false
    | some r => decide (r.packTemp < r.minTemp)
  | .energyMinimum => decide (s.energy < 5)
  | .isolation => s.pv.isolated || s.pv.rejoining
  | .cutHold => s.cu.cutHold
  | .converterDown => s.cc.state == .retryWait || s.cc.state == .convFault
  | .busStop => s.vl.stopLatch

/-- The gates in their order (R74). -/
def Gate.all : List Gate :=
  [.mode, .session, .allowanceFloor, .departureGuard, .coldLock, .energyMinimum, .isolation,
    .cutHold, .converterDown, .busStop]

/-- The gate in force: the first that holds, or none (R74). -/
def State.gateInForce (s : State) : Option Gate := Gate.all.find? s.gateHolds

/-- Some gate holds. -/
def State.gated (s : State) : Bool := Gate.all.any s.gateHolds

/-- Some gate other than CONVERTER_DOWN holds (R75). -/
def State.gatedForStart (s : State) : Bool :=
  Gate.all.any fun g => g != .converterDown && s.gateHolds g

/-- The least of the three terms of the offer (R72). -/
def State.offerLimit (s : State) : Nat :=
  min s.sp.config.convRating (min (10 * s.vl.allowance) s.energyPower)

/-- The offer (R72): the gates alone hold it at 0, in the wait of a restart too. A session that reaches READY there
lifts SESSION, and R79 and R103 then speak of an offer of 0 where the model's may rise (DESIGN CHOICE, log 38). -/
def State.offer (s : State) : Nat := if s.gated then 0 else s.offerLimit

/-- The setting term (R72). -/
def State.settingTerm (s : State) : SettingTerm :=
  if s.gated then .gated
  else if s.sp.config.convRating = s.offerLimit then .converter
  else if 10 * s.vl.allowance = s.offerLimit then .allowance
  else .energy

/-- The gate conditions as they stand (R73, R84). -/
def State.gateView (s : State) : GateView where
  mode := s.sp.mode
  session := s.gateHolds .session
  allowanceFloor := s.gateHolds .allowanceFloor
  departureGuard := s.gateHolds .departureGuard
  coldLock := s.gateHolds .coldLock
  energyMinimum := s.gateHolds .energyMinimum
  isolated := s.pv.isolated
  rejoining := s.pv.rejoining
  cutHold := s.cu.cutHold
  converterDown := s.gateHolds .converterDown
  busStop := s.gateHolds .busStop

/-! ### Share, converter and session -/

/-- The share in force (R82). -/
def State.share (s : State) : Nat := min s.ap.result s.offer

/-- ENABLE is high in PRECHARGING and ON (R118). -/
def ConverterState.enabled : ConverterState → Bool
  | .precharging => true
  | .on => true
  | _ => false

/-- Power may flow: the converter is ON and the session EXPORTING (R127). -/
def State.powerPath (s : State) : Bool := s.cc.state == .on && s.vl.session == .exporting

/-- The target of the setpoint (R127). -/
def State.target (s : State) : Nat := if s.powerPath then s.share else 0

/-- A call is in force, or one starts within the precharge lead (R119). -/
def State.callInView (s : State) : Bool :=
  s.call.isSome ||
    match nearestPending s.ct.records with
    | none => false
    | some r => decide (r.lead ≤ s.sp.config.precharge + 5)

/-- The start request holds (R119). -/
def State.startRequest (s : State) : Bool :=
  s.sp.mode == .active && s.vl.session.canOffer && !s.gatedForStart &&
    s.sp.restarting.isNone && s.callInView

/-- The sessions that hold a stop (R126). -/
def SessionState.holdsStop : SessionState → Bool
  | .engaging => true
  | .exporting => true
  | .releasing => true
  | _ => false

/-- The sessions that hold a park's completion (R172). -/
def SessionState.holdsPark : SessionState → Bool
  | .attached => true
  | .identifying => true
  | .tuning => true
  | .engaging => true
  | .exporting => true
  | .releasing => true
  | _ => false

/-- The polling states (R147): a TUNING entered from READY is one. -/
def VehicleLink.polling (v : VehicleLink) : Bool :=
  match v.session with
  | .ready => true
  | .engaging => true
  | .exporting => true
  | .releasing => true
  | .tuning => v.kind == .retune
  | _ => false

/-- The states in which the retune timer may run (R157). -/
def SessionState.retunable : SessionState → Bool
  | .ready => true
  | .engaging => true
  | .exporting => true
  | .releasing => true
  | _ => false

/-- The Vehicle Link runs: from JOIN on, but not in DORMANT (R149). -/
def State.linkRuns (s : State) : Bool := s.joined && s.sp.mode != .dormant

/-- An ENGAGE is in flight. -/
def VehicleLink.engageInFlight (v : VehicleLink) : Bool :=
  match v.inFlight with
  | some f => f.request == .engage
  | none => false

/-- The conditions of an ENGAGE (R158). A retune that has begun has left READY. -/
def State.engageWanted (s : State) : Bool :=
  s.vl.session == .ready && s.cc.state == .on && decide (0 < s.share) && !s.cc.stopPending &&
    s.vl.engageHoldAt.isNone

/-- A release is decided (R160). -/
def State.releaseWanted (s : State) : Bool :=
  s.vl.session == .exporting && s.cc.setpoint == 0 &&
    (s.vl.shareZeroOut || s.cc.stopPending || s.cc.state != .on || s.vl.stopLatch)

/-- A retune begins (R157). -/
def State.retuneOpen (s : State) : Bool :=
  s.vl.retuneDue && s.vl.session == .ready && !s.vl.due.engage && !s.vl.engageInFlight

/-- The held stop completes (R126). -/
def State.stopReady (s : State) : Bool :=
  s.cc.state == .on && s.cc.stopPending && s.cc.setpoint == 0 && !s.vl.session.holdsStop

/-- The park completes (R172, R177). -/
def State.parkReady (s : State) : Bool :=
  s.sp.mode == .parking && s.cc.setpoint == 0 && !s.cc.state.enabled &&
    !s.vl.session.holdsPark && s.sp.restarting.isNone

/-! ### Output pins -/

/-- ENABLE (R118). -/
def State.enablePin (s : State) : Bool := s.cc.state.enabled

/-- SETPT[9:0] (R118). -/
def State.setptPin (s : State) : Nat := s.cc.setpoint

/-- The interrupt is asserted, INT_N low (R182). -/
def State.interrupt (s : State) : Bool :=
  (List.finRange 31).any fun k => s.sp.config.eventMask.getLsbD k.val && decide (0 < s.sp.events[k])

/-- INT_N, active low (R182). -/
def State.intNPin (s : State) : Bool := !s.interrupt

/-- The level of an indicator signal (R183). -/
def State.signal (s : State) : IndSignal → Bool
  | .serving => decide (0 < s.offer)
  | .exporting => s.vl.session == .exporting
  | .isolated => s.pv.isolated
  | .callActive => s.call.isSome
  | .curbInForce => s.cu.curb.isSome
  | .vehicleReady => s.vl.session.retunable
  | .lockout => s.sp.mode == .lockout
  | .off => false

/-- IND_A (R183). -/
def State.indAPin (s : State) : Bool := s.signal s.sp.config.indA

/-- IND_B (R183). -/
def State.indBPin (s : State) : Bool := s.signal s.sp.config.indB

/-- PILOT is held at its wake level (R137). -/
def State.pilotWakePin (s : State) : Bool := s.vl.session == .attached

end Sys2Proof.Machine
end

