-- ==== Sys2Proof/Machine/Apportioner.lean ====
section
/-!
DEFINITION. The share computation (chapter 5): the nine stages R86 to R96 over whole numbers, and the
computation that replaces the recorded values and sets the serving flag (R57, R81, R85).
-/

namespace Sys2Proof.Machine

/-! ### Stages 1 to 4: headroom -/

/-- The greatest temperature of the FRESH entries that carry one, with the lowest stall that carries it;
the table is ascending by stall (R86). -/
def hottestPeer (now : Nat) : List PeerEntry → Option (Int × Nat)
  | [] => none
  | e :: es =>
    match (if e.state now = .fresh then e.announced.temperature else none), hottestPeer now es with
    | none, m => m
    | some t, none => some (t, e.stall)
    | some t, some (u, k) => if u ≤ t then some (t, e.stall) else some (u, k)

/-- The own temperature candidate: the sample, when a sensor is fitted (R86). -/
def State.ownCandidate (s : State) : Option Int :=
  if s.sp.config.sensorFitted then s.cu.sample else none

/-- Stage 1 (R86): θmax and its source. -/
def State.temperatureChoice (s : State) : Int × TempSource :=
  match s.ownCandidate, hottestPeer s.now s.pv.entries with
  | none, none => (s.sp.config.tempFallback, .fallback)
  | some t, none => (t, .ownSensor)
  | none, some (u, k) => (u, .peer k)
  | some t, some (u, k) => if u ≤ t then (t, .ownSensor) else (u, .peer k)

/-- The derating d in ‰ (R87). -/
def deratingOf (c : Configuration) (theta : Int) : Nat :=
  if (c.derateRef : Int) < theta then
    min (c.derateSlope * (theta - c.derateRef).toNat) (1000 - 10 * c.derateFloor)
  else 0

/-- Stage 2 (R87): the headroom after thermal derating. -/
def thermalHeadroom (rating d : Nat) : Nat := rating * (1000 - d) / 1000

/-- Stage 3 (R88): the headroom after the curb in force. -/
def curbedHeadroom (rating lTherm : Nat) : Option Curb → Nat
  | none => lTherm
  | some c => min lTherm (rating * c.level / 100)

/-- Stage 4 (R89): the headroom scaled by the census. -/
def viewHeadroom (lEff census posts : Nat) : Nat := lEff * census / posts

/-! ### Stages 5 to 7: goal, fixed load, participants -/

/-- One post that takes part in the split (R92). -/
structure Participant where
  stall : Nat
  offer : Nat
  cls : Nat
  energy : Nat
  deriving DecidableEq, Repr

/-- A FRESH entry with an offer above 0 that serves the call (R92). -/
def PeerEntry.participates (now callId : Nat) (e : PeerEntry) : Bool :=
  e.state now == .fresh && decide (0 < e.announced.offer) && e.announced.served == some callId

/-- What an entry adds to the fixed load (R91): the actual of a STALE entry and of a FRESH entry that is
not a participant; a LOST entry adds nothing. -/
def PeerEntry.fixedPart (now callId : Nat) (e : PeerEntry) : Nat :=
  match e.state now with
  | .lost => 0
  | .stale => e.announced.actual
  | .fresh => if e.participates now callId then 0 else e.announced.actual

/-- Stage 6 (R91): the fixed load F. -/
def fixedLoadOf (now callId : Nat) (es : List PeerEntry) : Nat :=
  (es.map (PeerEntry.fixedPart now callId)).sum

/-- The participant that a peer entry is. -/
def PeerEntry.participant (e : PeerEntry) : Participant :=
  ⟨e.stall, e.announced.offer, e.announced.cls, e.announced.energy⟩

/-- The own post as a participant. -/
def State.ownParticipant (s : State) : Participant := ⟨s.lp.stall, s.offer, s.cls, s.energy⟩

/-- Stage 7 (R92): the participants under a call. -/
def State.participants (s : State) (callId : Nat) : List Participant :=
  (if 0 < s.offer then [s.ownParticipant] else []) ++
    (s.pv.entries.filter (PeerEntry.participates s.now callId)).map PeerEntry.participant

/-! ### Stage 8: the split -/

/-- `a` ranks before `b`: exportable energy descending, then stall ascending (R94). -/
def Participant.ranksBefore (a b : Participant) : Bool :=
  decide (b.energy < a.energy ∨ (a.energy = b.energy ∧ a.stall ≤ b.stall))

/-- Place a member in a list kept in rank order. -/
def insertRanked (p : Participant) : List Participant → List Participant
  | [] => [p]
  | q :: qs => if p.ranksBefore q then p :: q :: qs else q :: insertRanked p qs

/-- The members in rank order (R94). -/
def rankOrder : List Participant → List Participant
  | [] => []
  | p :: ps => insertRanked p (rankOrder ps)

/-- The sum S of the offers of a tier (R93). -/
def offerSum (ps : List Participant) : Nat := (ps.map (·.offer)).sum

/-- One unit more to each member in turn until `n` units are given out (R94). -/
def giveUnits : Nat → List (Participant × Nat) → List (Participant × Nat)
  | 0, xs => xs
  | _ + 1, [] => []
  | n + 1, (p, k) :: xs => (p, k + 1) :: giveUnits n xs

/-- The shares of a tier whose offer sum exceeds the remainder (R94). -/
def splitTier (remainder : Nat) (ps : List Participant) : List (Participant × Nat) :=
  let floors := (rankOrder ps).map fun p => (p, remainder * p.offer / offerSum ps)
  giveUnits (remainder - (floors.map (·.2)).sum) floors

/-- The shares of a tier that meets a remainder (R93). -/
def tierShares (remainder : Nat) (ps : List Participant) : List (Participant × Nat) :=
  if offerSum ps ≤ remainder then ps.map fun p => (p, p.offer) else splitTier remainder ps

/-- The remainder a tier leaves (R93). -/
def tierLeaves (remainder : Nat) (ps : List Participant) : Nat := remainder - offerSum ps

/-- Fill the tiers named in order (R93). -/
def fillTiers (ps : List Participant) : Nat → List Nat → List (Participant × Nat)
  | _, [] => []
  | remainder, t :: ts =>
    let members := ps.filter (·.cls == t)
    tierShares remainder members ++ fillTiers ps (tierLeaves remainder members) ts

/-- Stage 8 (R93, R94): the shares of all participants of an available export. -/
def apportion (available : Nat) (ps : List Participant) : List (Participant × Nat) :=
  fillTiers ps available [0, 1, 2, 3]

/-- The share computed for a stall, 0 where it took no part. -/
def shareOf (stall : Nat) (shares : List (Participant × Nat)) : Nat :=
  match shares.find? (·.1.stall == stall) with
  | some (_, k) => k
  | none => 0

/-! ### Stage 9 and the computation -/

/-- The clip cause that a setting term gives (R96). -/
def SettingTerm.clip : SettingTerm → ClipCause
  | .converter => .converter
  | .allowance => .allowance
  | .energy => .energy
  | .gated => .noCause

/-- The clip cause of a result (R96). -/
def State.clipOf (s : State) (result : Nat) : ClipCause :=
  if s.offer = 0 then .noCause
  else if result = s.offer then s.settingTerm.clip
  else .headroom

/-- The values of one computation (R81, R85 to R96), all from the one state it reads. -/
def State.computation (s : State) (trigger : Trigger) : Apportioner :=
  let c := s.sp.config
  let theta := s.temperatureChoice.1
  let d := deratingOf c theta
  let lTherm := thermalHeadroom c.xfmrRating d
  let lEff := curbedHeadroom c.xfmrRating lTherm s.cu.curb
  let lView := viewHeadroom lEff s.census c.posts
  let headroom : Apportioner := {
    thetaMax := theta
    source := s.temperatureChoice.2
    derating := d
    lTherm := lTherm
    lEff := lEff
    census := s.census
    lView := lView
    call := none
    goal := 0
    fixedLoad := 0
    available := 0
    participants := 0
    tier := none
    result := 0
    clip := .noCause
    trigger := trigger
    stepAt := s.ap.stepAt }
  match s.call with
  | none => headroom
  | some r =>
    let g := min r.goal lView
    let f := fixedLoadOf s.now r.callId s.pv.entries
    let a := g - f
    let ps := s.participants r.callId
    let result := if 0 < s.offer then shareOf s.lp.stall (apportion a ps) else 0
    { headroom with
      call := some r.callId
      goal := g
      fixedLoad := f
      available := a
      participants := ps.length
      tier := if 0 < s.offer then some s.cls else none
      result := result
      clip := s.clipOf result }

/-- Set the serving flag of the record in force (R57). -/
def markServing (rs : List CallRecord) : List CallRecord :=
  rs.map fun r => if r.inForce then { r with serving := true } else r

/-- Compute: replace the recorded values together (R81), and set the serving flag of the call in force when
the own result is above 0 (R57, R96). -/
def State.compute (s : State) (trigger : Trigger) : State :=
  let ap := s.computation trigger
  let s := s.setAp ap
  if 0 < ap.result then s.setCt { s.ct with records := markServing s.ct.records } else s

end Sys2Proof.Machine
end

