-- ==== Sys2Proof/Machine/LineQueue.lean ====
section
/-!
DEFINITION. The Line Port's shared operations: the transmit queue (R22 to R24), taking a frame and filling a
STANDING (R26 to R28), and the beginning of an attempt (R28, R30).
-/

namespace Sys2Proof.Machine

/-! ### The transmit queue -/

/-- The rank of a frame class, CURB highest (R22). -/
def QueuedFrame.rank : QueuedFrame → Nat
  | .curb _ => 3
  | .dispatch _ => 2
  | .leave => 1
  | .standing => 0

/-- The waiting frame is a STANDING request. -/
def QueuedFrame.isStanding (f : QueuedFrame) : Bool := f.rank == 0

/-- Place a frame after every waiting frame of its own or a higher class (R23). -/
def placeFrame (f : QueuedFrame) : List QueuedFrame → List QueuedFrame
  | [] => [f]
  | g :: gs => if f.rank ≤ g.rank then g :: placeFrame f gs else f :: g :: gs

/-- The lowest class present; the queue is in class order, so that of its last frame (R23). -/
def lowestRank : List QueuedFrame → Nat
  | [] => 4
  | [g] => g.rank
  | _ :: gs => lowestRank gs

/-- The queue without the oldest frame of a class (R23). -/
def evictOldest (rank : Nat) : List QueuedFrame → List QueuedFrame
  | [] => []
  | g :: gs => if g.rank = rank then gs else g :: evictOldest rank gs

/-- The queue after a frame is handed in (R23). -/
def enqueued (f : QueuedFrame) (q : List QueuedFrame) : List QueuedFrame :=
  if q.length < 8 then placeFrame f q
  else if lowestRank q < f.rank then placeFrame f (evictOldest (lowestRank q) q)
  else q

/-- Handing a frame to a full queue evicts or discards one (R23). -/
def drops (q : List QueuedFrame) : Bool := decide (8 ≤ q.length)

/-- Enqueue a frame, whatever the mode (R23). -/
def State.enqueueNow (s : State) (f : QueuedFrame) : State :=
  let q := s.lp.queue
  let stats := s.lp.stats
  let s := s.setLp { s.lp with
    queue := enqueued f q
    stats := if drops q then { stats with queueDrops := satSucc 65535 stats.queueDrops } else stats }
  s.raiseIf (drops q) .frameDropped

/-- Hand a DISPATCH, CURB or LEAVE to the Line Port (R23); it is refused while the Line Port takes no
frames for sending (R35, R37). -/
def State.enqueue (s : State) (f : QueuedFrame) : State :=
  if s.transmitEnabled then s.enqueueNow f else s

/-- Enqueue a STANDING request (R24): a queued STANDING is replaced in place, which changes nothing that is
held. -/
def State.enqueueStanding (s : State) : State :=
  if s.transmitEnabled && !s.lp.queue.any (·.isStanding) then s.enqueueNow .standing else s

/-- Start the STANDING timer afresh, with a STANDING enqueued at once (R25). -/
def State.startStanding (s : State) : State :=
  let interval := s.drawn 1000 100
  let s := s.countDraw
  (s.setLp { s.lp with standingAt := some (s.now + interval) }).enqueueStanding

/-! ### Taking a frame -/

/-- The value fills of a STANDING (R27), read at the moment the frame is taken. -/
def State.fillStanding (s : State) : Announced where
  mode := s.sp.mode
  isolated := s.pv.isolated
  rejoining := s.pv.rejoining
  cut := s.cu.cutHold
  cls := min 3 s.cls
  offer := min 600 s.offer
  share := min 600 s.share
  actual := min 600 s.cc.measured
  energy := min 6000 s.energy
  served := s.call.map (·.callId)
  temperature := s.ownCandidate

/-- The content of a frame at its taking (R26, R27). -/
def State.bodyOf (s : State) : QueuedFrame → FrameBody
  | .curb c => .curb c
  | .dispatch d => .dispatch d
  | .leave => .leave
  | .standing => .standing s.fillStanding

/-- A STANDING may not leave the part with an offer above 0 (R28). -/
def State.mustNotOffer (s : State) : Bool :=
  s.pv.isolated || s.pv.rejoining || s.cu.cutHold || s.sp.mode != .active

/-- The content of a frame at the start of a later attempt (R28). -/
def State.bodyAtRetry (s : State) : FrameBody → FrameBody
  | .standing a => .standing (if s.mustNotOffer then { a with offer := 0 } else a)
  | b => b

/-- Take the head frame for sending, when no frame is in flight, one waits and the line is idle (R26). The
own frame is then on the line. -/
def State.takeFrame (s : State) : State :=
  match s.lp.inFlight, s.lp.queue with
  | none, f :: q =>
    if s.lp.lineIdle && s.transmitEnabled then
      s.setLp { s.lp with
        queue := q
        inFlight := some ⟨s.lp.seq, s.bodyOf f, 1, .sending⟩
        seq := (s.lp.seq + 1) % 256
        lineIdle := false }
    else s
  | _, _ => s

/-- Begin the next attempt of the frame in flight (R28, R30). -/
def State.beginAttempt (s : State) (f : InFlight) : State :=
  s.setLp { s.lp with
    inFlight := some { f with body := s.bodyAtRetry f.body, phase := .sending }
    lineIdle := false }

/-- The frame in flight, if any, leaves flight without an outcome (section 2.3). -/
def State.abandonFrame (s : State) : State := s.setLp { s.lp with inFlight := none }

/-- Set the level of the line as the receiver detects it (R26). -/
def State.setLine (s : State) (idle : Bool) : State := s.setLp { s.lp with lineIdle := idle }

end Sys2Proof.Machine
end

