-- ==== Sys2Proof/Machine/Transitions.lean ====
section
/-!
DEFINITION. The shared transitions of the Energy Account, Converter Control, the Vehicle Link and the Peer
View, which several commands and the at-once reactions use: taking and discarding the bus record, starting,
stopping and failing the converter, entering and leaving session states, setting and clearing isolation.
-/

namespace Sys2Proof.Machine

/-! ### Energy Account -/

/-- Discard the bus record (R63). No event is raised. -/
def State.discardRecord (s : State) : State :=
  s.setEa { s.ea with
    record := none
    estimate := 0
    reported := 0
    residue := 0
    departureLeft := none
    minuteAt := none
    side := .noRecord }

/-- The side on which an exportable energy stands (R76). -/
def noticeSideOf (e threshold : Nat) : NoticeSide := if threshold ≤ e then .above else .below

/-- Take a bus record whole (R62), and set the notice side silently (R76). -/
def State.takeRecord (s : State) (r : BusRecord) : State :=
  let s := s.setEa { s.ea with
    record := some r
    estimate := r.soe
    reported := r.soe
    residue := 0
    departureLeft := r.departure
    minuteAt := r.departure.map fun _ => s.now + 60000 }
  s.setEa { s.ea with side := noticeSideOf s.energy s.sp.config.energyNotice }

/-- Replace the held pack temperature (R65). -/
def State.replacePack (s : State) (t : Int) : State :=
  match s.ea.record with
  | none => s
  | some r => s.setEa { s.ea with record := some { r with packTemp := t } }

/-- A refresh of the state of energy (R67). -/
def State.refreshEnergy (s : State) (v : Nat) : State :=
  match s.ea.record with
  | none => s
  | some r =>
    let v := min v r.capacity
    s.setEa { s.ea with estimate := min s.ea.estimate v, reported := v }

/-! ### Peer View: isolation -/

/-- Add a cause; if ISOLATED was clear, set it, raise ISOLATION_ON and stop the rejoin hold (R13, R14). -/
def State.isolate (s : State) (silence : Bool) : State :=
  let was := s.pv.isolated
  let s := s.setPv { s.pv with
    isolated := true
    causeSilence := s.pv.causeSilence || silence
    causeEcho := s.pv.causeEcho || !silence
    rejoining := was && s.pv.rejoining
    rejoinAt := if was then s.pv.rejoinAt else none }
  s.raiseIf (!was) .isolationOn

/-- Clear ISOLATED and its causes, raise ISOLATION_OFF and start the rejoin hold (R15). -/
def State.clearIsolation (s : State) : State :=
  (s.setPv { s.pv with
    isolated := false
    causeSilence := false
    causeEcho := false
    rejoining := true
    rejoinAt := some (s.now + 2000) }).raise .isolationOff

/-! ### Converter Control -/

/-- The converter disabled without a failure: ENABLE low, the start's and run's timers stopped, stop pending
clear, the setpoint at 0 (R126, R133, R134). -/
def Converter.disabled (c : Converter) : Converter :=
  { c with
    state := .off
    prechargeAt := none
    stableAt := none
    lingerAt := none
    stopPending := false
    setpoint := 0 }

/-- A start failure or a trip (R121, R122, R123): ENABLE drops, the event is raised, the failure is counted,
and the converter waits 60 s, or latches at the third. -/
def State.convFails (s : State) (k : EventKind) : State :=
  let n := satSucc 3 s.cc.failures
  let latched := decide (3 ≤ n)
  let s := s.setCc { s.cc.disabled with
    state := if latched then .convFault else .retryWait
    retryAt := if latched then none else some (s.now + 60000)
    failures := n }
  (s.raise k).raiseIf latched .convFault

/-- Raise ENABLE and start the precharge (R120); a FAULT already high is met at once as a trip. -/
def State.startPrecharge (s : State) : State :=
  let s := s.setCc { s.cc with
    state := .precharging
    prechargeAt := some (s.now + 1000 * s.sp.config.precharge)
    lingerAt := none
    stopPending := false }
  if s.cc.fault then s.convFails .convTrip else s

/-- A stop request (R126): a precharge is abandoned, ON sets stop pending, and the other states have ENABLE
low already. -/
def State.requestStop (s : State) : State :=
  match s.cc.state with
  | .precharging => s.setCc s.cc.disabled
  | .on => s.setCc { s.cc with stopPending := true }
  | _ => s

/-- Disable a converter that is enabled, without a failure (R133, R134). -/
def State.dropEnable (s : State) : State :=
  if s.cc.state.enabled then s.setCc s.cc.disabled else s

/-- Step the setpoint down to a value at once (R129); never up. -/
def State.stepDown (s : State) (v : Nat) : State :=
  s.setCc { s.cc with setpoint := min s.cc.setpoint v }

/-! ### Vehicle Link -/

/-- Enter a session state. -/
def State.setSession (s : State) (x : SessionState) : State := s.setVl { s.vl with session := x }

/-- The tuning and export items as every leaving of the session leaves them (R164). -/
def VehicleLink.tuningCleared (v : VehicleLink) : VehicleLink :=
  { v with
    phase := .idle
    code := none
    busLevel := none
    busStatus := none
    tuningAt := none
    stepAt := none
    settleAt := none
    holdAnswered := false
    retuneAt := none
    retuneDue := false
    engageHoldAt := none
    shareZeroAt := none
    shareZeroOut := false }

/-- Every due request withdrawn, the items dropped (log 36) and the timers of the session stopped (R138, R141, R143). -/
def VehicleLink.quiesced (v : VehicleLink) : VehicleLink :=
  { v with
    due := .nothing
    items := []
    wakeAt := none
    identifyAt := none
    requeryAt := none
    retryAt := none
    pollAt := none
    refreshAt := none }

/-- The link at ABSENT (R138, R150, R164): what is kept is the plug level, the request counter, D and the
given mark of a release owed. -/
def VehicleLink.absentWith (v : VehicleLink) (owed : Bool) : VehicleLink :=
  { v.quiesced.tuningCleared with
    session := .absent
    inFlight := none
    failures := 0
    lastFailure := .noFailure
    releaseOwed := owed
    allowance := 0
    stopLatch := false
    lastCeiling := none }

/-- A session failure (R141, R143, R145, R156): the failure is counted, the allowance is 0, and the session
waits the given time, or is FAULTED at the third, with VEHICLE_FAULT. -/
def State.failSession (s : State) (cause : LastFailure) (wait : Nat) : State :=
  let n := satSucc 3 s.vl.failures
  let latched := decide (3 ≤ n)
  let s := s.setVl { s.vl.quiesced.tuningCleared with
    session := if latched then .faulted else .retryWait
    retryAt := if latched then none else some (s.now + wait)
    failures := n
    lastFailure := cause
    allowance := 0 }
  s.raiseIf latched .vehicleFault

/-- The pilot link is lost (R141). A POLL or refresh QUERY that a third tuning failure left in flight (R156) and that is
then lost in FAULTED raises LINK_LOST and VEHICLE_FAULT again, with the count held at 3 and the last failure LINK
(DESIGN CHOICE, log 34). -/
def State.linkLost (s : State) : State :=
  let owed := s.vl.releaseOwed || s.vl.session.holdsStop
  let s := s.raise .linkLost
  (s.setVl { s.vl with inFlight := none, releaseOwed := owed }).failSession .link 10000

/-- An identify failure (R143): a request in flight is abandoned. -/
def State.identifyFails (s : State) (cause : LastFailure) : State :=
  (s.setVl { s.vl with inFlight := none }).failSession cause 60000

/-- Enter IDENTIFYING (R142): the record goes (R63), the STOP latch and the last ceiling are cleared (R162,
R163), the identify timer starts, an owed RELEASE is made due, and the QUERY of item 0. -/
def State.enterIdentifying (s : State) : State :=
  let s := s.discardRecord
  s.setVl { s.vl with
    session := .identifying
    wakeAt := none
    retryAt := none
    identifyAt := some (s.now + 5000)
    items := []
    due := { s.vl.due with release := s.vl.releaseOwed, identify := true }
    stopLatch := false
    lastCeiling := none }

/-- The plug is met in ABSENT (R137). -/
def State.attach (s : State) : State :=
  (s.setVl { s.vl with session := .attached, wakeAt := some (s.now + 200) }).raise .vehicleAttached

/-- The desired level of a configuration (R152). -/
def desiredLevel (c : Configuration) : Nat := min c.allowCeil (c.convRating / 10)

/-- Enter TUNING (R153, R157) of a kind, with the first code. HOLD answered stays as it is: R155 and R164 alone clear
it. -/
def State.enterTuning (s : State) (kind : TuningKind) (code : TuneCode) : State :=
  s.setVl { s.vl with
    session := .tuning
    kind := kind
    phase := .stepping
    tuningAt := some (s.now + 10000)
    busLevel := none
    busStatus := none
    retuneDue := if kind = .retune then false else s.vl.retuneDue
    code := some code
    due := { s.vl.due with tune := some code } }

end Sys2Proof.Machine
end

