-- ==== Sys2Proof/Machine/Reactions.lean ====
section
/-!
DEFINITION. What comes about "at once" (00_scope.md) after a command's own effect: the notice comparator
(R76), the gate notice and its computation (R73, R84), the share-zero timer (R160), the held stop (R126), the
release decision (R160), the start request and the linger (R119, R120, R125), the making due and withdrawal
of an ENGAGE (R158), the retune timer (R157), the park's completion (R172), the plug as a wake source (R174)
and as a level (R137), and the taking of a waiting frame (R26). The order is DESIGN CHOICE where no rule
gives it (log 10).
-/

namespace Sys2Proof.Machine

/-- The setpoint is 0 unless the converter is ON and the session EXPORTING (R128, R129: a session that
leaves EXPORTING, a trip, an unplug and a link loss step it to 0). -/
def State.holdSetpoint (s : State) : State :=
  if s.powerPath then s else s.setCc { s.cc with setpoint := 0 }

/-- The notice comparator (R76). -/
def State.noticeTest (s : State) : State :=
  match s.ea.side, noticeSideOf s.energy s.sp.config.energyNotice with
  | .above, .below => (s.setEa { s.ea with side := .below }).raise .energyLow
  | .below, .above => (s.setEa { s.ea with side := .above }).raise .energyRestored
  | _, _ => s

/-- The gate notice (R73): when a gate condition differs from what was last notified, the Apportioner
computes at once with the trigger GATE (R84). -/
def State.gateNotice (s : State) : State :=
  if s.gateView = s.ea.gates then s
  else (s.setEa { s.ea with gates := s.gateView }).compute .gate

/-- The share-zero timer (R160). -/
def State.shareZeroTest (s : State) : State :=
  if s.vl.session = .exporting ∧ s.share = 0 then
    if s.vl.shareZeroAt.isSome || s.vl.shareZeroOut then s
    else s.setVl { s.vl with shareZeroAt := some (s.now + 30000) }
  else s.setVl { s.vl with shareZeroAt := none, shareZeroOut := false }

/-- The held stop is tested (R126). -/
def State.stopTest (s : State) : State := if s.stopReady then s.setCc s.cc.disabled else s

/-- The release decision (R160): RELEASING, and a RELEASE is made due. -/
def State.releaseTest (s : State) : State :=
  if s.releaseWanted then
    s.setVl { s.vl with session := .releasing, due := { s.vl.due with release := true } }
  else s

/-- The start request is evaluated (R119). In OFF it raises ENABLE (R120). In PRECHARGING and ON its coming
to hold stops the linger and withdraws a pending stop, and its ceasing starts the linger (R125, R126). -/
def State.startTest (s : State) : State :=
  let holds := s.startRequest
  let was := s.cc.startHeld
  let s := s.setCc { s.cc with startHeld := holds }
  match s.cc.state with
  | .off => if holds then s.startPrecharge else s
  | .precharging =>
    if holds then s.setCc { s.cc with lingerAt := none }
    else if was then s.setCc { s.cc with lingerAt := some (s.now + 30000) }
    else s
  | .on =>
    if holds && !was then s.setCc { s.cc with lingerAt := none, stopPending := false }
    else if holds then s.setCc { s.cc with lingerAt := none }
    else if was then s.setCc { s.cc with lingerAt := some (s.now + 30000) }
    else s
  | _ => s

/-- The conditions of an ENGAGE are tested (R158): it is made due, or a due one is withdrawn. -/
def State.engageTest (s : State) : State :=
  s.setVl { s.vl with
    due := { s.vl.due with engage := s.engageWanted && !s.vl.engageInFlight } }

/-- The retune timer (R157): it starts when its condition comes to hold and stops when that ceases. -/
def State.retuneTest (s : State) : State :=
  if s.vl.session.retunable && decide (s.vl.allowance < s.vl.desired) then
    if s.vl.retuneAt.isSome then s else s.setVl { s.vl with retuneAt := some (s.now + 60000) }
  else s.setVl { s.vl with retuneAt := none }

/-- The park's completion is tested (R172). -/
def State.parkTest (s : State) : State :=
  if s.parkReady then s.setMode (if s.vl.plug then .hold else .dormant) else s

/-- In DORMANT the plug is a wake source (R174), but not during a restart's wait (R177). -/
def State.plugWake (s : State) : State :=
  if s.sp.mode = .dormant ∧ s.vl.plug = true ∧ s.sp.restarting = none then s.setMode .active else s

/-- A plug that is high in ABSENT with the Vehicle Link running is met at once (R137). -/
def State.meetPlug (s : State) : State :=
  if s.linkRuns && s.vl.plug && s.vl.session == .absent then s.attach else s

/-- One round of the reactions. -/
def State.react (s : State) : State :=
  s.holdSetpoint.noticeTest.gateNotice.shareZeroTest.stopTest.releaseTest.startTest.engageTest.retuneTest.parkTest.plugWake.meetPlug

/-- Five rounds: a reaction that changes what another tests is met in the next round. -/
def State.settle (s : State) : State := s.react.react.react.react.react

/-- The end of a command's handling: the reactions, the setpoint outside the power path, and the taking of a
waiting frame on an idle line (log 10, log 11). In CONFIG no block runs. -/
def State.finish (s : State) : State :=
  if s.joined then s.settle.holdSetpoint.takeFrame else s

end Sys2Proof.Machine
end

