-- ==== Sys2Proof/Machine/Restart.lean ====
section
/-!
DEFINITION. The entry to LOCKOUT (R34, R35, R133, R175) and the completion of a restart (R178 and the
clearing of each block: R36, R19, R60, R116, R134, R150, R164, R63).
-/

namespace Sys2Proof.Machine

/-- Enter LOCKOUT (R175): the frame in flight is abandoned, the queue emptied and the STANDING timer stopped
(R35), the setpoint stepped to 0 and an enabled converter disabled (R133). In LOCKOUT nothing changes. -/
def State.enterLockout (s : State) : State :=
  if s.sp.mode = .lockout then s
  else
    let s := s.setMode .lockout
    let s := s.setLp { s.lp with inFlight := none, queue := [], standingAt := none }
    (s.stepDown 0).dropEnable

/-- A good received frame that carries the own stall (R34): during a restart's wait it is held (R177). -/
def State.meetDuplicate (s : State) : State :=
  let s := s.setLp { s.lp with stats := { s.lp.stats with
    received := satSucc 65535 s.lp.stats.received } }
  let s := s.raise .duplicateStall
  match s.sp.restarting with
  | some r => s.setSp { s.sp with restarting := some { r with duplicateHeld := true } }
  | none => s.enterLockout

/-- Start the echo timer with a fresh interval (R55, R59, R60). -/
def State.startEchoTimer (s : State) : State :=
  let interval := s.drawn 10000 1000
  let s := s.countDraw
  s.setCt { s.ct with echoAt := some (s.now + interval) }

/-- The Line Port as a restart's completion clears it (R36). The line level stands as the abandoned attempt left it:
busy to the own post until LINE_IDLE (DESIGN CHOICE, log 32). -/
def LinePort.restarted (l : LinePort) : LinePort :=
  { l with queue := [], inFlight := none, echoFailures := 0, standingAt := none }

/-- The Peer View as a restart's completion clears it (R19). -/
def PeerView.restarted (p : PeerView) (now : Nat) : PeerView :=
  { p with
    entries := []
    isolated := false
    causeSilence := false
    causeEcho := false
    rejoining := false
    rejoinAt := none
    lastHeardAt := some (now + 4000)
    lastAccepted := none
    lastOutcome := .noOutcome }

/-- The Curb Unit as a restart's completion clears it (R116). -/
def CurbUnit.restarted (c : CurbUnit) : CurbUnit :=
  { c with lastOrigination := none, curb := none, cutHold := false, lastHeard := none }

/-- Converter Control as a restart's completion clears it (R134). -/
def Converter.restarted (c : Converter) : Converter :=
  { c with
    state := if c.state = .retryWait ∨ c.state = .convFault then .off else c.state
    retryAt := none
    failures := 0 }

/-- The mode after a restart (R178). -/
def restartMode (origin : PostMode) (duplicateHeld : Bool) : PostMode :=
  if duplicateHeld then .lockout
  else
    match origin with
    | .hold => .dormant
    | .dormant => .dormant
    | _ => .active

/-- Complete a restart (R178). No event is raised. -/
def State.completeRestart (s : State) (origin : PostMode) (duplicateHeld : Bool) : State :=
  let mode := restartMode origin duplicateHeld
  let s := s.setLp s.lp.restarted
  let s := s.setPv (s.pv.restarted s.now)
  let s := s.setCt { s.ct with records := [], repeats := [] }
  let s := s.startEchoTimer
  let s := s.setCu s.cu.restarted
  let s := s.setCc s.cc.restarted
  let s := s.setVl (s.vl.absentWith (s.vl.releaseOwed || s.vl.session.holdsStop))
  let s := s.discardRecord
  let s := s.setMode mode
  let s := s.setSp { s.sp with restarting := none, pointer := .peers 0 }
  if mode = .lockout then s else s.startStanding

end Sys2Proof.Machine
end

