-- ==== Sys2Proof/Machine/PeerView.lean ====
section
/-!
DEFINITION. The Peer View's commands (chapter 1): STANDING, LEAVE, SWEEP, LAST_HEARD_EXPIRY and
REJOIN_HOLD_EXPIRY, with the heard notice that every received frame gives (R2, R6, R13).
-/

namespace Sys2Proof.Machine

/-- The numbers skipped between the last sequence and the next one heard (R6); none for the same number. -/
def skipped (last next : Nat) : Nat := if next = last then 0 else (next + 255 - last) % 256

/-- Advance an entry's sequence tracking (R6). -/
def PeerEntry.track (e : PeerEntry) (seq : Nat) : PeerEntry :=
  { e with gap := min 255 (e.gap + skipped e.lastSeq seq), lastSeq := seq }

/-- The heard notice (R2): the last-heard timer restarts (R13), and a stall with an entry is tracked (R6). -/
def State.heard (s : State) (stall seq : Nat) : State :=
  s.setPv { s.pv with
    lastHeardAt := some (s.now + 4000)
    entries := s.pv.entries.map fun e => if e.stall = stall then e.track seq else e }

/-- Count a good received frame (R32, R38). -/
def State.countReceived (s : State) : State :=
  s.setLp { s.lp with stats := { s.lp.stats with
    received := satSucc 65535 s.lp.stats.received } }

/-- The peer table has an entry for a stall. -/
def PeerView.hasEntry (p : PeerView) (stall : Nat) : Bool := p.entries.any (·.stall == stall)

/-- Place an entry in stall order (R1, R4). -/
def placeEntry (e : PeerEntry) : List PeerEntry → List PeerEntry
  | [] => [e]
  | x :: xs => if e.stall < x.stall then e :: x :: xs else x :: placeEntry e xs

/-- The table after an accepted STANDING: a new entry (R4), or the whole replacement of the announced fields
of the one there is, whose sequence the heard notice has tracked (R5). -/
def acceptedEntries (es : List PeerEntry) (now stall seq : Nat) (a : Announced) : List PeerEntry :=
  if es.any (·.stall == stall) then
    es.map fun e =>
      if e.stall = stall then { e with announced := a, received := now, lostMark := false } else e
  else placeEntry ⟨stall, seq, 0, a, now, false⟩ es

/-- Accept a STANDING (R4, R5). -/
def State.acceptStanding (s : State) (stall seq : Nat) (a : Announced) : State :=
  let isNew := !s.pv.hasEntry stall
  let s := s.setPv { s.pv with
    entries := acceptedEntries s.pv.entries s.now stall seq a
    lastAccepted := some s.now }
  s.raiseIf isNew .peerNew

/-- ISOLATED clears on an accepted STANDING: the last own outcome is ECHOED (R15). -/
def State.clearsOnStanding (s : State) : Bool := s.pv.isolated && s.pv.lastOutcome == .echoed

/-- STANDING (R2 to R6, R15, R32, R33). -/
def execStanding (stall seq : Nat) (f : StandingWire) (s : State) :
    Host.Outcome State Fault Refusal :=
  if !s.receives then .next s
  else if stall = s.lp.stall then .next s.meetDuplicate.finish
  else
    let s := s.countReceived.heard stall seq
    if !s.inRoster stall then .next (s.raise .rosterMismatch)
    else
      let s := s.acceptStanding stall seq (StandingWire.corrected f)
      if s.clearsOnStanding then .next s.clearIsolation.finish else .next s

/-- LEAVE (R3, R7); every reason is taken as RESTART (R184). -/
def execLeave (stall seq reason : Nat) (s : State) : Host.Outcome State Fault Refusal :=
  let _ := reason
  if !s.receives then .next s
  else if stall = s.lp.stall then .next s.meetDuplicate.finish
  else
    let s := s.countReceived.heard stall seq
    if !s.inRoster stall then .next (s.raise .rosterMismatch)
    else .next (s.setPv { s.pv with entries := s.pv.entries.filter (·.stall != stall) })

/-- An entry that a sweep finds LOST with its lost mark clear (R9). -/
def PeerEntry.newlyLost (e : PeerEntry) (now : Nat) : Bool := e.state now == .lost && !e.lostMark

/-- The table after a sweep (R9): newly LOST entries are marked, and entries aged 60 s or more deleted. -/
def sweptEntries (es : List PeerEntry) (now : Nat) : List PeerEntry :=
  (es.filter fun e => decide (e.age now < 60000)).map fun e =>
    if e.state now = .lost then { e with lostMark := true } else e

/-- SWEEP (R9). -/
def execSweep (s : State) : Host.Outcome State Fault Refusal :=
  match s.pv.sweepAt with
  | none => .next s
  | some t =>
    let s := s.reach t
    let lost := s.pv.entries.countP (·.newlyLost s.now)
    let s := s.setPv { s.pv with
      entries := sweptEntries s.pv.entries s.now
      sweepAt := some (t + 1000) }
    .next (s.raiseTimes .peerLost lost)

/-- LAST_HEARD_EXPIRY (R13): the timer stays stopped. -/
def execLastHeardExpiry (s : State) : Host.Outcome State Fault Refusal :=
  match s.pv.lastHeardAt with
  | none => .next s
  | some t =>
    let s := s.reach t
    .next ((s.setPv { s.pv with lastHeardAt := none }).isolate true).finish

/-- REJOIN_HOLD_EXPIRY (R16). -/
def execRejoinHoldExpiry (s : State) : Host.Outcome State Fault Refusal :=
  match s.pv.rejoinAt with
  | none => .next s
  | some t =>
    let s := s.reach t
    .next (s.setPv { s.pv with rejoining := false, rejoinAt := none }).finish

end Sys2Proof.Machine
end

