-- ==== Sys2Proof/Machine/LinePort.lean ====
section
/-!
DEFINITION. The Line Port's commands (chapter 2): BAD_FRAME, DUPLICATE_STALL, STANDING_TIMER, LINE_IDLE,
ECHO_SUCCESS, COLLISION and BACKOFF_END.
-/

namespace Sys2Proof.Machine

/-- BAD_FRAME (R32): discarded and counted, and nothing else. -/
def execBadFrame (s : State) : Host.Outcome State Fault Refusal :=
  if s.receives then
    .next (s.setLp { s.lp with stats := { s.lp.stats with bad := satSucc 65535 s.lp.stats.bad } })
  else .next s

/-- DUPLICATE_STALL (R34), whatever the kind of the frame. -/
def execDuplicateStall (kind : FrameKind) (s : State) : Host.Outcome State Fault Refusal :=
  let _ := kind
  if s.receives then .next s.meetDuplicate.finish else .next s

/-- STANDING_TIMER (R24, R25). -/
def execStandingTimer (s : State) : Host.Outcome State Fault Refusal :=
  match s.lp.standingAt with
  | none => .next s
  | some t => .next (s.reach t).startStanding.takeFrame

/-- LINE_IDLE (R26, R30): a collided frame's backoff begins, an attempt that waits for the line begins, or
the head frame is taken. -/
def execLineIdle (s : State) : Host.Outcome State Fault Refusal :=
  match s.lp.inFlight with
  | none => .next (s.setLine true).takeFrame
  | some f =>
    match f.phase with
    | .sending => .next s
    | .awaitingIdle slots =>
      let s := s.setLine true
      .next (s.setLp { s.lp with inFlight := some { f with phase := .backoff (s.now + slots) } })
    | .backoff _ => .next (s.setLine true)
    | .awaitingLine => .next ((s.setLine true).beginAttempt f)

/-- The Peer View takes an own outcome ECHOED (R14), and ISOLATED clears when a peer STANDING was accepted
within the last 1 s (R15, log 16). -/
def State.ownEchoed (s : State) : State :=
  let s := s.setPv { s.pv with lastOutcome := .echoed }
  match s.pv.lastAccepted with
  | some t => if s.pv.isolated ∧ s.now - t < 1000 then s.clearIsolation else s
  | none => s

/-- The Peer View takes an own outcome NOT_ECHOED with the Line Port's count (R14). -/
def State.ownNotEchoed (s : State) : State :=
  let s := s.setPv { s.pv with lastOutcome := .notEchoed }
  if 3 ≤ s.lp.echoFailures then s.isolate false else s

/-- An echoed LEAVE ends the restart's wait (R29, R177). -/
def State.leaveEchoed (s : State) (body : FrameBody) : State :=
  match body, s.sp.restarting with
  | .leave, some r => s.completeRestart r.origin r.duplicateHeld
  | _, _ => s

/-- ECHO_SUCCESS (R29). -/
def execEchoSuccess (idle : Bool) (s : State) : Host.Outcome State Fault Refusal :=
  match s.lp.inFlight with
  | none => .next s
  | some f =>
    if f.phase = .sending then
      let s := s.setLp { s.lp with
        inFlight := none
        echoFailures := 0
        lineIdle := idle
        stats := { s.lp.stats with sent := satSucc 65535 s.lp.stats.sent } }
      .next (s.ownEchoed.leaveEchoed f.body).finish
    else .next s

/-- A collided attempt that is not the eighth (R30): the next attempt's backoff is drawn. -/
def State.collided (s : State) (f : InFlight) (idle : Bool) : State :=
  let slots := s.drawn 1 15
  let s := s.countDraw
  let phase : AttemptPhase := if idle then .backoff (s.now + slots) else .awaitingIdle slots
  s.setLp { s.lp with inFlight := some { f with attempt := f.attempt + 1, phase := phase } }

/-- The frame is given up (R31). -/
def State.givenUp (s : State) : State :=
  let s := s.setLp { s.lp with
    inFlight := none
    echoFailures := satSucc 3 s.lp.echoFailures
    stats := { s.lp.stats with attemptDrops := satSucc 65535 s.lp.stats.attemptDrops } }
  (s.raise .frameDropped).ownNotEchoed

/-- COLLISION (R30, R31). -/
def execCollision (idle : Bool) (s : State) : Host.Outcome State Fault Refusal :=
  match s.lp.inFlight with
  | none => .next s
  | some f =>
    if f.phase = .sending then
      let s := s.setLp { s.lp with
        lineIdle := idle
        stats := { s.lp.stats with collisions := satSucc 65535 s.lp.stats.collisions } }
      if f.attempt < 8 then .next (s.collided f idle) else .next s.givenUp.finish
    else .next s

/-- BACKOFF_END (R30). -/
def execBackoffEnd (idle : Bool) (s : State) : Host.Outcome State Fault Refusal :=
  match s.lp.inFlight with
  | none => .next s
  | some f =>
    match f.phase with
    | .backoff t =>
      let s := (s.reach t).setLine idle
      if idle then .next (s.beginAttempt f)
      else .next (s.setLp { s.lp with inFlight := some { f with phase := .awaitingLine } })
    | _ => .next s

end Sys2Proof.Machine
end

