-- ==== Sys2Proof/Machine/CallTable.lean ====
section
/-!
DEFINITION. The call table's shared operations (chapter 3): creation, revision and merge of one record (R43
to R47), the moves of its lifecycle (R48 to R51), and the intake of a DISPATCH or CALL with the notices it
gives (R42, R52, R174).
-/

namespace Sys2Proof.Machine

/-! ### One record -/

/-- The accumulators of a record that first becomes ACTIVE (R56). -/
def Accumulators.zero : Accumulators := ⟨0, 0, 0, 0, 0, 0, 0, 0⟩

/-- The retention of a record that reaches a final state (R53). -/
def retentionTime : Nat := 3600

/-- The record in a final state, DONE or CANCELLED (R45, R46, R49, R51). -/
def CallRecord.finished (r : CallRecord) (cancelled : Bool) : CallRecord :=
  { r with
    state := if cancelled then .cancelled else .done
    deferred := false
    retention := retentionTime }

/-- The record is DONE or CANCELLED. -/
def CallRecord.isFinal (r : CallRecord) : Bool := r.state == .done || r.state == .cancelled

/-- The record waits for its start. -/
def CallRecord.waiting (r : CallRecord) : Bool := r.state == .pending && !r.deferred

/-- The record's time runs: ACTIVE or deferred. -/
def CallRecord.running (r : CallRecord) : Bool :=
  r.state == .active || (r.state == .pending && r.deferred)

/-- A record that becomes ACTIVE (R48, R49): its goal starts from 0 and its accumulators are created. -/
def CallRecord.activated (r : CallRecord) : CallRecord :=
  { r with state := .active, deferred := false, goal := 0, accumulators := some .zero }

/-- A record whose start comes (R43, R46, R48): ACTIVE when the slot is free, else deferred. -/
def CallRecord.started (r : CallRecord) (now remaining : Nat) (slotFree : Bool) : CallRecord :=
  let r := { r with startTime := some now, remaining := remaining, countdown := 0 }
  if slotFree then r.activated else { r with deferred := true }

/-- A record whose remaining active stands at 0 ends at once (R45, R50, R49): ACTIVE becomes ENDING and a
deferred record DONE. The number is that of the changes of state. -/
def CallRecord.endedAtZero (r : CallRecord) : CallRecord × Nat :=
  if r.remaining = 0 ∧ r.state = .active then ({ r with state := .ending }, 1)
  else if r.remaining = 0 ∧ r.state = .pending ∧ r.deferred = true then (r.finished false, 1)
  else (r, 0)

/-- A CANCEL applied to a record (R45): the number is that of the changes of state. -/
def CallRecord.cancelApplied (r : CallRecord) : CallRecord × Nat :=
  match r.state with
  | .pending => (r.finished true, 1)
  | .active => ({ r with state := .ending, cancelledMark := true }, 1)
  | .ending => ({ r with cancelledMark := true }, 0)
  | _ => (r, 0)

/-- The remaining active that a revision leaves (R45): the lesser of the held one and the new duration less
the elapsed time, and 0 if the new duration does not exceed the elapsed time (log 24). -/
def shortenedRemaining (heldDuration remaining newDuration : Nat) : Nat :=
  min remaining (newDuration - (heldDuration - remaining : Int)).toNat

/-- An ECHO carrying ACTIVE meets a record (R46). -/
def CallRecord.mergeActive (r : CallRecord) (now carried : Nat) (slotFree : Bool) :
    CallRecord × Nat :=
  if r.waiting then
    let m := (r.started now (min r.duration carried) slotFree).endedAtZero
    (m.1, m.2 + 1)
  else if r.running then { r with remaining := min r.remaining carried }.endedAtZero
  else (r, 0)

/-- An ECHO carrying ENDING meets a record (R46). -/
def CallRecord.mergeEnding (r : CallRecord) (mark : Bool) : CallRecord × Nat :=
  match r.state with
  | .active => ({ r with state := .ending, cancelledMark := r.cancelledMark || mark }, 1)
  | .pending => (r.finished mark, 1)
  | .ending => ({ r with cancelledMark := r.cancelledMark || mark }, 0)
  | _ => (r, 0)

/-- The lesser countdown on a record that waits for its start (R45, R46). -/
def CallRecord.mergeCountdown (r : CallRecord) (carried : Nat) : CallRecord :=
  if r.waiting then { r with countdown := min r.countdown carried } else r

/-- The part of an ECHO that moves a record forward in time (R46). -/
def CallRecord.mergeEcho (r : CallRecord) (d : CallFrame) (now : Nat) (slotFree : Bool) :
    CallRecord × Nat :=
  match d.carried with
  | .active => r.mergeActive now d.countdown slotFree
  | .ending => r.mergeEnding d.cancelledMark
  | _ => (r.mergeCountdown d.countdown, 0)

/-- A merge (R46). -/
def CallRecord.merged (r : CallRecord) (d : CallFrame) (now : Nat) (slotFree : Bool) :
    CallRecord × Nat :=
  match d.kind with
  | .new => (r.mergeCountdown d.countdown, 0)
  | .revise => (r.mergeCountdown d.countdown, 0)
  | .cancel => r.cancelApplied
  | .echo => r.mergeEcho d now slotFree

/-- The record with the content of a revision (R45). -/
def CallRecord.replaced (r : CallRecord) (d : CallFrame) : CallRecord :=
  { r with revision := d.revision, kind := d.kind, target := d.target, ramp := d.ramp,
           duration := d.duration }

/-- A NEW or REVISE at a higher revision (R45). -/
def CallRecord.reviseTime (r : CallRecord) (d : CallFrame) : CallRecord × Nat :=
  if r.running then
    { r.replaced d with
      remaining := shortenedRemaining r.duration r.remaining d.duration }.endedAtZero
  else ((r.replaced d).mergeCountdown d.countdown, 0)

/-- A revision (R45). -/
def CallRecord.revised (r : CallRecord) (d : CallFrame) (now : Nat) (slotFree : Bool) :
    CallRecord × Nat :=
  match d.kind with
  | .new => r.reviseTime d
  | .revise => r.reviseTime d
  | .cancel => (r.replaced d).cancelApplied
  | .echo => (r.replaced d).mergeEcho d now slotFree

/-- The record that a DISPATCH for an unknown call creates (R43): a PENDING one before its start. -/
def CallFrame.pendingRecord (d : CallFrame) : CallRecord where
  callId := d.callId
  revision := d.revision
  kind := d.kind
  origin := d.origin
  state := .pending
  deferred := false
  target := d.target
  ramp := d.ramp
  duration := d.duration
  countdown := d.countdown
  startTime := none
  remaining := 0
  goal := 0
  cancelledMark := false
  serving := false
  accumulators := none
  retention := 0

/-- The tombstone that a CANCEL for an unknown call leaves (R43). -/
def CallFrame.tombstone (d : CallFrame) : CallRecord :=
  { d.pendingRecord.finished true with countdown := 0 }

/-- The created record with the number of its changes of state (R43). -/
def CallFrame.createdRecord (d : CallFrame) (now : Nat) (slotFree : Bool) : CallRecord × Nat :=
  match d.kind, d.carried with
  | .cancel, _ => (d.tombstone, 0)
  | .echo, .active => (d.pendingRecord.started now d.countdown slotFree).endedAtZero
  | _, _ => (d.pendingRecord, 0)

/-! ### The table -/

/-- The active slot is free (R48). -/
def slotFree (rs : List CallRecord) : Bool := (callInForce rs).isNone

/-- The record of a call id. -/
def findCall (id : Nat) (rs : List CallRecord) : Option CallRecord := rs.find? (·.callId == id)

/-- Replace the record of a call id. -/
def putCall (r : CallRecord) (rs : List CallRecord) : List CallRecord :=
  rs.map fun x => if x.callId = r.callId then r else x

/-- Place a new record in ascending call id (R40). -/
def placeCall (r : CallRecord) : List CallRecord → List CallRecord
  | [] => [r]
  | x :: xs => if r.callId < x.callId then r :: x :: xs else x :: placeCall r xs

/-- The final record that an eviction takes (R44): least retention, and of equal ones the lower id, which is
the first in the table. -/
def oldestFinal : List CallRecord → Option CallRecord
  | [] => none
  | r :: rs =>
    if r.isFinal then
      match oldestFinal rs with
      | none => some r
      | some m => if r.retention ≤ m.retention then some r else some m
    else oldestFinal rs

/-- The table with a free slot (R44), or none when every record is live. -/
def withFreeSlot (rs : List CallRecord) : Option (List CallRecord) :=
  if rs.length < 4 then some rs
  else
    match oldestFinal rs with
    | none => none
    | some old => some (rs.filter (·.callId != old.callId))

/-! ### Notices -/

/-- What the Apportioner is notified of (R52): which record is in force, and in which state. -/
def callView (rs : List CallRecord) : Option (Nat × CallState) :=
  (callInForce rs).map fun r => (r.callId, r.state)

/-- Replace the table and, where the call in force is created, replaced, becomes ENDING or ends, let the
Apportioner compute at once (R52, R84). -/
def State.setCalls (s : State) (rs : List CallRecord) : State :=
  let before := callView s.ct.records
  let s := s.setCt { s.ct with records := rs }
  if callView rs = before then s else s.compute .call

/-- A record for which a notice wakes a post from HOLD (R174). -/
def CallRecord.wakes (r : CallRecord) : Bool :=
  match r.state with
  | .pending => r.deferred || decide (r.countdown ≤ 1800)
  | .active => true
  | .ending => true
  | _ => false

/-- The Mode Control block's part of a creation or revision notice (R52, R174, R177). -/
def State.callNotice (s : State) (r : CallRecord) : State :=
  if s.sp.mode = .hold ∧ s.sp.restarting = none ∧ r.wakes = true then
    (s.setMode .active).raise .callWake
  else s

/-! ### Intake -/

/-- Create a record (R43, R44). -/
def State.createCall (s : State) (d : CallFrame) : State × IntakeOutcome :=
  if d.kind = .echo ∧ d.carried = .ending then (s, .ignored)
  else
    match withFreeSlot s.ct.records with
    | none => (s.raise .callDiscarded, .discarded)
    | some rs =>
      let m := d.createdRecord s.now (slotFree rs)
      let isTombstone := decide (d.kind = .cancel)
      let s := (s.raiseIf (!isTombstone) .callNew).raiseTimes .callState m.2
      let s := s.setCalls (placeCall m.1 rs)
      (s.callNotice m.1, if isTombstone then .tombstone else .created)

/-- Revise a record (R45). -/
def State.reviseCall (s : State) (r : CallRecord) (d : CallFrame) : State × IntakeOutcome :=
  let m := r.revised d s.now (slotFree s.ct.records)
  let s := (s.raise .callRevised).raiseTimes .callState m.2
  let s := s.setCalls (putCall m.1 s.ct.records)
  (s.callNotice m.1, .revised)

/-- Merge into a record (R46). -/
def State.mergeCall (s : State) (r : CallRecord) (d : CallFrame) : State × IntakeOutcome :=
  let m := r.merged d s.now (slotFree s.ct.records)
  let s := s.raiseTimes .callState m.2
  (s.setCalls (putCall m.1 s.ct.records), .merged)

/-- Handle a DISPATCH or a clamped CALL (R42 to R47). -/
def State.intake (s : State) (d : CallFrame) : State × IntakeOutcome :=
  match findCall d.callId s.ct.records with
  | none => s.createCall d
  | some r =>
    if r.revision < d.revision then s.reviseCall r d
    else if r.revision = d.revision then s.mergeCall r d
    else (s, .ignored)

/-! ### The lifecycle -/

/-- Start, in the table's order, every record that waits with its countdown at 0 (R48). The number is that
of the records started. -/
def startDue (now : Nat) : Bool → List CallRecord → List CallRecord × Nat
  | _, [] => ([], 0)
  | free, r :: rs =>
    if r.waiting ∧ r.countdown = 0 then
      let m := startDue now false rs
      (r.started now r.duration free :: m.1, m.2 + 1)
    else
      let m := startDue now free rs
      (r :: m.1, m.2)

/-- The deferred record that takes the slot (R49): earliest start, and of equal starts the lower id. -/
def nextDeferred : List CallRecord → Option CallRecord
  | [] => none
  | r :: rs =>
    if r.state == .pending && r.deferred then
      match nextDeferred rs with
      | none => some r
      | some m => if r.startTime.getD 0 ≤ m.startTime.getD 0 then some r else some m
    else nextDeferred rs

/-- Let the next deferred record take a free slot (R49). The number is that of the changes of state. -/
def freeSlot (rs : List CallRecord) : List CallRecord × Nat :=
  if slotFree rs then
    match nextDeferred rs with
    | none => (rs, 0)
    | some r => (putCall r.activated rs, 1)
  else (rs, 0)

/-- One second of a record whose time runs or which is final (R49, R50, R53). The number is that of the
changes of state; a record whose retention runs out is gone. -/
def CallRecord.second (r : CallRecord) : Option CallRecord × Nat :=
  if r.running then
    let m := { r with remaining := r.remaining - 1 }.endedAtZero
    (some m.1, m.2)
  else if r.isFinal then
    if r.retention ≤ 1 then (none, 0) else (some { r with retention := r.retention - 1 }, 0)
  else if r.waiting then (some { r with countdown := r.countdown - 1 }, 0)
  else (some r, 0)

/-- One second of the whole table. -/
def secondOf : List CallRecord → List CallRecord × Nat
  | [] => ([], 0)
  | r :: rs =>
    let m := r.second
    let n := secondOf rs
    (m.1.toList ++ n.1, m.2 + n.2)

/-- One goal step (R51). -/
def goalStep (ramp : Nat) : Nat := max 1 (ramp / 2)

/-- The goal after one step (R51). -/
def CallRecord.movedGoal (r : CallRecord) : Nat :=
  let target := if r.state = .ending then 0 else r.target
  if r.goal < target then min target (r.goal + goalStep r.ramp)
  else max target (r.goal - goalStep r.ramp)

/-- The goal move of the record in force; an ENDING record whose goal then stands at 0 becomes final (R51). -/
def CallRecord.goalMoved (r : CallRecord) : CallRecord × Nat :=
  let r := { r with goal := r.movedGoal }
  if r.state = .ending ∧ r.goal = 0 then (r.finished r.cancelledMark, 1) else (r, 0)

/-- The goal move of the call in force, with the freeing of the slot (R51, R49). -/
def moveGoal (rs : List CallRecord) : List CallRecord × Nat :=
  match callInForce rs with
  | none => (rs, 0)
  | some r =>
    let m := r.goalMoved
    let f := freeSlot (putCall m.1 rs)
    (f.1, m.2 + f.2)

end Sys2Proof.Machine
end

