-- ==== Sys2Proof/Machine/CallUnit.lean ====
section
/-!
DEFINITION. The Call Unit's commands (chapter 3): DISPATCH, CALL_TIMER, the expiries of one record, ECHO_TIMER
and REPEAT_COPY_DUE.
-/

namespace Sys2Proof.Machine

/-- DISPATCH (R42): the heard notice to the Peer View and the content to the Call Unit (R33). -/
def execDispatch (stall seq : Nat) (f : DispatchWire) (s : State) :
    Host.Outcome State Fault Refusal :=
  if !s.receives then .next s
  else if stall = s.lp.stall then .next s.meetDuplicate.finish
  else
    let s := s.countReceived.heard stall seq
    match DispatchWire.corrected f with
    | none => .next s
    | some d => .next (s.intake d).1.finish

/-! ### The call timer -/

/-- One clip second under a cause (R57). -/
def Accumulators.clipSecond (a : Accumulators) : ClipCause → Accumulators
  | .allowance => { a with allowanceS := satSucc 65535 a.allowanceS }
  | .energy => { a with energyS := satSucc 65535 a.energyS }
  | .converter => { a with converterS := satSucc 65535 a.converterS }
  | .headroom => { a with headroomS := satSucc 65535 a.headroomS }
  | .noCause => a

/-- The clip-second count of a cause. -/
def Accumulators.clipCount (a : Accumulators) : ClipCause → Nat
  | .allowance => a.allowanceS
  | .energy => a.energyS
  | .converter => a.converterS
  | .headroom => a.headroomS
  | .noCause => 0

/-- A clip-second count first reaches its limit in this second (R57). -/
def Accumulators.clipSaturates (a : Accumulators) (c : ClipCause) : Bool :=
  c != .noCause && a.clipCount c == 65534

/-- The record in force counts one clip second (R57). -/
def CallRecord.clipSecond (r : CallRecord) (c : ClipCause) : CallRecord :=
  if r.inForce then { r with accumulators := r.accumulators.map (·.clipSecond c) } else r

/-- The record in force first reaches the limit of a clip-second count. -/
def CallRecord.clipSaturates (r : CallRecord) (c : ClipCause) : Bool :=
  r.inForce &&
    match r.accumulators with
    | some a => a.clipSaturates c
    | none => false

/-- The table after one tick of the call timer (R48, R49, R50, R53), with the number of changes of state. -/
def tickedCalls (now : Nat) (rs : List CallRecord) : List CallRecord × Nat :=
  let m := secondOf rs
  let n := startDue now (slotFree m.1) m.1
  (n.1, m.2 + n.2)

/-- CALL_TIMER (R48): the clip second of the record then in force (R57, log 15), and the tick. -/
def execCallTimer (s : State) : Host.Outcome State Fault Refusal :=
  match s.ct.tickAt with
  | none => .next s
  | some t =>
    let s := s.reach t
    let saturated := s.ct.records.any (·.clipSaturates s.ap.clip)
    let s := s.setCt { s.ct with
      records := s.ct.records.map (·.clipSecond s.ap.clip)
      tickAt := some (t + 1000) }
    let s := s.raiseIf saturated .meterSaturated
    let m := tickedCalls s.now s.ct.records
    .next ((s.raiseTimes .callState m.2).setCalls m.1).finish

/-! ### The expiries of one record (log 14) -/

/-- START_COUNTDOWN_EXPIRY (R48): a record that waits for its start starts, ACTIVE or deferred. -/
def execStartCountdownExpiry (callId : Nat) (s : State) : Host.Outcome State Fault Refusal :=
  match findCall callId s.ct.records with
  | none => .next s
  | some r =>
    if r.waiting then
      let r := r.started s.now r.duration (slotFree s.ct.records)
      .next ((s.raise .callState).setCalls (putCall r s.ct.records)).finish
    else .next s

/-- REMAINING_ACTIVE_EXPIRY (R50): an ACTIVE record becomes ENDING. -/
def execRemainingActiveExpiry (callId : Nat) (s : State) : Host.Outcome State Fault Refusal :=
  match findCall callId s.ct.records with
  | none => .next s
  | some r =>
    if r.state = .active then
      let r := { r with remaining := 0, state := .ending }
      .next ((s.raise .callState).setCalls (putCall r s.ct.records)).finish
    else .next s

/-- DEFERRED_EXPIRY (R49): a deferred record becomes DONE with nothing delivered. -/
def execDeferredExpiry (callId : Nat) (s : State) : Host.Outcome State Fault Refusal :=
  match findCall callId s.ct.records with
  | none => .next s
  | some r =>
    if r.state = .pending ∧ r.deferred = true then
      let r := { r with remaining := 0 }.finished false
      .next ((s.raise .callState).setCalls (putCall r s.ct.records)).finish
    else .next s

/-- RETENTION_EXPIRY (R53): a final record is deleted, with no event. -/
def execRetentionExpiry (callId : Nat) (s : State) : Host.Outcome State Fault Refusal :=
  match findCall callId s.ct.records with
  | none => .next s
  | some r =>
    if r.isFinal then
      .next (s.setCt { s.ct with records := s.ct.records.filter (·.callId != callId) })
    else .next s

/-! ### Echoes and repeats -/

/-- The ECHO of a live record (R55), or none of a final one. -/
def CallRecord.echo (r : CallRecord) : Option CallFrame :=
  let frame (carried : CarriedState) (mark : Bool) (countdown : Nat) : CallFrame := {
    callId := r.callId
    revision := r.revision
    kind := .echo
    origin := r.origin
    carried := carried
    cancelledMark := mark
    target := r.target
    ramp := r.ramp
    duration := r.duration
    countdown := countdown }
  match r.state with
  | .pending =>
    if r.deferred then some (frame .active false r.remaining)
    else some (frame .pending false r.countdown)
  | .active => some (frame .active false r.remaining)
  | .ending => some (frame .ending r.cancelledMark 0)
  | _ => none

/-- Hand frames to the Line Port one after the other. -/
def State.enqueueAll (s : State) : List CallFrame → State
  | [] => s
  | d :: ds => (s.enqueue (.dispatch d)).enqueueAll ds

/-- ECHO_TIMER (R55). -/
def execEchoTimer (s : State) : Host.Outcome State Fault Refusal :=
  match s.ct.echoAt with
  | none => .next s
  | some t =>
    let s := s.reach t
    let s := s.enqueueAll (s.ct.records.filterMap CallRecord.echo)
    .next s.startEchoTimer.takeFrame

/-- The earliest moment at which an outstanding copy falls due (R54). -/
def earliestCopy : List RepeatEntry → Option Nat
  | [] => none
  | e :: es =>
    match e.due.min?, earliestCopy es with
    | none, m => m
    | some t, none => some t
    | some t, some u => some (min t u)

/-- Take the copy due at a moment from the oldest command that has one (R54). -/
def takeCopy (t : Nat) : List RepeatEntry → Option CallFrame × List RepeatEntry
  | [] => (none, [])
  | e :: es =>
    if t ∈ e.due then
      let left := e.due.erase t
      (some e.frame, if left.isEmpty then es else { e with due := left } :: es)
    else
      let m := takeCopy t es
      (m.1, e :: m.2)

/-- REPEAT_COPY_DUE (R54): the next outstanding copy is handed to the Line Port. -/
def execRepeatCopyDue (s : State) : Host.Outcome State Fault Refusal :=
  match earliestCopy s.ct.repeats with
  | none => .next s
  | some t =>
    let s := s.reach t
    let m := takeCopy t s.ct.repeats
    let s := s.setCt { s.ct with repeats := m.2 }
    match m.1 with
    | none => .next s
    | some d => .next (s.enqueue (.dispatch d)).takeFrame

/-- The repeat list with the two further copies of a CALL (R54): at most 8 commands, the oldest going first. -/
def withRepeats (rs : List RepeatEntry) (d : CallFrame) (now : Nat) : List RepeatEntry :=
  (if 8 ≤ rs.length then rs.drop (rs.length - 7) else rs) ++ [⟨d, [now + 300, now + 600]⟩]

/-- Send a CALL on the line: the first copy at once, two more on the repeat list (R54). -/
def State.sendCall (s : State) (d : CallFrame) : State :=
  (s.setCt { s.ct with repeats := withRepeats s.ct.repeats d s.now }).enqueue (.dispatch d)

end Sys2Proof.Machine
end

