-- ==== Sys2Proof/Machine/Metering.lean ====
section
/-!
DEFINITION. The Meter's and the Energy Account's commands, and the apportion step: METER_SAMPLE (R66, R56,
R77, R78), DEPARTURE_MINUTE (R64) and APPORTION_STEP (R83).
-/

namespace Sys2Proof.Machine

/-- Joules of one sample of a power (R66): 10 J for each unit. -/
def sampleJoules (units : Nat) : Nat := 10 * units

/-- Drain the estimate (R66): with a record held, the residue takes the sample, and each 360 000 J take one
unit from the estimate, not below 0. -/
def EnergyAccount.drained (a : EnergyAccount) (measured : Nat) : EnergyAccount :=
  match a.record with
  | none => a
  | some _ =>
    let j := a.residue + sampleJoules measured
    { a with estimate := a.estimate - j / 360000, residue := j % 360000 }

/-- An accumulator in Wh with its residue takes a number of joules and saturates at a limit (R56, R57). -/
def meterAdd (limit wh residue joules : Nat) : Nat × Nat :=
  let j := residue + joules
  (min limit (wh + j / 3600), j % 3600)

/-- The limit of the total meter (R78). -/
def totalLimit : Nat := 999999999

/-- The total meter with its residue takes a number of joules (R78); once it stands at its limit, later samples add
nothing, to the residue neither. -/
def totalAdd (wh residue joules : Nat) : Nat × Nat :=
  if totalLimit ≤ wh then (totalLimit, residue) else meterAdd totalLimit wh residue joules

/-- The meter first reaches its limit. -/
def firstReaches (limit before after : Nat) : Bool := decide (before < limit ∧ limit ≤ after)

/-- The accumulators take a sample (R56): the measured power, and the share's excess over it. -/
def Accumulators.sampled (a : Accumulators) (measured share : Nat) : Accumulators :=
  let d := meterAdd 999999 a.delivered a.deliveredJ (sampleJoules measured)
  let f := meterAdd 999999 a.shortfall a.shortfallJ (sampleJoules (share - measured))
  { a with delivered := d.1, deliveredJ := d.2, shortfall := f.1, shortfallJ := f.2 }

/-- How many accumulators of a record first reach their limit with a sample (R57). -/
def Accumulators.saturations (a : Accumulators) (measured share : Nat) : Nat :=
  let b := a.sampled measured share
  (firstReaches 999999 a.delivered b.delivered).toNat +
    (firstReaches 999999 a.shortfall b.shortfall).toNat

/-- The record in force takes a sample (R56). -/
def CallRecord.sampled (r : CallRecord) (measured share : Nat) : CallRecord :=
  if r.inForce then { r with accumulators := r.accumulators.map (·.sampled measured share) } else r

/-- How many accumulators of the record in force first reach their limit. -/
def CallRecord.saturations (r : CallRecord) (measured share : Nat) : Nat :=
  if r.inForce then
    match r.accumulators with
    | some a => a.saturations measured share
    | none => 0
  else 0

/-- METER_SAMPLE (R77): the three receivers take the measured sample and the share in force as they stand at
the sample. -/
def execMeterSample (s : State) : Host.Outcome State Fault Refusal :=
  match s.mt.sampleAt with
  | none => .next s
  | some t =>
    let s := s.reach t
    let measured := s.cc.measured
    let share := s.share
    let total := totalAdd s.mt.total s.mt.residue (sampleJoules measured)
    let saturations := (s.ct.records.map (·.saturations measured share)).sum +
      (firstReaches totalLimit s.mt.total total.1).toNat
    let ea := s.ea.drained measured
    let falls := ea.estimate != s.ea.estimate
    let s := s.setMt { s.mt with total := total.1, residue := total.2, sampleAt := some (t + 100) }
    let s := s.setCt { s.ct with records := s.ct.records.map (·.sampled measured share) }
    let s := (s.setEa ea).raiseTimes .meterSaturated saturations
    if falls then .next s.finish else .next s

/-- DEPARTURE_MINUTE (R64): the countdown falls by 1 and stays at 0 once there. -/
def execDepartureMinute (s : State) : Host.Outcome State Fault Refusal :=
  match s.ea.minuteAt with
  | none => .next s
  | some t =>
    let s := s.reach t
    .next (s.setEa { s.ea with
      departureLeft := s.ea.departureLeft.map (· - 1)
      minuteAt := some (t + 60000) }).finish

/-- APPORTION_STEP (R83): the goal moves one goal step, and the share is computed with the trigger STEP; the
call notice of the same move is served by that computation. -/
def execApportionStep (s : State) : Host.Outcome State Fault Refusal :=
  match s.ap.stepAt with
  | none => .next s
  | some t =>
    let s := s.reach t
    let s := s.setAp { s.ap with stepAt := some (t + 500) }
    let m := moveGoal s.ct.records
    let s := (s.setCt { s.ct with records := m.1 }).raiseTimes .callState m.2
    .next (s.compute .step).finish

end Sys2Proof.Machine
end

