-- ==== Sys2Proof/Machine/CurbUnit.lean ====
section
/-!
DEFINITION. The Curb Unit's commands (chapter 6): CURB, SENSOR_SAMPLE and CURB_EXPIRY, with the application
of a curb, the step down and the cut.
-/

namespace Sys2Proof.Machine

/-- The curb in force after one of a level and a hold is applied (R110). -/
def curbApplied (held : Option Curb) (now level hold : Nat) : Curb :=
  match held with
  | none => ⟨level, now + 1000 * hold⟩
  | some c => ⟨min c.level level, max c.expiry (now + 1000 * hold)⟩

/-- The post is cut by a computation marked CURB (R112): the new share in force is 0, the setpoint stood above
0 before it, and the cut hold does not run. -/
def State.cutBy (s : State) (setpointBefore : Nat) : Bool :=
  s.share == 0 && decide (0 < setpointBefore) && !s.cu.cutHold

/-- The computation on a curb notice (R84, R97): the setpoint steps straight down to a lower share (R129), and
the cut is tested (R112). It does so too where the curb leaves the share as it was, or raises it, and the setpoint is
still falling above it, of which R111 says otherwise (DESIGN CHOICE, log 35). -/
def State.curbComputation (s : State) : State :=
  let before := s.cc.setpoint
  let s := s.compute .curb
  let cut := s.cutBy before
  let s := s.stepDown s.share
  if cut then (s.setCu { s.cu with cutHold := true }).raise .cut else s

/-- Apply a curb to the own post (R110). -/
def State.applyCurb (s : State) (level hold : Nat) : State :=
  (s.setCu { s.cu with curb := some (curbApplied s.cu.curb s.now level hold) }).curbComputation

/-- CURB (R109): the heard notice to the Peer View and the content to the Curb Unit (R33). -/
def execCurb (stall seq : Nat) (f : CurbWire) (s : State) : Host.Outcome State Fault Refusal :=
  if !s.receives then .next s
  else if stall = s.lp.stall then .next s.meetDuplicate.finish
  else
    let s := s.countReceived.heard stall seq
    let c := CurbWire.corrected f
    let s := s.setCu { s.cu with lastHeard := some ⟨stall, c⟩ }
    .next ((s.raise .curbReceived).applyCurb c.level c.hold).finish

/-- A reading within the valid range of the sensor (R106). -/
def validReading (t : Int) : Bool := decide (-40 ≤ t ∧ t ≤ 150)

/-- A sample originates a CURB (R108): valid, at or above CURB_TEMP, and none originated within 10 s. -/
def State.originates (s : State) (t : Int) : Bool :=
  validReading t && decide ((s.sp.config.curbTemp : Int) ≤ t) &&
    match s.cu.lastOrigination with
    | none => true
    | some u => decide (10000 ≤ s.now - u)

/-- Originate a CURB (R108): the frame, the moment, the event, and the own application. -/
def State.originate (s : State) (t : Int) : State :=
  let c := s.sp.config
  let s := s.enqueue (.curb ⟨c.curbLevel, c.curbHold, t⟩)
  let s := s.setCu { s.cu with lastOrigination := some s.now }
  (s.raise .curbSent).applyCurb c.curbLevel c.curbHold

/-- Judge a reading (R106): SENSOR_FAULT on the loss of a good reading. -/
def State.judgeReading (s : State) (t : Int) : State :=
  if validReading t then s.setCu { s.cu with sensor := .valid, sample := some t }
  else
    let lost := s.cu.sensor == .valid
    (s.setCu { s.cu with sensor := .invalid, sample := none }).raiseIf lost .sensorFault

/-- Take a sensor sample (R106, R108). -/
def State.takeSample (s : State) (t : Int) : State :=
  let s := s.judgeReading t
  if s.originates t then s.originate t else s

/-- SENSOR_SAMPLE (R106): while sampling runs, the level on TSENSE is sampled; else it is only a level. -/
def execSensorSample (reading : Int) (s : State) : Host.Outcome State Fault Refusal :=
  let s := s.setCu { s.cu with tsense := reading }
  match s.cu.sampleAt with
  | none => .next s
  | some t =>
    let s := (s.reach t).setCu { s.cu with sampleAt := some (t + 1000) }
    let originates := s.originates reading
    let s := s.takeSample reading
    if originates then .next s.finish else .next s

/-- CURB_EXPIRY (R114): the curb in force and any cut hold end. -/
def execCurbExpiry (s : State) : Host.Outcome State Fault Refusal :=
  match s.cu.curb with
  | none => .next s
  | some c =>
    let s := s.reach c.expiry
    .next (s.setCu { s.cu with curb := none, cutHold := false }).finish

end Sys2Proof.Machine
end

