-- ==== Sys2Proof/Machine/Converter.lean ====
section
/-!
DEFINITION. Converter Control's commands (chapter 7): MEAS_STB, FAULT_HIGH, PRECHARGE_EXPIRY, STABLE_EXPIRY,
RETRY_EXPIRY, LINGER_EXPIRY, STOP_COMPLETE and SLEW_STEP.
-/

namespace Sys2Proof.Machine

/-- MEAS_STB (R131): the value on MEAS[9:0] is the measured sample, in every state and mode. -/
def execMeasStb (sample : Nat) (s : State) : Host.Outcome State Fault Refusal :=
  .next (s.setCc { s.cc with measured := sample % 1024 })

/-- FAULT_HIGH (R122): a trip in PRECHARGING and ON; in the other states only the level is high. -/
def execFaultHigh (s : State) : Host.Outcome State Fault Refusal :=
  let s := s.setCc { s.cc with fault := true }
  if s.cc.state.enabled then .next (s.convFails .convTrip).finish else .next s

/-- PRECHARGE_EXPIRY (R121): READY is read at the expiry alone. -/
def execPrechargeExpiry (ready : Bool) (s : State) : Host.Outcome State Fault Refusal :=
  let s := s.setCc { s.cc with ready := ready }
  match s.cc.prechargeAt with
  | none => .next s
  | some t =>
    let s := s.reach t
    if ready then
      .next (s.setCc { s.cc with
        state := .on
        prechargeAt := none
        stableAt := some (s.now + 60000)
        lingerAt := if s.startRequest then none else some (s.now + 30000) }).finish
    else .next (s.convFails .convStartFail).finish

/-- STABLE_EXPIRY (R123): the failure count is set to 0. The timer that has run out is held, and shown, as stopped
(DESIGN CHOICE, log 33). -/
def execStableExpiry (s : State) : Host.Outcome State Fault Refusal :=
  match s.cc.stableAt with
  | none => .next s
  | some t =>
    let s := s.reach t
    .next (s.setCc { s.cc with stableAt := none, failures := 0 })

/-- RETRY_EXPIRY (R124): OFF, and on to PRECHARGING where the start request holds (R120). -/
def execRetryExpiry (s : State) : Host.Outcome State Fault Refusal :=
  match s.cc.retryAt with
  | none => .next s
  | some t =>
    let s := s.reach t
    .next (s.setCc { s.cc with retryAt := none, state := .off }).finish

/-- LINGER_EXPIRY (R125): a stop is requested. The timer that has run out is held, and shown, as stopped (DESIGN CHOICE,
log 33). -/
def execLingerExpiry (s : State) : Host.Outcome State Fault Refusal :=
  match s.cc.lingerAt with
  | none => .next s
  | some t =>
    let s := s.reach t
    .next (s.setCc { s.cc with lingerAt := none }).requestStop.finish

/-- STOP_COMPLETE (R126): the held stop completes when nothing holds it. -/
def execStopComplete (s : State) : Host.Outcome State Fault Refusal :=
  if s.stopReady then .next (s.setCc s.cc.disabled).finish else .next s

/-- The setpoint after a slew step toward a target (R128). -/
def slewed (setpoint target riseStep : Nat) : Nat :=
  if setpoint < target then min target (setpoint + riseStep) else max target (setpoint - 30)

/-- SLEW_STEP (R128). -/
def execSlewStep (s : State) : Host.Outcome State Fault Refusal :=
  match s.cc.slewAt with
  | none => .next s
  | some t =>
    let s := s.reach t
    let v := slewed s.cc.setpoint s.target s.sp.config.riseStep
    let moves := v != s.cc.setpoint
    let s := s.setCc { s.cc with setpoint := v, slewAt := some (t + 100) }
    if moves then .next s.finish else .next s

end Sys2Proof.Machine
end

