-- ==== Sys2Proof/Machine/VehicleLink.lean ====
section
/-!
DEFINITION. The Vehicle Link's commands of chapter 8: the plug, the requests and their replies, the identify,
the failures' retries, polling and refresh.
-/

namespace Sys2Proof.Machine

/-! ### The plug -/

/-- PLUG_HIGH (R137): the level is met at once where the Vehicle Link runs, and wakes a DORMANT post (R174). -/
def execPlugHigh (s : State) : Host.Outcome State Fault Refusal :=
  .next (s.setVl { s.vl with plug := true }).finish

/-- PLUG_LOW (R138): a session that is not ABSENT ends; a release owed is cleared (R146). -/
def execPlugLow (s : State) : Host.Outcome State Fault Refusal :=
  if s.vl.session = .absent then
    .next (s.setVl { s.vl with plug := false, releaseOwed := false })
  else
    let s := s.setVl { s.vl.absentWith false with plug := false }
    let s := (s.discardRecord.stepDown 0).raise .vehicleDetached
    .next s.finish

/-- WAKE_EXPIRY (R137): the session enters IDENTIFYING. -/
def execWakeExpiry (s : State) : Host.Outcome State Fault Refusal :=
  match s.vl.wakeAt with
  | none => .next s
  | some t => .next (s.reach t).enterIdentifying.finish

/-! ### Requests -/

/-- The due requests in the order of R139. -/
def VehicleLink.dueList (v : VehicleLink) : List Request :=
  (if v.due.release then [.release] else []) ++
  (if v.due.engage then [.engage] else []) ++
  (v.due.tune.map Request.tune).toList ++
  (if v.due.identify then [.identifyQuery v.items.length] else []) ++
  (v.due.refresh.map Request.refreshQuery).toList ++
  (if v.due.poll then [.poll] else [])

/-- The session states in which a kind of request is sent (R139, R147, R148, R152). -/
def VehicleLink.allows (v : VehicleLink) : Request → Bool
  | .release => v.session == .releasing || v.session == .identifying
  | .engage => v.session == .ready
  | .tune _ => v.session == .tuning
  | .identifyQuery _ => v.session == .identifying
  | .refreshQuery _ => v.session == .ready || v.session == .exporting
  | .poll => v.polling

/-- The request that is taken next, when none is in flight (R139). -/
def VehicleLink.nextRequest (v : VehicleLink) : Option Request :=
  match v.inFlight with
  | some _ => none
  | none => v.dueList.find? v.allows

/-- The due requests without one that is taken. -/
def DueRequests.without (d : DueRequests) : Request → DueRequests
  | .release => { d with release := false }
  | .engage => { d with engage := false }
  | .tune _ => { d with tune := none }
  | .identifyQuery _ => { d with identify := false }
  | .refreshQuery _ => { d with refresh := none }
  | .poll => { d with poll := false }

/-- Take a request for sending (R139): it gets the next number. The refresh timer starts again when the first
of its two reads is taken (R148), and the session enters ENGAGING with an ENGAGE (R158). -/
def State.takeRequest (s : State) (r : Request) : State :=
  let number := (s.vl.counter + 1) % 256
  s.setVl { s.vl with
    due := s.vl.due.without r
    counter := number
    inFlight := some ⟨r, number, 1, none⟩
    session := if r = .engage then .engaging else s.vl.session
    refreshAt := if r = .refreshQuery 2 then some (s.now + 60000) else s.vl.refreshAt }

/-- PILOT_REQUEST_TAKEN (R139). -/
def execPilotRequestTaken (s : State) : Host.Outcome State Fault Refusal :=
  match s.vl.nextRequest with
  | none => .next s
  | some r => if r = .engage then .next (s.takeRequest r).finish else .next (s.takeRequest r)

/-- REQUEST_SENT (R139): the reply timer starts. -/
def execRequestSent (s : State) : Host.Outcome State Fault Refusal :=
  match s.vl.inFlight with
  | none => .next s
  | some f =>
    if f.replyAt.isSome then .next s
    else .next (s.setVl { s.vl with inFlight := some { f with replyAt := some (s.now + 200) } })

/-- REPLY_TIMER_EXPIRY (R140): the same request is sent again, or the link is lost (R141). -/
def execReplyTimerExpiry (s : State) : Host.Outcome State Fault Refusal :=
  match s.vl.inFlight with
  | none => .next s
  | some f =>
    match f.replyAt with
    | none => .next s
    | some t =>
      let s := s.reach t
      if f.attempt < 3 then
        .next (s.setVl { s.vl with
          inFlight := some { f with attempt := f.attempt + 1, replyAt := none } })
      else .next s.linkLost.finish

/-- PILOT_FRAME_DISREGARDED (R139): the request in flight and its timer are unaffected. -/
def execPilotFrameDisregarded (s : State) : Host.Outcome State Fault Refusal := .next s

/-- The request in flight, when a reply carries its number (R139). -/
def State.answeredBy (s : State) (number : Nat) : Option Request :=
  match s.vl.inFlight with
  | some f => if f.number = number then some f.request else none
  | none => none

/-- A reply ends the request and stops its reply timer (R139). -/
def State.endRequest (s : State) : State := s.setVl { s.vl with inFlight := none }

/-! ### Identify -/

/-- Hold an item and make the QUERY of the next one due (R142). -/
def State.holdItem (s : State) (v : Option Int) : State :=
  s.setVl { s.vl with items := s.vl.items ++ [v], due := { s.vl.due with identify := true } }

/-- The bus record that the items 0 to 6 make (R62); an item 3 or 6 answered UNSUPPORTED is defaulted, an
item 4 is unknown. -/
def busRecordOf (items : List (Option Int)) (routeDefault : Nat) : Option BusRecord :=
  match items with
  | [some bus, some capacity, some soe, route, departure, some pack, minTemp] =>
    some {
      bus := bus.toNat
      capacity := capacity.toNat
      soe := min soe.toNat capacity.toNat
      route := match route with | some r => r.toNat | none => routeDefault
      routeDefaulted := route.isNone
      departure := departure.map Int.toNat
      packTemp := pack
      minTemp := minTemp.getD (-20)
      minTempDefaulted := minTemp.isNone }
  | _ => none

/-- The first TUNE code (R153). -/
def firstCode : TuneStart → TuneCode
  | .default => .startDefault
  | .top => .startTop

/-- The identify completes (R142): the record goes to the Energy Account whole, and tuning begins (R153). -/
def State.identifyCompletes (s : State) : State :=
  match busRecordOf s.vl.items s.sp.config.routeDefault with
  | none => s.identifyFails (.identifyItem 7)
  | some r =>
    let s := s.takeRecord r
    let s := s.setVl { s.vl with
      identifyAt := none
      requeryAt := none
      items := []
      due := { s.vl.due with identify := false } }
    s.enterTuning .initial (firstCode s.sp.config.tuneStart)

/-- An ITEM of the identify (R142). -/
def State.identifyItem (s : State) (k : Nat) (v : Int) : State :=
  if k = 7 then
    if v = 1 then s.identifyCompletes else s.identifyFails (.identifyItem 7)
  else s.holdItem (some (itemCorrected k v))

/-- A refresh goes on from its first read to its second, in the polling states (R148). -/
def State.refreshGoesOn (s : State) (k : Nat) : State :=
  if k = 2 ∧ s.vl.polling = true then
    s.setVl { s.vl with due := { s.vl.due with refresh := some 5 } }
  else s

/-- An ITEM of a refresh (R148): item 2 to the estimate (R67), item 5 to the pack temperature (R65). -/
def State.refreshItem (s : State) (k : Nat) (v : Int) : State :=
  let v := itemCorrected k v
  if k = 2 then (s.refreshEnergy v.toNat).refreshGoesOn k
  else s.replacePack v

/-- ITEM (R142, R148, R185). -/
def execItem (number k : Nat) (v : Int) (s : State) : Host.Outcome State Fault Refusal :=
  match s.answeredBy number with
  | some (.identifyQuery i) =>
    if k = i then .next (s.endRequest.identifyItem k v).finish else .next s
  | some (.refreshQuery i) =>
    if k = i then .next (s.endRequest.refreshItem k v).finish else .next s
  | _ => .next s

/-- NOT_READY (R142, R148). -/
def execNotReady (number k : Nat) (s : State) : Host.Outcome State Fault Refusal :=
  match s.answeredBy number with
  | some (.identifyQuery i) =>
    if k = i then .next (s.endRequest.setVl { s.endRequest.vl with requeryAt := some (s.now + 100) })
    else .next s
  | some (.refreshQuery i) =>
    if k = i then .next (s.endRequest.refreshGoesOn k) else .next s
  | _ => .next s

/-- The items that a bus may answer UNSUPPORTED (R142). -/
def optionalItem (k : Nat) : Bool := k == 3 || k == 4 || k == 6

/-- UNSUPPORTED (R142, R148). -/
def execUnsupported (number k : Nat) (s : State) : Host.Outcome State Fault Refusal :=
  match s.answeredBy number with
  | some (.identifyQuery i) =>
    if k = i then
      if optionalItem k then .next (s.endRequest.holdItem none)
      else .next (s.endRequest.identifyFails (.identifyItem k)).finish
    else .next s
  | some (.refreshQuery i) =>
    if k = i then .next (s.endRequest.refreshGoesOn k) else .next s
  | _ => .next s

/-- IDENTIFY_EXPIRY (R143). -/
def execIdentifyExpiry (s : State) : Host.Outcome State Fault Refusal :=
  match s.vl.identifyAt with
  | none => .next s
  | some t => .next ((s.reach t).identifyFails .identifyTimeout).finish

/-- REQUERY_EXPIRY (R142). The delay that has run out is held, and shown, as stopped (DESIGN CHOICE, log 33). -/
def execRequeryExpiry (s : State) : Host.Outcome State Fault Refusal :=
  match s.vl.requeryAt with
  | none => .next s
  | some t =>
    let s := s.reach t
    .next (s.setVl { s.vl with requeryAt := none, due := { s.vl.due with identify := true } })

/-- SESSION_RETRY_EXPIRY (R145): IDENTIFYING, with no wake pulse. -/
def execSessionRetryExpiry (s : State) : Host.Outcome State Fault Refusal :=
  match s.vl.retryAt with
  | none => .next s
  | some t => .next (s.reach t).enterIdentifying.finish

/-! ### Polling and refresh -/

/-- The request in flight is a POLL. -/
def VehicleLink.pollInFlight (v : VehicleLink) : Bool :=
  match v.inFlight with
  | some f => f.request == .poll
  | none => false

/-- The request in flight is a refresh QUERY. -/
def VehicleLink.refreshInFlight (v : VehicleLink) : Bool :=
  match v.inFlight with
  | some f =>
    match f.request with
    | .refreshQuery _ => true
    | _ => false
  | none => false

/-- POLL_EXPIRY (R147): a POLL that is due or in flight is not doubled. -/
def execPollExpiry (s : State) : Host.Outcome State Fault Refusal :=
  match s.vl.pollAt with
  | none => .next s
  | some t =>
    let s := s.reach t
    .next (s.setVl { s.vl with
      due := { s.vl.due with poll := s.vl.due.poll || !s.vl.pollInFlight }
      pollAt := some (s.now + s.sp.mode.pollPeriod) })

/-- REFRESH_EXPIRY (R148): a refresh becomes due. One that is due or in flight is not doubled, and its timer
runs on (R139). A timer that has run out while its refresh waits to be taken is held, and shown, as stopped (DESIGN
CHOICE, log 33). -/
def execRefreshExpiry (s : State) : Host.Outcome State Fault Refusal :=
  match s.vl.refreshAt with
  | none => .next s
  | some t =>
    let s := s.reach t
    if s.vl.due.refresh.isSome || s.vl.refreshInFlight then
      .next (s.setVl { s.vl with refreshAt := some (s.now + 60000) })
    else .next (s.setVl { s.vl with refreshAt := none, due := { s.vl.due with refresh := some 2 } })

end Sys2Proof.Machine
end

