-- ==== Sys2Proof/Machine/Session.lean ====
section
/-!
DEFINITION. The tuning and export session's commands of chapter 9: TUNED and the tuning timers, the retune,
ENGAGED and DECLINED, RELEASED, and POLLED.
-/

namespace Sys2Proof.Machine

/-! ### Tuning -/

/-- A TUNE is made due with a code, which becomes the code in use (R152, R154). -/
def State.makeTune (s : State) (code : TuneCode) : State :=
  s.setVl { s.vl with code := some code, due := { s.vl.due with tune := some code } }

/-- Tuning is done (R155): SETTLING, the settle timer at 1 s, and a TUNE HOLD due. -/
def State.beginSettle (s : State) : State :=
  (s.setVl { s.vl with
    tuningAt := none
    stepAt := none
    phase := .settling
    holdAnswered := false
    settleAt := some (s.now + 1000) }).makeTune .hold

/-- What a TUNED reply in STEPPING leads to (R154). -/
inductive TuneAction where
  | done | again | up | down
  deriving DecidableEq, Repr

/-- The first row of R154's table that fits. -/
def tuneAction (level desired : Nat) (status : TuneStatus) : TuneAction :=
  if level = desired then .done
  else if level < desired ∧ status = .atTop then .done
  else if desired < level ∧ status = .atBottom then .done
  else if status = .unchanged then .again
  else if level < desired then .up
  else .down

/-- A TUNED reply to a START, UP or DOWN in STEPPING (R154). -/
def State.tuneReply (s : State) (status : TuneStatus) (level : Nat) : State :=
  let s := s.setVl { s.vl with busLevel := some level, busStatus := some status }
  match tuneAction level s.vl.desired status with
  | .done => s.beginSettle
  | .again => s.setVl { s.vl with stepAt := some (s.now + 100) }
  | .up => s.makeTune .up
  | .down => s.makeTune .down

/-- The allowance that a settle wait agrees (R155): the least of the bus level, D and the last ceiling. -/
def agreedAllowance (level desired : Nat) (ceiling : Option Nat) : Nat :=
  match ceiling with
  | some c => min (min level desired) c
  | none => min level desired

/-- The settle wait ends (R155): READY, with the allowance; after an identify the failure count is cleared,
VEHICLE_READY raised and the poll and refresh timers started (R144, R147, R148).In the wait of a restart too (R165),
with what READY makes of the offer there (DESIGN CHOICE, log 38). -/
def State.settleEnds (s : State) : State :=
  let level := s.vl.busLevel.getD 0
  let clamp := decide (s.sp.config.allowCeil < level)
  let first := s.vl.kind == .initial
  let s := s.setVl { s.vl with
    allowance := agreedAllowance level s.vl.desired s.vl.lastCeiling
    phase := .idle
    settleAt := none
    session := .ready
    failures := if first then 0 else s.vl.failures
    pollAt := if first then some (s.now + s.sp.mode.pollPeriod) else s.vl.pollAt
    refreshAt := if first then some (s.now + 60000) else s.vl.refreshAt }
  (s.raiseIf clamp .rangeClamp).raiseIf first .vehicleReady

/-- The TUNED reply to the HOLD of the settle wait (R155). -/
def State.holdReply (s : State) (status : TuneStatus) (level : Nat) : State :=
  let s := s.setVl { s.vl with
    busLevel := some level
    busStatus := some status
    holdAnswered := true }
  if s.vl.settleAt.isNone then s.settleEnds else s

/-- TUNED (R154, R155, R185). -/
def execTuned (number status level : Nat) (s : State) : Host.Outcome State Fault Refusal :=
  match s.answeredBy number with
  | some (.tune code) =>
    let s := s.endRequest
    let status := tuneStatusOfCode status
    let level := levelCorrected level
    if code = .hold ∧ s.vl.phase = .settling then .next (s.holdReply status level).finish
    else if code ≠ .hold ∧ s.vl.phase = .stepping then .next (s.tuneReply status level).finish
    else .next s
  | _ => .next s

/-- The request in flight is a TUNE. -/
def VehicleLink.tuneInFlight (v : VehicleLink) : Bool :=
  match v.inFlight with
  | some f =>
    match f.request with
    | .tune _ => true
    | _ => false
  | none => false

/-- TUNING_EXPIRY (R156): the tuning fails; a TUNE in flight is abandoned, another request stays. -/
def execTuningExpiry (s : State) : Host.Outcome State Fault Refusal :=
  match s.vl.tuningAt with
  | none => .next s
  | some t =>
    let s := s.reach t
    let s := if s.vl.tuneInFlight then s.endRequest else s
    .next ((s.raise .tuneFailed).failSession .tuning 60000).finish

/-- STEP_DELAY_EXPIRY (R154): a TUNE with the same code is made due. The delay that has run out is held, and shown, as
stopped (DESIGN CHOICE, log 33). -/
def execStepDelayExpiry (s : State) : Host.Outcome State Fault Refusal :=
  match s.vl.stepAt with
  | none => .next s
  | some t =>
    let s := s.reach t
    .next (s.setVl { s.vl with stepAt := none, due := { s.vl.due with tune := s.vl.code } })

/-- SETTLE_EXPIRY (R155): the wait ends if HOLD has been answered. A timer that has run out with HOLD unanswered is
held, and shown, as stopped (DESIGN CHOICE, log 33). -/
def execSettleExpiry (s : State) : Host.Outcome State Fault Refusal :=
  match s.vl.settleAt with
  | none => .next s
  | some t =>
    let s := s.reach t
    let s := s.setVl { s.vl with settleAt := none }
    if s.vl.holdAnswered then .next s.settleEnds.finish else .next s

/-- RETUNE_EXPIRY (R157): retune due is set, and the timer starts again. -/
def execRetuneExpiry (s : State) : Host.Outcome State Fault Refusal :=
  match s.vl.retuneAt with
  | none => .next s
  | some t =>
    let s := s.reach t
    .next (s.setVl { s.vl with retuneDue := true, retuneAt := some (s.now + 60000) })

/-- RETUNE_BEGIN (R157). -/
def execRetuneBegin (s : State) : Host.Outcome State Fault Refusal :=
  if s.retuneOpen then .next (s.enterTuning .retune .up).finish else .next s

/-! ### Engage and release -/

/-- ENGAGED (R159): the session becomes EXPORTING; a session that a RESTART has moved is not moved (R150). -/
def execEngaged (number : Nat) (s : State) : Host.Outcome State Fault Refusal :=
  match s.answeredBy number with
  | some .engage =>
    let s := s.endRequest
    if s.vl.session = .engaging then .next (s.setSession .exporting).finish else .next s
  | _ => .next s

/-- DECLINED (R159): back to READY, with the engage hold at 10 s. -/
def execDeclined (number : Nat) (s : State) : Host.Outcome State Fault Refusal :=
  match s.answeredBy number with
  | some .engage =>
    let s := s.endRequest
    if s.vl.session = .engaging then
      .next (s.setVl { s.vl with session := .ready, engageHoldAt := some (s.now + 10000) }).finish
    else .next s
  | _ => .next s

/-- ENGAGE_HOLD_EXPIRY (R159): R158 is tested again. -/
def execEngageHoldExpiry (s : State) : Host.Outcome State Fault Refusal :=
  match s.vl.engageHoldAt with
  | none => .next s
  | some t =>
    let s := s.reach t
    .next (s.setVl { s.vl with engageHoldAt := none }).finish

/-- SHARE_ZERO_EXPIRY (R160): a release is decided if the setpoint is 0. The timer that has run out is held, and shown,
as stopped (DESIGN CHOICE, log 33). -/
def execShareZeroExpiry (s : State) : Host.Outcome State Fault Refusal :=
  match s.vl.shareZeroAt with
  | none => .next s
  | some t =>
    let s := s.reach t
    .next (s.setVl { s.vl with shareZeroAt := none, shareZeroOut := true }).finish

/-- RELEASED (R161): back to READY; an owed RELEASE is cleared and the identify goes on (R142, R146). It does so in the
wait of a restart too (DEDUCED, log 17), with what READY makes of the offer there (DESIGN CHOICE, log 38). -/
def execReleased (number : Nat) (s : State) : Host.Outcome State Fault Refusal :=
  match s.answeredBy number with
  | some .release =>
    let s := s.endRequest
    let s := s.setVl { s.vl with releaseOwed := false }
    if s.vl.session = .releasing then .next (s.setSession .ready).finish else .next s
  | _ => .next s

/-! ### POLLED -/

/-- The ceiling of a POLLED (R163). -/
def State.meetCeiling (s : State) (c : Nat) : State :=
  let lowered := decide (c < s.vl.allowance)
  let s := s.setVl { s.vl with lastCeiling := some c, allowance := min s.vl.allowance c }
  s.raiseIf lowered .ceilingLowered

/-- The STOP flag of a POLLED (R162). -/
def State.meetStop (s : State) (flag : Bool) : State :=
  if flag then
    if s.vl.stopLatch then s
    else ((s.setVl { s.vl with stopLatch := true }).stepDown 0).raise .stopRequest
  else s.setVl { s.vl with stopLatch := false }

/-- POLLED (R163): the pack temperature (R65), then the ceiling, then the STOP flag (R162). Each value is met with
what comes about at once from it (R73, R82, R119) before the next is: a COLD_LOCK that ceases lets the start request
enable the converter before the STOP flag of the same reply holds it back. -/
def execPolled (number flags ceiling : Nat) (t : Int) (s : State) :
    Host.Outcome State Fault Refusal :=
  match s.answeredBy number with
  | some .poll =>
    let s := (s.endRequest.replacePack (packTempCorrected t)).finish
    let s := (s.meetCeiling (levelCorrected ceiling)).finish
    .next (s.meetStop (flags.testBit 0)).finish
  | _ => .next s

end Sys2Proof.Machine
end

