-- ==== Sys2Proof/Machine/Reports.lean ====
section
/-!
DEFINITION. What the supervisor reads: the STATUS data (R179) and the records of the four reports (R180), each
field a signed word or absent, in the order that its contents rule lists it (R21, R38, R61, R80, R104, R117,
R135, R151, R167, R168; section 11.3). The layouts that no rule fixes are in log 19.
-/

namespace Sys2Proof.Machine

/-! ### Words -/

/-- A field of a record: a number, or absent. -/
abbrev ReportWord := Option Int

/-- A flag as a word. -/
def flagWord (b : Bool) : ReportWord := some (if b then 1 else 0)

/-- A number as a word. -/
def natWord (n : Nat) : ReportWord := some (n : Int)

/-- A set as a bit mask, the first member bit 0 (section 11.3). -/
def maskOf : List Bool → Nat
  | [] => 0
  | b :: bs => (if b then 1 else 0) + 2 * maskOf bs

/-- The ms that a timer has left; absent when it is stopped (log 19). -/
def msLeft (now : Nat) (t : Timer) : ReportWord := t.map fun u => ((u - now : Nat) : Int)

/-- The whole seconds that a timer has left, rounded up; absent when it is stopped (log 19). -/
def secondsLeft (now : Nat) (t : Timer) : ReportWord := t.map fun u => ((ceilDiv (u - now) 1000 : Nat) : Int)

/-! ### Codes: the position of a value in its defining table -/

def PostMode.code : PostMode → Nat
  | .config => 0
  | .active => 1
  | .parking => 2
  | .hold => 3
  | .dormant => 4
  | .lockout => 5

/-- The announced modes in the order of section 11.1 and R1. -/
def PostMode.announcedCode : PostMode → Nat
  | .config => 0
  | .active => 0
  | .parking => 1
  | .hold => 2
  | .dormant => 3
  | .lockout => 3

def SessionState.code : SessionState → Nat
  | .absent => 0
  | .attached => 1
  | .identifying => 2
  | .tuning => 3
  | .ready => 4
  | .engaging => 5
  | .exporting => 6
  | .releasing => 7
  | .retryWait => 8
  | .faulted => 9

def ConverterState.code : ConverterState → Nat
  | .off => 0
  | .precharging => 1
  | .on => 2
  | .retryWait => 3
  | .convFault => 4

def CallState.code : CallState → Nat
  | .pending => 0
  | .active => 1
  | .ending => 2
  | .done => 3
  | .cancelled => 4

def CallKind.code : CallKind → Nat
  | .new => 0
  | .revise => 1
  | .cancel => 2
  | .echo => 3

def OwnOutcome.code : OwnOutcome → Nat
  | .noOutcome => 0
  | .echoed => 1
  | .notEchoed => 2

def EntryState.code : EntryState → Nat
  | .fresh => 0
  | .stale => 1
  | .lost => 2

/-- The gates, 1 to 10 in the order of R74; no gate is 0 (section 11.3). -/
def gateCode : Option Gate → Nat
  | none => 0
  | some .mode => 1
  | some .session => 2
  | some .allowanceFloor => 3
  | some .departureGuard => 4
  | some .coldLock => 5
  | some .energyMinimum => 6
  | some .isolation => 7
  | some .cutHold => 8
  | some .converterDown => 9
  | some .busStop => 10

/-- The setting term, in the order of R72, with GATED last: no table defines it (DESIGN CHOICE, log 19). -/
def SettingTerm.code : SettingTerm → Nat
  | .converter => 0
  | .allowance => 1
  | .energy => 2
  | .gated => 3

def ClipCause.code : ClipCause → Nat
  | .allowance => 0
  | .energy => 1
  | .converter => 2
  | .headroom => 3
  | .noCause => 4

def Trigger.code : Trigger → Nat
  | .step => 0
  | .curb => 1
  | .call => 2
  | .gate => 3

def TempSource.code : TempSource → Nat
  | .ownSensor => 0
  | .peer _ => 1
  | .fallback => 2

/-- The stall that a temperature came from. -/
def TempSource.stall : TempSource → ReportWord
  | .peer k => natWord k
  | _ => none

def SensorState.code : SensorState → Nat
  | .noSample => 0
  | .valid => 1
  | .invalid => 2

/-- The notice side; no record is absent. -/
def NoticeSide.word : NoticeSide → ReportWord
  | .noRecord => none
  | .above => natWord 0
  | .below => natWord 1

def TuneCode.code : TuneCode → Nat
  | .startDefault => 0
  | .startTop => 1
  | .up => 2
  | .down => 3
  | .hold => 4

def TuneStatus.code : TuneStatus → Nat
  | .moved => 0
  | .atTop => 1
  | .atBottom => 2
  | .unchanged => 3

def TuningPhase.code : TuningPhase → Nat
  | .idle => 0
  | .stepping => 1
  | .settling => 2

def TuningKind.code : TuningKind → Nat
  | .initial => 0
  | .retune => 1

def LastFailure.code : LastFailure → Nat
  | .noFailure => 0
  | .identifyTimeout => 1
  | .identifyItem _ => 2
  | .tuning => 3
  | .link => 4

/-- The item of an IDENTIFY_ITEM failure: a word of its own behind the cause's code, absent for the other causes (DESIGN
CHOICE, log 19). -/
def LastFailure.item : LastFailure → ReportWord
  | .identifyItem k => natWord k
  | _ => none

/-- The kind of a request by its position in the table of section 8.3 that defines the five kinds: an identify QUERY
and a refresh QUERY are both a QUERY. -/
def Request.kindCode : Request → Nat
  | .identifyQuery _ => 0
  | .refreshQuery _ => 0
  | .tune _ => 1
  | .engage => 2
  | .release => 3
  | .poll => 4

/-- The argument of a request. -/
def Request.argument : Request → ReportWord
  | .tune c => natWord c.code
  | .identifyQuery k => natWord k
  | .refreshQuery k => natWord k
  | _ => none

/-- The class of a frame in flight, in the order of R22. -/
def FrameBody.classCode : FrameBody → Nat
  | .curb _ => 0
  | .dispatch _ => 1
  | .leave => 2
  | .standing _ => 3

/-! ### STATUS (R179) -/

/-- The STATUS data, taken at one moment. -/
def State.statusData (s : State) : StatusData where
  mode := s.sp.mode
  isolated := s.pv.isolated
  rejoining := s.pv.rejoining
  cut := s.cu.cutHold
  curbInForce := s.cu.curb.isSome
  restarting := s.sp.restarting.isSome
  keyPending := s.sp.pendingKey.isSome
  clampedPresent := s.sp.clamped.any id
  plug := s.vl.plug
  gate := s.gateInForce
  session := s.vl.session
  converter := s.cc.state
  share := s.share
  setpoint := s.cc.setpoint
  events := s.sp.events

/-! ### The records -/

/-- One PEERS record (R21). -/
def PeerEntry.report (now : Nat) (e : PeerEntry) : List ReportWord :=
  let a := e.announced
  [natWord e.stall, natWord e.lastSeq, natWord e.gap, natWord a.mode.announcedCode,
    natWord (maskOf [a.isolated, a.cut, a.rejoining]), natWord a.cls, natWord a.offer,
    natWord a.share, natWord a.actual, natWord a.energy, a.served.map Int.ofNat, a.temperature,
    natWord (e.state now).code, natWord (min 60 (e.age now / 1000))]

/-- One CALLS record (R61). -/
def CallRecord.report (r : CallRecord) : List ReportWord :=
  let sum (f : Accumulators → Nat) : ReportWord := r.accumulators.map fun a => (f a : Int)
  let when (p : Bool) (n : Nat) : ReportWord := if p then natWord n else none
  [natWord r.callId, natWord r.revision, natWord r.kind.code, natWord r.origin,
    natWord r.state.code, flagWord r.deferred, flagWord r.cancelledMark, natWord r.target,
    natWord r.ramp, natWord r.duration, natWord r.goal, flagWord r.serving,
    when r.waiting r.countdown, when r.running r.remaining, when r.isFinal r.retention,
    sum (·.delivered), sum (·.shortfall), sum (·.allowanceS), sum (·.energyS),
    sum (·.converterS), sum (·.headroomS)]

/-- The OWN record LINE (R38). -/
def State.lineReport (s : State) : List ReportWord :=
  let waiting (k : Nat) : ReportWord := natWord (s.lp.queue.countP (·.rank == k))
  [natWord s.lp.stats.sent, natWord s.lp.stats.received, natWord s.lp.stats.bad,
    natWord s.lp.stats.collisions, natWord s.lp.stats.attemptDrops, natWord s.lp.stats.queueDrops,
    natWord s.lp.seq, natWord s.lp.echoFailures, waiting 3, waiting 2, waiting 1, waiting 0,
    s.lp.inFlight.map fun f => (f.body.classCode : Int)]

/-- The OWN record PEER VIEW (R21). -/
def State.peerViewReport (s : State) : List ReportWord :=
  [natWord s.census, flagWord s.pv.isolated, natWord (maskOf [s.pv.causeSilence, s.pv.causeEcho]),
    flagWord s.pv.rejoining, msLeft s.now s.pv.rejoinAt, natWord s.pv.lastOutcome.code]

/-- The OWN record ENERGY (R80). -/
def State.energyReport (s : State) : List ReportWord :=
  let item (f : BusRecord → ReportWord) : ReportWord := s.ea.record.bind f
  [item (natWord ·.bus), item (natWord ·.capacity), item (natWord ·.soe), item (natWord ·.route),
    item (fun r => r.departure.map Int.ofNat), item (fun r => some r.packTemp),
    item (fun r => some r.minTemp), item (fun _ => natWord 1), item (flagWord ·.routeDefaulted),
    item (flagWord ·.minTempDefaulted), s.ea.departureLeft.map Int.ofNat, natWord s.ea.estimate,
    natWord s.ea.reported, natWord s.ea.residue, natWord s.adder, natWord s.reserveFloor,
    natWord s.energy, natWord s.cls, natWord s.timeBase, natWord s.energyPower, natWord s.offer,
    natWord s.settingTerm.code, natWord (gateCode s.gateInForce),
    natWord (maskOf (Gate.all.map s.gateHolds)), s.ea.side.word, natWord s.mt.total]

/-- The OWN record APPORTIONER (R104). -/
def State.apportionerReport (s : State) : List ReportWord :=
  let a := s.ap
  [some a.thetaMax, natWord a.source.code, a.source.stall, natWord a.derating, natWord a.lTherm,
    natWord a.lEff, natWord a.census, natWord a.lView, a.call.map Int.ofNat, natWord a.goal,
    natWord a.fixedLoad, natWord a.available, natWord a.participants, a.tier.map Int.ofNat,
    natWord a.result, natWord a.clip.code, natWord a.trigger.code, natWord s.share]

/-- The OWN record CURB (R117). -/
def State.curbReport (s : State) : List ReportWord :=
  let left := secondsLeft s.now (s.cu.curb.map (·.expiry))
  [natWord s.cu.sensor.code, s.cu.sample,
    s.cu.lastOrigination.map fun t => (((s.now - t) / 1000 : Nat) : Int),
    s.cu.curb.map fun c => (c.level : Int), left, flagWord s.cu.cutHold,
    (if s.cu.cutHold then left else none),
    s.cu.lastHeard.map fun h => (h.stall : Int), s.cu.lastHeard.map fun h => (h.frame.level : Int),
    s.cu.lastHeard.map fun h => (h.frame.hold : Int), s.cu.lastHeard.map fun h => h.frame.temperature]

/-- The OWN record CONVERTER (R135). -/
def State.converterReport (s : State) : List ReportWord :=
  [natWord s.cc.state.code, flagWord s.enablePin, flagWord s.cc.ready, flagWord s.cc.fault,
    natWord s.cc.setpoint, natWord s.target, natWord s.cc.measured, natWord s.cc.failures,
    flagWord s.cc.stopPending, secondsLeft s.now s.cc.prechargeAt, secondsLeft s.now s.cc.retryAt,
    secondsLeft s.now s.cc.stableAt, secondsLeft s.now s.cc.lingerAt]

/-- The OWN record VEHICLE (R151, and the items of R152 by R167). The last failure takes two words (log 19). -/
def State.vehicleReport (s : State) : List ReportWord :=
  let v := s.vl
  let flight (f : RequestInFlight → ReportWord) : ReportWord := v.inFlight.bind f
  [natWord v.session.code, flagWord v.plug, flight (natWord ·.request.kindCode),
    flight (·.request.argument), flight (natWord ·.number), flight (natWord ·.attempt),
    (if v.session = .identifying then natWord v.items.length else none),
    msLeft s.now v.identifyAt, msLeft s.now v.retryAt, msLeft s.now v.pollAt,
    msLeft s.now v.refreshAt, natWord v.failures, natWord v.lastFailure.code, v.lastFailure.item,
    flagWord v.releaseOwed, natWord v.allowance, natWord v.desired, natWord v.phase.code,
    natWord v.kind.code, v.code.map fun c => (c.code : Int), v.busLevel.map Int.ofNat,
    v.busStatus.map fun x => (x.code : Int), msLeft s.now v.tuningAt, msLeft s.now v.stepAt,
    msLeft s.now v.settleAt, flagWord v.holdAnswered, msLeft s.now v.retuneAt, flagWord v.retuneDue,
    msLeft s.now v.engageHoldAt, msLeft s.now v.shareZeroAt, flagWord v.stopLatch,
    v.lastCeiling.map Int.ofNat]

/-- The keys in the order of section 10.2. -/
def ConfigKey.all : List ConfigKey :=
  [.posts, .xfmrRating, .derateSlope, .derateRef, .derateFloor, .tempFallback, .sensorFitted,
    .curbTemp, .curbLevel, .curbHold, .convRating, .allowCeil, .allowFloor, .tuneStart,
    .reserveMargin, .routeDefault, .departGuard, .classBias, .riseStep, .precharge, .energyNotice,
    .indA, .indB, .eventMask]

/-- The record of one key of the CONFIG report: the value and the clamped mark (R168, R169). -/
def Supervisor.keyReport (p : Supervisor) (k : ConfigKey) : List ReportWord :=
  [some (p.config.read k), flagWord p.clamped[k.index]]

/-- The last record of the CONFIG report: the strapped stall, locked and the pending key (R180). -/
def State.stallReport (s : State) : List ReportWord :=
  [natWord s.lp.stall, flagWord s.sp.locked, s.sp.pendingKey.map fun k => (k.index.val + 1 : Int)]

/-- The seven OWN records with their tags (R180, section 11.3). -/
def State.ownRecords (s : State) : List (Nat × List ReportWord) :=
  [(3, s.lineReport), (4, s.peerViewReport), (5, s.energyReport), (6, s.apportionerReport),
    (7, s.curbReport), (8, s.converterReport), (9, s.vehicleReport)]

/-- The records of the CONFIG report (R180). -/
def State.configRecords (s : State) : List (Nat × List ReportWord) :=
  ConfigKey.all.map (fun k => (10, s.sp.keyReport k)) ++ [(10, s.stallReport)]

/-! ### The read pointer (R180) -/

/-- The held key for a starting index: the key of the record just before that place, 0 below every key, and
the last key for an index at or beyond the end. -/
def heldKey (keys : List Nat) (index : Nat) : Nat := ((keys.take index).getLast?).getD 0

/-- The pointer that a POINT places, or none where the report byte names no report. -/
def State.pointerAt (s : State) (report index : Nat) : Option ReadPointer :=
  match report with
  | 1 => some (.peers (heldKey (s.pv.entries.map (·.stall)) index))
  | 2 => some (.calls (heldKey (s.ct.records.map (·.callId)) index))
  | 3 => some (.own (min index 7))
  | 4 => some (.config (min index 25))
  | _ => none

/-- What the next READ returns, and where it leaves the pointer; none is END. -/
def State.nextRecord (s : State) : Option (ResponseData × ReadPointer) :=
  match s.sp.pointer with
  | .peers key =>
    (s.pv.entries.find? fun e => decide (key < e.stall)).map fun e =>
      (.record 1 (e.report s.now), .peers e.stall)
  | .calls key =>
    (s.ct.records.find? fun r => decide (key < r.callId)).map fun r =>
      (.record 2 r.report, .calls r.callId)
  | .own p => s.ownRecords[p]?.map fun m => (.record m.1 m.2, .own (p + 1))
  | .config p => s.configRecords[p]?.map fun m => (.record m.1 m.2, .config (p + 1))

end Sys2Proof.Machine
end

