-- ==== Sys2Proof/Machine/Supervisor.lean ====
section
/-!
DEFINITION. The commands of the supervisor port and of the Mode Control block (chapter 10): admission (R176,
R186), configuration (R169, R170), CALL (R41), the modes (R171 to R174), restart (R177), STATUS, POINT and READ
(R179, R180), with PARK_COMPLETE, RESTART_WAIT_EXPIRY and HARDWARE_RESET.
-/

namespace Sys2Proof.Machine

/-! ### Admission -/

/-- What R176 asks of a command before its own rule: VALUE passes row 3, the commands that need a joined part
are held by row 4, and those that write configuration by row 5. -/
structure Admission where
  passesKey : Bool
  needsJoin : Bool
  writes : Bool
  deriving DecidableEq, Repr

/-- The refusal that the rows 2 to 5 of R176 give a command, or none where it is admitted. -/
def State.refusal (s : State) (a : Admission) : Option ResultCode :=
  if s.sp.restarting.isSome then some .busy
  else if s.sp.pendingKey.isSome && !a.passesKey then some .sequence
  else if a.needsJoin && !s.joined then some .notJoined
  else if a.writes && s.sp.locked then some .locked
  else none

/-- SELECT and JOIN. -/
def Admission.writing : Admission := ⟨false, false, true⟩

/-- VALUE. -/
def Admission.value : Admission := ⟨true, false, true⟩

/-- CALL, PARK, WAKE and RESTART. -/
def Admission.joinedOnly : Admission := ⟨false, true, false⟩

/-- POINT, READ and, since only the rows 1 to 3 come before its INVALID, an unknown command. -/
def Admission.always : Admission := ⟨false, false, false⟩

/-- A refused command changes no state in the part (chapter 10): only the response tells of it. -/
def State.refuse (s : State) (r : ResultCode) : State := s.respond r .empty

/-! ### Configuration -/

/-- SELECT (R169). -/
def execSelect (key : Nat) (s : State) : Host.Outcome State Fault Refusal :=
  match s.refusal .writing with
  | some r => .next (s.refuse r)
  | none =>
    match configKeyOfCode key with
    | none => .next (s.refuse .invalid)
    | some k => .next ((s.setSp { s.sp with pendingKey := some k }).respond .accepted .empty)

/-- Write a key (R169): the stored value and the clamped mark; no key is pending then. -/
def Supervisor.writeKey (p : Supervisor) (k : ConfigKey) (v : Int) : Supervisor :=
  { p with
    config := p.config.write k (k.stored v)
    clamped := p.clamped.set k.index (!k.accepts v)
    pendingKey := none }

/-- VALUE (R169, R186). -/
def execValue (v : Int) (s : State) : Host.Outcome State Fault Refusal :=
  match s.refusal .value with
  | some r => .next (s.refuse r)
  | none =>
    match s.sp.pendingKey with
    | none => .next (s.refuse .sequence)
    | some k =>
      let result : ResultCode := if k.accepts v then .accepted else .acceptedClamped
      .next ((s.setSp (s.sp.writeKey k v)).respond result (.storedValue (k.stored v)))

/-- The first condition of JOIN (R170): the strapped stall lies in 1 to 48 and is at or below POSTS. -/
def State.stallValid (s : State) : Bool :=
  decide (1 ≤ s.lp.stall ∧ s.lp.stall ≤ 48 ∧ s.lp.stall ≤ s.sp.config.posts)

/-- The second condition of JOIN (R170). -/
def State.floorValid (s : State) : Bool :=
  decide (s.sp.config.allowFloor ≤ s.sp.config.allowCeil)

/-- The periodic timers of the blocks start (R18, R59, R77, R102, R115, R132), with the last-heard timer (R13). -/
def State.startTimers (s : State) : State :=
  let s := s.setPv { s.pv with sweepAt := some (s.now + 1000), lastHeardAt := some (s.now + 4000) }
  let s := s.setCt { s.ct with tickAt := some (s.now + 1000) }
  let s := s.setMt { s.mt with sampleAt := some (s.now + 100) }
  let s := s.setAp { s.ap with stepAt := some (s.now + 500) }
  let s := s.setCc { s.cc with slewAt := some (s.now + 100) }
  s.setCu { s.cu with
    sampleAt := if s.sp.config.sensorFitted then some (s.now + 1000) else none }

/-- The blocks start at JOIN (R170): the mode is ACTIVE and locked is set, D is fixed (R152), the timers start,
the echo timer draws its interval (R59), a STANDING is enqueued (R25), and the first sensor sample is taken when
a sensor is fitted (R115). The gates stand as JOIN leaves them: JOIN itself is no notice (R102, log 10). -/
def State.start (s : State) : State :=
  let s := s.setSp { s.sp with mode := .active, locked := true }
  let s := s.setVl { s.vl with desired := desiredLevel s.sp.config }
  let s := s.startTimers.startEchoTimer.startStanding
  let s := s.setEa { s.ea with gates := s.gateView }
  if s.sp.config.sensorFitted then s.takeSample s.cu.tsense else s

/-- JOIN (R170). -/
def execJoin (s : State) : Host.Outcome State Fault Refusal :=
  match s.refusal .writing with
  | some r => .next (s.refuse r)
  | none =>
    if !s.stallValid then .next (s.respond .invalid (.failingItem 1))
    else if !s.floorValid then .next (s.respond .invalid (.failingItem 2))
    else .next (s.start.finish.respond .accepted .empty)

/-! ### Calls -/

/-- Hand a clamped CALL to the intake and, unless it is IGNORED, to the line (R41, R54). -/
def State.takeCall (s : State) (d : CallFrame) : State × IntakeOutcome :=
  let m := s.intake d
  (if m.2 = .ignored then m.1 else m.1.sendCall d, m.2)

/-- CALL (R41, R186). -/
def execCall (a : CallArgs) (s : State) : Host.Outcome State Fault Refusal :=
  match s.refusal .joinedOnly with
  | some r => .next (s.refuse r)
  | none =>
    match supervisorKindOfCode a.kind with
    | none => .next (s.refuse .invalid)
    | some kind =>
      if a.callId = 0 then .next (s.refuse .invalid)
      else
        let m := s.takeCall (a.corrected kind s.lp.stall)
        let result : ResultCode := if a.outOfRange then .acceptedClamped else .accepted
        .next (m.1.finish.respond result (.intake m.2))

/-! ### Modes -/

/-- PARK (R171): accepted in ACTIVE. -/
def execPark (s : State) : Host.Outcome State Fault Refusal :=
  match s.refusal .joinedOnly with
  | some r => .next (s.refuse r)
  | none =>
    if s.sp.mode = .active then
      .next ((s.setMode .parking).requestStop.finish.respond .accepted .empty)
    else .next (s.refuse .state)

/-- The modes that WAKE leaves (R174, R176). -/
def PostMode.wakes : PostMode → Bool
  | .parking => true
  | .hold => true
  | .dormant => true
  | _ => false

/-- WAKE (R174). -/
def execWake (s : State) : Host.Outcome State Fault Refusal :=
  match s.refusal .joinedOnly with
  | some r => .next (s.refuse r)
  | none =>
    if s.sp.mode.wakes then .next ((s.setMode .active).finish.respond .accepted .empty)
    else .next (s.refuse .state)

/-- The sessions that a RESTART moves to RELEASING (R150). -/
def SessionState.releasedByRestart : SessionState → Bool
  | .ready => true
  | .engaging => true
  | .exporting => true
  | _ => false

/-- The session when a RESTART is taken (R150). -/
def State.releaseForRestart (s : State) : State :=
  if s.vl.session.releasedByRestart then
    s.setVl { s.vl with session := .releasing, due := { s.vl.due with release := true } }
  else s

/-- The wait of a restart begins (R177): RESTARTING with its origin and 200 ms, the converter off (R134), the
LEAVE enqueued (R36), the session released (R150). -/
def State.beginRestart (s : State) : State :=
  let s := s.setSp { s.sp with restarting := some ⟨s.sp.mode, false, s.now + 200⟩ }
  ((s.stepDown 0).dropEnable.enqueue .leave).releaseForRestart

/-- RESTART (R177): from LOCKOUT it completes at once, with the session first moved to RELEASING, so that a RELEASE
is owed (R150). -/
def execRestart (s : State) : Host.Outcome State Fault Refusal :=
  match s.refusal .joinedOnly with
  | some r => .next (s.refuse r)
  | none =>
    if s.sp.mode = .lockout then
      .next ((s.releaseForRestart.completeRestart .lockout false).finish.respond .accepted .empty)
    else .next (s.beginRestart.finish.respond .accepted .empty)

/-- PARK_COMPLETE (R172): the park's completion is tested. -/
def execParkComplete (s : State) : Host.Outcome State Fault Refusal :=
  if s.parkReady then .next s.parkTest.finish else .next s

/-- RESTART_WAIT_EXPIRY (R177, R178): a wait that has ended finds nothing. -/
def execRestartWaitExpiry (s : State) : Host.Outcome State Fault Refusal :=
  match s.sp.restarting with
  | none => .next s
  | some r => .next ((s.reach r.waitAt).completeRestart r.origin r.duplicateHeld).finish

/-! ### Reading -/

/-- STATUS (R179): the data of this moment, and the returned events removed. -/
def execStatus (s : State) : Host.Outcome State Fault Refusal :=
  let d := s.statusData
  .next ((s.setSp { s.sp with events := Vector.replicate 31 0 }).respond .accepted (.status d))

/-- POINT (R180). -/
def execPoint (report index : Nat) (s : State) : Host.Outcome State Fault Refusal :=
  match s.refusal .always with
  | some r => .next (s.refuse r)
  | none =>
    match s.pointerAt report index with
    | none => .next (s.refuse .invalid)
    | some p => .next ((s.setSp { s.sp with pointer := p }).respond .accepted .empty)

/-- READ (R180). -/
def execRead (s : State) : Host.Outcome State Fault Refusal :=
  match s.refusal .always with
  | some r => .next (s.refuse r)
  | none =>
    match s.nextRecord with
    | none => .next (s.respond .accepted .endOfReport)
    | some (d, p) => .next ((s.setSp { s.sp with pointer := p }).respond .accepted d)

/-- UNKNOWN_COMMAND (R176, R186): INVALID after the rows 1 to 3. A VALUE of a wrong length passes row 3 as
VALUE does (log 23). -/
def execUnknownCommand (code length : Nat) (s : State) : Host.Outcome State Fault Refusal :=
  let _ := length
  match s.refusal ⟨code == 2, false, false⟩ with
  | some r => .next (s.refuse r)
  | none => .next (s.refuse .invalid)

/-! ### Hardware reset -/

/-- HARDWARE_RESET (R168 and each block's rule), with the straps sampled at its end (R37). The pin levels are the
outside's, as are the waiting commands (log 27). The line level is kept even where the reset cuts off an own attempt,
which had made it busy: it stays so until LINE_IDLE (DESIGN CHOICE, log 32). -/
def execHardwareReset (straps : Nat) (s : State) : Host.Outcome State Fault Refusal :=
  let t := State.resetWith (straps % 64)
  let t := t.setLp { t.lp with lineIdle := s.lp.lineIdle }
  let t := t.setVl { t.vl with plug := s.vl.plug }
  let t := t.setCc { t.cc with ready := s.cc.ready, fault := s.cc.fault }
  let t := t.setCu { t.cu with tsense := s.cu.tsense }
  .next (((t.setDraws s.draws).setPending s.pending).setInputs s.inputs)

end Sys2Proof.Machine
end

