-- ==== Sys2Proof/Machine/Dispatch.lean ====
section
/-!
DEFINITION. The meaning of each command: one arm per constructor.
-/

namespace Sys2Proof.Machine

def exec (i : Instr) (s : State) : Host.Outcome State Fault Refusal :=
  match i with
  | .hardwareReset straps => Sys2Proof.Machine.execHardwareReset straps s
  | .select key => Sys2Proof.Machine.execSelect key s
  | .value v => Sys2Proof.Machine.execValue v s
  | .join => Sys2Proof.Machine.execJoin s
  | .call args => Sys2Proof.Machine.execCall args s
  | .park => Sys2Proof.Machine.execPark s
  | .wake => Sys2Proof.Machine.execWake s
  | .restart => Sys2Proof.Machine.execRestart s
  | .status => Sys2Proof.Machine.execStatus s
  | .point report index => Sys2Proof.Machine.execPoint report index s
  | .read => Sys2Proof.Machine.execRead s
  | .unknownCommand code length => Sys2Proof.Machine.execUnknownCommand code length s
  | .standing stall seq frame => Sys2Proof.Machine.execStanding stall seq frame s
  | .leave stall seq reason => Sys2Proof.Machine.execLeave stall seq reason s
  | .dispatch stall seq frame => Sys2Proof.Machine.execDispatch stall seq frame s
  | .curb stall seq frame => Sys2Proof.Machine.execCurb stall seq frame s
  | .badFrame => Sys2Proof.Machine.execBadFrame s
  | .duplicateStall kind => Sys2Proof.Machine.execDuplicateStall kind s
  | .standingTimer => Sys2Proof.Machine.execStandingTimer s
  | .lineIdle => Sys2Proof.Machine.execLineIdle s
  | .echoSuccess idle => Sys2Proof.Machine.execEchoSuccess idle s
  | .collision idle => Sys2Proof.Machine.execCollision idle s
  | .backoffEnd idle => Sys2Proof.Machine.execBackoffEnd idle s
  | .sweep => Sys2Proof.Machine.execSweep s
  | .lastHeardExpiry => Sys2Proof.Machine.execLastHeardExpiry s
  | .rejoinHoldExpiry => Sys2Proof.Machine.execRejoinHoldExpiry s
  | .callTimer => Sys2Proof.Machine.execCallTimer s
  | .startCountdownExpiry callId => Sys2Proof.Machine.execStartCountdownExpiry callId s
  | .remainingActiveExpiry callId => Sys2Proof.Machine.execRemainingActiveExpiry callId s
  | .deferredExpiry callId => Sys2Proof.Machine.execDeferredExpiry callId s
  | .retentionExpiry callId => Sys2Proof.Machine.execRetentionExpiry callId s
  | .echoTimer => Sys2Proof.Machine.execEchoTimer s
  | .repeatCopyDue => Sys2Proof.Machine.execRepeatCopyDue s
  | .apportionStep => Sys2Proof.Machine.execApportionStep s
  | .meterSample => Sys2Proof.Machine.execMeterSample s
  | .departureMinute => Sys2Proof.Machine.execDepartureMinute s
  | .sensorSample reading => Sys2Proof.Machine.execSensorSample reading s
  | .curbExpiry => Sys2Proof.Machine.execCurbExpiry s
  | .measStb sample => Sys2Proof.Machine.execMeasStb sample s
  | .faultHigh => Sys2Proof.Machine.execFaultHigh s
  | .prechargeExpiry ready => Sys2Proof.Machine.execPrechargeExpiry ready s
  | .stableExpiry => Sys2Proof.Machine.execStableExpiry s
  | .retryExpiry => Sys2Proof.Machine.execRetryExpiry s
  | .lingerExpiry => Sys2Proof.Machine.execLingerExpiry s
  | .stopComplete => Sys2Proof.Machine.execStopComplete s
  | .slewStep => Sys2Proof.Machine.execSlewStep s
  | .plugHigh => Sys2Proof.Machine.execPlugHigh s
  | .plugLow => Sys2Proof.Machine.execPlugLow s
  | .wakeExpiry => Sys2Proof.Machine.execWakeExpiry s
  | .pilotRequestTaken => Sys2Proof.Machine.execPilotRequestTaken s
  | .requestSent => Sys2Proof.Machine.execRequestSent s
  | .replyTimerExpiry => Sys2Proof.Machine.execReplyTimerExpiry s
  | .pilotFrameDisregarded => Sys2Proof.Machine.execPilotFrameDisregarded s
  | .item number item v => Sys2Proof.Machine.execItem number item v s
  | .notReady number item => Sys2Proof.Machine.execNotReady number item s
  | .unsupported number item => Sys2Proof.Machine.execUnsupported number item s
  | .identifyExpiry => Sys2Proof.Machine.execIdentifyExpiry s
  | .requeryExpiry => Sys2Proof.Machine.execRequeryExpiry s
  | .sessionRetryExpiry => Sys2Proof.Machine.execSessionRetryExpiry s
  | .pollExpiry => Sys2Proof.Machine.execPollExpiry s
  | .refreshExpiry => Sys2Proof.Machine.execRefreshExpiry s
  | .tuned number status level => Sys2Proof.Machine.execTuned number status level s
  | .tuningExpiry => Sys2Proof.Machine.execTuningExpiry s
  | .stepDelayExpiry => Sys2Proof.Machine.execStepDelayExpiry s
  | .settleExpiry => Sys2Proof.Machine.execSettleExpiry s
  | .retuneExpiry => Sys2Proof.Machine.execRetuneExpiry s
  | .retuneBegin => Sys2Proof.Machine.execRetuneBegin s
  | .engaged number => Sys2Proof.Machine.execEngaged number s
  | .declined number => Sys2Proof.Machine.execDeclined number s
  | .engageHoldExpiry => Sys2Proof.Machine.execEngageHoldExpiry s
  | .shareZeroExpiry => Sys2Proof.Machine.execShareZeroExpiry s
  | .released number => Sys2Proof.Machine.execReleased number s
  | .polled number flags ceiling temperature => Sys2Proof.Machine.execPolled number flags ceiling temperature s
  | .parkComplete => Sys2Proof.Machine.execParkComplete s
  | .restartWaitExpiry => Sys2Proof.Machine.execRestartWaitExpiry s

end Sys2Proof.Machine
end

