-- ==== Sys2Proof/Machine/Tick.lean ====
section
/-!
DEFINITION. What the part does on its own when no command waits (log 2): a step that is open is taken, else one
millisecond passes, the environment's levels of that millisecond are met (log 3), and the timers that have run
out are handled in a fixed order.
-/

namespace Sys2Proof.Machine

/-- The state after a command that answers a next state. -/
def State.run (s : State) (c : Instr) : State :=
  match exec c s with
  | .next t => t
  | _ => s

/-- A timer has run out. -/
def timedOut (now : Nat) (t : Timer) : Bool :=
  match t with
  | some u => decide (u ≤ now)
  | none => false

/-- The command of a timer that has run out. -/
def State.dueCommand (s : State) (t : Timer) (c : Instr) : Option Instr :=
  if timedOut s.now t then some c else none

/-- The moment at which the backoff ends. -/
def LinePort.backoffAt (l : LinePort) : Timer :=
  match l.inFlight with
  | some f =>
    match f.phase with
    | .backoff t => some t
    | _ => none
  | none => none

/-- The part's timers in the order in which a millisecond meets them (DESIGN CHOICE, log 2). -/
def timerOrder : List (State → Option Instr) :=
  [fun s => s.dueCommand s.cu.sampleAt (.sensorSample s.cu.tsense),
    fun s => s.dueCommand (s.cu.curb.map (·.expiry)) .curbExpiry,
    fun s => s.dueCommand s.pv.lastHeardAt .lastHeardExpiry,
    fun s => s.dueCommand s.pv.rejoinAt .rejoinHoldExpiry,
    fun s => s.dueCommand s.pv.sweepAt .sweep,
    fun s => s.dueCommand s.ct.tickAt .callTimer] ++
  List.replicate 16 (fun s => s.dueCommand (earliestCopy s.ct.repeats) .repeatCopyDue) ++
  [fun s => s.dueCommand s.ct.echoAt .echoTimer,
    fun s => s.dueCommand s.ap.stepAt .apportionStep,
    fun s => s.dueCommand s.cc.prechargeAt (.prechargeExpiry s.cc.ready),
    fun s => s.dueCommand s.cc.stableAt .stableExpiry,
    fun s => s.dueCommand s.cc.retryAt .retryExpiry,
    fun s => s.dueCommand s.cc.lingerAt .lingerExpiry,
    fun s => s.dueCommand s.vl.wakeAt .wakeExpiry,
    fun s => s.dueCommand s.vl.identifyAt .identifyExpiry,
    fun s => s.dueCommand s.vl.requeryAt .requeryExpiry,
    fun s => s.dueCommand s.vl.retryAt .sessionRetryExpiry,
    fun s => s.dueCommand s.vl.pollAt .pollExpiry,
    fun s => s.dueCommand s.vl.refreshAt .refreshExpiry,
    fun s => s.dueCommand s.vl.tuningAt .tuningExpiry,
    fun s => s.dueCommand s.vl.stepAt .stepDelayExpiry,
    fun s => s.dueCommand s.vl.settleAt .settleExpiry,
    fun s => s.dueCommand s.vl.retuneAt .retuneExpiry,
    fun s => s.dueCommand s.vl.engageHoldAt .engageHoldExpiry,
    fun s => s.dueCommand s.vl.shareZeroAt .shareZeroExpiry,
    fun s => s.dueCommand (s.vl.inFlight.bind (·.replyAt)) .replyTimerExpiry,
    fun s => s.dueCommand (s.sp.restarting.map (·.waitAt)) .restartWaitExpiry,
    fun s => s.dueCommand s.ea.minuteAt .departureMinute,
    fun s => s.dueCommand s.mt.sampleAt .meterSample,
    fun s => s.dueCommand s.cc.slewAt .slewStep,
    fun s => s.dueCommand s.lp.standingAt .standingTimer,
    fun s => s.dueCommand s.lp.backoffAt (.backoffEnd s.lp.lineIdle)]

/-- Run what one test calls for, if anything. -/
def State.runTest (s : State) (test : State → Option Instr) : State :=
  match test s with
  | some c => s.run c
  | none => s

/-- Run what each test of a list calls for, in order. -/
def State.runTests (s : State) (tests : List (State → Option Instr)) : State :=
  tests.foldl State.runTest s

/-- The commands that the levels of one millisecond call for (log 3): a strobe of MEAS, the rise of FAULT, the
edges of PLUG_DET, and the line going idle. -/
def inputTests (l : InputLevels) : List (State → Option Instr) :=
  [fun _ => l.strobe.map Instr.measStb,
    fun s => if l.fault && !s.cc.fault then some .faultHigh else none,
    fun s => if l.plug && !s.vl.plug then some .plugHigh else none,
    fun s => if !l.plug && s.vl.plug then some .plugLow else none,
    fun s => if l.lineIdle && !s.lp.lineIdle then some .lineIdle else none]

/-- The levels that no rule meets as an event: READY, a low FAULT, TSENSE and a busy line (log 3). -/
def State.presentLevels (s : State) (l : InputLevels) : State :=
  let s := s.setCc { s.cc with ready := l.ready, fault := s.cc.fault && l.fault }
  let s := s.setCu { s.cu with tsense := l.tsense }
  s.setLp { s.lp with lineIdle := s.lp.lineIdle && l.lineIdle }

/-- The environment's levels of one millisecond are met. -/
def State.meetInputs (s : State) : State :=
  match s.inputs with
  | [] => s
  | l :: ls => ((s.setInputs ls).presentLevels l).runTests (inputTests l)

/-- One millisecond passes. -/
def State.tick (s : State) : State :=
  (s.setNow (s.now + 1)).meetInputs.runTests timerOrder

/-- What the part does when no command waits (log 2). -/
def State.idle (s : State) : State :=
  if s.vl.nextRequest.isSome then s.run .pilotRequestTaken
  else if s.retuneOpen then s.run .retuneBegin
  else s.tick

end Sys2Proof.Machine
end

