-- ==== Sys2Proof/Machine/Formats.lean ====
section
/-!
DEFINITION. The bytes that the part sends (chapter 11): its frames on the depot line, its requests on the pilot
link, and its responses on the supervisor port.
-/

namespace Sys2Proof.Machine

/-! ### Depot line (section 11.1) -/

/-- The code of an announced mode. -/
def modeByte : PostMode → Nat := PostMode.announcedCode

/-- The STANDING payload of announced fields. The two temperature bytes of a frame whose temperature is not present
carry 0 (DESIGN CHOICE, log 31). -/
def Announced.wire (a : Announced) : StandingWire where
  mode := modeByte a.mode
  flags := maskOf [a.isolated, a.rejoining, a.cut, a.temperature.isSome]
  cls := a.cls
  offer := a.offer
  share := a.share
  actual := a.actual
  energy := a.energy
  served := a.served.getD 0
  temperature := a.temperature.getD 0

/-- The carried-state byte. -/
def CallFrame.carriedByte (d : CallFrame) : Nat :=
  (match d.carried with
    | .absent => 0
    | .pending => 1
    | .active => 2
    | .ending => 3) + if d.cancelledMark then 128 else 0

/-- The DISPATCH payload of a call frame. -/
def CallFrame.wire (d : CallFrame) : DispatchWire where
  callId := d.callId
  revision := d.revision
  kind := d.kind.code + 1
  origin := d.origin
  carried := d.carriedByte
  target := d.target
  ramp := d.ramp
  duration := d.duration
  countdown := d.countdown

/-- The CURB payload of a curb frame. -/
def CurbFrame.wire (c : CurbFrame) : CurbWire := ⟨c.level, c.hold, c.temperature⟩

/-- The command that another post receives when it hears a frame of this stall. -/
def InFlight.heardAs (f : InFlight) (stall : Nat) : Instr :=
  match f.body with
  | .curb c => .curb stall f.seq c.wire
  | .dispatch d => .dispatch stall f.seq d.wire
  | .leave => .leave stall f.seq 1
  | .standing a => .standing stall f.seq a.wire

/-- The bytes on LINE of the frame in flight, while an attempt is under way. -/
def State.lineOutput (s : State) : Option (List Byte) :=
  match s.lp.inFlight with
  | some f => if f.phase = .sending then lineBytes (f.heardAs s.lp.stall) else none
  | none => none

/-! ### Pilot link (section 11.2) -/

/-- The code and the fields of a request. -/
def Request.content : Request → List Byte
  | .identifyQuery k => byteField 0x10 ++ byteField k
  | .refreshQuery k => byteField 0x10 ++ byteField k
  | .tune c => byteField 0x11 ++ byteField c.code
  | .engage => byteField 0x12
  | .release => byteField 0x13
  | .poll => byteField 0x14

/-- The bytes on PILOT of the request in flight, while it is being sent. -/
def State.pilotOutput (s : State) : Option (List Byte) :=
  match s.vl.inFlight with
  | some f =>
    if f.replyAt.isNone then some (withCheck (byteField f.number ++ f.request.content)) else none
  | none => none

/-! ### Supervisor port (section 11.3) -/

def ResultCode.code : ResultCode → Nat
  | .accepted => 0
  | .acceptedClamped => 1
  | .sequence => 2
  | .locked => 3
  | .notJoined => 4
  | .state => 5
  | .invalid => 6
  | .busy => 7

def IntakeOutcome.code : IntakeOutcome → Nat
  | .created => 0
  | .tombstone => 1
  | .revised => 2
  | .merged => 3
  | .ignored => 4
  | .discarded => 5

/-- The four bytes of a signed word. -/
def longBytes (w : BitVec 32) : List Byte :=
  [w.extractLsb' 24 8, w.extractLsb' 16 8, w.extractLsb' 8 8, w.extractLsb' 0 8]

/-- A field of a record: absent is 80000000h. -/
def fieldBytes : ReportWord → List Byte
  | some v => longBytes (BitVec.ofInt 32 v)
  | none => longBytes 0x80000000#32

/-- The kinds present in a set with their counts, in the order of their numbers. -/
def EventSet.present (e : EventSet) : List (Nat × Nat) :=
  (e.toList.zipIdx.filter fun m => decide (0 < m.1)).map fun m => (m.2, m.1)

/-- The STATUS data as bytes. -/
def StatusData.bytes (d : StatusData) : List Byte :=
  byteField d.mode.code ++
    byteField (maskOf [d.isolated, d.rejoining, d.cut, d.curbInForce, d.restarting, d.keyPending,
      d.clampedPresent, d.plug]) ++
    byteField (gateCode d.gate) ++ byteField d.session.code ++ byteField d.converter.code ++
    wordField d.share ++ wordField d.setpoint ++ byteField d.events.present.length ++
    (d.events.present.map fun m => byteField m.1 ++ byteField m.2).flatten

/-- The returned data as bytes; END is tag 0 with no fields. -/
def ResponseData.bytes : ResponseData → List Byte
  | .empty => []
  | .storedValue v => longBytes (BitVec.ofInt 32 v)
  | .failingItem k => byteField k
  | .intake o => byteField o.code
  | .status d => d.bytes
  | .record tag fields =>
    byteField tag ++ byteField fields.length ++ (fields.map fieldBytes).flatten
  | .endOfReport => byteField 0 ++ byteField 0

/-- A response as bytes: result, length, returned data. -/
def Response.bytes (r : Response) : List Byte :=
  byteField r.result.code ++ byteField r.data.bytes.length ++ r.data.bytes

end Sys2Proof.Machine
end

