-- ==== Sys2Proof/Safety.lean ====
section
/-!
DEFINITION. The terms of the statements: what may follow a command's own effect at once, and what a state that
the part can be in looks like (the bounds, orders and exclusions that the chapters state of each block; each is an
invariant of the model: it holds after hardware reset and every step keeps it).
-/

namespace Sys2Proof.Safety

open Sys2Proof Sys2Proof.Machine

/-! ### What may follow at once

A command's own effect is followed by what comes about at once in the other blocks (00_scope.md, log 10). The
relation `Reacted u t` says that `t` is `u` but for that: `u` is the state with the command's own effect. -/

/-- The state with every field that an at-once reaction may change put to a constant: the frame taken in flight,
the serving flags, the notice side and the gates last notified, the Apportioner's values, the converter's state
with its timers and setpoint, the session with the release, the engage, the wake, the poll period and the retune and
share-zero timers, the mode, and the event counts. -/
def blank (s : State) : State :=
  { s with
    lp := { s.lp with queue := [], inFlight := none, seq := 0, lineIdle := true }
    ct := { s.ct with records := [] }
    ea := { s.ea with side := .noRecord, gates := .reset }
    ap := { Apportioner.reset with stepAt := s.ap.stepAt }
    cc := { Converter.reset with
      measured := s.cc.measured
      slewAt := s.cc.slewAt
      ready := s.cc.ready
      fault := s.cc.fault }
    vl := { s.vl with
      session := .absent
      wakeAt := none
      due := { s.vl.due with release := false, engage := false }
      pollAt := none
      retuneAt := none
      shareZeroAt := none
      shareZeroOut := false }
    sp := { s.sp with mode := .config, events := Vector.replicate 31 0 } }

/-- The event kinds that an at-once reaction may raise: ENERGY_LOW and ENERGY_RESTORED (R76), CONV_TRIP and
CONV_FAULT where a precharge starts with FAULT high (R120, R122), VEHICLE_ATTACHED (R137). -/
def raisedAtOnce : EventKind → Bool
  | .energyLow => true
  | .energyRestored => true
  | .convTrip => true
  | .convFault => true
  | .vehicleAttached => true
  | _ => false

/-- How the fields that a reaction may change can move from `s` to `t`. -/
structure Moves (s t : State) : Prop where
  /-- Event counts only rise, within their limit (R181). -/
  counts : ∀ k, s.sp.events.count k ≤ 255 →
    s.sp.events.count k ≤ t.sp.events.count k ∧ t.sp.events.count k ≤ 255
  /-- No other kind is raised. -/
  others : ∀ k, raisedAtOnce k = false → t.sp.events.count k = s.sp.events.count k
  /-- A record changes in its serving flag alone (R57). -/
  records : t.ct.records = s.ct.records ∨ t.ct.records = markServing s.ct.records
  clock : t.now = s.now
  plug : t.vl.plug = s.vl.plug
  restarting : t.sp.restarting = s.sp.restarting
  /-- The poll timer stays as it is, or a running one starts again as HOLD is entered (R147). -/
  poll : t.vl.pollAt = s.vl.pollAt ∨
    (s.sp.mode = .parking ∧ t.sp.mode = .hold ∧ s.vl.pollAt ≠ none ∧
      t.vl.pollAt = some (s.now + 5000))
  /-- A release is decided (R160), or the plug is met (R137). -/
  session : t.vl.session = s.vl.session ∨
    (s.vl.session = .exporting ∧ t.vl.session = .releasing) ∨
    (s.vl.session = .absent ∧ t.vl.session = .attached ∧ s.vl.plug = true)
  /-- A park completes (R172), or the plug wakes the post (R174), but not during a restart's wait (R177). -/
  mode : t.sp.mode = s.sp.mode ∨
    (s.sp.restarting = none ∧
      ((s.sp.mode = .parking ∧ (t.sp.mode = .hold ∨ (t.sp.mode = .dormant ∧ s.vl.plug = false))) ∨
        (s.sp.mode = .dormant ∧ s.vl.plug = true ∧ t.sp.mode = .active)))
  /-- The setpoint steps to 0 or stays (R129). -/
  setpoint : t.cc.setpoint = s.cc.setpoint ∨ t.cc.setpoint = 0
  /-- Nothing but a precharge's end makes the converter ON (R121). -/
  on : t.cc.state = .on → s.cc.state = .on
  /-- A precharge starts only in ACTIVE and with no restart waiting (R119, R120). -/
  enables : t.cc.state.enabled = true →
    s.cc.state.enabled = true ∨ (t.sp.mode = .active ∧ s.sp.restarting = none)
  /-- A converter that is neither OFF nor ON with a stop pending stays as it is. -/
  steady : s.cc.state ≠ .off → (s.cc.state = .on → s.cc.stopPending = false) →
    t.cc.state = s.cc.state ∧ t.cc.prechargeAt = s.cc.prechargeAt ∧
      t.cc.retryAt = s.cc.retryAt ∧ t.cc.stableAt = s.cc.stableAt ∧
      t.cc.failures = s.cc.failures ∧ (t.cc.state = .on → t.cc.stopPending = false)
  /-- Power that flows at a setpoint above 0 flows on. -/
  flows : s.powerPath = true → 0 < s.cc.setpoint →
    t.powerPath = true ∧ t.cc.setpoint = s.cc.setpoint
  /-- The head frame is taken, or the line stays as it is (R26). -/
  line : t.lp = s.lp ∨
    (s.lp.inFlight = none ∧ s.lp.lineIdle = true ∧ ∃ f q, s.lp.queue = f :: q ∧ t.lp.queue = q ∧
      t.lp.seq = (s.lp.seq + 1) % 256 ∧ t.lp.lineIdle = false ∧
      ∃ body, t.lp.inFlight = some ⟨s.lp.seq, body, 1, .sending⟩)

/-- `t` is `u` but for what came about at once. -/
def Reacted (u t : State) : Prop := blank t = blank u ∧ Moves u t

/-! ### What is left open -/

/-- No reaction is open: what each "at once" of the chapters asks of a state has come about. -/
structure Quiet (s : State) : Prop where
  /-- R129: outside the power path the setpoint is 0. -/
  setpoint : s.powerPath = true ∨ s.cc.setpoint = 0
  /-- R76: the comparator stands on the side of the exportable energy. -/
  notice : s.ea.side = .noRecord ∨
    s.ea.side = if s.sp.config.energyNotice ≤ s.energy then .above else .below
  /-- R73, R84: the Apportioner has been notified of the gates as they stand. -/
  gates : s.ea.gates = s.gateView
  /-- R160: the share-zero timer runs, or has run out, exactly while a bus EXPORTING has no share. -/
  shareZero : s.vl.session = .exporting ∧ s.share = 0 ↔
    s.vl.shareZeroAt.isSome = true ∨ s.vl.shareZeroOut = true
  /-- R126: no held stop waits with the setpoint at 0 and the session in none of the states that hold it. -/
  stop : ¬(s.cc.state = .on ∧ s.cc.stopPending = true ∧ s.cc.setpoint = 0 ∧
    s.vl.session ≠ .engaging ∧ s.vl.session ≠ .exporting ∧ s.vl.session ≠ .releasing)
  /-- R160: no release waits to be decided. -/
  release : ¬(s.vl.session = .exporting ∧ s.cc.setpoint = 0 ∧
    (s.vl.shareZeroOut = true ∨ s.cc.stopPending = true ∨ s.cc.state ≠ .on ∨ s.vl.stopLatch = true))
  /-- R119: the start request has been evaluated. -/
  held : s.cc.startHeld = s.startRequest
  /-- R120, R125: under a start request the converter is not OFF, and no linger runs. -/
  start : s.startRequest = true → s.cc.state ≠ .off ∧
    (s.cc.state = .precharging ∨ s.cc.state = .on → s.cc.lingerAt = none)
  /-- R158: an ENGAGE is due exactly while its conditions hold and none is in flight. -/
  engage : s.vl.due.engage = true ↔
    s.vl.session = .ready ∧ s.cc.state = .on ∧ 0 < s.share ∧ s.cc.stopPending = false ∧
      s.vl.engageHoldAt = none ∧ s.vl.engageInFlight = false
  /-- R157: the retune timer runs exactly while the allowance of an agreed session is below D. -/
  retune : s.vl.retuneAt.isSome = true ↔
    (s.vl.session = .ready ∨ s.vl.session = .engaging ∨ s.vl.session = .exporting ∨
      s.vl.session = .releasing) ∧ s.vl.allowance < s.vl.desired
  /-- R172, R177: no park waits that could complete. -/
  park : ¬(s.sp.mode = .parking ∧ s.cc.setpoint = 0 ∧ s.cc.state.enabled = false ∧
    s.vl.session.holdsPark = false ∧ s.sp.restarting = none)
  /-- R174, R177: a plug high has woken a DORMANT post. -/
  wake : ¬(s.sp.mode = .dormant ∧ s.vl.plug = true ∧ s.sp.restarting = none)
  /-- R137: with the Vehicle Link running, a plug high is met. -/
  plug : s.vl.plug = true → s.sp.mode ≠ .dormant → s.vl.session ≠ .absent

/-- No reaction is open, and no frame waits beside an idle line that it could take (R26). -/
def Settled (s : State) : Prop :=
  Quiet s ∧ (s.lp.inFlight ≠ none ∨ s.lp.queue = [] ∨ s.lp.lineIdle = false ∨ s.sp.mode = .lockout)

/-! ### Terms of the statements -/

/-- The state with a response to the supervisor, and nothing else changed. -/
def answered (s : State) (r : ResultCode) (d : ResponseData) : State :=
  { s with sp := { s.sp with response := some ⟨r, d⟩ } }

/-- The poll timer as a change of mode leaves it (R147): a running one starts again at the new period when HOLD or
LOCKOUT is entered or left. -/
def pollIn (s : State) (m : PostMode) : Timer :=
  if s.sp.mode ≠ m ∧ (s.sp.mode = .hold ∨ s.sp.mode = .lockout ∨ m = .hold ∨ m = .lockout) ∧
      s.vl.pollAt ≠ none then
    some (s.now + if m = .hold ∨ m = .lockout then 5000 else 500)
  else s.vl.pollAt

/-- The supervisor's commands that R176 checks, with the rows that hold for each: whether it passes a pending key
(row 3), needs a joined part (row 4), writes configuration (row 5). STATUS is not among them (row 1). -/
def supervisorRow : Instr → Option Admission
  | .select _ => some ⟨false, false, true⟩
  | .value _ => some ⟨true, false, true⟩
  | .join => some ⟨false, false, true⟩
  | .call _ => some ⟨false, true, false⟩
  | .park => some ⟨false, true, false⟩
  | .wake => some ⟨false, true, false⟩
  | .restart => some ⟨false, true, false⟩
  | .point _ _ => some ⟨false, false, false⟩
  | .read => some ⟨false, false, false⟩
  | .unknownCommand code _ => some ⟨code == 2, false, false⟩
  | _ => none

/-- The part has joined, no restart waits and no key is pending: the supervisor's commands are admitted (R176). -/
abbrev Admitted (s : State) : Prop :=
  s.sp.mode ≠ .config ∧ s.sp.restarting = none ∧ s.sp.pendingKey = none

/-- The part is in CONFIG, unlocked, with no restart waiting: configuration is taken (R169, R176). -/
abbrev Configurable (s : State) : Prop :=
  s.sp.mode = .config ∧ s.sp.locked = false ∧ s.sp.restarting = none

/-- A frame heard now is received, and is not the own stall's (R32, R34). -/
abbrev Hears (s : State) (stall : Nat) : Prop := s.receives = true ∧ stall ≠ s.lp.stall

/-- The state after a good frame from another stall: it is counted as received (R38), the last-heard timer starts
again (R13), and the stall's entry, if any, has its sequence advanced and its gap count raised (R6). -/
def heardFrom (s : State) (stall seq : Nat) : State :=
  { s with
    lp := { s.lp with stats := { s.lp.stats with received := satSucc 65535 s.lp.stats.received } }
    pv := { s.pv with
      lastHeardAt := some (s.now + 4000)
      entries := s.pv.entries.map fun e =>
        if e.stall = stall then
          { e with
            gap := min 255 (e.gap + if seq = e.lastSeq then 0 else (seq + 255 - e.lastSeq) % 256)
            lastSeq := seq }
        else e } }

/-- The request in flight has a number and is of a kind, so that a reply of that number answers it (R139). -/
abbrev Awaits (s : State) (number : Nat) (r : Request) : Prop :=
  ∃ f, s.vl.inFlight = some f ∧ f.number = number ∧ f.request = r

/-- The due requests in the order of R139: RELEASE, ENGAGE, TUNE, identify QUERY, refresh QUERY, POLL. -/
def dueInOrder (v : VehicleLink) : List Request :=
  (if v.due.release then [.release] else []) ++ (if v.due.engage then [.engage] else []) ++
    (match v.due.tune with
      | some code => [.tune code]
      | none => []) ++
    (if v.due.identify then [.identifyQuery v.items.length] else []) ++
    (match v.due.refresh with
      | some k => [.refreshQuery k]
      | none => []) ++
    (if v.due.poll then [.poll] else [])

/-- The session states in which each kind of request is sent (R139, R142, R147, R148, R152, R158). -/
def sentIn (v : VehicleLink) : Request → Bool
  | .release => decide (v.session = .releasing ∨ v.session = .identifying)
  | .engage => decide (v.session = .ready)
  | .tune _ => decide (v.session = .tuning)
  | .identifyQuery _ => decide (v.session = .identifying)
  | .refreshQuery _ => decide (v.session = .ready ∨ v.session = .exporting)
  | .poll => decide (v.session = .ready ∨ v.session = .engaging ∨ v.session = .exporting ∨
      v.session = .releasing ∨ (v.session = .tuning ∧ v.kind = .retune))

/-- The tuning and export items as a session's end leaves them (R164): D, the kind and the allowance apart. -/
def tuningGone (v : VehicleLink) : VehicleLink :=
  { v with
    phase := .idle
    code := none
    busLevel := none
    busStatus := none
    tuningAt := none
    stepAt := none
    settleAt := none
    holdAnswered := false
    retuneAt := none
    retuneDue := false
    engageHoldAt := none
    shareZeroAt := none
    shareZeroOut := false }

/-- The Vehicle Link in ABSENT (R138, R150, R164): the plug level, the request counter, D and the kind stay. -/
def sessionGone (v : VehicleLink) (owed : Bool) : VehicleLink :=
  { tuningGone v with
    session := .absent
    wakeAt := none
    inFlight := none
    due := .nothing
    items := []
    identifyAt := none
    requeryAt := none
    retryAt := none
    failures := 0
    lastFailure := .noFailure
    releaseOwed := owed
    pollAt := none
    refreshAt := none
    allowance := 0
    stopLatch := false
    lastCeiling := none }

/-- The Vehicle Link after a session failure (R141, R143, R145, R156): RETRY_WAIT for the given time, or FAULTED at
the third failure; no request in flight, nothing due, no timer of the session running, an allowance of 0. -/
def sessionFailed (v : VehicleLink) (now : Nat) (cause : LastFailure) (wait : Nat) (owed : Bool)
    (flight : Option RequestInFlight) : VehicleLink :=
  { tuningGone v with
    session := if v.failures < 2 then .retryWait else .faulted
    retryAt := if v.failures < 2 then some (now + wait) else none
    failures := if v.failures < 2 then v.failures + 1 else 3
    lastFailure := cause
    inFlight := flight
    due := .nothing
    items := []
    wakeAt := none
    identifyAt := none
    requeryAt := none
    releaseOwed := owed
    pollAt := none
    refreshAt := none
    allowance := 0 }

/-- The converter with ENABLE low, but for its failure count and retry timer (R126, R133, R134). -/
def converterOff (c : Converter) : Converter :=
  { c with
    state := .off
    prechargeAt := none
    stableAt := none
    lingerAt := none
    stopPending := false
    setpoint := 0 }

/-- The converter after a start failure or a trip (R121, R122, R123): a retry wait of 60 s, or CONV_FAULT at the
third failure. -/
def converterFailed (c : Converter) (now : Nat) : Converter :=
  { converterOff c with
    state := if c.failures < 2 then .retryWait else .convFault
    retryAt := if c.failures < 2 then some (now + 60000) else none
    failures := if c.failures < 2 then c.failures + 1 else 3 }

/-- The state after the completion of a restart (R178 and each block's clearing: R36, R19, R60, R116, R134, R150,
R164, R63) into a mode, with the interval of the echo timer and, but for LOCKOUT, that of the STANDING timer. -/
def restartedInto (s : State) (mode : PostMode) (echo standing : Nat) : State :=
  { s with
    draws := s.draws + if mode = .lockout then 1 else 2
    lp := { s.lp with
      queue := if mode = .lockout then [] else [.standing]
      inFlight := none
      echoFailures := 0
      standingAt := if mode = .lockout then none else some (s.now + standing) }
    pv := { s.pv with
      entries := []
      isolated := false
      causeSilence := false
      causeEcho := false
      rejoining := false
      rejoinAt := none
      lastHeardAt := some (s.now + 4000)
      lastAccepted := none
      lastOutcome := .noOutcome }
    ct := { s.ct with records := [], repeats := [], echoAt := some (s.now + echo) }
    ea := { s.ea with
      record := none
      estimate := 0
      reported := 0
      residue := 0
      departureLeft := none
      minuteAt := none
      side := .noRecord }
    cu := { s.cu with lastOrigination := none, curb := none, cutHold := false, lastHeard := none }
    cc := { s.cc with
      state := if s.cc.state = .retryWait ∨ s.cc.state = .convFault then .off else s.cc.state
      retryAt := none
      failures := 0 }
    vl := sessionGone s.vl (s.vl.releaseOwed || s.vl.session.holdsStop)
    sp := { s.sp with mode := mode, restarting := none, pointer := .peers 0 } }

/-- What a restart's completion from `s` leaves of the converter and the session, what follows at once included (R134,
R150, R164, R178): no failure counted and no retry waiting, the setpoint at 0, nothing in flight or due, no retune
running, the session ABSENT, or ATTACHED where the plug is high (R137), and no event raised but VEHICLE_ATTACHED. -/
def Restarted (s t : State) : Prop :=
  t.sp.restarting = none ∧ t.ct.records = [] ∧ t.pv.entries = [] ∧
  t.cc.failures = 0 ∧ t.cc.retryAt = none ∧ t.cc.setpoint = 0 ∧
  t.vl.inFlight = none ∧ t.vl.due = ⟨false, false, none, false, none, false⟩ ∧
  t.vl.failures = 0 ∧ t.vl.retuneAt = none ∧
  t.vl.session = (if s.vl.plug then .attached else .absent) ∧
  (∀ k, k ≠ .vehicleAttached → t.sp.events.count k = s.sp.events.count k)

/-- The state with no bus record (R63). -/
def withoutRecord (s : State) : State :=
  { s with ea := { s.ea with
    record := none
    estimate := 0
    reported := 0
    residue := 0
    departureLeft := none
    minuteAt := none
    side := .noRecord } }

/-- The set with a kind raised a number of times, and no other kind touched (R181). -/
def RaisedTimes (before : EventSet) (k : EventKind) (n : Nat) (after : EventSet) : Prop :=
  after.count k = min 255 (before.count k + n) ∧ ∀ j, j ≠ k → after.count j = before.count j

/-- How far a call record has moved (R45, R46): PENDING, ACTIVE, ENDING, then final. -/
def progress : CallState → Nat
  | .pending => 0
  | .active => 1
  | .ending => 2
  | .done => 3
  | .cancelled => 3

/-! ### The contents of the reports

What the contents rules list for each record, in their order. A word is a number, or absent; a value of a table is
coded by its position in that table (section 11.3). The layouts that no rule fixes are log 19. -/

/-- The word of a number. -/
def word (n : Nat) : Option Int := some (n : Int)

/-- The word of a value: its position in its defining table. -/
def codeIn {α : Type} [DecidableEq α] (table : List α) (x : α) : Option Int := word (table.idxOf x)

/-- The word of a mark. -/
def mark (b : Bool) : Option Int := word (if b then 1 else 0)

/-- A set as a mask, the first member of its table bit 0. -/
def maskIn {α : Type} (table : List α) (holds : α → Bool) : Option Int :=
  word ((table.zipIdx.map fun p => if holds p.1 then 2 ^ p.2 else 0).sum)

/-- What a timer has left in whole ms; absent when it is stopped. -/
def msOf (now : Nat) (t : Timer) : Option Int := t.bind fun u => word (u - now)

/-- What a timer has left in whole s, rounded up; absent when it is stopped. -/
def sOf (now : Nat) (t : Timer) : Option Int := t.bind fun u => word ((u - now + 999) / 1000)

/-- The ten gates in the order of R74. -/
def gateTable : List Gate :=
  [.mode, .session, .allowanceFloor, .departureGuard, .coldLock, .energyMinimum, .isolation,
    .cutHold, .converterDown, .busStop]

/-- One PEERS record (R21). -/
def peersContents (now : Nat) (e : PeerEntry) : List (Option Int) :=
  let a := e.announced
  let age := now - e.received
  [word e.stall, word e.lastSeq, word e.gap,
    codeIn [PostMode.active, .parking, .hold, .dormant] a.mode,
    maskIn [a.isolated, a.cut, a.rejoining] id, word a.cls, word a.offer, word a.share,
    word a.actual, word a.energy, a.served.bind word, a.temperature,
    word (if age < 3000 then 0 else if age < 8000 then 1 else 2), word (min 60 (age / 1000))]

/-- One CALLS record (R61). -/
def callsContents (r : CallRecord) : List (Option Int) :=
  let deferred := r.state = .pending ∧ r.deferred = true
  [word r.callId, word r.revision, codeIn [CallKind.new, .revise, .cancel, .echo] r.kind,
    word r.origin, codeIn [CallState.pending, .active, .ending, .done, .cancelled] r.state,
    mark r.deferred, mark r.cancelledMark, word r.target, word r.ramp, word r.duration,
    word r.goal, mark r.serving,
    (if r.state = .pending ∧ r.deferred = false then word r.countdown else none),
    (if r.state = .active ∨ deferred then word r.remaining else none),
    (if r.state = .done ∨ r.state = .cancelled then word r.retention else none),
    r.accumulators.bind fun a => word a.delivered, r.accumulators.bind fun a => word a.shortfall,
    r.accumulators.bind fun a => word a.allowanceS, r.accumulators.bind fun a => word a.energyS,
    r.accumulators.bind fun a => word a.converterS, r.accumulators.bind fun a => word a.headroomS]

/-- The OWN record of the Line Port (R38). -/
def lineContents (s : State) : List (Option Int) :=
  let waiting (p : QueuedFrame → Bool) : Option Int := word (s.lp.queue.countP p)
  [word s.lp.stats.sent, word s.lp.stats.received, word s.lp.stats.bad, word s.lp.stats.collisions,
    word s.lp.stats.attemptDrops, word s.lp.stats.queueDrops, word s.lp.seq,
    word s.lp.echoFailures,
    waiting fun | .curb _ => true | _ => false,
    waiting fun | .dispatch _ => true | _ => false,
    waiting fun | .leave => true | _ => false,
    waiting fun | .standing => true | _ => false,
    s.lp.inFlight.bind fun f => match f.body with
      | .curb _ => word 0
      | .dispatch _ => word 1
      | .leave => word 2
      | .standing _ => word 3]

/-- The OWN record of the Peer View (R21). -/
def peerViewContents (s : State) : List (Option Int) :=
  [word (1 + s.pv.entries.countP fun e => decide (s.now - e.received < 8000)), mark s.pv.isolated,
    maskIn [s.pv.causeSilence, s.pv.causeEcho] id, mark s.pv.rejoining, msOf s.now s.pv.rejoinAt,
    codeIn [OwnOutcome.noOutcome, .echoed, .notEchoed] s.pv.lastOutcome]

/-- The OWN record of the Energy Account and the Meter (R80). -/
def energyContents (s : State) : List (Option Int) :=
  let item (f : BusRecord → Option Int) : Option Int := s.ea.record.bind f
  [item fun r => word r.bus, item fun r => word r.capacity, item fun r => word r.soe,
    item fun r => word r.route, item fun r => r.departure.bind word, item fun r => some r.packTemp,
    item fun r => some r.minTemp, item fun _ => word 1, item fun r => mark r.routeDefaulted,
    item fun r => mark r.minTempDefaulted, s.ea.departureLeft.bind word, word s.ea.estimate,
    word s.ea.reported, word s.ea.residue, word s.adder, word s.reserveFloor, word s.energy,
    word s.cls, word s.timeBase, word (3600 * s.energy / s.timeBase), word s.offer,
    codeIn [SettingTerm.converter, .allowance, .energy, .gated] s.settingTerm,
    (match s.gateInForce with
      | none => word 0
      | some g => word (1 + gateTable.idxOf g)),
    maskIn gateTable s.gateHolds,
    (match s.ea.side with
      | .noRecord => none
      | .above => word 0
      | .below => word 1),
    word s.mt.total]

/-- The OWN record of the Apportioner (R104). -/
def apportionerContents (s : State) : List (Option Int) :=
  let a := s.ap
  [some a.thetaMax,
    (match a.source with
      | .ownSensor => word 0
      | .peer _ => word 1
      | .fallback => word 2),
    (match a.source with
      | .peer k => word k
      | _ => none),
    word a.derating, word a.lTherm, word a.lEff, word a.census, word a.lView, a.call.bind word,
    word a.goal, word a.fixedLoad, word a.available, word a.participants, a.tier.bind word,
    word a.result, codeIn [ClipCause.allowance, .energy, .converter, .headroom, .noCause] a.clip,
    codeIn [Trigger.step, .curb, .call, .gate] a.trigger, word (min a.result s.offer)]

/-- The OWN record of the Curb Unit (R117). -/
def curbContents (s : State) : List (Option Int) :=
  let left := sOf s.now (s.cu.curb.map fun c => c.expiry)
  [codeIn [SensorState.noSample, .valid, .invalid] s.cu.sensor, s.cu.sample,
    s.cu.lastOrigination.bind fun t => word ((s.now - t) / 1000),
    s.cu.curb.bind fun c => word c.level, left, mark s.cu.cutHold,
    (if s.cu.cutHold then left else none),
    s.cu.lastHeard.bind fun h => word h.stall, s.cu.lastHeard.bind fun h => word h.frame.level,
    s.cu.lastHeard.bind fun h => word h.frame.hold,
    s.cu.lastHeard.map fun h => h.frame.temperature]

/-- The OWN record of Converter Control (R135). -/
def converterContents (s : State) : List (Option Int) :=
  let target := if s.cc.state = .on ∧ s.vl.session = .exporting then min s.ap.result s.offer else 0
  [codeIn [ConverterState.off, .precharging, .on, .retryWait, .convFault] s.cc.state,
    mark (decide (s.cc.state = .precharging ∨ s.cc.state = .on)), mark s.cc.ready,
    mark s.cc.fault, word s.cc.setpoint, word target, word s.cc.measured, word s.cc.failures,
    mark s.cc.stopPending, sOf s.now s.cc.prechargeAt, sOf s.now s.cc.retryAt,
    sOf s.now s.cc.stableAt, sOf s.now s.cc.lingerAt]

/-- The position of a request's kind among QUERY, TUNE, ENGAGE, RELEASE and POLL (section 8.3). -/
def kindPosition : Request → Nat
  | .identifyQuery _ => 0
  | .refreshQuery _ => 0
  | .tune _ => 1
  | .engage => 2
  | .release => 3
  | .poll => 4

/-- The codes of a TUNE in their order (section 11.2). -/
def tuneTable : List TuneCode := [.startDefault, .startTop, .up, .down, .hold]

/-- The OWN record of the Vehicle Link (R151), with the items of tuning and the export session (R167). -/
def vehicleContents (s : State) : List (Option Int) :=
  let v := s.vl
  [codeIn [SessionState.absent, .attached, .identifying, .tuning, .ready, .engaging, .exporting,
      .releasing, .retryWait, .faulted] v.session,
    mark v.plug, v.inFlight.bind fun f => word (kindPosition f.request),
    v.inFlight.bind fun f => (match f.request with
      | .tune c => codeIn tuneTable c
      | .identifyQuery k => word k
      | .refreshQuery k => word k
      | _ => none),
    v.inFlight.bind fun f => word f.number, v.inFlight.bind fun f => word f.attempt,
    (if v.session = .identifying then word v.items.length else none),
    msOf s.now v.identifyAt, msOf s.now v.retryAt, msOf s.now v.pollAt, msOf s.now v.refreshAt,
    word v.failures,
    (match v.lastFailure with
      | .noFailure => word 0
      | .identifyTimeout => word 1
      | .identifyItem _ => word 2
      | .tuning => word 3
      | .link => word 4),
    (match v.lastFailure with
      | .identifyItem k => word k
      | _ => none),
    mark v.releaseOwed, word v.allowance, word v.desired,
    codeIn [TuningPhase.idle, .stepping, .settling] v.phase,
    codeIn [TuningKind.initial, .retune] v.kind, v.code.bind (codeIn tuneTable),
    v.busLevel.bind word,
    v.busStatus.bind (codeIn [TuneStatus.moved, .atTop, .atBottom, .unchanged]),
    msOf s.now v.tuningAt, msOf s.now v.stepAt, msOf s.now v.settleAt, mark v.holdAnswered,
    msOf s.now v.retuneAt, mark v.retuneDue, msOf s.now v.engageHoldAt, msOf s.now v.shareZeroAt,
    mark v.stopLatch, v.lastCeiling.bind word]

/-- The seven OWN records in their order (R180). -/
def ownContents (s : State) : List (List (Option Int)) :=
  [lineContents s, peerViewContents s, energyContents s, apportionerContents s, curbContents s,
    converterContents s, vehicleContents s]

/-! ### Mode Control -/

/-- Every key of a configuration lies within its range (section 10.2, R169). -/
abbrev ConfigInRange (c : Configuration) : Prop :=
  ∀ k ∈ ConfigKey.all, k.accepts (c.read k) = true

/-- R168, R169, R170, R176, R177: locked is set from JOIN on, a key is pending only in CONFIG, a restart waits
only in a mode that transmits, and the configuration is within its ranges. -/
abbrev ModeControl (s : State) : Prop :=
  (s.sp.locked = true ↔ s.sp.mode ≠ .config) ∧
  (s.sp.pendingKey.isSome = true → s.sp.mode = .config) ∧
  (s.sp.restarting.isSome = true → s.sp.mode ≠ .config ∧ s.sp.mode ≠ .lockout) ∧
  ConfigInRange s.sp.config

/-- R170: from JOIN on the own stall is one of the roster. -/
abbrev StallJoined (s : State) : Prop :=
  s.sp.mode ≠ .config → 1 ≤ s.lp.stall ∧ s.lp.stall ≤ 48 ∧ s.lp.stall ≤ s.sp.config.posts

/-- Each waiting command is one that its port can carry (chapter 11). -/
abbrev Carried (s : State) : Prop := ∀ c ∈ s.pending, c.WellFormed

/-- R181: no occurrence count exceeds 255. -/
abbrev EventCounts (s : State) : Prop := ∀ n ∈ s.sp.events.toList, n ≤ 255

/-! ### Peer View -/

/-- R1: one entry lies within the roster, is not the own stall's, and keeps to the ranges that a rule gives its fields
(those that the width of a wire field gives are `EntryFields`). -/
abbrev EntryInRange (posts own : Nat) (e : PeerEntry) : Prop :=
  1 ≤ e.stall ∧ e.stall ≤ posts ∧ e.stall ≠ own ∧ e.gap ≤ 255 ∧ e.announced.cls ≤ 3 ∧
    e.announced.offer ≤ 600 ∧ e.announced.share ≤ 600 ∧ e.announced.actual ≤ 600 ∧
    e.announced.energy ≤ 6000 ∧ e.announced.served ≠ some 0 ∧
    (∀ t ∈ e.announced.temperature, -40 ≤ t ∧ t ≤ 150)

/-- R1, R18: the peer table is strictly ascending by stall, each entry in its ranges, and empty in CONFIG,
where alone POSTS can change (R176). -/
abbrev PeerTable (s : State) : Prop :=
  s.pv.entries.Pairwise (fun a b => a.stall < b.stall) ∧
  (∀ e ∈ s.pv.entries, EntryInRange s.sp.config.posts s.lp.stall e) ∧
  (s.sp.mode = .config → s.pv.entries = []) ∧
  (s.sp.locked = false → s.sp.mode = .config)

/-- R1: the modes that a peer can announce, and the ranges that the width of a wire field gives: the sequence and the
served call id. -/
abbrev EntryFields (e : PeerEntry) : Prop :=
  e.lastSeq ≤ 255 ∧ (∀ k ∈ e.announced.served, k ≤ 65535) ∧
    (e.announced.mode = .active ∨ e.announced.mode = .parking ∨ e.announced.mode = .hold ∨
      e.announced.mode = .dormant)

/-- R1: every entry of the peer table has its fields so. -/
abbrev PeerFields (s : State) : Prop := ∀ e ∈ s.pv.entries, EntryFields e

/-- R12: ISOLATED and REJOINING are never set together, ISOLATED is set exactly while a cause holds, and the
rejoin hold timer runs exactly while REJOINING is set. -/
abbrev Isolation (s : State) : Prop :=
  ¬(s.pv.isolated = true ∧ s.pv.rejoining = true) ∧
  (s.pv.isolated = true ↔ (s.pv.causeSilence = true ∨ s.pv.causeEcho = true)) ∧
  (s.pv.rejoining = true ↔ s.pv.rejoinAt.isSome = true)

/-! ### Line Port -/

/-- R22, R23, R30: the queue holds at most eight frames in class order with at most one STANDING, and an attempt
is one of eight. -/
abbrev TransmitQueue (s : State) : Prop :=
  s.lp.queue.length ≤ 8 ∧
  s.lp.queue.Pairwise (fun a b => b.rank ≤ a.rank) ∧
  s.lp.queue.countP (·.isStanding) ≤ 1 ∧
  (∀ f ∈ s.lp.inFlight, 1 ≤ f.attempt ∧ f.attempt ≤ 8)

/-- R31, R35, R37, R38: in CONFIG and in LOCKOUT the Line Port holds nothing to send, and its counts keep to their
limits. -/
abbrev LineSilent (s : State) : Prop :=
  s.transmitEnabled = false → s.lp.queue = [] ∧ s.lp.inFlight = none ∧ s.lp.standingAt = none

/-- R38: the line statistics and the echo-failure count (R31) saturate. -/
abbrev LineCounts (s : State) : Prop :=
  s.lp.stats.sent ≤ 65535 ∧ s.lp.stats.received ≤ 65535 ∧ s.lp.stats.bad ≤ 65535 ∧
    s.lp.stats.collisions ≤ 65535 ∧ s.lp.stats.attemptDrops ≤ 65535 ∧
    s.lp.stats.queueDrops ≤ 65535 ∧ s.lp.echoFailures ≤ 3 ∧ s.lp.seq ≤ 255

/-! ### Call Unit -/

/-- R40: one call record keeps to the ranges of its times and powers; a deferred record is PENDING; the accumulators are
present while it is in force. The other fields' ranges are `RecordFields`. -/
abbrev RecordInRange (r : CallRecord) : Prop :=
  1 ≤ r.callId ∧ r.target ≤ 30000 ∧ 1 ≤ r.ramp ∧ r.ramp ≤ 1000 ∧ 60 ≤ r.duration ∧
    r.duration ≤ 14400 ∧ r.countdown ≤ 3600 ∧ r.remaining ≤ 14400 ∧ r.goal ≤ 30000 ∧
    r.retention ≤ 3600 ∧ (r.deferred = true → r.state = .pending) ∧
    (r.inForce = true → r.accumulators.isSome = true)

/-- R40, R57: the ranges of a call record's id, revision, origin stall and accumulators. -/
abbrev RecordFields (r : CallRecord) : Prop :=
  r.callId ≤ 65535 ∧ r.revision ≤ 255 ∧ 1 ≤ r.origin ∧ r.origin ≤ 48 ∧
    (∀ a ∈ r.accumulators, a.delivered ≤ 999999 ∧ a.shortfall ≤ 999999 ∧ a.deliveredJ < 3600 ∧
      a.shortfallJ < 3600 ∧ a.allowanceS ≤ 65535 ∧ a.energyS ≤ 65535 ∧ a.converterS ≤ 65535 ∧
      a.headroomS ≤ 65535)

/-- R40, R57: every record of the call table has its fields so. -/
abbrev CallFields (s : State) : Prop := ∀ r ∈ s.ct.records, RecordFields r

/-- R40, R48: at most four records in ascending call id, each in its ranges, at most one of them in force. -/
abbrev CallTable (s : State) : Prop :=
  s.ct.records.length ≤ 4 ∧
  s.ct.records.Pairwise (fun a b => a.callId < b.callId) ∧
  s.ct.records.countP (·.inForce) ≤ 1 ∧
  (∀ r ∈ s.ct.records, RecordInRange r)

/-- R48, R49: a record is deferred only while another holds the active slot. -/
abbrev DeferredWaits (s : State) : Prop :=
  s.ct.records.any (·.deferred) = true → slotFree s.ct.records = false

/-- R54: the repeat list holds the copies of at most eight commands. -/
abbrev RepeatList (s : State) : Prop := s.ct.repeats.length ≤ 8

/-! ### Converter Control -/

/-- R128, R168: the setpoint never exceeds CONV_RATING, is above 0 only with the converter ON and the session
EXPORTING, and the converter is enabled only in ACTIVE and PARKING and with no restart waiting (R133, R134). -/
abbrev Setpoint (s : State) : Prop :=
  s.cc.setpoint ≤ s.sp.config.convRating ∧
  (0 < s.cc.setpoint → s.cc.state = .on ∧ s.vl.session = .exporting) ∧
  (s.cc.state.enabled = true → s.sp.mode = .active ∨ s.sp.mode = .parking) ∧
  (s.cc.state.enabled = true → s.sp.restarting = none) ∧
  (s.cc.state = .precharging ↔ s.cc.prechargeAt.isSome = true) ∧
  (s.sp.locked = false → s.sp.mode = .config)

/-- R118 to R126: which of the converter's timers and marks can stand in which state. -/
abbrev ConverterTimers (s : State) : Prop :=
  (s.cc.retryAt.isSome = true ↔ s.cc.state = .retryWait) ∧
  (s.cc.stableAt.isSome = true → s.cc.state = .on) ∧
  (s.cc.prechargeAt.isSome = true ↔ s.cc.state = .precharging) ∧
  (s.cc.lingerAt.isSome = true → s.cc.state.enabled = true) ∧
  (s.cc.stopPending = true → s.cc.state = .on) ∧
  (s.cc.failures = 3 ↔ s.cc.state = .convFault) ∧ s.cc.failures ≤ 3 ∧ s.cc.measured ≤ 1023

/-! ### Energy Account and Vehicle Link -/

/-- R62 to R69, R76: the estimate does not exceed what the bus last reported, nor that the usable capacity; the
residue stays below one unit of energy; the notice side stands at no record exactly while there is none; and with no
record the account is empty. -/
abbrev Account (s : State) : Prop :=
  s.ea.estimate ≤ s.ea.reported ∧ s.ea.residue < 360000 ∧
  (s.ea.record = none ↔ s.ea.side = .noRecord) ∧
  (s.ea.record = none → s.ea.estimate = 0 ∧ s.ea.reported = 0 ∧ s.ea.residue = 0 ∧
    s.ea.departureLeft = none ∧ s.ea.minuteAt = none) ∧
  (∀ r ∈ s.ea.record, s.ea.reported ≤ r.capacity ∧ r.soe ≤ r.capacity ∧ r.capacity ≤ 6000)

/-- R78: the total meter and its residue. -/
abbrev TotalMeter (s : State) : Prop := s.mt.total ≤ 999999999 ∧ s.mt.residue < 3600

/-- R142: an identify QUERY in flight asks, in IDENTIFYING, for the item after those held. R158, R150: an ENGAGE is in
flight only in ENGAGING, and in RELEASING where a RESTART has come before its reply. -/
def asksInPlace (v : VehicleLink) : Request → Bool
  | .identifyQuery k => v.session == .identifying && k == v.items.length
  | .engage => v.session == .engaging || v.session == .releasing
  | _ => true

/-- R136, R138, R146, R149, R152, R173: the session against the plug, the mode, the requests, the allowance, the
timers and the tuning phase. -/
abbrev Session (s : State) : Prop :=
  (s.vl.session ≠ .absent → s.vl.plug = true) ∧
  (s.linkRuns = false → s.vl.session = .absent) ∧
  (s.vl.session = .absent → s.vl.inFlight = none ∧ s.vl.due = .nothing ∧ s.ea.record = none ∧
    s.vl.pollAt = none ∧ s.vl.refreshAt = none) ∧
  (s.vl.session = .absent ∨ s.vl.session = .attached ∨ s.vl.session = .identifying ∨
    s.vl.session = .retryWait ∨ s.vl.session = .faulted → s.vl.allowance = 0) ∧
  (s.vl.wakeAt.isSome = true ↔ s.vl.session = .attached) ∧
  (s.vl.identifyAt.isSome = true ↔ s.vl.session = .identifying) ∧
  (s.vl.requeryAt.isSome = true → s.vl.session = .identifying) ∧
  (s.vl.retryAt.isSome = true ↔ s.vl.session = .retryWait) ∧
  (s.vl.phase ≠ .idle ↔ s.vl.session = .tuning) ∧
  (s.vl.tuningAt.isSome = true ↔ s.vl.phase = .stepping) ∧
  (s.vl.stepAt.isSome = true → s.vl.phase = .stepping) ∧
  (s.vl.settleAt.isSome = true → s.vl.phase = .settling) ∧
  (∀ f ∈ s.vl.inFlight, asksInPlace s.vl f.request = true) ∧
  (s.vl.failures = 3 ↔ s.vl.session = .faulted) ∧ s.vl.failures ≤ 3 ∧
  s.vl.allowance ≤ s.vl.desired ∧ (∀ l ∈ s.vl.busLevel, l ≤ 63) ∧
  s.vl.items.length ≤ 7 ∧ s.vl.counter ≤ 255

/-- R62, R185: each item held at an identify lies in its range, so that correcting it changes nothing. -/
abbrev ItemsInRange (s : State) : Prop :=
  ∀ p ∈ s.vl.items.zipIdx, p.1.all (fun v => itemCorrected p.2 v == v) = true

end Sys2Proof.Safety
end

