-- ==== Sys2Proof/Certificates/Slice0/Obligations.lean ====
section
/-!
DEFINITION. The statements about the model, for the provers. Where a command ends with what comes about at once in
the other blocks, the statement gives the state `u` with the command's own effect and says `Reacted u t` of the next
state `t` (Sys2Proof/Safety.lean); where nothing follows at once, it gives the next state itself.
-/

open Sys2Proof Sys2Proof.Machine Sys2Proof.Safety

/-! ### The queue and the step -/

/-- A step takes the command at the front of the queue whole, and runs its meaning on the state with the queue's rest
(95_what_each_step_holds.md). -/
def Obligations.StepTakesTheFrontCommand : Prop :=
  ∀ (s : State) (c : Instr) (rest : List Instr),
    s.pending = c :: rest → step s = exec c { s with pending := rest }

/-- Every command answers a next state; it leaves the waiting commands and the environment's coming levels as they
are (that list is the model's field, log 3; that HARDWARE_RESET leaves both is log 27), and, HARDWARE_RESET apart, time
does not go back. On an empty queue the step goes on too (log 2). -/
def Obligations.CommandsLeaveTheQueue : Prop :=
  (∀ (c : Instr) (s : State), ∃ t, exec c s = .next t ∧ t.pending = s.pending ∧
    t.inputs = s.inputs ∧ ((∀ straps, c ≠ .hardwareReset straps) → s.now ≤ t.now)) ∧
  (∀ s : State, s.pending = [] → ∃ t, step s = .next t ∧ t.pending = [] ∧ s.now ≤ t.now)

/-! ### Hardware reset -/

/-- The state after hardware reset, block by block, as R18, R37, R59, R78, R79, R102, R115, R132, R149, R165 and R168
give it: every key of CONFIG at its default, and no event. The fields whose reset value is the model's choice are left
as they are: the straps (log 5), the levels of the input pins (log 6), D and the tuning kind (log 7), the response
(log 21), the identify position (log 36), and the gates and the start request as last evaluated (log 9, log 28). -/
def Obligations.ResetHoldsTheStatedValues : Prop :=
  let s := State.reset
  s.lp = {
    stall := s.lp.stall, seq := 0, queue := [], inFlight := none, echoFailures := 0,
    standingAt := none, lineIdle := s.lp.lineIdle, stats := ⟨0, 0, 0, 0, 0, 0⟩ } ∧
  s.pv = {
    entries := [], isolated := false, causeSilence := false, causeEcho := false,
    rejoining := false, rejoinAt := none, lastHeardAt := none, lastAccepted := none,
    lastOutcome := .noOutcome, sweepAt := none } ∧
  s.ct = { records := [], tickAt := none, echoAt := none, repeats := [] } ∧
  s.ea = {
    record := none, estimate := 0, reported := 0, residue := 0, departureLeft := none,
    minuteAt := none, side := .noRecord, gates := s.ea.gates } ∧
  s.mt = { total := 0, residue := 0, sampleAt := none } ∧
  s.ap = {
    thetaMax := 0, source := .fallback, derating := 0, lTherm := 0, lEff := 0, census := 1,
    lView := 0, call := none, goal := 0, fixedLoad := 0, available := 0, participants := 0,
    tier := none, result := 0, clip := .noCause, trigger := .step, stepAt := none } ∧
  s.cu = {
    sensor := .noSample, sample := none, lastOrigination := none, curb := none,
    cutHold := false, lastHeard := none, sampleAt := none, tsense := s.cu.tsense } ∧
  s.cc = {
    state := .off, prechargeAt := none, retryAt := none, stableAt := none, lingerAt := none,
    failures := 0, stopPending := false, setpoint := 0, measured := 0,
    startHeld := s.cc.startHeld, slewAt := none, ready := s.cc.ready, fault := s.cc.fault } ∧
  s.vl = {
    session := .absent, plug := s.vl.plug, wakeAt := none, inFlight := none, counter := 0,
    due := ⟨false, false, none, false, none, false⟩, items := s.vl.items, identifyAt := none,
    requeryAt := none, retryAt := none, failures := 0, lastFailure := .noFailure,
    releaseOwed := false, pollAt := none, refreshAt := none, allowance := 0,
    desired := s.vl.desired, phase := .idle, kind := s.vl.kind, code := none, busLevel := none,
    busStatus := none, tuningAt := none, stepAt := none, settleAt := none,
    holdAnswered := false, retuneAt := none, retuneDue := false, engageHoldAt := none,
    shareZeroAt := none, shareZeroOut := false, stopLatch := false, lastCeiling := none } ∧
  s.sp = {
    mode := .config, config := s.sp.config, clamped := Vector.replicate 24 false,
    pendingKey := none, locked := false, restarting := none,
    events := Vector.replicate 31 0, pointer := .peers 0, response := s.sp.response } ∧
  ConfigKey.all.map s.sp.config.read =
    [12, 5000, 8, 30, 50, 40, 0, 110, 60, 120, 600, 60, 3, 0, 50, 800, 90, 0, 5, 5, 100, 0, 2,
      2147483647] ∧
  s.adder = 0 ∧ s.reserveFloor = 0 ∧ s.energy = 0 ∧ s.energyPower = 0 ∧ s.offer = 0 ∧
  s.timeBase = 60 ∧ s.cls = 3 ∧ s.settingTerm = .gated ∧ s.gateInForce = some .mode ∧
  s.share = 0 ∧ s.enablePin = false ∧ s.setptPin = 0 ∧
  s.intNPin = true ∧ s.indAPin = false ∧ s.indBPin = false

/-- HARDWARE_RESET sets every block to its reset values and samples the straps; the levels on the pins, the waiting
commands and the draws counted are not the part's to reset (log 27), and the line level stays so even where the reset
cuts off an own attempt (log 32). -/
def Obligations.HardwareResetSetsEveryBlock : Prop :=
  ∀ (s : State) (straps : Nat), straps < 64 →
    exec (.hardwareReset straps) s = .next
      { now := 0
        draws := s.draws
        lp := { LinePort.reset straps with lineIdle := s.lp.lineIdle }
        pv := .reset
        ct := .reset
        ea := .reset
        mt := .reset
        ap := .reset
        cu := { CurbUnit.reset with tsense := s.cu.tsense }
        cc := { Converter.reset with ready := s.cc.ready, fault := s.cc.fault }
        vl := { VehicleLink.reset with plug := s.vl.plug }
        sp := .reset
        pending := s.pending
        inputs := s.inputs }

/-! ### The supervisor port -/

/-- The admission table of R176, row by row: a command that a row refuses changes the response alone. A command of no
known code or shape that the rows 1 to 3 let through is INVALID (R186); that a VALUE of a wrong length passes row 3
while a key is pending is log 23, the model's reading. -/
def Obligations.AdmissionTable : Prop :=
  ∀ (s : State) (c : Instr) (a : Admission), supervisorRow c = some a →
    (s.sp.restarting.isSome = true → exec c s = .next (answered s .busy .empty)) ∧
    (s.sp.restarting = none → s.sp.pendingKey.isSome = true → a.passesKey = false →
      exec c s = .next (answered s .sequence .empty)) ∧
    (s.sp.restarting = none → s.sp.pendingKey = none → s.sp.mode = .config → a.needsJoin = true →
      exec c s = .next (answered s .notJoined .empty)) ∧
    (s.sp.restarting = none → s.sp.pendingKey = none → s.sp.locked = true → a.writes = true →
      exec c s = .next (answered s .locked .empty)) ∧
    (∀ code length, c = .unknownCommand code length → s.sp.restarting = none →
      (s.sp.pendingKey = none ∨ code = 2) → exec c s = .next (answered s .invalid .empty))

/-- The two commands that write a key (R169): SELECT makes the named key pending, or is INVALID; VALUE stores the
value or the nearest limit (for EVENT_MASK the set without bit 31, R186), sets or clears the mark, and answers the
stored value; no other key and nothing else changes. With no key pending VALUE is refused with SEQUENCE. -/
def Obligations.SelectAndValueWriteOneKey : Prop :=
  (∀ (s : State) (code : Nat), Configurable s → s.sp.pendingKey = none →
    (∀ k, configKeyOfCode code = some k →
      exec (.select code) s = .next (answered { s with sp := { s.sp with pendingKey := some k } }
        .accepted .empty)) ∧
    (configKeyOfCode code = none → exec (.select code) s = .next (answered s .invalid .empty))) ∧
  (∀ (s : State) (v : Int), Configurable s → s.sp.pendingKey = none →
    exec (.value v) s = .next (answered s .sequence .empty)) ∧
  (∀ (s : State) (v : Int) (k : ConfigKey), Configurable s → s.sp.pendingKey = some k →
    let inRange : Bool := decide (k.range.1 ≤ v ∧ v ≤ k.range.2)
    let stored : Int := if k = .eventMask then v % 2147483648 else clampInt k.range.1 k.range.2 v
    ∃ config : Configuration,
      config.read k = stored ∧
      (∀ j, j ≠ k → config.read j = s.sp.config.read j) ∧
      exec (.value v) s = .next (answered
        { s with sp := { s.sp with
          config := config
          clamped := s.sp.clamped.set k.index (!inRange)
          pendingKey := none } }
        (if inRange then .accepted else .acceptedClamped) (.storedValue stored)))

/-- JOIN validates STALL first and then ALLOW_FLOOR (R170): a failing JOIN names the item and changes nothing. An
accepted JOIN locks the configuration, makes the mode ACTIVE and starts the blocks: D is fixed, a STANDING is
enqueued, the timers run, the echo timer and the STANDING timer with a drawn part (R170, R25, R59, R152). With a
sensor fitted the sampling starts too, with the first sample taken at once (R115): the level on TSENSE is judged
(R106), and one that is valid, at or above CURB_TEMP and 10 s or more after the last origination sends a CURB, ahead
of the STANDING, and applies it to the own post (R108, R110). That a CURB enqueued after the STANDING in the same
handling is the frame that an idle line takes is log 11, the model's choice. -/
def Obligations.JoinValidatesAndStartsThePost : Prop :=
  (∀ s : State, Configurable s → s.sp.pendingKey = none →
     (¬(1 ≤ s.lp.stall ∧ s.lp.stall ≤ 48 ∧ s.lp.stall ≤ s.sp.config.posts) →
       exec .join s = .next (answered s .invalid (.failingItem 1))) ∧
     ((1 ≤ s.lp.stall ∧ s.lp.stall ≤ 48 ∧ s.lp.stall ≤ s.sp.config.posts) →
       s.sp.config.allowCeil < s.sp.config.allowFloor →
       exec .join s = .next (answered s .invalid (.failingItem 2)))) ∧
  (∀ s : State, Configurable s → s.sp.pendingKey = none → s.lp.queue = [] → s.lp.inFlight = none →
     1 ≤ s.lp.stall → s.lp.stall ≤ 48 → s.lp.stall ≤ s.sp.config.posts →
     s.sp.config.allowFloor ≤ s.sp.config.allowCeil →
     let reading := s.cu.tsense
     let valid : Bool := decide (-40 ≤ reading ∧ reading ≤ 150)
     let originates : Bool := valid && decide (s.sp.config.curbTemp ≤ reading) &&
       s.cu.lastOrigination.all fun last => decide (10000 ≤ s.now - last)
     ∃ t echo jitter, exec .join s = .next (answered t .accepted .empty) ∧
       t.sp.mode = .active ∧ t.sp.locked = true ∧
       t.cu.sampleAt = (if s.sp.config.sensorFitted then some (s.now + 1000) else none) ∧
       10000 ≤ echo ∧ echo ≤ 11000 ∧ 1000 ≤ jitter ∧ jitter ≤ 1100 ∧
       let started : State := { s with
         draws := s.draws + 2
         lp := { s.lp with queue := [.standing], standingAt := some (s.now + jitter) }
         pv := { s.pv with
           sweepAt := some (s.now + 1000), lastHeardAt := some (s.now + 4000) }
         ct := { s.ct with tickAt := some (s.now + 1000), echoAt := some (s.now + echo) }
         mt := { s.mt with sampleAt := some (s.now + 100) }
         ap := { s.ap with stepAt := some (s.now + 500) }
         cu := { s.cu with
           sampleAt := if s.sp.config.sensorFitted then some (s.now + 1000) else none }
         cc := { s.cc with slewAt := some (s.now + 100) }
         vl := { s.vl with
           desired := min s.sp.config.allowCeil (s.sp.config.convRating / 10) }
         sp := { s.sp with mode := .active, locked := true } }
       let sampled : State := { started with
         cu := { started.cu with
           sensor := if valid then .valid else .invalid
           sample := if valid then some reading else none }
         sp := { started.sp with
           events := if !valid && s.cu.sensor == .valid then s.sp.events.raise .sensorFault
             else s.sp.events } }
       (s.sp.config.sensorFitted = false → Reacted started t) ∧
       (s.sp.config.sensorFitted = true → originates = false → Reacted sampled t) ∧
       (s.sp.config.sensorFitted = true → originates = true →
         Reacted (State.curbComputation { sampled with
           lp := { sampled.lp with
             queue := [.curb ⟨s.sp.config.curbLevel, s.sp.config.curbHold, reading⟩, .standing] }
           cu := { sampled.cu with
             lastOrigination := some s.now
             curb := some (curbApplied s.cu.curb s.now s.sp.config.curbLevel
               s.sp.config.curbHold) }
           sp := { sampled.sp with events := sampled.sp.events.raise .curbSent } }) t))

/-- CALL (R41, R186): a call id of 0 or a kind that is not 1 to 3 is INVALID; else the clamped command is handled as
a DISPATCH with the own stall as origin, is sent with two further copies due after 300 ms and 600 ms unless it was
IGNORED (R54), and is answered with its outcome. -/
def Obligations.CallIsHandledAsADispatch : Prop :=
  ∀ (s : State) (a : CallArgs), Admitted s →
    (a.callId = 0 ∨ a.kind < 1 ∨ 3 < a.kind →
      exec (.call a) s = .next (answered s .invalid .empty)) ∧
    (∀ kind : CallKind, a.callId ≠ 0 →
      ((a.kind = 1 ∧ kind = .new) ∨ (a.kind = 2 ∧ kind = .revise) ∨ (a.kind = 3 ∧ kind = .cancel)) →
      let d : CallFrame := {
        callId := a.callId
        revision := a.revision
        kind := kind
        origin := s.lp.stall
        carried := .absent
        cancelledMark := false
        target := min 30000 a.target
        ramp := clampNat 1 1000 a.ramp
        duration := clampNat 60 14400 a.duration
        countdown := min 3600 a.delay }
      let clamped := a.target ≠ d.target ∨ a.delay ≠ d.countdown ∨ a.duration ≠ d.duration ∨
        a.ramp ≠ d.ramp
      let u := (s.intake d).1
      let outcome := (s.intake d).2
      ∃ t, exec (.call a) s = .next t ∧
        t.sp.response =
          some ⟨if clamped then .acceptedClamped else .accepted, .intake outcome⟩ ∧
        (outcome = .ignored → Reacted { u with sp := { u.sp with response := t.sp.response } } t) ∧
        (outcome ≠ .ignored →
          t.ct.repeats = u.ct.repeats.drop (u.ct.repeats.length - 7) ++
            [⟨d, [u.now + 300, u.now + 600]⟩] ∧
          ∃ v : State,
            v = ({ u with ct := { u.ct with repeats := t.ct.repeats } } : State).enqueue
              (.dispatch d) ∧
            Reacted { v with sp := { v.sp with response := t.sp.response } } t))

/-- PARK (R171) in ACTIVE makes the mode PARKING and requests a stop (R126): a precharge is abandoned, ON has stop
pending set, and what follows at once is that state's. In the other joined modes it is refused with STATE, as WAKE
is in ACTIVE and LOCKOUT. WAKE (R174) in PARKING, HOLD and DORMANT makes the mode ACTIVE. PARK_COMPLETE (R172): in
PARKING, with the setpoint at 0, ENABLE low, the session in none of the six states that hold the park and no restart
waiting, the mode becomes HOLD with the plug in and DORMANT without; else nothing changes (log 13). A DISPATCH or
CALL that creates or revises a record in HOLD (R174, R177) wakes the post with CALL_WAKE where the record is then
PENDING with a countdown of at most 1800 s, deferred, ACTIVE or ENDING, and in no other case. A change of mode
writes the mode alone, but that a running poll timer starts again at the new period when HOLD or LOCKOUT is entered
or left (R147). -/
def Obligations.ParkAndWakeChangeTheMode : Prop :=
  (∀ s : State, Admitted s →
    (s.sp.mode = .active →
      ∃ t, exec .park s = .next (answered t .accepted .empty) ∧
        t = State.finish { s with
          cc := if s.cc.state = .precharging then converterOff s.cc
            else if s.cc.state = .on then { s.cc with stopPending := true } else s.cc
          sp := { s.sp with mode := .parking } } ∧
        t.cc.state ≠ .precharging ∧ (t.cc.state = .on → t.cc.stopPending = true)) ∧
    (s.sp.mode ≠ .active → exec .park s = .next (answered s .state .empty)) ∧
    (s.sp.mode = .parking ∨ s.sp.mode = .hold ∨ s.sp.mode = .dormant →
      ∃ t, exec .wake s = .next (answered t .accepted .empty) ∧ t.sp.mode = .active ∧
        t = State.finish { s with
          vl := { s.vl with pollAt := pollIn s .active }
          sp := { s.sp with mode := .active } }) ∧
    (s.sp.mode = .active ∨ s.sp.mode = .lockout →
      exec .wake s = .next (answered s .state .empty))) ∧
  (∀ s : State,
    let holding : Bool := decide (s.vl.session = .attached ∨ s.vl.session = .identifying ∨
      s.vl.session = .tuning ∨ s.vl.session = .engaging ∨ s.vl.session = .exporting ∨
      s.vl.session = .releasing)
    (s.sp.mode = .parking → s.cc.setpoint = 0 → s.cc.state ≠ .precharging → s.cc.state ≠ .on →
      holding = false → s.sp.restarting = none →
      ∃ t, exec .parkComplete s = .next t ∧
        t.sp.mode = (if s.vl.plug then .hold else .dormant) ∧
        t = State.finish { s with
          vl := { s.vl with pollAt := pollIn s (if s.vl.plug then .hold else .dormant) }
          sp := { s.sp with mode := if s.vl.plug then .hold else .dormant } }) ∧
    (s.sp.mode ≠ .parking ∨ 0 < s.cc.setpoint ∨ s.cc.state = .precharging ∨ s.cc.state = .on ∨
      holding = true ∨ s.sp.restarting.isSome = true → exec .parkComplete s = .next s)) ∧
  (∀ (s t : State) (d : CallFrame) (outcome : IntakeOutcome) (r : CallRecord),
    s.intake d = (t, outcome) → s.sp.mode = .hold → s.sp.restarting = none →
    r ∈ t.ct.records → r.callId = d.callId →
    (outcome = .created ∨ outcome = .revised → r.state ≠ .done → r.state ≠ .cancelled →
      (r.state = .pending → r.deferred = false → r.countdown ≤ 1800) →
      t.sp.mode = .active ∧ t.vl.pollAt = pollIn s .active ∧
        t.sp.events.count .callWake = min 255 (s.sp.events.count .callWake + 1)) ∧
    ((outcome ≠ .created ∧ outcome ≠ .revised) ∨ r.state = .done ∨ r.state = .cancelled ∨
        (r.state = .pending ∧ r.deferred = false ∧ 1800 < r.countdown) →
      t.sp.mode = .hold ∧ t.vl.pollAt = s.vl.pollAt ∧
        t.sp.events.count .callWake = s.sp.events.count .callWake)) ∧
  (∀ (s : State) (m : PostMode),
    s.setMode m = { s with
      vl := { s.vl with pollAt := pollIn s m }
      sp := { s.sp with mode := m } })

/-- RESTART from a mode other than LOCKOUT begins the wait (R177): RESTARTING with the mode as its origin and 200
ms, the setpoint at 0 and an enabled converter off (R134), a LEAVE enqueued (R36), and a session READY, ENGAGING or
EXPORTING to RELEASING with a RELEASE due (R150). From LOCKOUT it completes at once into ACTIVE, with no wait, but
the session is first moved as R150 gives. RESTART_WAIT_EXPIRY completes the restart (R177, R178): to LOCKOUT where a
duplicate stall is held, to DORMANT from HOLD and DORMANT, else to ACTIVE, with every block cleared and no event
raised by the completion; what follows at once then begins: a plug that is high is met (R137). A wait that has ended
finds nothing (log 13). That the line level stands as an abandoned attempt left it is log 32, and that the items
read are dropped log 36, the model's choices. -/
def Obligations.RestartWaitsAndCompletes : Prop :=
  (∀ s : State, Admitted s →
    let released : VehicleLink :=
      if s.vl.session = .ready ∨ s.vl.session = .engaging ∨ s.vl.session = .exporting then
        { s.vl with session := .releasing, due := { s.vl.due with release := true } }
      else s.vl
    (s.sp.mode ≠ .lockout →
      ∃ t, exec .restart s = .next (answered t .accepted .empty) ∧
        t = (State.enqueue { s with
          cc := if s.cc.state = .precharging ∨ s.cc.state = .on then converterOff s.cc
            else { s.cc with setpoint := 0 }
          vl := released
          sp := { s.sp with restarting := some ⟨s.sp.mode, false, s.now + 200⟩ } } .leave).finish ∧
        t.sp.mode = s.sp.mode ∧ t.sp.restarting = some ⟨s.sp.mode, false, s.now + 200⟩ ∧
        t.cc.setpoint = 0 ∧ t.enablePin = false ∧
        (s.vl.session = .ready ∨ s.vl.session = .engaging ∨ s.vl.session = .exporting →
          t.vl.session = .releasing ∧ t.vl.due.release = true)) ∧
    (s.sp.mode = .lockout →
      ∃ (t : State) (echo standing : Nat), exec .restart s = .next (answered t .accepted .empty) ∧
        10000 ≤ echo ∧ echo ≤ 11000 ∧ 1000 ≤ standing ∧ standing ≤ 1100 ∧
        t = (restartedInto { s with vl := released } .active echo standing).finish ∧
        Restarted s t ∧ t.sp.mode = .active ∧
        (s.vl.session = .ready ∨ s.vl.session = .engaging ∨ s.vl.session = .exporting ∨
          s.vl.session = .releasing → t.vl.releaseOwed = true))) ∧
  (∀ (s : State) (r : Restarting), s.sp.restarting = some r →
    let mode : PostMode := if r.duplicateHeld then .lockout
      else if r.origin = .hold ∨ r.origin = .dormant then .dormant
      else .active
    ∃ (t : State) (echo standing : Nat), exec .restartWaitExpiry s = .next t ∧
      10000 ≤ echo ∧ echo ≤ 11000 ∧ 1000 ≤ standing ∧ standing ≤ 1100 ∧
      t = (restartedInto { s with now := max s.now r.waitAt } mode echo standing).finish ∧
      Restarted s t ∧
      t.sp.mode = (if mode = .dormant ∧ s.vl.plug = true then .active else mode)) ∧
  (∀ s : State, s.sp.restarting = none → exec .restartWaitExpiry s = .next s)

/-- STATUS (R179) is accepted in every state, returns the values of one moment with the event set, and removes the
returned events; nothing else changes. -/
def Obligations.StatusReturnsAndRemovesTheEvents : Prop :=
  ∀ s : State,
    exec .status s = .next { s with sp := { s.sp with
      events := Vector.replicate 31 0
      response := some ⟨.accepted, .status {
        mode := s.sp.mode
        isolated := s.pv.isolated
        rejoining := s.pv.rejoining
        cut := s.cu.cutHold
        curbInForce := s.cu.curb.isSome
        restarting := s.sp.restarting.isSome
        keyPending := s.sp.pendingKey.isSome
        clampedPresent := s.sp.clamped.any id
        plug := s.vl.plug
        gate := s.gateInForce
        session := s.vl.session
        converter := s.cc.state
        share := min s.ap.result s.offer
        setpoint := s.cc.setpoint
        events := s.sp.events }⟩ } }

/-- POINT and READ (R180): POINT sets the pointer by the report's code and index, at the last record for an index at or
beyond the end, or is INVALID; READ returns the record above the pointer's key, or at its position, and moves the
pointer to it; past the last record it returns END and leaves the pointer. Nothing but the pointer and the response
changes. The records hold what R21, R38, R61, R80, R104, R117, R135, R151, R167 and R168 list; their layouts, where no
rule fixes them, are the model's (log 19). -/
def Obligations.PointAndReadWalkTheReports : Prop :=
  ∀ s : State, s.sp.restarting = none → s.sp.pendingKey = none →
    let pointed (p : ReadPointer) : State := { s with sp := { s.sp with pointer := p } }
    (exec (.point 1 0) s = .next (answered (pointed (.peers 0)) .accepted .empty)) ∧
    (∀ before (e : PeerEntry) after, s.pv.entries = before ++ e :: after →
      exec (.point 1 (before.length + 1)) s =
        .next (answered (pointed (.peers e.stall)) .accepted .empty)) ∧
    (∀ before (e : PeerEntry) index, s.pv.entries = before ++ [e] → before.length < index →
      exec (.point 1 index) s = .next (answered (pointed (.peers e.stall)) .accepted .empty)) ∧
    (∀ index, s.pv.entries = [] →
      exec (.point 1 index) s = .next (answered (pointed (.peers 0)) .accepted .empty)) ∧
    (exec (.point 2 0) s = .next (answered (pointed (.calls 0)) .accepted .empty)) ∧
    (∀ before (r : CallRecord) after, s.ct.records = before ++ r :: after →
      exec (.point 2 (before.length + 1)) s =
        .next (answered (pointed (.calls r.callId)) .accepted .empty)) ∧
    (∀ before (r : CallRecord) index, s.ct.records = before ++ [r] → before.length < index →
      exec (.point 2 index) s = .next (answered (pointed (.calls r.callId)) .accepted .empty)) ∧
    (∀ index, s.ct.records = [] →
      exec (.point 2 index) s = .next (answered (pointed (.calls 0)) .accepted .empty)) ∧
    (∀ index, exec (.point 3 index) s =
      .next (answered (pointed (.own (min index 7))) .accepted .empty)) ∧
    (∀ index, exec (.point 4 index) s =
      .next (answered (pointed (.config (min index 25))) .accepted .empty)) ∧
    (∀ report index, report < 1 ∨ 4 < report →
      exec (.point report index) s = .next (answered s .invalid .empty)) ∧
    (∀ key before (e : PeerEntry) after, s.sp.pointer = .peers key →
      s.pv.entries = before ++ e :: after → (∀ x ∈ before, x.stall ≤ key) → key < e.stall →
      e.announced.mode ≠ .config → e.announced.mode ≠ .lockout →
      exec .read s = .next (answered (pointed (.peers e.stall)) .accepted
        (.record 1 (peersContents s.now e)))) ∧
    (∀ key, s.sp.pointer = .peers key → (∀ x ∈ s.pv.entries, x.stall ≤ key) →
      exec .read s = .next (answered s .accepted .endOfReport)) ∧
    (∀ key before (r : CallRecord) after, s.sp.pointer = .calls key →
      s.ct.records = before ++ r :: after → (∀ x ∈ before, x.callId ≤ key) → key < r.callId →
      exec .read s = .next (answered (pointed (.calls r.callId)) .accepted
        (.record 2 (callsContents r)))) ∧
    (∀ key, s.sp.pointer = .calls key → (∀ x ∈ s.ct.records, x.callId ≤ key) →
      exec .read s = .next (answered s .accepted .endOfReport)) ∧
    (∀ p fields, s.sp.pointer = .own p → (ownContents s)[p]? = some fields →
      exec .read s = .next (answered (pointed (.own (p + 1))) .accepted
        (.record (p + 3) fields))) ∧
    (∀ p, s.sp.pointer = .own p → 7 ≤ p →
      exec .read s = .next (answered s .accepted .endOfReport)) ∧
    (∀ k : ConfigKey, s.sp.pointer = .config k.index →
      exec .read s = .next (answered (pointed (.config (k.index + 1))) .accepted
        (.record 10 [some (s.sp.config.read k), mark s.sp.clamped[k.index]]))) ∧
    (s.sp.pointer = .config 24 →
      exec .read s = .next (answered (pointed (.config 25)) .accepted
        (.record 10 [word s.lp.stall, mark s.sp.locked, none]))) ∧
    (∀ p, s.sp.pointer = .config p → 25 ≤ p →
      exec .read s = .next (answered s .accepted .endOfReport))

/-! ### The depot line -/

/-- Received fields are brought into their ranges before the owner meets them (R184, R42): a STANDING, a CURB, and a
DISPATCH, which is disregarded at call id 0, at an unknown kind, and as an ECHO without a carried state. So are those
of the bus's replies (R185): the items 0 to 6 at the nearest limit of their ranges (R62) and item 7 as received, the
level and the ceiling at 63 at most, an unknown status as UNCHANGED, and the pack temperature. -/
def Obligations.ReceivedFieldsAreCorrected : Prop :=
  (∀ f : StandingWire, f.corrected = {
    mode := if f.mode = 0 then .active else if f.mode = 1 then .parking
      else if f.mode = 2 then .hold else .dormant
    isolated := f.flags.testBit 0
    rejoining := f.flags.testBit 1
    cut := f.flags.testBit 2
    cls := min 3 f.cls
    offer := min 600 f.offer
    share := min 600 f.share
    actual := min 600 f.actual
    energy := min 6000 f.energy
    served := if f.served = 0 then none else some f.served
    temperature := if f.flags.testBit 3 = true ∧ -40 ≤ f.temperature ∧ f.temperature ≤ 150 then
      some f.temperature else none }) ∧
  (∀ f : CurbWire, f.corrected = {
    level := min 100 f.level
    hold := max 10 (min 600 f.hold)
    temperature := max (-40) (min 150 f.temperature) }) ∧
  (∀ f : DispatchWire,
    (f.corrected = none ↔
      f.callId = 0 ∨ f.kind < 1 ∨ 4 < f.kind ∨ (f.kind = 4 ∧ f.carried % 4 = 0)) ∧
    (∀ d, f.corrected = some d →
      d.callId = f.callId ∧ d.revision = f.revision ∧
      d.kind = (if f.kind = 1 then .new else if f.kind = 2 then .revise
        else if f.kind = 3 then .cancel else .echo) ∧
      d.origin = max 1 (min 48 f.origin) ∧
      d.carried = (if f.kind ≠ 4 then .absent else if f.carried % 4 = 1 then .pending
        else if f.carried % 4 = 2 then .active else .ending) ∧
      d.cancelledMark = (f.carried.testBit 7 && decide (f.kind = 4 ∧ f.carried % 4 = 3)) ∧
      d.target = min 30000 f.target ∧ d.ramp = max 1 (min 1000 f.ramp) ∧
      d.duration = max 60 (min 14400 f.duration) ∧
      d.countdown = min (if f.kind = 4 ∧ f.carried % 4 = 2 then 14400 else 3600) f.countdown)) ∧
  (∀ v : Int,
    itemCorrected 0 v = max 1 (min 9999 v) ∧ itemCorrected 1 v = max 100 (min 6000 v) ∧
    itemCorrected 2 v = max 0 (min 6000 v) ∧ itemCorrected 3 v = max 0 (min 6000 v) ∧
    itemCorrected 4 v = max 0 (min 1440 v) ∧ itemCorrected 5 v = max (-40) (min 100 v) ∧
    itemCorrected 6 v = max (-40) (min 40 v) ∧ itemCorrected 7 v = v ∧
    packTempCorrected v = max (-40) (min 100 v)) ∧
  (∀ n : Nat, levelCorrected n = min 63 n ∧
    tuneStatusOfCode n = if n = 0 then .moved else if n = 1 then .atTop
      else if n = 2 then .atBottom else .unchanged)

/-- A frame that arrives in CONFIG or while the own post is transmitting is not received: nothing changes (R32, R37).
A received BAD_FRAME is counted, and nothing else changes. -/
def Obligations.UnheardAndBadFrames : Prop :=
  ∀ s : State,
    (s.sp.mode ≠ .config → (∀ f, s.lp.inFlight = some f → f.phase ≠ .sending) →
      exec .badFrame s = .next { s with lp := { s.lp with stats := { s.lp.stats with
        bad := satSucc 65535 s.lp.stats.bad } } }) ∧
    (s.sp.mode = .config ∨ (∃ f, s.lp.inFlight = some f ∧ f.phase = .sending) →
      (∀ stall seq f, exec (.standing stall seq f) s = .next s) ∧
      (∀ stall seq reason, exec (.leave stall seq reason) s = .next s) ∧
      (∀ stall seq f, exec (.dispatch stall seq f) s = .next s) ∧
      (∀ stall seq f, exec (.curb stall seq f) s = .next s) ∧
      exec .badFrame s = .next s ∧ (∀ kind, exec (.duplicateStall kind) s = .next s))

/-- A STANDING of a stall in the roster is accepted (R3, R4, R5): without an entry one is made in its place in stall
order and PEER_NEW is raised; with one, its announced fields and its time of receipt are replaced and its lost mark
cleared. While ISOLATED with the last own outcome ECHOED, isolation then clears (R15). -/
def Obligations.StandingReplacesTheEntry : Prop :=
  ∀ (s : State) (stall seq : Nat) (f : StandingWire), Hears s stall →
    1 ≤ stall → stall ≤ s.sp.config.posts →
    s.pv.entries.Pairwise (fun a b => a.stall < b.stall) →
    let h := heardFrom s stall seq
    let known : Bool := s.pv.entries.any (·.stall == stall)
    let entries :=
      if known then
        h.pv.entries.map fun e =>
          if e.stall = stall then
            { e with announced := f.corrected, received := s.now, lostMark := false }
          else e
      else
        h.pv.entries.filter (fun e => decide (e.stall < stall)) ++
          ⟨stall, seq, 0, f.corrected, s.now, false⟩ ::
          h.pv.entries.filter (fun e => decide (stall < e.stall))
    let u : State := { h with
      pv := { h.pv with entries := entries, lastAccepted := some s.now }
      sp := { s.sp with
        events := if known then s.sp.events else s.sp.events.raise .peerNew } }
    (¬(s.pv.isolated = true ∧ s.pv.lastOutcome = .echoed) →
      exec (.standing stall seq f) s = .next u) ∧
    (s.pv.isolated = true → s.pv.lastOutcome = .echoed →
      ∃ t, exec (.standing stall seq f) s = .next t ∧
        Reacted { u with
          pv := { u.pv with
            isolated := false
            causeSilence := false
            causeEcho := false
            rejoining := true
            rejoinAt := some (s.now + 2000) }
          sp := { u.sp with events := u.sp.events.raise .isolationOff } } t)

/-- A LEAVE of a stall in the roster deletes its entry, if any, and raises nothing (R7). A STANDING or LEAVE of a
stall outside the roster is discarded with ROSTER_MISMATCH, and its heard notice stands (R3, R13). -/
def Obligations.LeaveDeletesTheEntry : Prop :=
  ∀ (s : State) (stall seq : Nat), Hears s stall →
    (1 ≤ stall → stall ≤ s.sp.config.posts → ∀ reason,
      exec (.leave stall seq reason) s = .next
        { heardFrom s stall seq with
          pv := { (heardFrom s stall seq).pv with
            entries := (heardFrom s stall seq).pv.entries.filter fun e =>
              decide (e.stall ≠ stall) } }) ∧
    (stall < 1 ∨ s.sp.config.posts < stall →
      let u := { heardFrom s stall seq with
        sp := { s.sp with events := s.sp.events.raise .rosterMismatch } }
      (∀ f, exec (.standing stall seq f) s = .next u) ∧
      (∀ reason, exec (.leave stall seq reason) s = .next u))

/-- SWEEP (R8, R9): the next sweep falls 1 s later; an entry aged 8 s or more is marked LOST, and PEER_LOST is raised
once for each that was not marked; an entry aged 60 s or more is deleted. LAST_HEARD_EXPIRY adds SILENCE and, where
ISOLATED was clear, sets it with ISOLATION_ON and ends a rejoin hold (R13). REJOIN_HOLD_EXPIRY clears REJOINING
(R16). That a SWEEP whose timer is stopped changes nothing is log 13, the model's reading. -/
def Obligations.SweepAndIsolationTimersRun : Prop :=
  ((∀ (s : State) (at' : Nat), s.pv.sweepAt = some at' → EventCounts s →
     let now := max s.now at'
     let old (e : PeerEntry) : Bool := decide (8000 ≤ now - e.received)
     ∃ events, RaisedTimes s.sp.events .peerLost
         (s.pv.entries.countP fun e => old e && !e.lostMark) events ∧
       exec .sweep s = .next { s with
         now := now
         pv := { s.pv with
           sweepAt := some (at' + 1000)
           entries := (s.pv.entries.filter fun e => decide (now - e.received < 60000)).map fun e =>
             if old e then { e with lostMark := true } else e }
         sp := { s.sp with events := events } }) ∧
   (∀ s : State, s.pv.sweepAt = none → exec .sweep s = .next s)) ∧
  ((∀ (s : State) (at' : Nat), s.pv.lastHeardAt = some at' →
     ∃ t, exec .lastHeardExpiry s = .next t ∧
       Reacted { s with
         now := max s.now at'
         pv := { s.pv with
           lastHeardAt := none
           isolated := true
           causeSilence := true
           rejoining := s.pv.isolated && s.pv.rejoining
           rejoinAt := if s.pv.isolated then s.pv.rejoinAt else none }
         sp := { s.sp with
           events := if s.pv.isolated then s.sp.events
             else s.sp.events.raise .isolationOn } } t) ∧
   (∀ (s : State) (at' : Nat), s.pv.rejoinAt = some at' →
     ∃ t, exec .rejoinHoldExpiry s = .next t ∧
       Reacted { s with
         now := max s.now at'
         pv := { s.pv with rejoining := false, rejoinAt := none } } t))

/-- A good frame that carries the own stall (R34, R35, R133): it is counted, DUPLICATE_STALL is raised, and the post
enters LOCKOUT: nothing is left to send, the setpoint is 0 and ENABLE low. In LOCKOUT only the count and the event
change; during a restart's wait the duplicate is held (R177). That the line level stands as an abandoned attempt left it
is log 32, the model's choice. -/
def Obligations.DuplicateStallLocksOut : Prop :=
  ∀ (s : State) (c : Instr), s.receives = true →
    ((∃ kind, c = .duplicateStall kind) ∨ (∃ seq f, c = .standing s.lp.stall seq f) ∨
      (∃ seq reason, c = .leave s.lp.stall seq reason) ∨
      (∃ seq f, c = .dispatch s.lp.stall seq f) ∨ (∃ seq f, c = .curb s.lp.stall seq f)) →
    let met : State := { s with
      lp := { s.lp with stats := { s.lp.stats with
        received := satSucc 65535 s.lp.stats.received } }
      sp := { s.sp with events := s.sp.events.raise .duplicateStall } }
    ∃ t, exec c s = .next t ∧
      (s.sp.restarting = none → s.sp.mode ≠ .lockout → t.sp.mode = .lockout ∧
        Reacted { met with
          lp := { met.lp with queue := [], inFlight := none, standingAt := none }
          cc := if s.cc.state.enabled then converterOff s.cc else { s.cc with setpoint := 0 }
          vl := { s.vl with pollAt := pollIn s .lockout }
          sp := { met.sp with mode := .lockout } } t) ∧
      (s.sp.restarting = none → s.sp.mode = .lockout → Reacted met t) ∧
      (∀ r, s.sp.restarting = some r →
        Reacted { met with sp := { met.sp with
          restarting := some { r with duplicateHeld := true } } } t)

/-- A frame handed in for sending (R22, R23, R35, R37): with room it goes behind its own class and before the lower
ones; into a full queue it goes in place of the oldest frame of the lowest class if its own is higher, else it is
dropped; both are counted, with FRAME_DROPPED. In CONFIG and LOCKOUT it is refused. Taking the head frame (R26):
without a frame in flight, with one waiting and the line idle, it leaves the queue with the own sequence number,
which advances modulo 256, as its first attempt; a STANDING is filled at that moment (R27). Otherwise nothing is
taken. -/
def Obligations.QueueTakesAndYieldsFrames : Prop :=
  (∀ (s : State) (f : QueuedFrame),
     s.lp.queue.Pairwise (fun a b => b.rank ≤ a.rank) → s.lp.queue.length ≤ 8 →
     let placed (q : List QueuedFrame) : List QueuedFrame :=
       q.filter (fun g => decide (f.rank ≤ g.rank)) ++ f ::
         q.filter (fun g => decide (g.rank < f.rank))
     (s.sp.mode = .config ∨ s.sp.mode = .lockout → s.enqueue f = s) ∧
     (s.sp.mode ≠ .config → s.sp.mode ≠ .lockout →
       (s.lp.queue.length < 8 →
         s.enqueue f = { s with lp := { s.lp with queue := placed s.lp.queue } }) ∧
       (s.lp.queue.length = 8 →
         let dropped : State := { s with
           lp := { s.lp with stats := { s.lp.stats with
             queueDrops := satSucc 65535 s.lp.stats.queueDrops } }
           sp := { s.sp with events := s.sp.events.raise .frameDropped } }
         ((∃ g ∈ s.lp.queue, f.rank ≤ g.rank ∧ ∀ h ∈ s.lp.queue, g.rank ≤ h.rank) →
           s.enqueue f = dropped) ∧
         (∀ before g after, s.lp.queue = before ++ g :: after → g.rank < f.rank →
           (∀ h ∈ before, g.rank < h.rank) → (∀ h ∈ after, h.rank = g.rank) →
           s.enqueue f = { dropped with
             lp := { dropped.lp with queue := placed (before ++ after) } })))) ∧
  (∀ s : State,
     (∀ f q, s.lp.queue = f :: q → s.lp.inFlight = none → s.lp.lineIdle = true →
       s.sp.mode ≠ .config → s.sp.mode ≠ .lockout →
       s.takeFrame = { s with lp := { s.lp with
         queue := q
         inFlight := some ⟨s.lp.seq, s.bodyOf f, 1, .sending⟩
         seq := (s.lp.seq + 1) % 256
         lineIdle := false } }) ∧
     (s.lp.queue = [] ∨ s.lp.inFlight ≠ none ∨ s.lp.lineIdle = false ∨ s.sp.mode = .config ∨
       s.sp.mode = .lockout → s.takeFrame = s) ∧
     (∀ c, s.bodyOf (.curb c) = .curb c) ∧ (∀ d, s.bodyOf (.dispatch d) = .dispatch d) ∧
     s.bodyOf .leave = .leave ∧
     s.bodyOf .standing = .standing {
       mode := s.sp.mode
       isolated := s.pv.isolated
       rejoining := s.pv.rejoining
       cut := s.cu.cutHold
       cls := min 3 s.cls
       offer := min 600 s.offer
       share := min 600 (min s.ap.result s.offer)
       actual := min 600 s.cc.measured
       energy := min 6000 s.energy
       served := s.call.map (·.callId)
       temperature := if s.sp.config.sensorFitted then s.cu.sample else none })

/-- LINE_IDLE (R26, R30): a waiting frame is taken, a collided frame's backoff begins, or the next attempt begins, in
which a STANDING may not offer while ISOLATED, REJOINING, cut or out of ACTIVE (R28). That LINE_IDLE while the own
attempt is under way changes nothing, and leaves the line busy, is the model's reading (log 12, log 13). -/
def Obligations.LineIdleLetsTheLineBeUsed : Prop :=
  ∀ s : State,
    (s.lp.inFlight = none →
      exec .lineIdle s = .next
        ({ s with lp := { s.lp with lineIdle := true } } : State).takeFrame) ∧
    (∀ f, s.lp.inFlight = some f →
      (f.phase = .sending → exec .lineIdle s = .next s) ∧
      (∀ slots, f.phase = .awaitingIdle slots →
        exec .lineIdle s = .next { s with lp := { s.lp with
          lineIdle := true
          inFlight := some { f with phase := .backoff (s.now + slots) } } }) ∧
      (∀ ends, f.phase = .backoff ends →
        exec .lineIdle s = .next { s with lp := { s.lp with lineIdle := true } }) ∧
      (f.phase = .awaitingLine →
        exec .lineIdle s = .next { s with lp := { s.lp with
          lineIdle := false
          inFlight := some { f with
            phase := .sending
            body := match f.body with
              | .standing a =>
                .standing (if s.pv.isolated = true ∨ s.pv.rejoining = true ∨ s.cu.cutHold = true ∨
                  s.sp.mode ≠ .active then { a with offer := 0 } else a)
              | b => b } } }))

/-- STANDING_TIMER (R24, R25): the timer starts again with a drawn interval of 1000 ms to 1100 ms; a queued STANDING
stands for the new one, else one goes to the tail, or a full queue drops it; then a frame may be taken. That an expiry
of the stopped timer changes nothing is log 13, the model's reading. -/
def Obligations.StandingTimerEnqueuesOne : Prop :=
  (∀ (s : State) (at' : Nat), s.lp.standingAt = some at' → s.sp.mode ≠ .config →
    s.sp.mode ≠ .lockout →
    let now := max s.now at'
    let queued : Bool := s.lp.queue.any (·.isStanding)
    let full : Bool := !queued && decide (8 ≤ s.lp.queue.length)
    ∃ (interval : Nat) (v : State), 1000 ≤ interval ∧ interval ≤ 1100 ∧
      v = { s with
        now := now
        draws := s.draws + 1
        lp := { s.lp with
          standingAt := some (now + interval)
          queue := if queued || full then s.lp.queue else s.lp.queue ++ [.standing]
          stats := { s.lp.stats with
            queueDrops := if full then satSucc 65535 s.lp.stats.queueDrops
              else s.lp.stats.queueDrops } }
        sp := { s.sp with
          events := if full then s.sp.events.raise .frameDropped else s.sp.events } } ∧
      exec .standingTimer s = .next v.takeFrame) ∧
  (∀ s : State, s.lp.standingAt = none → exec .standingTimer s = .next s)

/-- ECHO_SUCCESS (R29, R14, R15): the frame leaves flight and is counted as sent, the echo-failure count is 0, the
last own outcome ECHOED; ISOLATED clears where a STANDING was accepted less than 1 s ago (log 16). An echoed LEAVE
ends a restart's wait (R177). That the command carries the line's level is log 12, and that a completed restart drops
the items read log 36, the model's readings. -/
def Obligations.EchoSuccessEndsTheFrame : Prop :=
  ∀ (s : State) (f : InFlight) (idle : Bool), s.lp.inFlight = some f → f.phase = .sending →
    let clears : Bool := s.pv.isolated &&
      s.pv.lastAccepted.any fun at' => decide (s.now - at' < 1000)
    let u : State := { s with
      lp := { s.lp with
        inFlight := none
        echoFailures := 0
        lineIdle := idle
        stats := { s.lp.stats with sent := satSucc 65535 s.lp.stats.sent } }
      pv := { s.pv with
        lastOutcome := .echoed
        isolated := s.pv.isolated && !clears
        causeSilence := s.pv.causeSilence && !clears
        causeEcho := s.pv.causeEcho && !clears
        rejoining := s.pv.rejoining || clears
        rejoinAt := if clears then some (s.now + 2000) else s.pv.rejoinAt }
      sp := { s.sp with
        events := if clears then s.sp.events.raise .isolationOff else s.sp.events } }
    (f.body ≠ .leave ∨ s.sp.restarting = none →
      ∃ t, exec (.echoSuccess idle) s = .next t ∧ Reacted u t) ∧
    (f.body = .leave → ∀ r, s.sp.restarting = some r →
      ∃ (t : State) (echo standing : Nat), exec (.echoSuccess idle) s = .next t ∧
        10000 ≤ echo ∧ echo ≤ 11000 ∧ 1000 ≤ standing ∧ standing ≤ 1100 ∧
        Reacted (restartedInto u
          (if r.duplicateHeld then .lockout
            else if r.origin = .hold ∨ r.origin = .dormant then .dormant
            else .active) echo standing) t)

/-- COLLISION (R30, R31, R14): before the eighth attempt a backoff of 1 ms to 16 ms is drawn for the next one, which
begins from an idle line; the eighth gives the frame up, counted as an echo failure with FRAME_DROPPED, and the third
failure in a row isolates the post. BACKOFF_END begins the next attempt on an idle line, or waits for it. That both
commands carry the line's level is log 12, the model's reading. -/
def Obligations.CollisionBacksOff : Prop :=
  ∀ (s : State) (f : InFlight) (idle : Bool), s.lp.inFlight = some f →
    (f.phase = .sending → f.attempt < 8 →
      ∃ slots, 1 ≤ slots ∧ slots ≤ 16 ∧
        exec (.collision idle) s = .next { s with
          draws := s.draws + 1
          lp := { s.lp with
            lineIdle := idle
            stats := { s.lp.stats with collisions := satSucc 65535 s.lp.stats.collisions }
            inFlight := some { f with
              attempt := f.attempt + 1
              phase := if idle then .backoff (s.now + slots) else .awaitingIdle slots } } }) ∧
    (f.phase = .sending → 8 ≤ f.attempt →
      let third : Bool := decide (2 ≤ s.lp.echoFailures)
      let isolates : Bool := third && !s.pv.isolated
      ∃ t, exec (.collision idle) s = .next t ∧
        Reacted { s with
          lp := { s.lp with
            lineIdle := idle
            inFlight := none
            echoFailures := if third then 3 else s.lp.echoFailures + 1
            stats := { s.lp.stats with
              collisions := satSucc 65535 s.lp.stats.collisions
              attemptDrops := satSucc 65535 s.lp.stats.attemptDrops } }
          pv := { s.pv with
            lastOutcome := .notEchoed
            isolated := s.pv.isolated || third
            causeEcho := s.pv.causeEcho || third
            rejoining := s.pv.rejoining && !isolates
            rejoinAt := if isolates then none else s.pv.rejoinAt }
          sp := { s.sp with
            events :=
              if isolates then (s.sp.events.raise .frameDropped).raise .isolationOn
              else s.sp.events.raise .frameDropped } } t) ∧
    (∀ ends, f.phase = .backoff ends →
      exec (.backoffEnd true) s = .next { s with
        now := max s.now ends
        lp := { s.lp with
          lineIdle := false
          inFlight := some { f with
            phase := .sending
            body := match f.body with
              | .standing a =>
                .standing (if s.pv.isolated = true ∨ s.pv.rejoining = true ∨ s.cu.cutHold = true ∨
                  s.sp.mode ≠ .active then { a with offer := 0 } else a)
              | b => b } } } ∧
      exec (.backoffEnd false) s = .next { s with
        now := max s.now ends
        lp := { s.lp with
          lineIdle := false
          inFlight := some { f with phase := .awaitingLine } } })

/-! ### Calls -/

/-- A DISPATCH or CALL for an unknown call (R43, R44, R174): an ECHO carrying ENDING is ignored; a CANCEL leaves a
CANCELLED tombstone, retained for 3600 s, with no event; a NEW, a REVISE and an ECHO carrying PENDING make a PENDING
record with CALL_NEW, which wakes a post in HOLD when its countdown is at most 1800 s; a full table of live records
discards it with CALL_DISCARDED; in a full table with final ones, that of the least retention, of equal ones the
lower id, makes room. An ECHO carrying ACTIVE for an unknown call (R43, R48, R52): its record starts at once with the
carried time, ACTIVE in a free slot, with the goal at 0, fresh accumulators and a computation at once, and else
deferred; with a carried time of 0 it ends at once with CALL_STATE, in a free slot ENDING, and else DONE with a
retention of 3600 s (R43). Created so in HOLD, it wakes the post unless it is DONE (R174). -/
def Obligations.UnknownCallIsCreated : Prop :=
  (∀ (s : State) (d : CallFrame), (∀ r ∈ s.ct.records, r.callId ≠ d.callId) →
     s.ct.records.Pairwise (fun a b => a.callId < b.callId) →
     let placed (r : CallRecord) : List CallRecord :=
       s.ct.records.filter (fun x => decide (x.callId < r.callId)) ++ r ::
         s.ct.records.filter (fun x => decide (r.callId < x.callId))
     let pending : CallRecord := {
       callId := d.callId
       revision := d.revision
       kind := d.kind
       origin := d.origin
       state := .pending
       deferred := false
       target := d.target
       ramp := d.ramp
       duration := d.duration
       countdown := d.countdown
       startTime := none
       remaining := 0
       goal := 0
       cancelledMark := false
       serving := false
       accumulators := none
       retention := 0 }
     let wakes : Bool := decide (s.sp.mode = .hold) && s.sp.restarting.isNone &&
       decide (d.countdown ≤ 1800)
     (d.kind = .echo → d.carried = .ending → s.intake d = (s, .ignored)) ∧
     (s.ct.records.length < 4 →
       (d.kind = .cancel →
         s.intake d = ({ s with ct := { s.ct with records := placed { pending with
           state := .cancelled, retention := 3600, countdown := 0 } } }, .tombstone)) ∧
       (d.kind = .new ∨ d.kind = .revise ∨ (d.kind = .echo ∧ d.carried = .pending) →
         s.intake d = ({ s with
           ct := { s.ct with records := placed pending }
           vl := if wakes then { s.vl with pollAt := pollIn s .active } else s.vl
           sp := { s.sp with
             mode := if wakes then .active else s.sp.mode
             events := if wakes then (s.sp.events.raise .callNew).raise .callWake
               else s.sp.events.raise .callNew } }, .created))) ∧
     (s.ct.records.length = 4 → ¬(d.kind = .echo ∧ d.carried = .ending) →
       ((∀ r ∈ s.ct.records, r.state ≠ .done ∧ r.state ≠ .cancelled) →
         s.intake d = ({ s with sp := { s.sp with
           events := s.sp.events.raise .callDiscarded } }, .discarded)) ∧
       (∀ old ∈ s.ct.records, (old.state = .done ∨ old.state = .cancelled) →
         (∀ r ∈ s.ct.records, r.state = .done ∨ r.state = .cancelled →
           old.retention < r.retention ∨ (old.retention = r.retention ∧ old.callId ≤ r.callId)) →
         s.intake d = State.intake { s with ct := { s.ct with
           records := s.ct.records.filter fun r => decide (r.callId ≠ old.callId) } } d))) ∧
  (∀ (s : State) (d : CallFrame), (∀ r ∈ s.ct.records, r.callId ≠ d.callId) →
     s.ct.records.length < 4 → d.kind = .echo → d.carried = .active →
     let free : Bool := s.ct.records.all fun r => !(r.state == .active || r.state == .ending)
     let ended : Bool := d.countdown == 0
     let wakes : Bool := decide (s.sp.mode = .hold) && s.sp.restarting.isNone && (free || !ended)
     let created : EventSet := s.sp.events.raise .callNew
     let counted : EventSet := if ended then created.raise .callState else created
     ∃ (t : State) (r : CallRecord), s.intake d = (t, .created) ∧
       r.callId = d.callId ∧ r.revision = d.revision ∧ r.kind = d.kind ∧ r.origin = d.origin ∧
       r.target = d.target ∧ r.ramp = d.ramp ∧ r.duration = d.duration ∧
       r.remaining = d.countdown ∧ r.countdown = 0 ∧ r.startTime = some s.now ∧ r.goal = 0 ∧
       r.serving = false ∧ r.cancelledMark = false ∧
       r.state = (if free then (if ended then .ending else .active)
         else if ended then .done else .pending) ∧
       r.deferred = (!free && !ended) ∧ r.retention = (if !free && ended then 3600 else 0) ∧
       r.accumulators = (if free then some ⟨0, 0, 0, 0, 0, 0, 0, 0⟩ else none) ∧
       ∃ records, records.Perm (r :: s.ct.records) ∧
         Reacted { s with
           ct := { s.ct with records := records }
           vl := if wakes then { s.vl with pollAt := pollIn s .active } else s.vl
           sp := { s.sp with
             mode := if wakes then .active else s.sp.mode
             events := if wakes then counted.raise .callWake else counted } } t ∧
         (free = true → t.ap.trigger = .call ∧ t.ap.call = some d.callId))

/-- A DISPATCH reaches the intake (R42); one that is disregarded is a heard notice alone. For a known call the
revision decides (R42, R45, R46): a lower one is ignored; a higher one revises the record with CALL_REVISED; an equal
one is merged; each change of state raises CALL_STATE (R52). A revision in HOLD wakes the post with CALL_WAKE where the
record is then PENDING with a countdown of at most 1800 s, deferred, ACTIVE or ENDING; a merge wakes none (R174). -/
def Obligations.DispatchMeetsItsRecord : Prop :=
  (∀ (s : State) (stall seq : Nat) (f : DispatchWire), Hears s stall →
    (f.corrected = none → exec (.dispatch stall seq f) s = .next (heardFrom s stall seq)) ∧
    (∀ d, f.corrected = some d → ∃ t, exec (.dispatch stall seq f) s = .next t ∧
      Reacted ((heardFrom s stall seq).intake d).1 t)) ∧
  (∀ (s : State) (d : CallFrame) before (r : CallRecord) after,
    s.ct.records = before ++ r :: after → (∀ x ∈ before ++ after, x.callId ≠ r.callId) →
    d.callId = r.callId → EventCounts s →
    let free : Bool := s.ct.records.all fun x => !(x.state == .active || x.state == .ending)
    let m : CallRecord × Nat :=
      if r.revision < d.revision then r.revised d s.now free else r.merged d s.now free
    let wakes : Prop := s.sp.mode = .hold ∧ s.sp.restarting = none ∧ r.revision < d.revision ∧
      ((m.1.state = .pending ∧ (m.1.deferred = true ∨ m.1.countdown ≤ 1800)) ∨
        m.1.state = .active ∨ m.1.state = .ending)
    (d.revision < r.revision → s.intake d = (s, .ignored)) ∧
    (r.revision ≤ d.revision →
      ∃ (t : State) (events : EventSet),
        s.intake d = (t, if r.revision < d.revision then .revised else .merged) ∧
        events.count .callState = min 255 (s.sp.events.count .callState + m.2) ∧
        events.count .callRevised = (if r.revision < d.revision then
          min 255 (s.sp.events.count .callRevised + 1) else s.sp.events.count .callRevised) ∧
        (wakes → events.count .callWake = min 255 (s.sp.events.count .callWake + 1)) ∧
        (¬wakes → events.count .callWake = s.sp.events.count .callWake) ∧
        (∀ k, k ≠ .callState → k ≠ .callRevised → k ≠ .callWake →
          events.count k = s.sp.events.count k) ∧
        (wakes → Reacted { s with
          ct := { s.ct with records := before ++ m.1 :: after }
          vl := { s.vl with pollAt := pollIn s .active }
          sp := { s.sp with mode := .active, events := events } } t) ∧
        (¬wakes → Reacted { s with
          ct := { s.ct with records := before ++ m.1 :: after }
          sp := { s.sp with events := events } } t)))

/-- A revision replaces the content of the record and keeps its id, origin and marks (R45); a revision or a merge
never moves a record back, nor its start or its end to a later time (R45, R46). The tables of R45 and R46: what NEW and
REVISE, a CANCEL, and an ECHO by its carried state make of each held state, with the number of changes of state. -/
def Obligations.RecordsMoveForwardOnly : Prop :=
  ∀ (r : CallRecord) (d : CallFrame) (now : Nat) (free : Bool),
    ((r.revised d now free).1.revision = d.revision ∧ (r.revised d now free).1.kind = d.kind ∧
      (r.revised d now free).1.target = d.target ∧ (r.revised d now free).1.ramp = d.ramp ∧
      (r.revised d now free).1.duration = d.duration) ∧
    ((r.merged d now free).1.revision = r.revision ∧ (r.merged d now free).1.kind = r.kind ∧
      (r.merged d now free).1.target = r.target ∧ (r.merged d now free).1.ramp = r.ramp ∧
      (r.merged d now free).1.duration = r.duration) ∧
    (∀ m, m = r.revised d now free ∨ m = r.merged d now free →
      m.1.callId = r.callId ∧ m.1.origin = r.origin ∧ m.1.serving = r.serving ∧
      (r.cancelledMark = true → m.1.cancelledMark = true) ∧
      progress r.state ≤ progress m.1.state ∧
      (m.2 = 0 → m.1.state = r.state ∧ m.1.deferred = r.deferred) ∧
      (r.state = .done ∨ r.state = .cancelled → m.1.state = r.state ∧
        m.1.retention = r.retention ∧ m.1.accumulators = r.accumulators) ∧
      (r.waiting = true → m.1.waiting = true → m.1.countdown ≤ r.countdown) ∧
      (r.running = true → m.1.running = true → m.1.remaining ≤ r.remaining)) ∧
    let content : CallRecord := { r with
      revision := d.revision
      kind := d.kind
      target := d.target
      ramp := d.ramp
      duration := d.duration }
    let waiting : Prop := r.state = .pending ∧ r.deferred = false
    let deferred : Prop := r.state = .pending ∧ r.deferred = true
    let final : Prop := r.state = .done ∨ r.state = .cancelled
    let ends (b : CallRecord) : CallRecord × Nat :=
      if 0 < b.remaining then (b, 0)
      else if b.state = .active then ({ b with state := .ending }, 1)
      else ({ b with state := .done, deferred := false, retention := 3600 }, 1)
    (d.kind = .new ∨ d.kind = .revise →
      (waiting →
        r.revised d now free = ({ content with countdown := min r.countdown d.countdown }, 0) ∧
        r.merged d now free = ({ r with countdown := min r.countdown d.countdown }, 0)) ∧
      (r.state = .active ∨ deferred →
        (∀ elapsed, r.duration = elapsed + r.remaining →
          r.revised d now free =
            ends { content with remaining := min r.remaining (d.duration - elapsed) }) ∧
        r.merged d now free = (r, 0)) ∧
      (r.state = .ending ∨ final →
        r.revised d now free = (content, 0) ∧ r.merged d now free = (r, 0))) ∧
    (∀ b m, (b = r ∧ m = r.merged d now free) ∨ (b = content ∧ m = r.revised d now free) →
      (d.kind = .cancel →
        (r.state = .pending →
          m = ({ b with state := .cancelled, deferred := false, retention := 3600 }, 1)) ∧
        (r.state = .active → m = ({ b with state := .ending, cancelledMark := true }, 1)) ∧
        (r.state = .ending → m = ({ b with cancelledMark := true }, 0)) ∧
        (final → m = (b, 0))) ∧
      (d.kind = .echo → d.carried = .pending →
        (waiting → m = ({ b with countdown := min r.countdown d.countdown }, 0)) ∧
        (¬waiting → m = (b, 0))) ∧
      (d.kind = .echo → d.carried = .active →
        (waiting → 0 < b.duration → 0 < d.countdown →
          m = ({ b with
            startTime := some now
            remaining := min b.duration d.countdown
            countdown := 0
            state := if free then .active else .pending
            deferred := !free
            goal := if free then 0 else r.goal
            accumulators := if free then some ⟨0, 0, 0, 0, 0, 0, 0, 0⟩ else r.accumulators }, 1)) ∧
        (waiting → d.countdown = 0 →
          m.2 = 2 ∧ m.1.state = (if free then .ending else .done) ∧ m.1.remaining = 0) ∧
        (r.state = .active ∨ deferred →
          m = ends { b with remaining := min r.remaining d.countdown }) ∧
        (r.state = .ending ∨ final → m = (b, 0))) ∧
      (d.kind = .echo → d.carried = .ending →
        (r.state = .active →
          m = ({ b with
            state := .ending
            cancelledMark := r.cancelledMark || d.cancelledMark }, 1)) ∧
        (r.state = .pending →
          m = ({ b with
            state := if d.cancelledMark then .cancelled else .done
            deferred := false
            retention := 3600 }, 1)) ∧
        (r.state = .ending →
          m = ({ b with cancelledMark := r.cancelledMark || d.cancelledMark }, 0)) ∧
        (final → m = (b, 0))))

/-- CALL_TIMER (R48 to R50, R53, R57): the next tick falls 1 s later, the record in force counts one second more under
the clip cause of the latest computation, up to 65535 s, and none without a cause (log 15), with METER_SATURATED where
that count first reaches its limit; and one second passes for each record: a countdown, a remaining time
and a retention fall by 1; an ACTIVE record at 0 becomes ENDING, a deferred one DONE, and a final one is gone. Then the
waiting records whose countdown stands at 0 start: the first of them, of the lowest id, ACTIVE if no record is ACTIVE
or ENDING, the others deferred, each with its duration as the remaining time. Where this changes the call in force, or
its state, the share is computed at once with the trigger CALL (R52, R84). That a tick of the stopped timer changes
nothing is log 13, the model's reading. -/
def Obligations.CallTimerPassesOneSecond : Prop :=
  (∀ (s : State) (at' : Nat), s.ct.tickAt = some at' → EventCounts s →
    let inForce (r : CallRecord) : Bool := r.state == .active || r.state == .ending
    let counted := s.ct.records.map fun r =>
      if inForce r then { r with accumulators := r.accumulators.map fun a =>
        match s.ap.clip with
        | .allowance => { a with allowanceS := min 65535 (a.allowanceS + 1) }
        | .energy => { a with energyS := min 65535 (a.energyS + 1) }
        | .converter => { a with converterS := min 65535 (a.converterS + 1) }
        | .headroom => { a with headroomS := min 65535 (a.headroomS + 1) }
        | .noCause => a }
      else r
    let saturates : Bool := s.ct.records.any fun r => inForce r && r.accumulators.any fun a =>
      match s.ap.clip with
      | .allowance => a.allowanceS == 65534
      | .energy => a.energyS == 65534
      | .converter => a.converterS == 65534
      | .headroom => a.headroomS == 65534
      | .noCause => false
    let m := tickedCalls (max s.now at') counted
    ∃ (t : State) (events : EventSet), exec .callTimer s = .next t ∧
      events.count .callState = min 255 (s.sp.events.count .callState + m.2) ∧
      events.count .meterSaturated =
        min 255 (s.sp.events.count .meterSaturated + if saturates then 1 else 0) ∧
      (∀ k, k ≠ .callState → k ≠ .meterSaturated → events.count k = s.sp.events.count k) ∧
      t = (State.setCalls { s with
        now := max s.now at'
        ct := { s.ct with records := counted, tickAt := some (at' + 1000) }
        sp := { s.sp with events := events } } m.1).finish) ∧
  (∀ s : State, s.ct.tickAt = none → exec .callTimer s = .next s) ∧
  (∀ r : CallRecord,
    (r.state = .pending → r.deferred = false →
      r.second = (some { r with countdown := r.countdown - 1 }, 0)) ∧
    (r.state = .active → 2 ≤ r.remaining →
      r.second = (some { r with remaining := r.remaining - 1 }, 0)) ∧
    (r.state = .active → r.remaining ≤ 1 →
      r.second = (some { r with remaining := 0, state := .ending }, 1)) ∧
    (r.state = .pending → r.deferred = true → 2 ≤ r.remaining →
      r.second = (some { r with remaining := r.remaining - 1 }, 0)) ∧
    (r.state = .pending → r.deferred = true → r.remaining ≤ 1 →
      r.second = (some { r with
        remaining := 0, state := .done, deferred := false, retention := 3600 }, 1)) ∧
    (r.state = .ending → r.second = (some r, 0)) ∧
    (r.state = .done ∨ r.state = .cancelled →
      r.second = (if r.retention ≤ 1 then none
        else some { r with retention := r.retention - 1 }, 0))) ∧
  (∀ (now : Nat) (rs : List CallRecord),
    let after1 := rs.filterMap fun r => r.second.1
    let changes := (rs.map fun r => r.second.2).sum
    let due (r : CallRecord) : Bool :=
      decide (r.state = .pending ∧ r.deferred = false ∧ r.countdown = 0)
    let starts (r : CallRecord) (active : Bool) : CallRecord := { r with
      startTime := some now
      remaining := r.duration
      countdown := 0
      state := if active then .active else .pending
      deferred := !active
      goal := if active then 0 else r.goal
      accumulators := if active then some ⟨0, 0, 0, 0, 0, 0, 0, 0⟩ else r.accumulators }
    ((∀ x ∈ after1, due x = false) → tickedCalls now rs = (after1, changes)) ∧
    (∀ before r after, after1 = before ++ r :: after → (∀ x ∈ before, due x = false) →
      due r = true →
      tickedCalls now rs =
        (before ++ starts r (after1.all fun x => !(x.state == .active || x.state == .ending)) ::
          after.map (fun x => if due x then starts x false else x),
        changes + (after1.countP due)))) ∧
  (∀ (s : State) (rs : List CallRecord),
    let view (rs : List CallRecord) : Option (Nat × CallState) :=
      (rs.find? fun r => r.state == .active || r.state == .ending).map fun r => (r.callId, r.state)
    let v : State := { s with ct := { s.ct with records := rs } }
    s.setCalls rs = if view rs = view s.ct.records then v else v.compute .call)

/-- The running out of one record's time (R48, R49, R50, R53; log 14): a waiting record starts, ACTIVE with its
duration or deferred; an ACTIVE one becomes ENDING; a deferred one DONE; a final one is deleted with no event. -/
def Obligations.RecordTimesRunOut : Prop :=
  ∀ (s : State) before (r : CallRecord) after, s.ct.records = before ++ r :: after →
    (∀ x ∈ before ++ after, x.callId ≠ r.callId) →
    let free : Bool := s.ct.records.all fun x => !(x.state == .active || x.state == .ending)
    let becomes (x : CallRecord) : State := { s with
      ct := { s.ct with records := before ++ x :: after }
      sp := { s.sp with events := s.sp.events.raise .callState } }
    (r.state = .pending → r.deferred = false →
      ∃ t, exec (.startCountdownExpiry r.callId) s = .next t ∧
        Reacted (becomes { r with
          state := if free then .active else .pending
          deferred := !free
          startTime := some s.now
          remaining := r.duration
          countdown := 0
          goal := if free then 0 else r.goal
          accumulators := if free then some ⟨0, 0, 0, 0, 0, 0, 0, 0⟩ else r.accumulators }) t) ∧
    (r.state = .active →
      ∃ t, exec (.remainingActiveExpiry r.callId) s = .next t ∧
        Reacted (becomes { r with state := .ending, remaining := 0 }) t) ∧
    (r.state = .pending → r.deferred = true →
      ∃ t, exec (.deferredExpiry r.callId) s = .next t ∧
        Reacted (becomes { r with
          state := .done, deferred := false, remaining := 0, retention := 3600 }) t) ∧
    (r.state = .done ∨ r.state = .cancelled →
      exec (.retentionExpiry r.callId) s = .next { s with
        ct := { s.ct with records := before ++ after } })

/-- ECHO_TIMER (R55): each live record is sent as an ECHO, in the order of the table, and the timer starts again with
a drawn interval of 10 s to 11 s; that a frame is taken only once all echoes are enqueued is log 11, the model's
choice. REPEAT_COPY_DUE (R54): the copy that falls due next is sent and leaves the list; with no copy outstanding
nothing changes (log 13, the model's reading). -/
def Obligations.EchoesAndRepeatsAreSent : Prop :=
  (∀ (s : State) (at' : Nat), s.ct.echoAt = some at' →
    ∃ interval, 10000 ≤ interval ∧ interval ≤ 11000 ∧
      exec .echoTimer s = .next (State.takeFrame (((s.ct.records.filterMap CallRecord.echo).foldl
        (fun v d => v.enqueue (.dispatch d)) { s with
          now := max s.now at'
          draws := s.draws + 1
          ct := { s.ct with echoAt := some (max s.now at' + interval) } })))) ∧
  (∀ r : CallRecord, r.echo =
    let frame (carried : CarriedState) (mark : Bool) (countdown : Nat) : Option CallFrame :=
      some ⟨r.callId, r.revision, .echo, r.origin, carried, mark, r.target, r.ramp, r.duration,
        countdown⟩
    match r.state with
    | .pending => if r.deferred then frame .active false r.remaining
      else frame .pending false r.countdown
    | .active => frame .active false r.remaining
    | .ending => frame .ending r.cancelledMark 0
    | .done => none
    | .cancelled => none) ∧
  (∀ (s : State) before (e : RepeatEntry) after at', s.ct.repeats = before ++ e :: after →
    at' ∈ e.due → (∀ x ∈ s.ct.repeats, ∀ u ∈ x.due, at' ≤ u) → (∀ x ∈ before, at' ∉ x.due) →
    exec .repeatCopyDue s = .next (State.takeFrame (State.enqueue { s with
      now := max s.now at'
      ct := { s.ct with repeats := before ++
        (if (e.due.erase at').isEmpty then [] else [{ e with due := e.due.erase at' }]) ++
          after } } (.dispatch e.frame)))) ∧
  (∀ s : State, (∀ x ∈ s.ct.repeats, x.due = []) → exec .repeatCopyDue s = .next s)

/-! ### Energy, apportionment and curbs -/

/-- APPORTION_STEP (R83, R51, R49): the next step falls 0.5 s later and the goal of the call in force moves by max(1,
floor(ramp / 2)) toward its target, or toward 0 in ENDING; an ENDING record whose goal then stands at 0 becomes final,
and its slot passes at once to the deferred record of the earliest start, of equal starts the lower id. The share is
computed from the moved goal with the trigger STEP; its values stand in the next state, but where a change that follows
at once is a gate's and so computes again (R73). That a step of the stopped timer changes nothing is log 13, the
model's reading. -/
def Obligations.ApportionStepMovesTheGoal : Prop :=
  (∀ (s : State) (at' : Nat), s.ap.stepAt = some at' → EventCounts s →
    ∃ (t v : State) (events : EventSet), exec .apportionStep s = .next t ∧
      RaisedTimes s.sp.events .callState (moveGoal s.ct.records).2 events ∧
      v = { s with
        now := max s.now at'
        ct := { s.ct with records := (moveGoal s.ct.records).1 }
        ap := { s.ap with stepAt := some (at' + 500) }
        sp := { s.sp with events := events } } ∧
      t = (v.compute .step).finish ∧
      (s.ea.gates = s.gateView → t.sp.mode = s.sp.mode → t.vl.session = s.vl.session →
        t.cc.state = s.cc.state →
        t.ap = v.computation .step ∧ t.ap.trigger = .step)) ∧
  (∀ s : State, s.ap.stepAt = none → exec .apportionStep s = .next s) ∧
  (∀ rs : List CallRecord, (∀ r ∈ rs, r.state ≠ .active ∧ r.state ≠ .ending) →
    moveGoal rs = (rs, 0)) ∧
  (∀ before (r : CallRecord) after, (∀ x ∈ before ++ after, x.inForce = false) →
    (∀ x ∈ before ++ after, x.callId ≠ r.callId) →
    let step := max 1 (r.ramp / 2)
    (r.state = .active →
      moveGoal (before ++ r :: after) = (before ++ { r with
        goal := if r.goal < r.target then min r.target (r.goal + step)
          else max r.target (r.goal - step) } :: after, 0)) ∧
    (r.state = .ending → step < r.goal →
      moveGoal (before ++ r :: after) =
        (before ++ { r with goal := r.goal - step } :: after, 0)) ∧
    (r.state = .ending → r.goal ≤ step →
      let final : CallRecord := { r with
        goal := 0
        state := if r.cancelledMark then .cancelled else .done
        deferred := false
        retention := 3600 }
      let table := before ++ final :: after
      let waits (x : CallRecord) : Prop := x.state = .pending ∧ x.deferred = true
      let start (x : CallRecord) : Nat := x.startTime.getD 0
      ((∀ x ∈ before ++ after, ¬waits x) → moveGoal (before ++ r :: after) = (table, 1)) ∧
      (∀ front d back, table = front ++ d :: back → waits d →
        (∀ x ∈ front ++ back, x.callId ≠ d.callId) →
        (∀ x ∈ front, waits x → start d < start x) →
        (∀ x ∈ back, waits x → start d ≤ start x) →
        moveGoal (before ++ r :: after) = (front ++ { d with
          state := .active
          deferred := false
          goal := 0
          accumulators := some ⟨0, 0, 0, 0, 0, 0, 0, 0⟩ } :: back, 2))))

/-- METER_SAMPLE (R77, R78, R66, R56, R57): the total meter takes 10 J for each unit measured and counts whole Wh up
to its limit, where later samples add nothing; with a record held the estimate falls by one unit for each 360 000 J,
not below 0; the record in force takes the energy delivered and the shortfall against the share as it stands before
the sample's own drain (log 15, the model's reading), each up to 999999 Wh; METER_SATURATED is raised once for each
of these counts and the total that first reaches its limit. DEPARTURE_MINUTE (R64): the countdown falls by 1, and
stays at 0. -/
def Obligations.MeterSampleIsIntegrated : Prop :=
  (∀ (s : State) (at' : Nat), s.mt.sampleAt = some at' → EventCounts s →
    let j := 10 * s.cc.measured
    let wh := s.mt.total + (s.mt.residue + j) / 3600
    let share := min s.ap.result s.offer
    let short := 10 * (share - s.cc.measured)
    let first (held joules : Nat) : Nat :=
      if held < 999999 ∧ 999999 ≤ held + joules / 3600 then 1 else 0
    ∃ (t : State) (events : EventSet), exec .meterSample s = .next t ∧
      RaisedTimes s.sp.events .meterSaturated
        ((s.ct.records.map fun r =>
            if r.state = .active ∨ r.state = .ending then
              (r.accumulators.map fun a =>
                first a.delivered (a.deliveredJ + j) + first a.shortfall (a.shortfallJ + short)).getD 0
            else 0).sum +
          if s.mt.total < 999999999 ∧ 999999999 ≤ wh then 1 else 0) events ∧
      Reacted { s with
        now := max s.now at'
        mt := {
          total := min 999999999 wh
          residue := if 999999999 ≤ s.mt.total then s.mt.residue else (s.mt.residue + j) % 3600
          sampleAt := some (at' + 100) }
        ct := { s.ct with records := s.ct.records.map fun r =>
          if r.state = .active ∨ r.state = .ending then
            { r with accumulators := r.accumulators.map fun a =>
              { a with
                delivered := min 999999 (a.delivered + (a.deliveredJ + j) / 3600)
                deliveredJ := (a.deliveredJ + j) % 3600
                shortfall := min 999999 (a.shortfall + (a.shortfallJ + short) / 3600)
                shortfallJ := (a.shortfallJ + short) % 3600 } }
          else r }
        ea := if s.ea.record.isSome then
            { s.ea with
              estimate := s.ea.estimate - (s.ea.residue + j) / 360000
              residue := (s.ea.residue + j) % 360000 }
          else s.ea
        sp := { s.sp with events := events } } t) ∧
  (∀ (s : State) (at' : Nat), s.ea.minuteAt = some at' →
    ∃ t, exec .departureMinute s = .next t ∧
      Reacted { s with
        now := max s.now at'
        ea := { s.ea with
          departureLeft := s.ea.departureLeft.map (· - 1)
          minuteAt := some (at' + 60000) } } t)

/-- The total meter never falls: no command but a hardware reset lessens the energy it counts, nor does time (R78);
and every step keeps it within its limit, with a residue below one Wh. -/
def Obligations.TotalMeterNeverFalls : Prop :=
  (∀ (c : Instr) (s t : State), (∀ straps, c ≠ .hardwareReset straps) → s.mt.total ≤ 999999999 →
    exec c s = .next t → s.mt.total ≤ t.mt.total ∧ t.mt.total ≤ 999999999) ∧
  (∀ s t : State, s.mt.total ≤ 999999999 → s.pending = [] → step s = .next t →
    s.mt.total ≤ t.mt.total ∧ t.mt.total ≤ 999999999) ∧
  (∀ s t : State, TotalMeter s → step s = .next t → TotalMeter t)

/-- The reserve floor (R68): the route energy raised by the cold adder of 2 % for each °C below 10 °C, at most 40 %,
rounded up, and RESERVE_MARGIN on top; the rounding never falls short, and is by less than a unit. -/
def Obligations.ReserveFloorCoversTheRoute : Prop :=
  ∀ (s : State) (r : BusRecord), s.ea.record = some r →
    ∃ a : Nat,
      (10 ≤ r.packTemp → a = 0) ∧
      (r.packTemp < 10 → (a : Int) = min 40 (2 * (10 - r.packTemp))) ∧
      r.route * (100 + a) ≤ 100 * (s.reserveFloor - s.sp.config.reserveMargin) ∧
      100 * (s.reserveFloor - s.sp.config.reserveMargin) < r.route * (100 + a) + 100 ∧
      s.sp.config.reserveMargin ≤ s.reserveFloor

/-- The exportable energy, the class and the offer (R69, R70, R72, R74): the estimate over the floor; the first
class whose bound it meets, with CLASS_BIAS, at most 3; and the offer, 0 under the first gate that holds, else the
least of CONV_RATING, ten units for each level of the allowance and the energy spread over the time base. Each of
the ten gates holds exactly under its condition, and the gate in force is the first in the order of the table that
holds (R74). The setting term (R72): GATED, or the first of CONVERTER, ALLOWANCE and ENERGY whose term is least. The
time base (R71): the remaining time of an ACTIVE call in force, 60 s for an ENDING one; with none in force the
duration of the nearest PENDING record, of the least countdown with a deferred one at 0, and of equal ones the lower
id; 60 s without any; never below 60 s. That these alone decide the offer in the wait of a restart too, where a
session may reach READY, is log 38, the model's choice. -/
def Obligations.ClassAndOfferFollowTheRecord : Prop :=
  (∀ (s : State) (r : BusRecord), s.ea.record = some r →
    s.energy = s.ea.estimate - s.reserveFloor ∧
    s.cls = min 3 ((if r.capacity ≤ 2 * s.energy then 0 else if r.capacity ≤ 4 * s.energy then 1
      else if r.capacity ≤ 10 * s.energy then 2 else 3) + s.sp.config.classBias) ∧
    (s.gateInForce ≠ none → s.offer = 0) ∧
    (s.gateInForce = none →
      s.offer = min s.sp.config.convRating
        (min (10 * s.vl.allowance) (3600 * s.energy / s.timeBase))) ∧
    (s.gateInForce = none ↔
      s.sp.mode = .active ∧ (s.vl.session = .ready ∨ s.vl.session = .exporting) ∧
      s.sp.config.allowFloor ≤ s.vl.allowance ∧
      (∀ m, s.ea.departureLeft = some m → s.sp.config.departGuard < m) ∧
      r.minTemp ≤ r.packTemp ∧ 5 ≤ s.energy ∧
      s.pv.isolated = false ∧ s.pv.rejoining = false ∧ s.cu.cutHold = false ∧
      s.cc.state ≠ .retryWait ∧ s.cc.state ≠ .convFault ∧ s.vl.stopLatch = false) ∧
    60 ≤ s.timeBase) ∧
  (∀ s : State,
    (s.gateHolds .mode = true ↔ s.sp.mode ≠ .active) ∧
    (s.gateHolds .session = true ↔ s.vl.session ≠ .ready ∧ s.vl.session ≠ .exporting) ∧
    (s.gateHolds .allowanceFloor = true ↔ s.vl.allowance < s.sp.config.allowFloor) ∧
    (s.gateHolds .departureGuard = true ↔
      ∃ m, s.ea.departureLeft = some m ∧ m ≤ s.sp.config.departGuard) ∧
    (s.gateHolds .coldLock = true ↔ ∃ r, s.ea.record = some r ∧ r.packTemp < r.minTemp) ∧
    (s.gateHolds .energyMinimum = true ↔ s.energy < 5) ∧
    (s.gateHolds .isolation = true ↔ s.pv.isolated = true ∨ s.pv.rejoining = true) ∧
    (s.gateHolds .cutHold = true ↔ s.cu.cutHold = true) ∧
    (s.gateHolds .converterDown = true ↔ s.cc.state = .convFault ∨ s.cc.state = .retryWait) ∧
    (s.gateHolds .busStop = true ↔ s.vl.stopLatch = true) ∧
    (s.gateInForce = none ↔ ∀ g, s.gateHolds g = false) ∧
    (∀ before g after, gateTable = before ++ g :: after →
      (s.gateInForce = some g ↔ s.gateHolds g = true ∧ ∀ x ∈ before, s.gateHolds x = false))) ∧
  (∀ s : State,
    let allowance := 10 * s.vl.allowance
    let energy := 3600 * s.energy / s.timeBase
    (s.settingTerm = .gated ↔ s.gateInForce ≠ none) ∧
    (s.settingTerm = .converter ↔ s.gateInForce = none ∧ s.sp.config.convRating ≤ allowance ∧
      s.sp.config.convRating ≤ energy) ∧
    (s.settingTerm = .allowance ↔ s.gateInForce = none ∧ allowance < s.sp.config.convRating ∧
      allowance ≤ energy) ∧
    (s.settingTerm = .energy ↔ s.gateInForce = none ∧ energy < s.sp.config.convRating ∧
      energy < allowance)) ∧
  (∀ s : State,
    let inForce (x : CallRecord) : Prop := x.state = .active ∨ x.state = .ending
    let lead (x : CallRecord) : Nat := if x.deferred then 0 else x.countdown
    (∀ before r after, s.ct.records = before ++ r :: after → (∀ x ∈ before, ¬inForce x) →
      (r.state = .active → s.timeBase = max 60 r.remaining) ∧
      (r.state = .ending → s.timeBase = 60)) ∧
    ((∀ x ∈ s.ct.records, ¬inForce x) →
      (∀ before r after, s.ct.records = before ++ r :: after → r.state = .pending →
        (∀ x ∈ before, x.state = .pending → lead r < lead x) →
        (∀ x ∈ after, x.state = .pending → lead r ≤ lead x) →
        s.timeBase = max 60 r.duration) ∧
      ((∀ x ∈ s.ct.records, x.state ≠ .pending) → s.timeBase = 60)))

/-- Stage 2 derates the rating for temperature (R87): DERATE_SLOPE for each °C above DERATE_REF, capped so that the
headroom keeps DERATE_FLOOR % of the rating, rounded down; no credit below the reference. -/
def Obligations.DeratingFollowsTheTemperature : Prop :=
  ∀ (s : State) (trigger : Trigger), ConfigInRange s.sp.config →
    let c := s.sp.config
    let ap := s.computation trigger
    ((c.derateRef : Int) < ap.thetaMax →
      (ap.derating : Int) =
        min (c.derateSlope * (ap.thetaMax - c.derateRef)) (1000 - 10 * c.derateFloor)) ∧
    (ap.thetaMax ≤ c.derateRef → ap.derating = 0) ∧
    ap.lTherm = c.xfmrRating * (1000 - ap.derating) / 1000 ∧
    c.xfmrRating * c.derateFloor / 100 ≤ ap.lTherm ∧ ap.lTherm ≤ c.xfmrRating ∧
    (c.derateFloor = 100 ∨ c.derateSlope = 0 → ap.lTherm = c.xfmrRating)

/-- The share computation (R86, R88 to R92, R95, R96, R81, R57). The greatest temperature of the own sample and the
FRESH entries that carry one, with its source, and TEMP_FALLBACK exactly without any; the curb as a fraction of the
rating; the census over POSTS; the goal held under the headroom; the fixed load taken from it; the participants with
the own tier and result; the clip cause and the trigger. Each stage is at or below the one before it, with the census
within POSTS, and all shares sum to no more than A. A computation replaces these values together, and a result above 0
sets the serving flag of the call in force. -/
def Obligations.HeadroomChainNarrows : Prop :=
  (∀ (s : State) (trigger : Trigger), ConfigInRange s.sp.config → PeerTable s →
    1 ≤ s.lp.stall → s.lp.stall ≤ s.sp.config.posts →
    let c := s.sp.config
    let ap := s.computation trigger
    let own : Option Int := if c.sensorFitted then s.cu.sample else none
    let carries (e : PeerEntry) (u : Int) : Prop :=
      s.now - e.received < 3000 ∧ e.announced.temperature = some u
    (∀ u, own = some u → (∀ e ∈ s.pv.entries, ∀ v, carries e v → v ≤ u) →
      ap.thetaMax = u ∧ ap.source = .ownSensor) ∧
    (∀ before e after u, s.pv.entries = before ++ e :: after → carries e u →
      (∀ x ∈ before, ∀ v, carries x v → v < u) → (∀ x ∈ after, ∀ v, carries x v → v ≤ u) →
      (∀ v, own = some v → v < u) → ap.thetaMax = u ∧ ap.source = .peer e.stall) ∧
    (own = none → (∀ e ∈ s.pv.entries, ∀ v, ¬carries e v) →
      ap.thetaMax = c.tempFallback ∧ ap.source = .fallback) ∧
    (∀ curb, s.cu.curb = some curb →
      ap.lEff = min ap.lTherm (c.xfmrRating * curb.level / 100)) ∧
    (s.cu.curb = none → ap.lEff = ap.lTherm) ∧
    ap.census = 1 + s.pv.entries.countP (fun e => decide (s.now - e.received < 8000)) ∧
    ap.census ≤ c.posts ∧
    ap.lView = ap.lEff * ap.census / c.posts ∧
    (s.call = none → ap.call = none ∧ ap.goal = 0 ∧ ap.fixedLoad = 0 ∧ ap.available = 0 ∧
      ap.participants = 0 ∧ ap.tier = none ∧ ap.result = 0 ∧ ap.clip = .noCause) ∧
    (∀ r, s.call = some r →
      let takesPart (e : PeerEntry) : Bool := decide (s.now - e.received < 3000 ∧
        0 < e.announced.offer ∧ e.announced.served = some r.callId)
      let self : Participant := ⟨s.lp.stall, s.offer, s.cls, s.energy⟩
      let ps : List Participant := (if 0 < s.offer then [self] else []) ++
        (s.pv.entries.filter takesPart).map fun e =>
          ⟨e.stall, e.announced.offer, e.announced.cls, e.announced.energy⟩
      ap.call = some r.callId ∧ ap.goal = min r.goal ap.lView ∧
      ap.available = ap.goal - ap.fixedLoad ∧
      ap.fixedLoad = (s.pv.entries.map fun e =>
        if 8000 ≤ s.now - e.received ∨ takesPart e = true then 0 else e.announced.actual).sum ∧
      ap.participants = ps.length ∧
      (0 < s.offer → ap.tier = some s.cls ∧ (self, ap.result) ∈ apportion ap.available ps ∧
        ap.result ≤ s.offer ∧
        ap.clip = (if ap.result < s.offer then .headroom
          else match s.settingTerm with
            | .converter => .converter
            | .allowance => .allowance
            | .energy => .energy
            | .gated => .noCause)) ∧
      (s.offer = 0 → ap.tier = none ∧ ap.result = 0 ∧ ap.clip = .noCause) ∧
      ((apportion ap.available ps).map (·.2)).sum =
        min ap.available ((ps.map (·.offer)).sum)) ∧
    ap.trigger = trigger ∧ ap.stepAt = s.ap.stepAt ∧
    ap.available ≤ ap.goal ∧ ap.goal ≤ ap.lView ∧ ap.lView ≤ ap.lEff ∧ ap.lEff ≤ c.xfmrRating) ∧
  (∀ (s : State) (trigger : Trigger), s.compute trigger = { s with
    ap := s.computation trigger
    ct := { s.ct with records :=
      if 0 < (s.computation trigger).result then
        s.ct.records.map fun r =>
          if r.state = .active ∨ r.state = .ending then { r with serving := true } else r
      else s.ct.records } })

/-- A tier whose offers exceed the remainder is split in proportion to them (R94): each member gets the whole part of
its quotient, and the units left over go one to a member in rank order, by exportable energy descending and then by
stall; each member gets at most one, no share exceeds its offer, and the shares sum to the remainder. -/
def Obligations.TierIsSplitInProportion : Prop :=
  ∀ (remainder : Nat) (ps : List Participant), (∀ p ∈ ps, 0 < p.offer) →
    remainder < offerSum ps →
    ∃ (ranked : List Participant) (given : Nat),
      ranked.Perm ps ∧
      ranked.Pairwise (fun a b => b.energy < a.energy ∨
        (a.energy = b.energy ∧ a.stall ≤ b.stall)) ∧
      (splitTier remainder ps).map (·.1) = ranked ∧
      given < ranked.length ∧
      given + (ranked.map fun p => remainder * p.offer / offerSum ps).sum = remainder ∧
      (∀ i (h : i < (splitTier remainder ps).length),
        (splitTier remainder ps)[i].2 =
          remainder * (splitTier remainder ps)[i].1.offer / offerSum ps +
            if i < given then 1 else 0) ∧
      (∀ x ∈ splitTier remainder ps, x.2 ≤ x.1.offer) ∧
      ((splitTier remainder ps).map (·.2)).sum = remainder

/-- The shares of an apportionment (R93, R95): each is at most its member's offer, every participant gets one, and
they sum to what is available or to all offers, whichever is less; a tier gets nothing before those above it are
full. -/
def Obligations.SharesSumToTheAvailable : Prop :=
  ∀ (available : Nat) (ps : List Participant), (∀ p ∈ ps, p.cls ≤ 3 ∧ 0 < p.offer) →
    ((apportion available ps).map (·.1)).Perm ps ∧
    (∀ x ∈ apportion available ps, x.2 ≤ x.1.offer) ∧
    ((apportion available ps).map (·.2)).sum = min available (offerSum ps) ∧
    (∀ x ∈ apportion available ps, ∀ y ∈ apportion available ps,
      x.1.cls < y.1.cls → 0 < y.2 → x.2 = x.1.offer)

/-- SENSOR_SAMPLE (R106, R108): while sampling runs the next sample falls 1 s later; a reading from −40 °C to 150 °C
is held as VALID, another makes the sensor INVALID, with SENSOR_FAULT when a good one is lost; a valid reading at or
above CURB_TEMP, 10 s or more after the last, originates a CURB: it is sent, counted and applied to the own post. -/
def Obligations.SensorSampleMayOriginateACurb : Prop :=
  (∀ (s : State) (reading : Int), s.cu.sampleAt = none →
    exec (.sensorSample reading) s = .next { s with cu := { s.cu with tsense := reading } }) ∧
  (∀ (s : State) (reading : Int) (at' : Nat), s.cu.sampleAt = some at' →
    let now := max s.now at'
    let valid : Bool := decide (-40 ≤ reading ∧ reading ≤ 150)
    let originates : Bool := valid && decide (s.sp.config.curbTemp ≤ reading) &&
      s.cu.lastOrigination.all fun last => decide (10000 ≤ now - last)
    let u : State := { s with
      now := now
      cu := { s.cu with
        tsense := reading
        sampleAt := some (at' + 1000)
        sensor := if valid then .valid else .invalid
        sample := if valid then some reading else none }
      sp := { s.sp with
        events := if !valid && s.cu.sensor == .valid then s.sp.events.raise .sensorFault
          else s.sp.events } }
    (originates = false → exec (.sensorSample reading) s = .next u) ∧
    (originates = true →
      let sent := u.enqueue (.curb ⟨s.sp.config.curbLevel, s.sp.config.curbHold, reading⟩)
      ∃ t, exec (.sensorSample reading) s = .next t ∧
        Reacted (State.curbComputation { sent with
          cu := { u.cu with
            lastOrigination := some now
            curb := some (curbApplied s.cu.curb now s.sp.config.curbLevel s.sp.config.curbHold) }
          sp := { sent.sp with events := sent.sp.events.raise .curbSent } }) t))

/-- CURB of another post (R109, R110, R97, R112, R129): CURB_RECEIVED, and the curb applied: the deeper level, the
later expiry; the share is computed at once, the setpoint steps down to it, and a post whose share falls to 0 at a
setpoint above 0 is cut; that this holds of a share that the curb leaves as it was, or raises, while the setpoint is
still above it too is log 35, where R111 says otherwise. CURB_EXPIRY (R114) ends the curb and the cut hold. -/
def Obligations.CurbIsAppliedAtOnce : Prop :=
  (∀ (s : State) (stall seq : Nat) (f : CurbWire), Hears s stall →
    ∃ t, exec (.curb stall seq f) s = .next t ∧
      Reacted (State.curbComputation { heardFrom s stall seq with
        cu := { s.cu with
          lastHeard := some ⟨stall, f.corrected⟩
          curb := some (curbApplied s.cu.curb s.now f.corrected.level f.corrected.hold) }
        sp := { s.sp with events := s.sp.events.raise .curbReceived } }) t) ∧
  (∀ (now level hold : Nat), curbApplied none now level hold = ⟨level, now + 1000 * hold⟩ ∧
    ∀ c, curbApplied (some c) now level hold =
      ⟨min c.level level, max c.expiry (now + 1000 * hold)⟩) ∧
  (∀ s : State,
    let v := s.compute .curb
    let cut : Bool := decide (v.share = 0 ∧ 0 < s.cc.setpoint ∧ s.cu.cutHold = false)
    s.curbComputation = { v with
      cc := { s.cc with setpoint := min s.cc.setpoint v.share }
      cu := { s.cu with cutHold := s.cu.cutHold || cut }
      sp := { s.sp with
        events := if cut then s.sp.events.raise .cut else s.sp.events } }) ∧
  (∀ (s : State) (c : Curb), s.cu.curb = some c →
    ∃ t, exec .curbExpiry s = .next t ∧
      Reacted { s with
        now := max s.now c.expiry
        cu := { s.cu with curb := none, cutHold := false } } t)

/-! ### The converter -/

/-- MEAS_STB holds the strobed value, and nothing else changes (R131). FAULT_HIGH in PRECHARGING and ON is a trip
with CONV_TRIP (R122); in the other states the level alone is held. PRECHARGE_EXPIRY (R121): READY low is a start
failure with CONV_START_FAIL; READY high makes the state ON with the stable timer at 60 s (R123), and the linger at
30 s where the start request does not hold (R125), anew where one ran already (log 18, the model's reading; stated
from a state in which no reaction is open). The third failure latches CONV_FAULT (R123). STABLE_EXPIRY clears the
failure count (R123); RETRY_EXPIRY makes the state OFF, from which a start request goes on at once (R124, R120);
LINGER_EXPIRY requests a stop (R125, R126): a precharge is abandoned, ON has stop pending. STOP_COMPLETE (R126): ON
with stop pending, the setpoint at 0 and the session neither ENGAGING, EXPORTING nor RELEASING goes OFF; else
nothing changes (log 13). SLEW_STEP (R127, R128): the next step falls 100 ms later, and the setpoint moves toward
its target, up by RISE_STEP or to it, down by 30 units or to it; the target is the share in force while the
converter is ON and the session EXPORTING, and else 0. That the stable timer and the linger timer that have run out
stand as stopped is log 33, the model's choice. -/
def Obligations.ConverterCommandsFollowTheirRules : Prop :=
  (∀ (s : State) (sample : Nat), sample < 1024 →
    exec (.measStb sample) s = .next { s with cc := { s.cc with measured := sample } }) ∧
  (∀ s : State, s.cc.state ≠ .precharging → s.cc.state ≠ .on →
    exec .faultHigh s = .next { s with cc := { s.cc with fault := true } }) ∧
  (∀ s : State, s.cc.state = .precharging ∨ s.cc.state = .on →
    ∃ t, exec .faultHigh s = .next t ∧
      t.cc.state = (if s.cc.failures < 2 then .retryWait else .convFault) ∧
      t.cc.retryAt = (if s.cc.failures < 2 then some (s.now + 60000) else none) ∧
      t.cc.failures = min 3 (s.cc.failures + 1) ∧
      t = State.finish { s with
        cc := { converterFailed s.cc s.now with fault := true }
        sp := { s.sp with
          events := if s.cc.failures < 2 then s.sp.events.raise .convTrip
            else (s.sp.events.raise .convTrip).raise .convFault } }) ∧
  (∀ (s : State) (at' : Nat), s.cc.prechargeAt = some at' →
    let now := max s.now at'
    (∃ t, exec (.prechargeExpiry false) s = .next t ∧
      t.cc.state = (if s.cc.failures < 2 then .retryWait else .convFault) ∧
      t.cc.retryAt = (if s.cc.failures < 2 then some (now + 60000) else none) ∧
      t.cc.failures = min 3 (s.cc.failures + 1) ∧
      t = State.finish { s with
        now := now
        cc := { converterFailed s.cc now with ready := false }
        sp := { s.sp with
          events := if s.cc.failures < 2 then s.sp.events.raise .convStartFail
            else (s.sp.events.raise .convStartFail).raise .convFault } }) ∧
    (∃ t, exec (.prechargeExpiry true) s = .next t ∧
      (s.cc.stopPending = false → t.cc.state = .on ∧ t.cc.stableAt = some (now + 60000)) ∧
      (Settled s → ConverterTimers s → s.sp.mode ≠ .config →
        t.cc.state = .on ∧ t.startRequest = s.startRequest ∧
        t.cc.lingerAt = if s.startRequest then none else some (now + 30000)) ∧
      t = State.finish { s with
        now := now
        cc := { s.cc with
          ready := true
          state := .on
          prechargeAt := none
          stableAt := some (now + 60000)
          lingerAt := if s.startRequest then none else some (now + 30000) } })) ∧
  (∀ s : State,
    (∀ at', s.cc.stableAt = some at' → exec .stableExpiry s = .next { s with
      now := max s.now at', cc := { s.cc with stableAt := none, failures := 0 } }) ∧
    (∀ at', s.cc.retryAt = some at' → ∃ t, exec .retryExpiry s = .next t ∧
      (t.startRequest = false → t.cc.state = .off ∧ t.cc.retryAt = none) ∧
      (t.startRequest = true → s.sp.mode ≠ .config → s.cc.fault = false →
        t.cc.state = .precharging ∧
          t.cc.prechargeAt = some (max s.now at' + 1000 * s.sp.config.precharge)) ∧
      t = State.finish { s with
        now := max s.now at', cc := { s.cc with retryAt := none, state := .off } }) ∧
    (∀ at', s.cc.lingerAt = some at' → ∃ t, exec .lingerExpiry s = .next t ∧
      (s.cc.state = .precharging → t.startRequest = false → t.cc.state = .off) ∧
      (s.cc.state = .on → t.startRequest = false → t.cc.state = .on →
        t.cc.stopPending = true) ∧
      t = State.finish { s with
        now := max s.now at'
        cc := if s.cc.state = .precharging then converterOff s.cc
          else if s.cc.state = .on then { s.cc with lingerAt := none, stopPending := true }
          else { s.cc with lingerAt := none } }) ∧
    let holds : Bool := decide (s.vl.session = .engaging ∨ s.vl.session = .exporting ∨
      s.vl.session = .releasing)
    (s.cc.state = .on → s.cc.stopPending = true → s.cc.setpoint = 0 → holds = false →
      ∃ t, exec .stopComplete s = .next t ∧ (t.startRequest = false → t.cc.state = .off) ∧
        t = State.finish { s with cc := converterOff s.cc }) ∧
    (s.cc.state ≠ .on ∨ s.cc.stopPending = false ∨ 0 < s.cc.setpoint ∨ holds = true →
      exec .stopComplete s = .next s)) ∧
  (∀ (s : State) (at' : Nat), s.cc.slewAt = some at' →
    let target := if s.cc.state = .on ∧ s.vl.session = .exporting then min s.ap.result s.offer
      else 0
    let setpoint := if s.cc.setpoint < target then min target (s.cc.setpoint + s.sp.config.riseStep)
      else max target (s.cc.setpoint - 30)
    let u : State := { s with
      now := max s.now at'
      cc := { s.cc with setpoint := setpoint, slewAt := some (at' + 100) } }
    (setpoint = s.cc.setpoint → exec .slewStep s = .next u) ∧
    (setpoint ≠ s.cc.setpoint → ∃ t, exec .slewStep s = .next t ∧ t = u.finish ∧
      t.cc.setpoint ≤ setpoint))

/-! ### The vehicle link -/

/-- PLUG_HIGH sets the level, which the link meets at once in ABSENT (R137): ATTACHED with VEHICLE_ATTACHED and the wake
of 200 ms; a DORMANT post wakes first (R174), but not during a restart's wait (R177). PLUG_LOW in ABSENT clears the
level and a RELEASE owed (R146); else the session ends with VEHICLE_DETACHED: ABSENT, no request, no record, no
allowance, and the setpoint at 0 (R138, R63, R164); that the items read are dropped with it, so that the identify
position is 0, is log 36, the model's choice. IDENTIFYING is entered when the wake ends (R137) and when the
session's retry wait ends (R145): the record goes, the QUERY of item 0 and an owed RELEASE are due, the identify timer
runs for 5 s, and the STOP latch and the last ceiling are cleared (R142, R162, R163). -/
def Obligations.PlugAndWakeBeginTheSession : Prop :=
  (∀ s : State, ∃ t, exec .plugHigh s = .next t ∧
    t = State.finish { s with vl := { s.vl with plug := true } } ∧ t.vl.plug = true ∧
    (s.sp.mode = .dormant → s.sp.restarting = none → t.sp.mode = .active) ∧
    (s.vl.session = .absent → s.sp.mode ≠ .config →
      (s.sp.mode ≠ .dormant ∨ s.sp.restarting = none) →
      t.vl.session = .attached ∧ t.vl.wakeAt = some (s.now + 200) ∧
        t.sp.events.count .vehicleAttached =
          min 255 (s.sp.events.count .vehicleAttached + 1))) ∧
  (∀ s : State, s.vl.session = .absent →
    exec .plugLow s = .next { s with vl := { s.vl with plug := false, releaseOwed := false } }) ∧
  (∀ s : State, s.vl.session ≠ .absent →
    ∃ t, exec .plugLow s = .next t ∧ t.vl.session = .absent ∧ t.cc.setpoint = 0 ∧
      t = State.finish { withoutRecord s with
        vl := { sessionGone s.vl false with plug := false }
        cc := { s.cc with setpoint := 0 }
        sp := { s.sp with events := s.sp.events.raise .vehicleDetached } }) ∧
  (∀ (s : State) (at' : Nat),
    let u : State := { withoutRecord s with
      now := max s.now at'
      vl := { s.vl with
        session := .identifying
        wakeAt := none
        retryAt := none
        identifyAt := some (max s.now at' + 5000)
        items := []
        due := { s.vl.due with release := s.vl.releaseOwed, identify := true }
        stopLatch := false
        lastCeiling := none } }
    let begun (t : State) : Prop := t = u.finish ∧ t.vl.session = .identifying ∧
      t.vl.due.release = s.vl.releaseOwed ∧ t.vl.due.identify = true
    (s.vl.wakeAt = some at' → ∃ t, exec .wakeExpiry s = .next t ∧ begun t) ∧
    (s.vl.retryAt = some at' → ∃ t, exec .sessionRetryExpiry s = .next t ∧ begun t))

/-- PILOT_REQUEST_TAKEN (R139): with no request in flight the first due one of RELEASE, ENGAGE, TUNE, identify
QUERY, refresh QUERY and POLL that the session sends is taken with the next request number, and without one nothing
changes (log 13); a RELEASE is sent in RELEASING and IDENTIFYING, an ENGAGE in READY, a TUNE in TUNING, an identify
QUERY in IDENTIFYING, a refresh QUERY in READY and EXPORTING, a POLL in the polling states (R139, R147, R148, R142,
R158); ENGAGE makes the session ENGAGING (R158) and the first refresh read starts the refresh timer again (R148).
REQUEST_SENT starts the reply timer at 200 ms; REPLY_TIMER_EXPIRY sends the same request again, up to the third
attempt (R140); a disregarded frame changes nothing. -/
def Obligations.RequestsAreTakenAndRepeated : Prop :=
  (∀ (s : State) (r : Request), s.vl.inFlight = none →
    (∃ before after, dueInOrder s.vl = before ++ r :: after ∧ sentIn s.vl r = true ∧
      ∀ x ∈ before, sentIn s.vl x = false) →
    let number := (s.vl.counter + 1) % 256
    let u : State := { s with vl := { s.vl with
      counter := number
      inFlight := some ⟨r, number, 1, none⟩
      session := if r = .engage then .engaging else s.vl.session
      refreshAt := if r = .refreshQuery 2 then some (s.now + 60000) else s.vl.refreshAt
      due := match r with
        | .release => { s.vl.due with release := false }
        | .engage => { s.vl.due with engage := false }
        | .tune _ => { s.vl.due with tune := none }
        | .identifyQuery _ => { s.vl.due with identify := false }
        | .refreshQuery _ => { s.vl.due with refresh := none }
        | .poll => { s.vl.due with poll := false } } }
    (r ≠ .engage → exec .pilotRequestTaken s = .next u) ∧
    (r = .engage → ∃ t, exec .pilotRequestTaken s = .next t ∧ Reacted u t)) ∧
  (∀ s : State, s.vl.inFlight ≠ none ∨ (∀ x ∈ dueInOrder s.vl, sentIn s.vl x = false) →
    exec .pilotRequestTaken s = .next s) ∧
  (∀ (s : State) (f : RequestInFlight), s.vl.inFlight = some f →
    (f.replyAt = none → exec .requestSent s = .next { s with vl := { s.vl with
      inFlight := some { f with replyAt := some (s.now + 200) } } }) ∧
    (∀ at', f.replyAt = some at' → f.attempt < 3 →
      exec .replyTimerExpiry s = .next { s with
        now := max s.now at'
        vl := { s.vl with
          inFlight := some { f with attempt := f.attempt + 1, replyAt := none } } })) ∧
  (∀ s : State, exec .pilotFrameDisregarded s = .next s)

/-- The replies to an identify QUERY (R142, R185): an ITEM is held, corrected, and the next one is due; NOT_READY
starts the requery timer at 100 ms, whose end makes the same QUERY due again; UNSUPPORTED is held for items 3, 4 and
6, and fails the identify for the others, as does a value other than 1 of item 7; a reply of another number or item
changes nothing. Item 7 answered 1 completes the identify (R142, R62, R153): the seven items make the bus record,
with the defaults of an item 3 or 6 that was UNSUPPORTED, an unknown departure of an item 4 that was, and the state
of energy held at the capacity, and the notice comparator takes its side without an event (R76); tuning begins with
the first code of TUNE_START and the tuning timer at 10 s. That the items read are dropped as the identify completes
or fails, so that its position is 0, is log 36, the model's choice. That the requery timer that has run out stands
as stopped is log 33, the model's choice. -/
def Obligations.IdentifyReadsItemsIntoTheRecord : Prop :=
  (∀ (s : State) (number k : Nat), Awaits s number (.identifyQuery k) →
    let failed : State := State.finish { s with
      vl := sessionFailed s.vl s.now (.identifyItem k) 60000 s.vl.releaseOwed none
      sp := { s.sp with events := if s.vl.failures < 2 then s.sp.events
        else s.sp.events.raise .vehicleFault } }
    (failed.vl.session = if s.vl.failures < 2 then .retryWait else .faulted) ∧
    (∀ v, k ≤ 6 →
      exec (.item number k v) s = .next (State.finish { s with vl := { s.vl with
        inFlight := none
        items := s.vl.items ++ [some (itemCorrected k v)]
        due := { s.vl.due with identify := true } } })) ∧
    (∀ v, k = 7 → v ≠ 1 → exec (.item number k v) s = .next failed) ∧
    (exec (.notReady number k) s = .next { s with vl := { s.vl with
      inFlight := none, requeryAt := some (s.now + 100) } }) ∧
    (k = 3 ∨ k = 4 ∨ k = 6 →
      exec (.unsupported number k) s = .next { s with vl := { s.vl with
        inFlight := none
        items := s.vl.items ++ [none]
        due := { s.vl.due with identify := true } } }) ∧
    (k ≠ 3 → k ≠ 4 → k ≠ 6 → exec (.unsupported number k) s = .next failed) ∧
    (∀ j v, j ≠ k → exec (.item number j v) s = .next s ∧
      exec (.notReady number j) s = .next s ∧ exec (.unsupported number j) s = .next s) ∧
    (∀ n j v, n ≠ number → exec (.item n j v) s = .next s ∧
      exec (.notReady n j) s = .next s ∧ exec (.unsupported n j) s = .next s)) ∧
  (∀ (s : State) (at' : Nat), s.vl.requeryAt = some at' →
    exec .requeryExpiry s = .next { s with
      now := max s.now at'
      vl := { s.vl with requeryAt := none, due := { s.vl.due with identify := true } } }) ∧
  (∀ (s : State) (number : Nat) (bus capacity soe pack : Int) (route departure minTemp : Option Int),
    Awaits s number (.identifyQuery 7) →
    s.vl.items = [some bus, some capacity, some soe, route, departure, some pack, minTemp] →
    let record : BusRecord := {
      bus := bus.toNat
      capacity := capacity.toNat
      soe := min soe.toNat capacity.toNat
      route := (route.map Int.toNat).getD s.sp.config.routeDefault
      routeDefaulted := route.isNone
      departure := departure.map Int.toNat
      packTemp := pack
      minTemp := minTemp.getD (-20)
      minTempDefaulted := minTemp.isNone }
    let first : TuneCode := if s.sp.config.tuneStart = .default then .startDefault else .startTop
    let v : State := { s with
      ea := { s.ea with
        record := some record
        estimate := record.soe
        reported := record.soe
        residue := 0
        departureLeft := record.departure
        minuteAt := record.departure.map fun _ => s.now + 60000 }
      vl := { s.vl with
        session := .tuning
        inFlight := none
        identifyAt := none
        requeryAt := none
        items := []
        phase := .stepping
        kind := .initial
        code := some first
        busLevel := none
        busStatus := none
        tuningAt := some (s.now + 10000)
        due := { s.vl.due with identify := false, tune := some first } } }
    ∃ t, exec (.item number 7 1) s = .next t ∧ t.vl.session = .tuning ∧
      t = State.finish { v with ea := { v.ea with
        side := if s.sp.config.energyNotice ≤ v.energy then .above else .below } } ∧
      t.sp.events.count .energyLow = s.sp.events.count .energyLow ∧
      t.sp.events.count .energyRestored = s.sp.events.count .energyRestored)

/-- The session's failures: IDENTIFY_EXPIRY abandons the request and waits 60 s (R143); TUNING_EXPIRY raises
TUNE_FAILED, abandons a TUNE in flight and waits 60 s (R156); a third attempt without a reply loses the link with
LINK_LOST, waits 10 s, and owes a RELEASE to a bus that was ENGAGING, EXPORTING or RELEASING (R141, R146). The third
failure makes the session FAULTED with VEHICLE_FAULT (R145); that a loss met in FAULTED is counted and reported so
again is log 34, and that the items read are dropped log 36, the model's choices. -/
def Obligations.SessionFailuresWaitOrLatch : Prop :=
  ∀ s : State,
    let faulted (e : EventSet) : EventSet :=
      if s.vl.failures < 2 then e else e.raise .vehicleFault
    (∀ at', s.vl.identifyAt = some at' →
      ∃ t, exec .identifyExpiry s = .next t ∧
        t.vl.session = (if s.vl.failures < 2 then .retryWait else .faulted) ∧
        Reacted { s with
          now := max s.now at'
          vl := sessionFailed s.vl (max s.now at') .identifyTimeout 60000 s.vl.releaseOwed none
          sp := { s.sp with events := faulted s.sp.events } } t) ∧
    (∀ at', s.vl.tuningAt = some at' →
      ∃ t, exec .tuningExpiry s = .next t ∧
        t.vl.session = (if s.vl.failures < 2 then .retryWait else .faulted) ∧
        Reacted { s with
          now := max s.now at'
          vl := sessionFailed s.vl (max s.now at') .tuning 60000 s.vl.releaseOwed
            (if s.vl.tuneInFlight then none else s.vl.inFlight)
          sp := { s.sp with events := faulted (s.sp.events.raise .tuneFailed) } } t) ∧
    (∀ f at', s.vl.inFlight = some f → f.replyAt = some at' → 3 ≤ f.attempt →
      ∃ t, exec .replyTimerExpiry s = .next t ∧
        t.vl.session = (if s.vl.failures < 2 then .retryWait else .faulted) ∧
        Reacted { s with
          now := max s.now at'
          vl := sessionFailed s.vl (max s.now at') .link 10000
            (s.vl.releaseOwed || decide (s.vl.session = .engaging ∨ s.vl.session = .exporting ∨
              s.vl.session = .releasing)) none
          sp := { s.sp with events := faulted (s.sp.events.raise .linkLost) } } t)

/-- POLL_EXPIRY (R147): a POLL is due unless one is due or in flight, and the timer starts again at 500 ms, in HOLD
and LOCKOUT at 5 s. REFRESH_EXPIRY (R148): the reads of items 2 and 5 become due; while a refresh is under way none
is added (R139), and the timer starts again at 60 s (log 25, the model's reading). Their replies reach the Energy
Account (R65, R67, R185); NOT_READY and UNSUPPORTED leave it, and the refresh goes on to item 5 (R148). POLLED
(R163, R162): the pack temperature, then the ceiling, which lowers the allowance with CEILING_LOWERED, then the STOP
flag, which latches with STOP_REQUEST and steps the setpoint to 0; what comes about at once from each value, in the
model's order of reactions (log 10), comes before the next value is met. That the refresh timer that has run out
stands as stopped while its refresh waits to be taken is log 33, the model's choice. -/
def Obligations.PollAndRefreshReadTheBus : Prop :=
  (∀ (s : State) (at' : Nat), s.vl.pollAt = some at' →
    exec .pollExpiry s = .next { s with
      now := max s.now at'
      vl := { s.vl with
        due := { s.vl.due with poll := s.vl.due.poll || !s.vl.pollInFlight }
        pollAt := some (max s.now at' +
          if s.sp.mode = .hold ∨ s.sp.mode = .lockout then 5000 else 500) } }) ∧
  (∀ (s : State) (at' : Nat), s.vl.refreshAt = some at' →
    exec .refreshExpiry s = .next { s with
      now := max s.now at'
      vl :=
        if s.vl.due.refresh.isSome || s.vl.refreshInFlight then
          { s.vl with refreshAt := some (max s.now at' + 60000) }
        else { s.vl with refreshAt := none, due := { s.vl.due with refresh := some 2 } } }) ∧
  (∀ (s : State) (number : Nat) (v : Int) (r : BusRecord), s.ea.record = some r →
    Awaits s number (.refreshQuery 2) → s.vl.polling = true →
    let soe := min (itemCorrected 2 v).toNat r.capacity
    ∃ t, exec (.item number 2 v) s = .next t ∧
      Reacted { s with
        vl := { s.vl with inFlight := none, due := { s.vl.due with refresh := some 5 } }
        ea := { s.ea with estimate := min s.ea.estimate soe, reported := soe } } t) ∧
  (∀ (s : State) (number : Nat) (v : Int) (r : BusRecord), s.ea.record = some r →
    Awaits s number (.refreshQuery 5) →
    ∃ t, exec (.item number 5 v) s = .next t ∧
      Reacted { s with
        vl := { s.vl with inFlight := none }
        ea := { s.ea with record := some { r with packTemp := itemCorrected 5 v } } } t) ∧
  (∀ (s : State) (number k : Nat), Awaits s number (.refreshQuery k) →
    let u : State := { s with vl := { s.vl with
      inFlight := none
      due := if k = 2 ∧ s.vl.polling = true then { s.vl.due with refresh := some 5 }
        else s.vl.due } }
    exec (.notReady number k) s = .next u ∧ exec (.unsupported number k) s = .next u) ∧
  (∀ (s : State) (number flags ceiling : Nat) (temperature : Int), Awaits s number .poll →
    let c := min 63 ceiling
    let stop := flags.testBit 0
    let packed : State := State.finish { s with
      ea := { s.ea with
        record := s.ea.record.map fun r => { r with packTemp := max (-40) (min 100 temperature) } }
      vl := { s.vl with inFlight := none } }
    let lowered : State := State.finish { packed with
      vl := { packed.vl with lastCeiling := some c, allowance := min packed.vl.allowance c }
      sp := { packed.sp with
        events := if c < packed.vl.allowance then packed.sp.events.raise .ceilingLowered
          else packed.sp.events } }
    let latches : Bool := stop && !lowered.vl.stopLatch
    ∃ t, exec (.polled number flags ceiling temperature) s = .next t ∧
      t = State.finish { lowered with
        vl := { lowered.vl with stopLatch := stop }
        cc := { lowered.cc with setpoint := if latches then 0 else lowered.cc.setpoint }
        sp := { lowered.sp with
          events := if latches then lowered.sp.events.raise .stopRequest
            else lowered.sp.events } } ∧
      t.ea.record =
        s.ea.record.map (fun r => { r with packTemp := max (-40) (min 100 temperature) }) ∧
      t.vl.inFlight = none ∧ t.vl.lastCeiling = some c ∧ t.vl.allowance = min s.vl.allowance c ∧
      t.vl.stopLatch = stop ∧
      t.sp.events.count .ceilingLowered = (if c < s.vl.allowance
        then min 255 (s.sp.events.count .ceilingLowered + 1) else s.sp.events.count .ceilingLowered) ∧
      t.sp.events.count .stopRequest = (if stop = true ∧ s.vl.stopLatch = false
        then min 255 (s.sp.events.count .stopRequest + 1) else s.sp.events.count .stopRequest) ∧
      (stop = true → s.vl.stopLatch = false → t.cc.setpoint = 0))

/-! ### Tuning and the export session -/

/-- TUNED in STEPPING (R154): the level and status are held; at D, or at the end of the range on the way to it, the
wait to settle begins with a TUNE HOLD and 1 s (R155); UNCHANGED asks again after 100 ms; else UP or DOWN is due.
STEP_DELAY_EXPIRY makes the same code due. A reply of another number changes nothing (R139). RETUNE_EXPIRY makes a
retune due and starts the timer again at 60 s (R157). RETUNE_BEGIN: in READY, with a retune due and no ENGAGE due or
in flight, TUNING begins from READY with UP; else nothing changes (log 13). That the step delay that has run out
stands as stopped is log 33, the model's choice. -/
def Obligations.TuningAndRetuneStep : Prop :=
  ((∀ (s : State) (number status level : Nat) (code : TuneCode),
     Awaits s number (.tune code) → code ≠ .hold → s.vl.phase = .stepping →
     let l := min 63 level
     let u : VehicleLink := { s.vl with
       inFlight := none
       busLevel := some l
       busStatus := some (tuneStatusOfCode status) }
     let done : Prop := l = s.vl.desired ∨ (l < s.vl.desired ∧ status = 1) ∨
       (s.vl.desired < l ∧ status = 2)
     ∃ t, exec (.tuned number status level) s = .next t ∧
       (done → Reacted { s with vl := { u with
         tuningAt := none
         stepAt := none
         phase := .settling
         holdAnswered := false
         settleAt := some (s.now + 1000)
         code := some .hold
         due := { s.vl.due with tune := some .hold } } } t) ∧
       (¬done → 3 ≤ status →
         Reacted { s with vl := { u with stepAt := some (s.now + 100) } } t) ∧
       (¬done → status < 3 → l < s.vl.desired →
         Reacted { s with vl := { u with
           code := some .up, due := { s.vl.due with tune := some .up } } } t) ∧
       (¬done → status < 3 → s.vl.desired < l →
         Reacted { s with vl := { u with
           code := some .down, due := { s.vl.due with tune := some .down } } } t)) ∧
   (∀ (s : State) (at' : Nat), s.vl.stepAt = some at' →
     exec .stepDelayExpiry s = .next { s with
       now := max s.now at'
       vl := { s.vl with stepAt := none, due := { s.vl.due with tune := s.vl.code } } }) ∧
   (∀ (s : State) (f : RequestInFlight) (number status level : Nat), s.vl.inFlight = some f →
     f.number ≠ number → exec (.tuned number status level) s = .next s)) ∧
  ((∀ (s : State) (at' : Nat), s.vl.retuneAt = some at' →
     exec .retuneExpiry s = .next { s with
       now := max s.now at'
       vl := { s.vl with retuneDue := true, retuneAt := some (max s.now at' + 60000) } }) ∧
   (∀ s : State, s.vl.retuneDue = true → s.vl.session = .ready → s.vl.due.engage = false →
     (∀ f, s.vl.inFlight = some f → f.request ≠ .engage) →
     ∃ t, exec .retuneBegin s = .next t ∧ t.vl.session = .tuning ∧
       Reacted { s with vl := { s.vl with
         session := .tuning
         kind := .retune
         phase := .stepping
         tuningAt := some (s.now + 10000)
         busLevel := none
         busStatus := none
         retuneDue := false
         code := some .up
         due := { s.vl.due with tune := some .up } } } t) ∧
   (∀ s : State, s.vl.retuneDue = false ∨ s.vl.session ≠ .ready ∨ s.vl.due.engage = true →
     exec .retuneBegin s = .next s))

/-- The settle wait ends when its second has passed and HOLD has been answered, in either order (R155): READY, with
the least of the bus's level, D and the last ceiling as the allowance; RANGE_CLAMP where the bus stands above
ALLOW_CEIL; after an identify the failures are cleared, VEHICLE_READY raised and the poll and refresh timers started
(R144, R147, R148). That a timer which has run out with HOLD unanswered stands as stopped is log 33, the model's
choice. -/
def Obligations.SettlingEndsInReady : Prop :=
  ∀ (s : State) (level : Nat),
    let ready (now : Nat) : State := { s with
      now := now
      vl := { s.vl with
        session := .ready
        allowance := match s.vl.lastCeiling with
          | some c => min (min level s.vl.desired) c
          | none => min level s.vl.desired
        phase := .idle
        settleAt := none
        busLevel := some level
        failures := if s.vl.kind = .initial then 0 else s.vl.failures
        pollAt := if s.vl.kind = .initial then
            some (now + if s.sp.mode = .hold ∨ s.sp.mode = .lockout then 5000 else 500)
          else s.vl.pollAt
        refreshAt := if s.vl.kind = .initial then some (now + 60000) else s.vl.refreshAt }
      sp := { s.sp with events :=
        let clamped := if s.sp.config.allowCeil < level then s.sp.events.raise .rangeClamp
          else s.sp.events
        if s.vl.kind = .initial then clamped.raise .vehicleReady else clamped } }
    (∀ at', s.vl.settleAt = some at' → s.vl.busLevel = some level →
      (s.vl.holdAnswered = true →
        ∃ t, exec .settleExpiry s = .next t ∧ t.vl.session = .ready ∧
          Reacted (ready (max s.now at')) t) ∧
      (s.vl.holdAnswered = false →
        exec .settleExpiry s = .next { s with
          now := max s.now at', vl := { s.vl with settleAt := none } })) ∧
    (∀ number status wire, Awaits s number (.tune .hold) → s.vl.phase = .settling →
      level = min 63 wire →
      (s.vl.settleAt = none →
        ∃ t, exec (.tuned number status wire) s = .next t ∧ t.vl.session = .ready ∧
          Reacted { ready s.now with vl := { (ready s.now).vl with
            inFlight := none
            busStatus := some (tuneStatusOfCode status)
            holdAnswered := true } } t) ∧
      (s.vl.settleAt ≠ none →
        ∃ t, exec (.tuned number status wire) s = .next t ∧
          Reacted { s with vl := { s.vl with
            inFlight := none
            busLevel := some level
            busStatus := some (tuneStatusOfCode status)
            holdAnswered := true } } t))

/-- ENGAGED makes an ENGAGING session EXPORTING; DECLINED makes it READY with the engage hold at 10 s, whose end
only lifts the hold (R159). SHARE_ZERO_EXPIRY leaves the timer run out, and in EXPORTING with no share the release
is decided once the setpoint is 0 (R160): RELEASING with a RELEASE due. RELEASED makes a RELEASING session READY and
clears a RELEASE owed, without which IDENTIFYING goes on (R161, R146); that it does so during a restart's wait too
is log 17, the model's reading. That the share-zero timer that has run out stands as stopped is log 33, the model's
choice. -/
def Obligations.EngageAndReleaseMoveTheSession : Prop :=
  (∀ (s : State) (number : Nat), Awaits s number .engage → s.vl.session = .engaging →
    (exec (.engaged number) s = .next (State.finish { s with
      vl := { s.vl with inFlight := none, session := .exporting } })) ∧
    (∃ t, exec (.declined number) s = .next t ∧ t.vl.session = .ready ∧
      t.vl.engageHoldAt = some (s.now + 10000) ∧
      t = State.finish { s with vl := { s.vl with
        inFlight := none, session := .ready, engageHoldAt := some (s.now + 10000) } })) ∧
  (∀ (s : State) (number : Nat), Awaits s number .engage → s.vl.session ≠ .engaging →
    exec (.engaged number) s = .next { s with vl := { s.vl with inFlight := none } } ∧
    exec (.declined number) s = .next { s with vl := { s.vl with inFlight := none } }) ∧
  (∀ (s : State) (at' : Nat), s.vl.engageHoldAt = some at' →
    exec .engageHoldExpiry s = .next (State.finish { s with
      now := max s.now at', vl := { s.vl with engageHoldAt := none } })) ∧
  (∀ (s : State) (at' : Nat), s.vl.shareZeroAt = some at' →
    ∃ t, exec .shareZeroExpiry s = .next t ∧
      t = State.finish { s with
        now := max s.now at'
        vl := { s.vl with shareZeroAt := none, shareZeroOut := true } } ∧
      (s.vl.session = .exporting → s.share = 0 → s.ea.gates = s.gateView →
        s.sp.mode ≠ .config → s.sp.mode ≠ .dormant →
        (s.cc.setpoint = 0 ∨ s.cc.state ≠ .on →
          t.vl.session = .releasing ∧ t.vl.due.release = true ∧ t.cc.setpoint = 0) ∧
        (0 < s.cc.setpoint → s.cc.state = .on →
          t.vl.session = .exporting ∧ t.vl.shareZeroOut = true ∧
            t.cc.setpoint = s.cc.setpoint))) ∧
  (∀ (s : State) (number : Nat), Awaits s number .release →
    (s.vl.session = .releasing →
      ∃ t, exec (.released number) s = .next t ∧ t.vl.session = .ready ∧
        t = State.finish { s with vl := { s.vl with
          inFlight := none, releaseOwed := false, session := .ready } }) ∧
    (s.vl.session ≠ .releasing →
      exec (.released number) s = .next { s with vl := { s.vl with
        inFlight := none, releaseOwed := false } }))

/-! ### What comes about at once -/

/-- What each reaction makes of a state: the setpoint outside the power path (R129), the notice comparator (R76), the
gate notice with its computation (R73, R84), given where one of ISOLATED, REJOINING, the mode and the other gates has
changed since the last (R12, R103; that these are held so, and that several changes are one notice, is log 28, the
model's choice), the share-zero timer (R160), the held
stop (R126), the release decision (R160), the start request and the linger (R119, R120, R125, R126), the ENGAGE made
due or withdrawn (R158), the retune timer (R157), the park's completion (R172, R177) and the plug (R174, R137). The end
of a command's handling in a joined mode runs them until none is open and takes a waiting frame on an idle line; it
changes nothing else, and in CONFIG nothing at all. The order in which they run, and that they run inside the command,
is the model's choice (log 10, log 11). -/
def Obligations.ReactionsFollowTheirRules : Prop :=
  (∀ s : State,
    let powered : Prop := s.cc.state = .on ∧ s.vl.session = .exporting
    let agreed : Prop := s.vl.session = .ready ∨ s.vl.session = .engaging ∨
      s.vl.session = .exporting ∨ s.vl.session = .releasing
    let holdsPark : Prop := s.vl.session = .attached ∨ s.vl.session = .identifying ∨
      s.vl.session = .tuning ∨ s.vl.session = .engaging ∨ s.vl.session = .exporting ∨
      s.vl.session = .releasing
    (powered → s.holdSetpoint = s) ∧
    (¬powered → s.holdSetpoint = { s with cc := { s.cc with setpoint := 0 } }) ∧
    (s.ea.side = .above → s.energy < s.sp.config.energyNotice → s.noticeTest = { s with
      ea := { s.ea with side := .below }
      sp := { s.sp with events := s.sp.events.raise .energyLow } }) ∧
    (s.ea.side = .below → s.sp.config.energyNotice ≤ s.energy → s.noticeTest = { s with
      ea := { s.ea with side := .above }
      sp := { s.sp with events := s.sp.events.raise .energyRestored } }) ∧
    (s.ea.side = .noRecord ∨ (s.ea.side = .above ∧ s.sp.config.energyNotice ≤ s.energy) ∨
      (s.ea.side = .below ∧ s.energy < s.sp.config.energyNotice) → s.noticeTest = s) ∧
    (s.gateView = ⟨s.sp.mode, s.gateHolds .session, s.gateHolds .allowanceFloor,
      s.gateHolds .departureGuard, s.gateHolds .coldLock, s.gateHolds .energyMinimum,
      s.pv.isolated, s.pv.rejoining, s.gateHolds .cutHold, s.gateHolds .converterDown,
      s.gateHolds .busStop⟩) ∧
    (s.gateView ≠ s.ea.gates → s.gateNotice =
      ({ s with ea := { s.ea with gates := s.gateView } } : State).compute .gate) ∧
    (s.gateView = s.ea.gates → s.gateNotice = s) ∧
    (s.vl.session = .exporting → s.share = 0 → s.vl.shareZeroAt = none →
      s.vl.shareZeroOut = false →
      s.shareZeroTest = { s with vl := { s.vl with shareZeroAt := some (s.now + 30000) } }) ∧
    (s.vl.session = .exporting → s.share = 0 →
      s.vl.shareZeroAt ≠ none ∨ s.vl.shareZeroOut = true → s.shareZeroTest = s) ∧
    (s.vl.session ≠ .exporting ∨ 0 < s.share → s.shareZeroTest = { s with
      vl := { s.vl with shareZeroAt := none, shareZeroOut := false } }) ∧
    (s.cc.state = .on → s.cc.stopPending = true → s.cc.setpoint = 0 →
      s.vl.session ≠ .engaging → s.vl.session ≠ .exporting → s.vl.session ≠ .releasing →
      s.stopTest = { s with cc := converterOff s.cc }) ∧
    (s.cc.state ≠ .on ∨ s.cc.stopPending = false ∨ 0 < s.cc.setpoint ∨
      s.vl.session = .engaging ∨ s.vl.session = .exporting ∨ s.vl.session = .releasing →
      s.stopTest = s) ∧
    (s.vl.session = .exporting → s.cc.setpoint = 0 →
      (s.vl.shareZeroOut = true ∨ s.cc.stopPending = true ∨ s.cc.state ≠ .on ∨
        s.vl.stopLatch = true) →
      s.releaseTest = { s with vl := { s.vl with
        session := .releasing, due := { s.vl.due with release := true } } }) ∧
    (s.vl.session ≠ .exporting ∨ 0 < s.cc.setpoint ∨ (s.vl.shareZeroOut = false ∧
      s.cc.stopPending = false ∧ s.cc.state = .on ∧ s.vl.stopLatch = false) →
      s.releaseTest = s) ∧
    (s.startRequest = true ↔
      s.sp.mode = .active ∧ (s.vl.session = .ready ∨ s.vl.session = .exporting) ∧
      (∀ g, g ≠ .converterDown → s.gateHolds g = false) ∧ s.sp.restarting = none ∧
      (s.call ≠ none ∨ ∃ r, nearestPending s.ct.records = some r ∧
        r.lead ≤ s.sp.config.precharge + 5)) ∧
    (s.startRequest = true → s.cc.state = .off → s.cc.fault = false →
      s.startTest = { s with cc := { s.cc with
        startHeld := true
        state := .precharging
        prechargeAt := some (s.now + 1000 * s.sp.config.precharge)
        lingerAt := none
        stopPending := false } }) ∧
    (s.startRequest = true → s.cc.state = .off → s.cc.fault = true →
      s.startTest = { s with
        cc := { converterFailed s.cc s.now with startHeld := true }
        sp := { s.sp with
          events := if s.cc.failures < 2 then s.sp.events.raise .convTrip
            else (s.sp.events.raise .convTrip).raise .convFault } }) ∧
    (s.startRequest = true → s.cc.state = .precharging ∨ s.cc.state = .on →
      s.startTest = { s with cc := { s.cc with
        startHeld := true
        lingerAt := none
        stopPending := s.cc.stopPending &&
          !(decide (s.cc.state = .on) && !s.cc.startHeld) } }) ∧
    (s.startRequest = false → s.cc.state = .precharging ∨ s.cc.state = .on →
      s.startTest = { s with cc := { s.cc with
        startHeld := false
        lingerAt := if s.cc.startHeld then some (s.now + 30000) else s.cc.lingerAt } }) ∧
    (s.cc.state = .retryWait ∨ s.cc.state = .convFault ∨
        (s.cc.state = .off ∧ s.startRequest = false) →
      s.startTest = { s with cc := { s.cc with startHeld := s.startRequest } }) ∧
    (s.vl.session = .ready → s.cc.state = .on → 0 < s.share → s.cc.stopPending = false →
      s.vl.engageHoldAt = none → s.vl.engageInFlight = false →
      s.engageTest = { s with vl := { s.vl with due := { s.vl.due with engage := true } } }) ∧
    (s.vl.session ≠ .ready ∨ s.cc.state ≠ .on ∨ s.share = 0 ∨ s.cc.stopPending = true ∨
        s.vl.engageHoldAt ≠ none ∨ s.vl.engageInFlight = true →
      s.engageTest = { s with vl := { s.vl with due := { s.vl.due with engage := false } } }) ∧
    (agreed → s.vl.allowance < s.vl.desired → s.vl.retuneAt = none →
      s.retuneTest = { s with vl := { s.vl with retuneAt := some (s.now + 60000) } }) ∧
    (agreed → s.vl.allowance < s.vl.desired → s.vl.retuneAt ≠ none → s.retuneTest = s) ∧
    (¬agreed ∨ s.vl.desired ≤ s.vl.allowance →
      s.retuneTest = { s with vl := { s.vl with retuneAt := none } }) ∧
    (s.sp.mode = .parking → s.cc.setpoint = 0 → s.enablePin = false → ¬holdsPark →
      s.sp.restarting = none → s.parkTest = s.setMode (if s.vl.plug then .hold else .dormant)) ∧
    (s.sp.mode ≠ .parking ∨ 0 < s.cc.setpoint ∨ s.enablePin = true ∨ holdsPark ∨
      s.sp.restarting ≠ none → s.parkTest = s) ∧
    (s.vl.plug = true → s.vl.session = .absent → s.sp.mode ≠ .config → s.sp.mode ≠ .dormant →
      s.meetPlug = { s with
        vl := { s.vl with session := .attached, wakeAt := some (s.now + 200) }
        sp := { s.sp with events := s.sp.events.raise .vehicleAttached } }) ∧
    (s.vl.plug = true → s.sp.mode = .dormant → s.sp.restarting = none →
      s.plugWake = s.setMode .active) ∧
    (s.vl.plug = false ∨ s.sp.mode ≠ .dormant ∨ s.sp.restarting ≠ none → s.plugWake = s) ∧
    (s.vl.plug = false ∨ s.vl.session ≠ .absent ∨ s.sp.mode = .config ∨ s.sp.mode = .dormant →
      s.meetPlug = s)) ∧
  (∀ s : State, s.sp.mode ≠ .config → Settled s.finish ∧ Reacted s s.finish) ∧
  (∀ s : State, s.sp.mode = .config → s.finish = s)

/-- In a state in which no reaction is open nothing follows at once, so that a command's own effect stands alone (the
model's choice of what follows and in which order is log 10 and log 11). And no step of a joined part leaves a reaction
open, or a waiting frame beside an idle line: from a state in which none is, and which has the invariants of the mode,
the session, the account and the call table, every step leads to such a state again. -/
def Obligations.NothingFollowsAQuietState : Prop :=
  (∀ s : State,
    (s.powerPath = true ∨ s.cc.setpoint = 0) →
    (s.ea.side = .noRecord ∨ s.ea.side = noticeSideOf s.energy s.sp.config.energyNotice) →
    s.gateView = s.ea.gates →
    (s.vl.session = .exporting ∧ s.share = 0 ↔
      s.vl.shareZeroAt.isSome = true ∨ s.vl.shareZeroOut = true) →
    s.stopReady = false → s.releaseWanted = false →
    s.startRequest = s.cc.startHeld →
    (s.startRequest = true → s.cc.state ≠ .off ∧
      (s.cc.state.enabled = true → s.cc.lingerAt = none)) →
    s.vl.due.engage = (s.engageWanted && !s.vl.engageInFlight) →
    (s.vl.retuneAt.isSome = true ↔
      s.vl.session.retunable = true ∧ s.vl.allowance < s.vl.desired) →
    s.parkReady = false → ¬(s.sp.mode = .dormant ∧ s.vl.plug = true ∧ s.sp.restarting = none) →
    (s.vl.plug = true → s.linkRuns = true → s.vl.session ≠ .absent) →
    (s.lp.inFlight ≠ none ∨ s.lp.queue = [] ∨ s.lp.lineIdle = false ∨ s.sp.mode = .lockout) →
    s.finish = s) ∧
  (∀ s t : State, ModeControl s → Session s ∧ ItemsInRange s ∧ Account s → CallTable s →
    (s.sp.mode ≠ .config → Settled s) → step s = .next t → t.sp.mode ≠ .config → Settled t)

/-- Raising a kind counts it, up to 255, and touches no other kind (R181); INT_N is low exactly while a kind that
EVENT_MASK enables is present (R182); ENABLE is high exactly in PRECHARGING and ON, and SETPT carries the setpoint
(R118); IND_A and IND_B show the signals that their keys select (R183). -/
def Obligations.EventsCountAndPinsFollow : Prop :=
  (∀ (e : EventSet) (k : EventKind), e.count k ≤ 255 →
    (e.raise k).count k = min 255 (e.count k + 1) ∧
    ∀ j, j ≠ k → (e.raise k).count j = e.count j) ∧
  (∀ s : State,
    (s.intNPin = false ↔ ∃ k : EventKind, s.sp.config.eventMask.getLsbD k.code.val = true ∧
      0 < s.sp.events.count k) ∧
    (s.enablePin = true ↔ s.cc.state = .precharging ∨ s.cc.state = .on) ∧
    s.setptPin = s.cc.setpoint ∧
    s.indAPin = s.signal s.sp.config.indA ∧ s.indBPin = s.signal s.sp.config.indB ∧
    (s.signal .serving = true ↔ 0 < s.offer) ∧
    (s.signal .exporting = true ↔ s.vl.session = .exporting) ∧
    s.signal .isolated = s.pv.isolated ∧
    (s.signal .callActive = true ↔ ∃ r ∈ s.ct.records, r.state = .active ∨ r.state = .ending) ∧
    (s.signal .curbInForce = true ↔ s.cu.curb ≠ none) ∧
    (s.signal .vehicleReady = true ↔ s.vl.session = .ready ∨ s.vl.session = .engaging ∨
      s.vl.session = .exporting ∨ s.vl.session = .releasing) ∧
    (s.signal .lockout = true ↔ s.sp.mode = .lockout) ∧ s.signal .off = false)

/-! ### What every step keeps -/

/-- Every step keeps, with the mode and the lock consistent (R168, R170), the peer table strictly ascending within the
roster and the ranges of the announced values (R1, R18), and the isolation flags, causes and rejoin hold consistent
(R12); and, with waiting commands that their ports can carry, the announced modes, the sequences and the served call ids
within their ranges (R1). -/
def Obligations.StepKeepsThePeerView : Prop :=
  (∀ s t : State, ModeControl s ∧ PeerTable s → step s = .next t →
    ModeControl t ∧ PeerTable t) ∧
  (∀ s t : State, Isolation s → step s = .next t → Isolation t) ∧
  (∀ s t : State, Carried s → PeerFields s → step s = .next t → Carried t ∧ PeerFields t)

/-- Every step keeps the transmit queue at eight frames in class order with one STANDING at most and an attempt
within eight (R22, R30), the Line Port with nothing to send in CONFIG and LOCKOUT (R35, R37), and the line statistics
and the echo-failure count within their limits (R31, R38). -/
def Obligations.StepKeepsTheTransmitQueue : Prop :=
  (∀ s t : State, TransmitQueue s → step s = .next t → TransmitQueue t) ∧
  (∀ s t : State, LineSilent s → step s = .next t → LineSilent t) ∧
  (∀ s t : State, LineCounts s → step s = .next t → LineCounts t)

/-- Every step keeps the call table: at most four records, ascending by id, each within the ranges of its times and
powers, and at most one in force (R40, R48); with waiting commands that their ports can carry and the own stall in
the roster (R170), the ranges of the ids, revisions, origin stalls and accumulators (R40, R57); with the table, that
a record is deferred only while another holds the active slot (R48, R49); and the repeat list at the copies of eight
commands (R54). -/
def Obligations.StepKeepsTheCallTable : Prop :=
  (∀ s t : State, CallTable s → step s = .next t → CallTable t) ∧
  (∀ s t : State, Carried s → ModeControl s → StallJoined s → CallFields s → step s = .next t →
    Carried t ∧ StallJoined t ∧ CallFields t) ∧
  (∀ s t : State, CallTable s ∧ DeferredWaits s → step s = .next t → DeferredWaits t) ∧
  (∀ s t : State, RepeatList s → step s = .next t → RepeatList t)

/-- Every step keeps the setpoint within CONV_RATING and at 0 unless the converter is ON and the session EXPORTING,
and the converter enabled only in ACTIVE and PARKING with no restart waiting (R128, R133, R134), given that the mode is
consistent with the lock and the restart, and the converter's timers and marks with its state (R118 to R126), which
every step keeps too. -/
def Obligations.StepKeepsTheSetpointBounded : Prop :=
  (∀ s t : State, ModeControl s ∧ ConverterTimers s ∧ Setpoint s → step s = .next t →
    ModeControl t ∧ ConverterTimers t ∧ Setpoint t) ∧
  (∀ s t : State, ConverterTimers s → step s = .next t → ConverterTimers t)

/-- Every step keeps the session consistent with the plug, the mode, the requests, the allowance, the timers and the
tuning phase, an ENGAGE in flight in ENGAGING or RELEASING alone (R136, R138, R146, R149, R150, R152, R158, R173), the
items read at an identify within their ranges (R142, R185), and the Energy Account with them: the estimate within what
the bus last reported, that within the capacity, the residue below one unit, and nothing but zeros without a record (R62
to R67, R76). -/
def Obligations.StepKeepsTheSessionAndTheAccount : Prop :=
  ∀ s t : State, ModeControl s → Session s ∧ ItemsInRange s ∧ Account s → step s = .next t →
    Session t ∧ ItemsInRange t ∧ Account t

/-- Every step keeps the mode consistent with the lock, the pending key and a restart's wait, and the configuration
in its ranges (R168, R169, R170, R177); it keeps every occurrence count within 255 (R181); and once the part is
locked no key changes until a hardware reset (R170). -/
def Obligations.StepKeepsModeAndConfiguration : Prop :=
  (∀ s t : State, ModeControl s → step s = .next t → ModeControl t) ∧
  (∀ s t : State, EventCounts s → step s = .next t → EventCounts t) ∧
  (∀ s t : State, s.sp.locked = true → step s = .next t →
    (∀ straps rest, s.pending ≠ .hardwareReset straps :: rest) →
    t.sp.locked = true ∧ t.sp.config = s.sp.config ∧ t.lp.stall = s.lp.stall)

/-- The state after hardware reset has what every step keeps, with the straps at 1 (log 5). -/
def Obligations.ResetHasWhatStepsKeep : Prop :=
  PeerTable State.reset ∧ Isolation State.reset ∧ TransmitQueue State.reset ∧
  LineSilent State.reset ∧ LineCounts State.reset ∧ CallTable State.reset ∧
  PeerFields State.reset ∧ CallFields State.reset ∧ StallJoined State.reset ∧ Carried State.reset ∧
  DeferredWaits State.reset ∧ RepeatList State.reset ∧ Setpoint State.reset ∧
  ConverterTimers State.reset ∧ Session State.reset ∧ ItemsInRange State.reset ∧
  Account State.reset ∧ TotalMeter State.reset ∧
  ModeControl State.reset ∧ EventCounts State.reset

/-! ### Frames -/

/-- Every received depot-line command is read back from its frame (section 11.1): for each well-formed STANDING,
DISPATCH, CURB and LEAVE of another stall, reading the bytes that carry it gives it again; a frame of the own stall
is a duplicate stall whatever its kind (R34); and the replies of the pilot link are read back too (section 11.2). -/
def Obligations.FramesAreReadBack : Prop :=
  (∀ (own stall seq : Nat) (i : Instr) (bytes : List Byte), i.WellFormed →
    ((∃ f, i = .standing stall seq f) ∨ (∃ f, i = .dispatch stall seq f) ∨
      (∃ f, i = .curb stall seq f) ∨ (∃ reason, i = .leave stall seq reason)) →
    lineBytes i = some bytes →
    (stall ≠ own → lineCommand own bytes = i) ∧
    (stall = own → ∃ kind, lineCommand own bytes = .duplicateStall kind)) ∧
  (∀ (i : Instr) (bytes : List Byte), i.WellFormed → replyBytes i = some bytes →
    pilotCommand bytes = i)
end

