-- ==== Sys2Proof/Laws/State.lean ====
section
/-!
SUPPORT. What each replacement of one block leaves in each field of the state: one lemma per field per
replacement, true by rfl, so that no later proof unfolds a record update.
-/

namespace Sys2Proof.Machine

/-! ### setNow -/

@[simp] theorem State.setNow_now (s : State) (x : Nat) : (s.setNow x).now = x := rfl
@[simp] theorem State.setNow_draws (s : State) (x : Nat) : (s.setNow x).draws = s.draws := rfl
@[simp] theorem State.setNow_lp (s : State) (x : Nat) : (s.setNow x).lp = s.lp := rfl
@[simp] theorem State.setNow_pv (s : State) (x : Nat) : (s.setNow x).pv = s.pv := rfl
@[simp] theorem State.setNow_ct (s : State) (x : Nat) : (s.setNow x).ct = s.ct := rfl
@[simp] theorem State.setNow_ea (s : State) (x : Nat) : (s.setNow x).ea = s.ea := rfl
@[simp] theorem State.setNow_mt (s : State) (x : Nat) : (s.setNow x).mt = s.mt := rfl
@[simp] theorem State.setNow_ap (s : State) (x : Nat) : (s.setNow x).ap = s.ap := rfl
@[simp] theorem State.setNow_cu (s : State) (x : Nat) : (s.setNow x).cu = s.cu := rfl
@[simp] theorem State.setNow_cc (s : State) (x : Nat) : (s.setNow x).cc = s.cc := rfl
@[simp] theorem State.setNow_vl (s : State) (x : Nat) : (s.setNow x).vl = s.vl := rfl
@[simp] theorem State.setNow_sp (s : State) (x : Nat) : (s.setNow x).sp = s.sp := rfl
@[simp] theorem State.setNow_pending (s : State) (x : Nat) : (s.setNow x).pending = s.pending := rfl
@[simp] theorem State.setNow_inputs (s : State) (x : Nat) : (s.setNow x).inputs = s.inputs := rfl

/-! ### setDraws -/

@[simp] theorem State.setDraws_now (s : State) (x : Nat) : (s.setDraws x).now = s.now := rfl
@[simp] theorem State.setDraws_draws (s : State) (x : Nat) : (s.setDraws x).draws = x := rfl
@[simp] theorem State.setDraws_lp (s : State) (x : Nat) : (s.setDraws x).lp = s.lp := rfl
@[simp] theorem State.setDraws_pv (s : State) (x : Nat) : (s.setDraws x).pv = s.pv := rfl
@[simp] theorem State.setDraws_ct (s : State) (x : Nat) : (s.setDraws x).ct = s.ct := rfl
@[simp] theorem State.setDraws_ea (s : State) (x : Nat) : (s.setDraws x).ea = s.ea := rfl
@[simp] theorem State.setDraws_mt (s : State) (x : Nat) : (s.setDraws x).mt = s.mt := rfl
@[simp] theorem State.setDraws_ap (s : State) (x : Nat) : (s.setDraws x).ap = s.ap := rfl
@[simp] theorem State.setDraws_cu (s : State) (x : Nat) : (s.setDraws x).cu = s.cu := rfl
@[simp] theorem State.setDraws_cc (s : State) (x : Nat) : (s.setDraws x).cc = s.cc := rfl
@[simp] theorem State.setDraws_vl (s : State) (x : Nat) : (s.setDraws x).vl = s.vl := rfl
@[simp] theorem State.setDraws_sp (s : State) (x : Nat) : (s.setDraws x).sp = s.sp := rfl
@[simp] theorem State.setDraws_pending (s : State) (x : Nat) : (s.setDraws x).pending = s.pending := rfl
@[simp] theorem State.setDraws_inputs (s : State) (x : Nat) : (s.setDraws x).inputs = s.inputs := rfl

/-! ### setLp -/

@[simp] theorem State.setLp_now (s : State) (x : LinePort) : (s.setLp x).now = s.now := rfl
@[simp] theorem State.setLp_draws (s : State) (x : LinePort) : (s.setLp x).draws = s.draws := rfl
@[simp] theorem State.setLp_lp (s : State) (x : LinePort) : (s.setLp x).lp = x := rfl
@[simp] theorem State.setLp_pv (s : State) (x : LinePort) : (s.setLp x).pv = s.pv := rfl
@[simp] theorem State.setLp_ct (s : State) (x : LinePort) : (s.setLp x).ct = s.ct := rfl
@[simp] theorem State.setLp_ea (s : State) (x : LinePort) : (s.setLp x).ea = s.ea := rfl
@[simp] theorem State.setLp_mt (s : State) (x : LinePort) : (s.setLp x).mt = s.mt := rfl
@[simp] theorem State.setLp_ap (s : State) (x : LinePort) : (s.setLp x).ap = s.ap := rfl
@[simp] theorem State.setLp_cu (s : State) (x : LinePort) : (s.setLp x).cu = s.cu := rfl
@[simp] theorem State.setLp_cc (s : State) (x : LinePort) : (s.setLp x).cc = s.cc := rfl
@[simp] theorem State.setLp_vl (s : State) (x : LinePort) : (s.setLp x).vl = s.vl := rfl
@[simp] theorem State.setLp_sp (s : State) (x : LinePort) : (s.setLp x).sp = s.sp := rfl
@[simp] theorem State.setLp_pending (s : State) (x : LinePort) : (s.setLp x).pending = s.pending := rfl
@[simp] theorem State.setLp_inputs (s : State) (x : LinePort) : (s.setLp x).inputs = s.inputs := rfl

/-! ### setPv -/

@[simp] theorem State.setPv_now (s : State) (x : PeerView) : (s.setPv x).now = s.now := rfl
@[simp] theorem State.setPv_draws (s : State) (x : PeerView) : (s.setPv x).draws = s.draws := rfl
@[simp] theorem State.setPv_lp (s : State) (x : PeerView) : (s.setPv x).lp = s.lp := rfl
@[simp] theorem State.setPv_pv (s : State) (x : PeerView) : (s.setPv x).pv = x := rfl
@[simp] theorem State.setPv_ct (s : State) (x : PeerView) : (s.setPv x).ct = s.ct := rfl
@[simp] theorem State.setPv_ea (s : State) (x : PeerView) : (s.setPv x).ea = s.ea := rfl
@[simp] theorem State.setPv_mt (s : State) (x : PeerView) : (s.setPv x).mt = s.mt := rfl
@[simp] theorem State.setPv_ap (s : State) (x : PeerView) : (s.setPv x).ap = s.ap := rfl
@[simp] theorem State.setPv_cu (s : State) (x : PeerView) : (s.setPv x).cu = s.cu := rfl
@[simp] theorem State.setPv_cc (s : State) (x : PeerView) : (s.setPv x).cc = s.cc := rfl
@[simp] theorem State.setPv_vl (s : State) (x : PeerView) : (s.setPv x).vl = s.vl := rfl
@[simp] theorem State.setPv_sp (s : State) (x : PeerView) : (s.setPv x).sp = s.sp := rfl
@[simp] theorem State.setPv_pending (s : State) (x : PeerView) : (s.setPv x).pending = s.pending := rfl
@[simp] theorem State.setPv_inputs (s : State) (x : PeerView) : (s.setPv x).inputs = s.inputs := rfl

/-! ### setCt -/

@[simp] theorem State.setCt_now (s : State) (x : CallUnit) : (s.setCt x).now = s.now := rfl
@[simp] theorem State.setCt_draws (s : State) (x : CallUnit) : (s.setCt x).draws = s.draws := rfl
@[simp] theorem State.setCt_lp (s : State) (x : CallUnit) : (s.setCt x).lp = s.lp := rfl
@[simp] theorem State.setCt_pv (s : State) (x : CallUnit) : (s.setCt x).pv = s.pv := rfl
@[simp] theorem State.setCt_ct (s : State) (x : CallUnit) : (s.setCt x).ct = x := rfl
@[simp] theorem State.setCt_ea (s : State) (x : CallUnit) : (s.setCt x).ea = s.ea := rfl
@[simp] theorem State.setCt_mt (s : State) (x : CallUnit) : (s.setCt x).mt = s.mt := rfl
@[simp] theorem State.setCt_ap (s : State) (x : CallUnit) : (s.setCt x).ap = s.ap := rfl
@[simp] theorem State.setCt_cu (s : State) (x : CallUnit) : (s.setCt x).cu = s.cu := rfl
@[simp] theorem State.setCt_cc (s : State) (x : CallUnit) : (s.setCt x).cc = s.cc := rfl
@[simp] theorem State.setCt_vl (s : State) (x : CallUnit) : (s.setCt x).vl = s.vl := rfl
@[simp] theorem State.setCt_sp (s : State) (x : CallUnit) : (s.setCt x).sp = s.sp := rfl
@[simp] theorem State.setCt_pending (s : State) (x : CallUnit) : (s.setCt x).pending = s.pending := rfl
@[simp] theorem State.setCt_inputs (s : State) (x : CallUnit) : (s.setCt x).inputs = s.inputs := rfl

/-! ### setEa -/

@[simp] theorem State.setEa_now (s : State) (x : EnergyAccount) : (s.setEa x).now = s.now := rfl
@[simp] theorem State.setEa_draws (s : State) (x : EnergyAccount) : (s.setEa x).draws = s.draws := rfl
@[simp] theorem State.setEa_lp (s : State) (x : EnergyAccount) : (s.setEa x).lp = s.lp := rfl
@[simp] theorem State.setEa_pv (s : State) (x : EnergyAccount) : (s.setEa x).pv = s.pv := rfl
@[simp] theorem State.setEa_ct (s : State) (x : EnergyAccount) : (s.setEa x).ct = s.ct := rfl
@[simp] theorem State.setEa_ea (s : State) (x : EnergyAccount) : (s.setEa x).ea = x := rfl
@[simp] theorem State.setEa_mt (s : State) (x : EnergyAccount) : (s.setEa x).mt = s.mt := rfl
@[simp] theorem State.setEa_ap (s : State) (x : EnergyAccount) : (s.setEa x).ap = s.ap := rfl
@[simp] theorem State.setEa_cu (s : State) (x : EnergyAccount) : (s.setEa x).cu = s.cu := rfl
@[simp] theorem State.setEa_cc (s : State) (x : EnergyAccount) : (s.setEa x).cc = s.cc := rfl
@[simp] theorem State.setEa_vl (s : State) (x : EnergyAccount) : (s.setEa x).vl = s.vl := rfl
@[simp] theorem State.setEa_sp (s : State) (x : EnergyAccount) : (s.setEa x).sp = s.sp := rfl
@[simp] theorem State.setEa_pending (s : State) (x : EnergyAccount) : (s.setEa x).pending = s.pending := rfl
@[simp] theorem State.setEa_inputs (s : State) (x : EnergyAccount) : (s.setEa x).inputs = s.inputs := rfl

/-! ### setMt -/

@[simp] theorem State.setMt_now (s : State) (x : Meter) : (s.setMt x).now = s.now := rfl
@[simp] theorem State.setMt_draws (s : State) (x : Meter) : (s.setMt x).draws = s.draws := rfl
@[simp] theorem State.setMt_lp (s : State) (x : Meter) : (s.setMt x).lp = s.lp := rfl
@[simp] theorem State.setMt_pv (s : State) (x : Meter) : (s.setMt x).pv = s.pv := rfl
@[simp] theorem State.setMt_ct (s : State) (x : Meter) : (s.setMt x).ct = s.ct := rfl
@[simp] theorem State.setMt_ea (s : State) (x : Meter) : (s.setMt x).ea = s.ea := rfl
@[simp] theorem State.setMt_mt (s : State) (x : Meter) : (s.setMt x).mt = x := rfl
@[simp] theorem State.setMt_ap (s : State) (x : Meter) : (s.setMt x).ap = s.ap := rfl
@[simp] theorem State.setMt_cu (s : State) (x : Meter) : (s.setMt x).cu = s.cu := rfl
@[simp] theorem State.setMt_cc (s : State) (x : Meter) : (s.setMt x).cc = s.cc := rfl
@[simp] theorem State.setMt_vl (s : State) (x : Meter) : (s.setMt x).vl = s.vl := rfl
@[simp] theorem State.setMt_sp (s : State) (x : Meter) : (s.setMt x).sp = s.sp := rfl
@[simp] theorem State.setMt_pending (s : State) (x : Meter) : (s.setMt x).pending = s.pending := rfl
@[simp] theorem State.setMt_inputs (s : State) (x : Meter) : (s.setMt x).inputs = s.inputs := rfl

/-! ### setAp -/

@[simp] theorem State.setAp_now (s : State) (x : Apportioner) : (s.setAp x).now = s.now := rfl
@[simp] theorem State.setAp_draws (s : State) (x : Apportioner) : (s.setAp x).draws = s.draws := rfl
@[simp] theorem State.setAp_lp (s : State) (x : Apportioner) : (s.setAp x).lp = s.lp := rfl
@[simp] theorem State.setAp_pv (s : State) (x : Apportioner) : (s.setAp x).pv = s.pv := rfl
@[simp] theorem State.setAp_ct (s : State) (x : Apportioner) : (s.setAp x).ct = s.ct := rfl
@[simp] theorem State.setAp_ea (s : State) (x : Apportioner) : (s.setAp x).ea = s.ea := rfl
@[simp] theorem State.setAp_mt (s : State) (x : Apportioner) : (s.setAp x).mt = s.mt := rfl
@[simp] theorem State.setAp_ap (s : State) (x : Apportioner) : (s.setAp x).ap = x := rfl
@[simp] theorem State.setAp_cu (s : State) (x : Apportioner) : (s.setAp x).cu = s.cu := rfl
@[simp] theorem State.setAp_cc (s : State) (x : Apportioner) : (s.setAp x).cc = s.cc := rfl
@[simp] theorem State.setAp_vl (s : State) (x : Apportioner) : (s.setAp x).vl = s.vl := rfl
@[simp] theorem State.setAp_sp (s : State) (x : Apportioner) : (s.setAp x).sp = s.sp := rfl
@[simp] theorem State.setAp_pending (s : State) (x : Apportioner) : (s.setAp x).pending = s.pending := rfl
@[simp] theorem State.setAp_inputs (s : State) (x : Apportioner) : (s.setAp x).inputs = s.inputs := rfl

/-! ### setCu -/

@[simp] theorem State.setCu_now (s : State) (x : CurbUnit) : (s.setCu x).now = s.now := rfl
@[simp] theorem State.setCu_draws (s : State) (x : CurbUnit) : (s.setCu x).draws = s.draws := rfl
@[simp] theorem State.setCu_lp (s : State) (x : CurbUnit) : (s.setCu x).lp = s.lp := rfl
@[simp] theorem State.setCu_pv (s : State) (x : CurbUnit) : (s.setCu x).pv = s.pv := rfl
@[simp] theorem State.setCu_ct (s : State) (x : CurbUnit) : (s.setCu x).ct = s.ct := rfl
@[simp] theorem State.setCu_ea (s : State) (x : CurbUnit) : (s.setCu x).ea = s.ea := rfl
@[simp] theorem State.setCu_mt (s : State) (x : CurbUnit) : (s.setCu x).mt = s.mt := rfl
@[simp] theorem State.setCu_ap (s : State) (x : CurbUnit) : (s.setCu x).ap = s.ap := rfl
@[simp] theorem State.setCu_cu (s : State) (x : CurbUnit) : (s.setCu x).cu = x := rfl
@[simp] theorem State.setCu_cc (s : State) (x : CurbUnit) : (s.setCu x).cc = s.cc := rfl
@[simp] theorem State.setCu_vl (s : State) (x : CurbUnit) : (s.setCu x).vl = s.vl := rfl
@[simp] theorem State.setCu_sp (s : State) (x : CurbUnit) : (s.setCu x).sp = s.sp := rfl
@[simp] theorem State.setCu_pending (s : State) (x : CurbUnit) : (s.setCu x).pending = s.pending := rfl
@[simp] theorem State.setCu_inputs (s : State) (x : CurbUnit) : (s.setCu x).inputs = s.inputs := rfl

/-! ### setCc -/

@[simp] theorem State.setCc_now (s : State) (x : Converter) : (s.setCc x).now = s.now := rfl
@[simp] theorem State.setCc_draws (s : State) (x : Converter) : (s.setCc x).draws = s.draws := rfl
@[simp] theorem State.setCc_lp (s : State) (x : Converter) : (s.setCc x).lp = s.lp := rfl
@[simp] theorem State.setCc_pv (s : State) (x : Converter) : (s.setCc x).pv = s.pv := rfl
@[simp] theorem State.setCc_ct (s : State) (x : Converter) : (s.setCc x).ct = s.ct := rfl
@[simp] theorem State.setCc_ea (s : State) (x : Converter) : (s.setCc x).ea = s.ea := rfl
@[simp] theorem State.setCc_mt (s : State) (x : Converter) : (s.setCc x).mt = s.mt := rfl
@[simp] theorem State.setCc_ap (s : State) (x : Converter) : (s.setCc x).ap = s.ap := rfl
@[simp] theorem State.setCc_cu (s : State) (x : Converter) : (s.setCc x).cu = s.cu := rfl
@[simp] theorem State.setCc_cc (s : State) (x : Converter) : (s.setCc x).cc = x := rfl
@[simp] theorem State.setCc_vl (s : State) (x : Converter) : (s.setCc x).vl = s.vl := rfl
@[simp] theorem State.setCc_sp (s : State) (x : Converter) : (s.setCc x).sp = s.sp := rfl
@[simp] theorem State.setCc_pending (s : State) (x : Converter) : (s.setCc x).pending = s.pending := rfl
@[simp] theorem State.setCc_inputs (s : State) (x : Converter) : (s.setCc x).inputs = s.inputs := rfl

/-! ### setVl -/

@[simp] theorem State.setVl_now (s : State) (x : VehicleLink) : (s.setVl x).now = s.now := rfl
@[simp] theorem State.setVl_draws (s : State) (x : VehicleLink) : (s.setVl x).draws = s.draws := rfl
@[simp] theorem State.setVl_lp (s : State) (x : VehicleLink) : (s.setVl x).lp = s.lp := rfl
@[simp] theorem State.setVl_pv (s : State) (x : VehicleLink) : (s.setVl x).pv = s.pv := rfl
@[simp] theorem State.setVl_ct (s : State) (x : VehicleLink) : (s.setVl x).ct = s.ct := rfl
@[simp] theorem State.setVl_ea (s : State) (x : VehicleLink) : (s.setVl x).ea = s.ea := rfl
@[simp] theorem State.setVl_mt (s : State) (x : VehicleLink) : (s.setVl x).mt = s.mt := rfl
@[simp] theorem State.setVl_ap (s : State) (x : VehicleLink) : (s.setVl x).ap = s.ap := rfl
@[simp] theorem State.setVl_cu (s : State) (x : VehicleLink) : (s.setVl x).cu = s.cu := rfl
@[simp] theorem State.setVl_cc (s : State) (x : VehicleLink) : (s.setVl x).cc = s.cc := rfl
@[simp] theorem State.setVl_vl (s : State) (x : VehicleLink) : (s.setVl x).vl = x := rfl
@[simp] theorem State.setVl_sp (s : State) (x : VehicleLink) : (s.setVl x).sp = s.sp := rfl
@[simp] theorem State.setVl_pending (s : State) (x : VehicleLink) : (s.setVl x).pending = s.pending := rfl
@[simp] theorem State.setVl_inputs (s : State) (x : VehicleLink) : (s.setVl x).inputs = s.inputs := rfl

/-! ### setSp -/

@[simp] theorem State.setSp_now (s : State) (x : Supervisor) : (s.setSp x).now = s.now := rfl
@[simp] theorem State.setSp_draws (s : State) (x : Supervisor) : (s.setSp x).draws = s.draws := rfl
@[simp] theorem State.setSp_lp (s : State) (x : Supervisor) : (s.setSp x).lp = s.lp := rfl
@[simp] theorem State.setSp_pv (s : State) (x : Supervisor) : (s.setSp x).pv = s.pv := rfl
@[simp] theorem State.setSp_ct (s : State) (x : Supervisor) : (s.setSp x).ct = s.ct := rfl
@[simp] theorem State.setSp_ea (s : State) (x : Supervisor) : (s.setSp x).ea = s.ea := rfl
@[simp] theorem State.setSp_mt (s : State) (x : Supervisor) : (s.setSp x).mt = s.mt := rfl
@[simp] theorem State.setSp_ap (s : State) (x : Supervisor) : (s.setSp x).ap = s.ap := rfl
@[simp] theorem State.setSp_cu (s : State) (x : Supervisor) : (s.setSp x).cu = s.cu := rfl
@[simp] theorem State.setSp_cc (s : State) (x : Supervisor) : (s.setSp x).cc = s.cc := rfl
@[simp] theorem State.setSp_vl (s : State) (x : Supervisor) : (s.setSp x).vl = s.vl := rfl
@[simp] theorem State.setSp_sp (s : State) (x : Supervisor) : (s.setSp x).sp = x := rfl
@[simp] theorem State.setSp_pending (s : State) (x : Supervisor) : (s.setSp x).pending = s.pending := rfl
@[simp] theorem State.setSp_inputs (s : State) (x : Supervisor) : (s.setSp x).inputs = s.inputs := rfl

/-! ### setPending -/

@[simp] theorem State.setPending_now (s : State) (x : List Instr) : (s.setPending x).now = s.now := rfl
@[simp] theorem State.setPending_draws (s : State) (x : List Instr) : (s.setPending x).draws = s.draws := rfl
@[simp] theorem State.setPending_lp (s : State) (x : List Instr) : (s.setPending x).lp = s.lp := rfl
@[simp] theorem State.setPending_pv (s : State) (x : List Instr) : (s.setPending x).pv = s.pv := rfl
@[simp] theorem State.setPending_ct (s : State) (x : List Instr) : (s.setPending x).ct = s.ct := rfl
@[simp] theorem State.setPending_ea (s : State) (x : List Instr) : (s.setPending x).ea = s.ea := rfl
@[simp] theorem State.setPending_mt (s : State) (x : List Instr) : (s.setPending x).mt = s.mt := rfl
@[simp] theorem State.setPending_ap (s : State) (x : List Instr) : (s.setPending x).ap = s.ap := rfl
@[simp] theorem State.setPending_cu (s : State) (x : List Instr) : (s.setPending x).cu = s.cu := rfl
@[simp] theorem State.setPending_cc (s : State) (x : List Instr) : (s.setPending x).cc = s.cc := rfl
@[simp] theorem State.setPending_vl (s : State) (x : List Instr) : (s.setPending x).vl = s.vl := rfl
@[simp] theorem State.setPending_sp (s : State) (x : List Instr) : (s.setPending x).sp = s.sp := rfl
@[simp] theorem State.setPending_pending (s : State) (x : List Instr) : (s.setPending x).pending = x := rfl
@[simp] theorem State.setPending_inputs (s : State) (x : List Instr) : (s.setPending x).inputs = s.inputs := rfl

/-! ### setInputs -/

@[simp] theorem State.setInputs_now (s : State) (x : List InputLevels) : (s.setInputs x).now = s.now := rfl
@[simp] theorem State.setInputs_draws (s : State) (x : List InputLevels) : (s.setInputs x).draws = s.draws := rfl
@[simp] theorem State.setInputs_lp (s : State) (x : List InputLevels) : (s.setInputs x).lp = s.lp := rfl
@[simp] theorem State.setInputs_pv (s : State) (x : List InputLevels) : (s.setInputs x).pv = s.pv := rfl
@[simp] theorem State.setInputs_ct (s : State) (x : List InputLevels) : (s.setInputs x).ct = s.ct := rfl
@[simp] theorem State.setInputs_ea (s : State) (x : List InputLevels) : (s.setInputs x).ea = s.ea := rfl
@[simp] theorem State.setInputs_mt (s : State) (x : List InputLevels) : (s.setInputs x).mt = s.mt := rfl
@[simp] theorem State.setInputs_ap (s : State) (x : List InputLevels) : (s.setInputs x).ap = s.ap := rfl
@[simp] theorem State.setInputs_cu (s : State) (x : List InputLevels) : (s.setInputs x).cu = s.cu := rfl
@[simp] theorem State.setInputs_cc (s : State) (x : List InputLevels) : (s.setInputs x).cc = s.cc := rfl
@[simp] theorem State.setInputs_vl (s : State) (x : List InputLevels) : (s.setInputs x).vl = s.vl := rfl
@[simp] theorem State.setInputs_sp (s : State) (x : List InputLevels) : (s.setInputs x).sp = s.sp := rfl
@[simp] theorem State.setInputs_pending (s : State) (x : List InputLevels) : (s.setInputs x).pending = s.pending := rfl
@[simp] theorem State.setInputs_inputs (s : State) (x : List InputLevels) : (s.setInputs x).inputs = x := rfl

end Sys2Proof.Machine
end

