-- ==== Sys2Proof/Laws/Ops.lean ====
section
/-!
SUPPORT. The shared operations of Machine/Ops.lean: what raising an event, letting time reach a moment, counting
a draw, answering the supervisor and changing the mode do, once and for all.
-/

namespace Sys2Proof.Machine

/-! ### Numbers -/

theorem satSucc_le (limit n : Nat) : satSucc limit n ≤ limit := by
  unfold satSucc; split <;> omega

theorem satSucc_eq (limit n : Nat) : satSucc limit n = min limit (n + 1) ∨ limit < n := by
  unfold satSucc; split <;> omega

theorem le_satSucc {limit n : Nat} (h : n ≤ limit) : n ≤ satSucc limit n := by
  unfold satSucc; split <;> omega

theorem clampNat_range (lo hi n : Nat) (h : lo ≤ hi) : lo ≤ clampNat lo hi n ∧ clampNat lo hi n ≤ hi := by
  unfold clampNat; split
  · omega
  · split <;> omega

theorem clampInt_range (lo hi n : Int) (h : lo ≤ hi) : lo ≤ clampInt lo hi n ∧ clampInt lo hi n ≤ hi := by
  unfold clampInt; split
  · omega
  · split <;> omega

theorem clampNat_of_range {lo hi n : Nat} (h : lo ≤ n ∧ n ≤ hi) : clampNat lo hi n = n := by
  unfold clampNat; split
  · omega
  · split <;> omega

theorem clampInt_of_range {lo hi n : Int} (h : lo ≤ n ∧ n ≤ hi) : clampInt lo hi n = n := by
  unfold clampInt; split
  · omega
  · split <;> omega

/-! ### The event set -/

theorem EventKind.code_injective {j k : EventKind} (h : j.code = k.code) : j = k := by
  cases j <;> cases k <;> first | rfl | (exact absurd h (by decide))

theorem EventSet.count_raise_self (e : EventSet) (k : EventKind) :
    (e.raise k).count k = satSucc 255 (e.count k) := by
  simp [EventSet.raise, EventSet.count]

theorem EventSet.count_raise_of_ne (e : EventSet) {j k : EventKind} (h : j ≠ k) :
    (e.raise k).count j = e.count j := by
  have : k.code ≠ j.code := fun c => h (EventKind.code_injective c.symm)
  have : (k.code : Nat) ≠ (j.code : Nat) := fun c => this (Fin.ext c)
  simp [EventSet.raise, EventSet.count, Vector.getElem_set_ne, this]

/-- Raising a kind never lowers a count that keeps to its limit (R181). -/
theorem EventSet.count_le_raise (e : EventSet) (j k : EventKind) (h : e.count j ≤ 255) :
    e.count j ≤ (e.raise k).count j := by
  by_cases hjk : j = k
  · subst hjk; rw [EventSet.count_raise_self]; exact le_satSucc h
  · exact Nat.le_of_eq (EventSet.count_raise_of_ne e hjk).symm

/-- Raising keeps every count within its limit (R181). -/
theorem EventSet.raise_bounded (e : EventSet) (k : EventKind) (h : ∀ n ∈ e.toList, n ≤ 255) :
    ∀ n ∈ (e.raise k).toList, n ≤ 255 := by
  intro n hn
  have hn' : n ∈ e.raise k := by simpa using hn
  unfold EventSet.raise at hn'
  rcases Vector.mem_or_eq_of_mem_set hn' with h1 | h1
  · exact h n (by simpa using h1)
  · subst h1
    exact satSucc_le _ _

/-- The set after a kind is raised a number of times. -/
def EventSet.raiseTimes (e : EventSet) (k : EventKind) : Nat → EventSet
  | 0 => e
  | n + 1 => (e.raiseTimes k n).raise k

theorem EventSet.count_raiseTimes (e : EventSet) (k : EventKind) (n : Nat) (h : e.count k ≤ 255) :
    (e.raiseTimes k n).count k = min 255 (e.count k + n) := by
  induction n with
  | zero => simp [EventSet.raiseTimes]; omega
  | succ n ih =>
    rw [EventSet.raiseTimes, EventSet.count_raise_self, ih]
    unfold satSucc; split <;> omega

theorem EventSet.count_raiseTimes_of_ne (e : EventSet) {j k : EventKind} (h : j ≠ k) (n : Nat) :
    (e.raiseTimes k n).count j = e.count j := by
  induction n with
  | zero => rfl
  | succ n ih => rw [EventSet.raiseTimes, EventSet.count_raise_of_ne _ h, ih]

theorem EventSet.raiseTimes_bounded (e : EventSet) (k : EventKind) (n : Nat)
    (h : ∀ m ∈ e.toList, m ≤ 255) : ∀ m ∈ (e.raiseTimes k n).toList, m ≤ 255 := by
  induction n with
  | zero => exact h
  | succ n ih => exact EventSet.raise_bounded _ k ih

/-! ### Raising in the state -/

theorem State.raise_eq (s : State) (k : EventKind) :
    s.raise k = s.setSp { s.sp with events := s.sp.events.raise k } := rfl

theorem State.raiseTimes_eq (s : State) (k : EventKind) (n : Nat) :
    s.raiseTimes k n = s.setSp { s.sp with events := s.sp.events.raiseTimes k n } := by
  induction n with
  | zero => rfl
  | succ n ih => rw [State.raiseTimes, ih]; rfl

theorem State.raiseIf_eq (s : State) (p : Bool) (k : EventKind) :
    s.raiseIf p k = s.setSp { s.sp with events := s.sp.events.raiseTimes k p.toNat } := by
  cases p <;> rfl

@[simp] theorem State.raise_now (s : State) (k : EventKind) : (s.raise k).now = s.now := rfl
@[simp] theorem State.raise_draws (s : State) (k : EventKind) : (s.raise k).draws = s.draws := rfl
@[simp] theorem State.raise_lp (s : State) (k : EventKind) : (s.raise k).lp = s.lp := rfl
@[simp] theorem State.raise_pv (s : State) (k : EventKind) : (s.raise k).pv = s.pv := rfl
@[simp] theorem State.raise_ct (s : State) (k : EventKind) : (s.raise k).ct = s.ct := rfl
@[simp] theorem State.raise_ea (s : State) (k : EventKind) : (s.raise k).ea = s.ea := rfl
@[simp] theorem State.raise_mt (s : State) (k : EventKind) : (s.raise k).mt = s.mt := rfl
@[simp] theorem State.raise_ap (s : State) (k : EventKind) : (s.raise k).ap = s.ap := rfl
@[simp] theorem State.raise_cu (s : State) (k : EventKind) : (s.raise k).cu = s.cu := rfl
@[simp] theorem State.raise_cc (s : State) (k : EventKind) : (s.raise k).cc = s.cc := rfl
@[simp] theorem State.raise_vl (s : State) (k : EventKind) : (s.raise k).vl = s.vl := rfl
@[simp] theorem State.raise_pending (s : State) (k : EventKind) : (s.raise k).pending = s.pending := rfl
@[simp] theorem State.raise_inputs (s : State) (k : EventKind) : (s.raise k).inputs = s.inputs := rfl
@[simp] theorem State.raise_sp_mode (s : State) (k : EventKind) :
    (s.raise k).sp.mode = s.sp.mode := rfl
@[simp] theorem State.raise_sp_config (s : State) (k : EventKind) :
    (s.raise k).sp.config = s.sp.config := rfl
@[simp] theorem State.raise_sp_clamped (s : State) (k : EventKind) :
    (s.raise k).sp.clamped = s.sp.clamped := rfl
@[simp] theorem State.raise_sp_pendingKey (s : State) (k : EventKind) :
    (s.raise k).sp.pendingKey = s.sp.pendingKey := rfl
@[simp] theorem State.raise_sp_locked (s : State) (k : EventKind) :
    (s.raise k).sp.locked = s.sp.locked := rfl
@[simp] theorem State.raise_sp_restarting (s : State) (k : EventKind) :
    (s.raise k).sp.restarting = s.sp.restarting := rfl
@[simp] theorem State.raise_sp_events (s : State) (k : EventKind) :
    (s.raise k).sp.events = s.sp.events.raise k := rfl
@[simp] theorem State.raise_sp_pointer (s : State) (k : EventKind) :
    (s.raise k).sp.pointer = s.sp.pointer := rfl
@[simp] theorem State.raise_sp_response (s : State) (k : EventKind) :
    (s.raise k).sp.response = s.sp.response := rfl

@[simp] theorem State.raiseTimes_now (s : State) (k : EventKind) (n : Nat) : (s.raiseTimes k n).now = s.now := by rw [State.raiseTimes_eq]; rfl
@[simp] theorem State.raiseTimes_draws (s : State) (k : EventKind) (n : Nat) : (s.raiseTimes k n).draws = s.draws := by rw [State.raiseTimes_eq]; rfl
@[simp] theorem State.raiseTimes_lp (s : State) (k : EventKind) (n : Nat) : (s.raiseTimes k n).lp = s.lp := by rw [State.raiseTimes_eq]; rfl
@[simp] theorem State.raiseTimes_pv (s : State) (k : EventKind) (n : Nat) : (s.raiseTimes k n).pv = s.pv := by rw [State.raiseTimes_eq]; rfl
@[simp] theorem State.raiseTimes_ct (s : State) (k : EventKind) (n : Nat) : (s.raiseTimes k n).ct = s.ct := by rw [State.raiseTimes_eq]; rfl
@[simp] theorem State.raiseTimes_ea (s : State) (k : EventKind) (n : Nat) : (s.raiseTimes k n).ea = s.ea := by rw [State.raiseTimes_eq]; rfl
@[simp] theorem State.raiseTimes_mt (s : State) (k : EventKind) (n : Nat) : (s.raiseTimes k n).mt = s.mt := by rw [State.raiseTimes_eq]; rfl
@[simp] theorem State.raiseTimes_ap (s : State) (k : EventKind) (n : Nat) : (s.raiseTimes k n).ap = s.ap := by rw [State.raiseTimes_eq]; rfl
@[simp] theorem State.raiseTimes_cu (s : State) (k : EventKind) (n : Nat) : (s.raiseTimes k n).cu = s.cu := by rw [State.raiseTimes_eq]; rfl
@[simp] theorem State.raiseTimes_cc (s : State) (k : EventKind) (n : Nat) : (s.raiseTimes k n).cc = s.cc := by rw [State.raiseTimes_eq]; rfl
@[simp] theorem State.raiseTimes_vl (s : State) (k : EventKind) (n : Nat) : (s.raiseTimes k n).vl = s.vl := by rw [State.raiseTimes_eq]; rfl
@[simp] theorem State.raiseTimes_pending (s : State) (k : EventKind) (n : Nat) : (s.raiseTimes k n).pending = s.pending := by rw [State.raiseTimes_eq]; rfl
@[simp] theorem State.raiseTimes_inputs (s : State) (k : EventKind) (n : Nat) : (s.raiseTimes k n).inputs = s.inputs := by rw [State.raiseTimes_eq]; rfl
@[simp] theorem State.raiseTimes_sp_mode (s : State) (k : EventKind) (n : Nat) :
    (s.raiseTimes k n).sp.mode = s.sp.mode := by rw [State.raiseTimes_eq]; rfl
@[simp] theorem State.raiseTimes_sp_config (s : State) (k : EventKind) (n : Nat) :
    (s.raiseTimes k n).sp.config = s.sp.config := by rw [State.raiseTimes_eq]; rfl
@[simp] theorem State.raiseTimes_sp_clamped (s : State) (k : EventKind) (n : Nat) :
    (s.raiseTimes k n).sp.clamped = s.sp.clamped := by rw [State.raiseTimes_eq]; rfl
@[simp] theorem State.raiseTimes_sp_pendingKey (s : State) (k : EventKind) (n : Nat) :
    (s.raiseTimes k n).sp.pendingKey = s.sp.pendingKey := by rw [State.raiseTimes_eq]; rfl
@[simp] theorem State.raiseTimes_sp_locked (s : State) (k : EventKind) (n : Nat) :
    (s.raiseTimes k n).sp.locked = s.sp.locked := by rw [State.raiseTimes_eq]; rfl
@[simp] theorem State.raiseTimes_sp_restarting (s : State) (k : EventKind) (n : Nat) :
    (s.raiseTimes k n).sp.restarting = s.sp.restarting := by rw [State.raiseTimes_eq]; rfl
@[simp] theorem State.raiseTimes_sp_events (s : State) (k : EventKind) (n : Nat) :
    (s.raiseTimes k n).sp.events = s.sp.events.raiseTimes k n := by rw [State.raiseTimes_eq]; rfl
@[simp] theorem State.raiseTimes_sp_pointer (s : State) (k : EventKind) (n : Nat) :
    (s.raiseTimes k n).sp.pointer = s.sp.pointer := by rw [State.raiseTimes_eq]; rfl
@[simp] theorem State.raiseTimes_sp_response (s : State) (k : EventKind) (n : Nat) :
    (s.raiseTimes k n).sp.response = s.sp.response := by rw [State.raiseTimes_eq]; rfl

@[simp] theorem State.raiseIf_now (s : State) (p : Bool) (k : EventKind) : (s.raiseIf p k).now = s.now := by rw [State.raiseIf_eq]; rfl
@[simp] theorem State.raiseIf_draws (s : State) (p : Bool) (k : EventKind) : (s.raiseIf p k).draws = s.draws := by rw [State.raiseIf_eq]; rfl
@[simp] theorem State.raiseIf_lp (s : State) (p : Bool) (k : EventKind) : (s.raiseIf p k).lp = s.lp := by rw [State.raiseIf_eq]; rfl
@[simp] theorem State.raiseIf_pv (s : State) (p : Bool) (k : EventKind) : (s.raiseIf p k).pv = s.pv := by rw [State.raiseIf_eq]; rfl
@[simp] theorem State.raiseIf_ct (s : State) (p : Bool) (k : EventKind) : (s.raiseIf p k).ct = s.ct := by rw [State.raiseIf_eq]; rfl
@[simp] theorem State.raiseIf_ea (s : State) (p : Bool) (k : EventKind) : (s.raiseIf p k).ea = s.ea := by rw [State.raiseIf_eq]; rfl
@[simp] theorem State.raiseIf_mt (s : State) (p : Bool) (k : EventKind) : (s.raiseIf p k).mt = s.mt := by rw [State.raiseIf_eq]; rfl
@[simp] theorem State.raiseIf_ap (s : State) (p : Bool) (k : EventKind) : (s.raiseIf p k).ap = s.ap := by rw [State.raiseIf_eq]; rfl
@[simp] theorem State.raiseIf_cu (s : State) (p : Bool) (k : EventKind) : (s.raiseIf p k).cu = s.cu := by rw [State.raiseIf_eq]; rfl
@[simp] theorem State.raiseIf_cc (s : State) (p : Bool) (k : EventKind) : (s.raiseIf p k).cc = s.cc := by rw [State.raiseIf_eq]; rfl
@[simp] theorem State.raiseIf_vl (s : State) (p : Bool) (k : EventKind) : (s.raiseIf p k).vl = s.vl := by rw [State.raiseIf_eq]; rfl
@[simp] theorem State.raiseIf_pending (s : State) (p : Bool) (k : EventKind) : (s.raiseIf p k).pending = s.pending := by rw [State.raiseIf_eq]; rfl
@[simp] theorem State.raiseIf_inputs (s : State) (p : Bool) (k : EventKind) : (s.raiseIf p k).inputs = s.inputs := by rw [State.raiseIf_eq]; rfl
@[simp] theorem State.raiseIf_sp_mode (s : State) (p : Bool) (k : EventKind) :
    (s.raiseIf p k).sp.mode = s.sp.mode := by rw [State.raiseIf_eq]; rfl
@[simp] theorem State.raiseIf_sp_config (s : State) (p : Bool) (k : EventKind) :
    (s.raiseIf p k).sp.config = s.sp.config := by rw [State.raiseIf_eq]; rfl
@[simp] theorem State.raiseIf_sp_clamped (s : State) (p : Bool) (k : EventKind) :
    (s.raiseIf p k).sp.clamped = s.sp.clamped := by rw [State.raiseIf_eq]; rfl
@[simp] theorem State.raiseIf_sp_pendingKey (s : State) (p : Bool) (k : EventKind) :
    (s.raiseIf p k).sp.pendingKey = s.sp.pendingKey := by rw [State.raiseIf_eq]; rfl
@[simp] theorem State.raiseIf_sp_locked (s : State) (p : Bool) (k : EventKind) :
    (s.raiseIf p k).sp.locked = s.sp.locked := by rw [State.raiseIf_eq]; rfl
@[simp] theorem State.raiseIf_sp_restarting (s : State) (p : Bool) (k : EventKind) :
    (s.raiseIf p k).sp.restarting = s.sp.restarting := by rw [State.raiseIf_eq]; rfl
@[simp] theorem State.raiseIf_sp_events (s : State) (p : Bool) (k : EventKind) :
    (s.raiseIf p k).sp.events = s.sp.events.raiseTimes k p.toNat := by rw [State.raiseIf_eq]; rfl
@[simp] theorem State.raiseIf_sp_pointer (s : State) (p : Bool) (k : EventKind) :
    (s.raiseIf p k).sp.pointer = s.sp.pointer := by rw [State.raiseIf_eq]; rfl
@[simp] theorem State.raiseIf_sp_response (s : State) (p : Bool) (k : EventKind) :
    (s.raiseIf p k).sp.response = s.sp.response := by rw [State.raiseIf_eq]; rfl

/-! ### Time, draws, responses -/

@[simp] theorem State.reach_now (s : State) (t : Nat) : (s.reach t).now = max s.now t := rfl
@[simp] theorem State.reach_draws (s : State) (t : Nat) : (s.reach t).draws = s.draws := rfl
@[simp] theorem State.reach_lp (s : State) (t : Nat) : (s.reach t).lp = s.lp := rfl
@[simp] theorem State.reach_pv (s : State) (t : Nat) : (s.reach t).pv = s.pv := rfl
@[simp] theorem State.reach_ct (s : State) (t : Nat) : (s.reach t).ct = s.ct := rfl
@[simp] theorem State.reach_ea (s : State) (t : Nat) : (s.reach t).ea = s.ea := rfl
@[simp] theorem State.reach_mt (s : State) (t : Nat) : (s.reach t).mt = s.mt := rfl
@[simp] theorem State.reach_ap (s : State) (t : Nat) : (s.reach t).ap = s.ap := rfl
@[simp] theorem State.reach_cu (s : State) (t : Nat) : (s.reach t).cu = s.cu := rfl
@[simp] theorem State.reach_cc (s : State) (t : Nat) : (s.reach t).cc = s.cc := rfl
@[simp] theorem State.reach_vl (s : State) (t : Nat) : (s.reach t).vl = s.vl := rfl
@[simp] theorem State.reach_sp (s : State) (t : Nat) : (s.reach t).sp = s.sp := rfl
@[simp] theorem State.reach_pending (s : State) (t : Nat) : (s.reach t).pending = s.pending := rfl
@[simp] theorem State.reach_inputs (s : State) (t : Nat) : (s.reach t).inputs = s.inputs := rfl

@[simp] theorem State.countDraw_now (s : State) : (s.countDraw).now = s.now := rfl
@[simp] theorem State.countDraw_draws (s : State) : (s.countDraw).draws = s.draws + 1 := rfl
@[simp] theorem State.countDraw_lp (s : State) : (s.countDraw).lp = s.lp := rfl
@[simp] theorem State.countDraw_pv (s : State) : (s.countDraw).pv = s.pv := rfl
@[simp] theorem State.countDraw_ct (s : State) : (s.countDraw).ct = s.ct := rfl
@[simp] theorem State.countDraw_ea (s : State) : (s.countDraw).ea = s.ea := rfl
@[simp] theorem State.countDraw_mt (s : State) : (s.countDraw).mt = s.mt := rfl
@[simp] theorem State.countDraw_ap (s : State) : (s.countDraw).ap = s.ap := rfl
@[simp] theorem State.countDraw_cu (s : State) : (s.countDraw).cu = s.cu := rfl
@[simp] theorem State.countDraw_cc (s : State) : (s.countDraw).cc = s.cc := rfl
@[simp] theorem State.countDraw_vl (s : State) : (s.countDraw).vl = s.vl := rfl
@[simp] theorem State.countDraw_sp (s : State) : (s.countDraw).sp = s.sp := rfl
@[simp] theorem State.countDraw_pending (s : State) : (s.countDraw).pending = s.pending := rfl
@[simp] theorem State.countDraw_inputs (s : State) : (s.countDraw).inputs = s.inputs := rfl

@[simp] theorem State.respond_now (s : State) (r : ResultCode) (d : ResponseData) :
    (s.respond r d).now = s.now := rfl
@[simp] theorem State.respond_draws (s : State) (r : ResultCode) (d : ResponseData) :
    (s.respond r d).draws = s.draws := rfl
@[simp] theorem State.respond_lp (s : State) (r : ResultCode) (d : ResponseData) :
    (s.respond r d).lp = s.lp := rfl
@[simp] theorem State.respond_pv (s : State) (r : ResultCode) (d : ResponseData) :
    (s.respond r d).pv = s.pv := rfl
@[simp] theorem State.respond_ct (s : State) (r : ResultCode) (d : ResponseData) :
    (s.respond r d).ct = s.ct := rfl
@[simp] theorem State.respond_ea (s : State) (r : ResultCode) (d : ResponseData) :
    (s.respond r d).ea = s.ea := rfl
@[simp] theorem State.respond_mt (s : State) (r : ResultCode) (d : ResponseData) :
    (s.respond r d).mt = s.mt := rfl
@[simp] theorem State.respond_ap (s : State) (r : ResultCode) (d : ResponseData) :
    (s.respond r d).ap = s.ap := rfl
@[simp] theorem State.respond_cu (s : State) (r : ResultCode) (d : ResponseData) :
    (s.respond r d).cu = s.cu := rfl
@[simp] theorem State.respond_cc (s : State) (r : ResultCode) (d : ResponseData) :
    (s.respond r d).cc = s.cc := rfl
@[simp] theorem State.respond_vl (s : State) (r : ResultCode) (d : ResponseData) :
    (s.respond r d).vl = s.vl := rfl
@[simp] theorem State.respond_pending (s : State) (r : ResultCode) (d : ResponseData) :
    (s.respond r d).pending = s.pending := rfl
@[simp] theorem State.respond_inputs (s : State) (r : ResultCode) (d : ResponseData) :
    (s.respond r d).inputs = s.inputs := rfl
@[simp] theorem State.respond_sp_mode (s : State) (r : ResultCode) (d : ResponseData) :
    (s.respond r d).sp.mode = s.sp.mode := rfl
@[simp] theorem State.respond_sp_config (s : State) (r : ResultCode) (d : ResponseData) :
    (s.respond r d).sp.config = s.sp.config := rfl
@[simp] theorem State.respond_sp_clamped (s : State) (r : ResultCode) (d : ResponseData) :
    (s.respond r d).sp.clamped = s.sp.clamped := rfl
@[simp] theorem State.respond_sp_pendingKey (s : State) (r : ResultCode) (d : ResponseData) :
    (s.respond r d).sp.pendingKey = s.sp.pendingKey := rfl
@[simp] theorem State.respond_sp_locked (s : State) (r : ResultCode) (d : ResponseData) :
    (s.respond r d).sp.locked = s.sp.locked := rfl
@[simp] theorem State.respond_sp_restarting (s : State) (r : ResultCode) (d : ResponseData) :
    (s.respond r d).sp.restarting = s.sp.restarting := rfl
@[simp] theorem State.respond_sp_events (s : State) (r : ResultCode) (d : ResponseData) :
    (s.respond r d).sp.events = s.sp.events := rfl
@[simp] theorem State.respond_sp_pointer (s : State) (r : ResultCode) (d : ResponseData) :
    (s.respond r d).sp.pointer = s.sp.pointer := rfl
@[simp] theorem State.respond_sp_response (s : State) (r : ResultCode) (d : ResponseData) :
    (s.respond r d).sp.response = some ⟨r, d⟩ := rfl

/-- The value that a random draw gives lies in its range (log 8): this is all that is known of it. -/
theorem State.drawn_range (s : State) (lo span : Nat) :
    lo ≤ s.drawn lo span ∧ s.drawn lo span ≤ lo + span := by
  have h := Nat.mod_lt (Config.randomDraw s.draws) (show 0 < span + 1 by omega)
  unfold State.drawn; omega

/-! ### The mode -/

@[simp] theorem State.setMode_now (s : State) (m : PostMode) : (s.setMode m).now = s.now := by
  simp only [State.setMode]; split <;> rfl
@[simp] theorem State.setMode_draws (s : State) (m : PostMode) : (s.setMode m).draws = s.draws := by
  simp only [State.setMode]; split <;> rfl
@[simp] theorem State.setMode_lp (s : State) (m : PostMode) : (s.setMode m).lp = s.lp := by
  simp only [State.setMode]; split <;> rfl
@[simp] theorem State.setMode_pv (s : State) (m : PostMode) : (s.setMode m).pv = s.pv := by
  simp only [State.setMode]; split <;> rfl
@[simp] theorem State.setMode_ct (s : State) (m : PostMode) : (s.setMode m).ct = s.ct := by
  simp only [State.setMode]; split <;> rfl
@[simp] theorem State.setMode_ea (s : State) (m : PostMode) : (s.setMode m).ea = s.ea := by
  simp only [State.setMode]; split <;> rfl
@[simp] theorem State.setMode_mt (s : State) (m : PostMode) : (s.setMode m).mt = s.mt := by
  simp only [State.setMode]; split <;> rfl
@[simp] theorem State.setMode_ap (s : State) (m : PostMode) : (s.setMode m).ap = s.ap := by
  simp only [State.setMode]; split <;> rfl
@[simp] theorem State.setMode_cu (s : State) (m : PostMode) : (s.setMode m).cu = s.cu := by
  simp only [State.setMode]; split <;> rfl
@[simp] theorem State.setMode_cc (s : State) (m : PostMode) : (s.setMode m).cc = s.cc := by
  simp only [State.setMode]; split <;> rfl
@[simp] theorem State.setMode_pending (s : State) (m : PostMode) : (s.setMode m).pending = s.pending := by
  simp only [State.setMode]; split <;> rfl
@[simp] theorem State.setMode_inputs (s : State) (m : PostMode) : (s.setMode m).inputs = s.inputs := by
  simp only [State.setMode]; split <;> rfl
@[simp] theorem State.setMode_sp_mode (s : State) (m : PostMode) : (s.setMode m).sp.mode = m := by
  simp only [State.setMode]; split <;> rfl
@[simp] theorem State.setMode_sp_config (s : State) (m : PostMode) : (s.setMode m).sp.config = s.sp.config := by
  simp only [State.setMode]; split <;> rfl
@[simp] theorem State.setMode_sp_clamped (s : State) (m : PostMode) : (s.setMode m).sp.clamped = s.sp.clamped := by
  simp only [State.setMode]; split <;> rfl
@[simp] theorem State.setMode_sp_pendingKey (s : State) (m : PostMode) : (s.setMode m).sp.pendingKey = s.sp.pendingKey := by
  simp only [State.setMode]; split <;> rfl
@[simp] theorem State.setMode_sp_locked (s : State) (m : PostMode) : (s.setMode m).sp.locked = s.sp.locked := by
  simp only [State.setMode]; split <;> rfl
@[simp] theorem State.setMode_sp_restarting (s : State) (m : PostMode) : (s.setMode m).sp.restarting = s.sp.restarting := by
  simp only [State.setMode]; split <;> rfl
@[simp] theorem State.setMode_sp_events (s : State) (m : PostMode) : (s.setMode m).sp.events = s.sp.events := by
  simp only [State.setMode]; split <;> rfl
@[simp] theorem State.setMode_sp_pointer (s : State) (m : PostMode) : (s.setMode m).sp.pointer = s.sp.pointer := by
  simp only [State.setMode]; split <;> rfl
@[simp] theorem State.setMode_sp_response (s : State) (m : PostMode) : (s.setMode m).sp.response = s.sp.response := by
  simp only [State.setMode]; split <;> rfl
@[simp] theorem State.setMode_vl_session (s : State) (m : PostMode) :
    (s.setMode m).vl.session = s.vl.session := by
  simp only [State.setMode]; split <;> rfl
@[simp] theorem State.setMode_vl_plug (s : State) (m : PostMode) :
    (s.setMode m).vl.plug = s.vl.plug := by
  simp only [State.setMode]; split <;> rfl
@[simp] theorem State.setMode_vl_wakeAt (s : State) (m : PostMode) :
    (s.setMode m).vl.wakeAt = s.vl.wakeAt := by
  simp only [State.setMode]; split <;> rfl
@[simp] theorem State.setMode_vl_inFlight (s : State) (m : PostMode) :
    (s.setMode m).vl.inFlight = s.vl.inFlight := by
  simp only [State.setMode]; split <;> rfl
@[simp] theorem State.setMode_vl_counter (s : State) (m : PostMode) :
    (s.setMode m).vl.counter = s.vl.counter := by
  simp only [State.setMode]; split <;> rfl
@[simp] theorem State.setMode_vl_due (s : State) (m : PostMode) :
    (s.setMode m).vl.due = s.vl.due := by
  simp only [State.setMode]; split <;> rfl
@[simp] theorem State.setMode_vl_items (s : State) (m : PostMode) :
    (s.setMode m).vl.items = s.vl.items := by
  simp only [State.setMode]; split <;> rfl
@[simp] theorem State.setMode_vl_identifyAt (s : State) (m : PostMode) :
    (s.setMode m).vl.identifyAt = s.vl.identifyAt := by
  simp only [State.setMode]; split <;> rfl
@[simp] theorem State.setMode_vl_requeryAt (s : State) (m : PostMode) :
    (s.setMode m).vl.requeryAt = s.vl.requeryAt := by
  simp only [State.setMode]; split <;> rfl
@[simp] theorem State.setMode_vl_retryAt (s : State) (m : PostMode) :
    (s.setMode m).vl.retryAt = s.vl.retryAt := by
  simp only [State.setMode]; split <;> rfl
@[simp] theorem State.setMode_vl_failures (s : State) (m : PostMode) :
    (s.setMode m).vl.failures = s.vl.failures := by
  simp only [State.setMode]; split <;> rfl
@[simp] theorem State.setMode_vl_lastFailure (s : State) (m : PostMode) :
    (s.setMode m).vl.lastFailure = s.vl.lastFailure := by
  simp only [State.setMode]; split <;> rfl
@[simp] theorem State.setMode_vl_releaseOwed (s : State) (m : PostMode) :
    (s.setMode m).vl.releaseOwed = s.vl.releaseOwed := by
  simp only [State.setMode]; split <;> rfl
@[simp] theorem State.setMode_vl_refreshAt (s : State) (m : PostMode) :
    (s.setMode m).vl.refreshAt = s.vl.refreshAt := by
  simp only [State.setMode]; split <;> rfl
@[simp] theorem State.setMode_vl_allowance (s : State) (m : PostMode) :
    (s.setMode m).vl.allowance = s.vl.allowance := by
  simp only [State.setMode]; split <;> rfl
@[simp] theorem State.setMode_vl_desired (s : State) (m : PostMode) :
    (s.setMode m).vl.desired = s.vl.desired := by
  simp only [State.setMode]; split <;> rfl
@[simp] theorem State.setMode_vl_phase (s : State) (m : PostMode) :
    (s.setMode m).vl.phase = s.vl.phase := by
  simp only [State.setMode]; split <;> rfl
@[simp] theorem State.setMode_vl_kind (s : State) (m : PostMode) :
    (s.setMode m).vl.kind = s.vl.kind := by
  simp only [State.setMode]; split <;> rfl
@[simp] theorem State.setMode_vl_code (s : State) (m : PostMode) :
    (s.setMode m).vl.code = s.vl.code := by
  simp only [State.setMode]; split <;> rfl
@[simp] theorem State.setMode_vl_busLevel (s : State) (m : PostMode) :
    (s.setMode m).vl.busLevel = s.vl.busLevel := by
  simp only [State.setMode]; split <;> rfl
@[simp] theorem State.setMode_vl_busStatus (s : State) (m : PostMode) :
    (s.setMode m).vl.busStatus = s.vl.busStatus := by
  simp only [State.setMode]; split <;> rfl
@[simp] theorem State.setMode_vl_tuningAt (s : State) (m : PostMode) :
    (s.setMode m).vl.tuningAt = s.vl.tuningAt := by
  simp only [State.setMode]; split <;> rfl
@[simp] theorem State.setMode_vl_stepAt (s : State) (m : PostMode) :
    (s.setMode m).vl.stepAt = s.vl.stepAt := by
  simp only [State.setMode]; split <;> rfl
@[simp] theorem State.setMode_vl_settleAt (s : State) (m : PostMode) :
    (s.setMode m).vl.settleAt = s.vl.settleAt := by
  simp only [State.setMode]; split <;> rfl
@[simp] theorem State.setMode_vl_holdAnswered (s : State) (m : PostMode) :
    (s.setMode m).vl.holdAnswered = s.vl.holdAnswered := by
  simp only [State.setMode]; split <;> rfl
@[simp] theorem State.setMode_vl_retuneAt (s : State) (m : PostMode) :
    (s.setMode m).vl.retuneAt = s.vl.retuneAt := by
  simp only [State.setMode]; split <;> rfl
@[simp] theorem State.setMode_vl_retuneDue (s : State) (m : PostMode) :
    (s.setMode m).vl.retuneDue = s.vl.retuneDue := by
  simp only [State.setMode]; split <;> rfl
@[simp] theorem State.setMode_vl_engageHoldAt (s : State) (m : PostMode) :
    (s.setMode m).vl.engageHoldAt = s.vl.engageHoldAt := by
  simp only [State.setMode]; split <;> rfl
@[simp] theorem State.setMode_vl_shareZeroAt (s : State) (m : PostMode) :
    (s.setMode m).vl.shareZeroAt = s.vl.shareZeroAt := by
  simp only [State.setMode]; split <;> rfl
@[simp] theorem State.setMode_vl_shareZeroOut (s : State) (m : PostMode) :
    (s.setMode m).vl.shareZeroOut = s.vl.shareZeroOut := by
  simp only [State.setMode]; split <;> rfl
@[simp] theorem State.setMode_vl_stopLatch (s : State) (m : PostMode) :
    (s.setMode m).vl.stopLatch = s.vl.stopLatch := by
  simp only [State.setMode]; split <;> rfl
@[simp] theorem State.setMode_vl_lastCeiling (s : State) (m : PostMode) :
    (s.setMode m).vl.lastCeiling = s.vl.lastCeiling := by
  simp only [State.setMode]; split <;> rfl

/-- The poll timer after a change of mode: it runs on, or is restarted at the new period (R147). -/
theorem State.setMode_pollAt (s : State) (m : PostMode) :
    (s.setMode m).vl.pollAt = s.vl.pollAt ∨
      (s.vl.pollAt.isSome = true ∧ (s.setMode m).vl.pollAt = some (s.now + m.pollPeriod)) := by
  simp only [State.setMode]
  split
  · rename_i h; right; simp at h; exact ⟨by simp [h], rfl⟩
  · left; rfl

end Sys2Proof.Machine
end

