-- ==== Sys2Proof/Laws/Reactions.lean ====
section
/-!
SUPPORT. What the at-once reactions can do: which fields the end of a command's handling leaves as they are, how
the mode, the session, the setpoint, the event counts and the call records can move in it.
-/

namespace Sys2Proof.Machine

open Sys2Proof.Safety

/-! ### What the reactions never touch -/

theorem State.raise_frame (s : State) (k : EventKind) : blank (s.raise k) = blank s := rfl

theorem State.raiseIf_frame (s : State) (p : Bool) (k : EventKind) :
    blank (s.raiseIf p k) = blank s := by
  rw [State.raiseIf_eq]; rfl

theorem State.setMode_frame (s : State) (m : PostMode) : blank (s.setMode m) = blank s := by
  simp only [State.setMode]; split <;> rfl

theorem State.compute_frame (s : State) (t : Trigger) : blank (s.compute t) = blank s := by
  have h : (s.computation t).stepAt = s.ap.stepAt := by
    unfold State.computation; dsimp only; split <;> rfl
  simp only [State.compute]
  split <;> simp [blank, h]

theorem State.convFails_frame (s : State) (k : EventKind) : blank (s.convFails k) = blank s := by
  simp only [State.convFails, State.raiseIf_frame, State.raise_frame]; rfl

theorem State.startPrecharge_frame (s : State) : blank s.startPrecharge = blank s := by
  simp only [State.startPrecharge]; split
  · rw [State.convFails_frame]; rfl
  · rfl

theorem State.attach_frame (s : State) : blank s.attach = blank s := rfl

theorem State.holdSetpoint_frame (s : State) : blank s.holdSetpoint = blank s := by
  unfold State.holdSetpoint; split <;> rfl

theorem State.noticeTest_frame (s : State) : blank s.noticeTest = blank s := by
  unfold State.noticeTest; split <;> rfl

theorem State.gateNotice_frame (s : State) : blank s.gateNotice = blank s := by
  unfold State.gateNotice; split
  · rfl
  · rw [State.compute_frame]; rfl

theorem State.shareZeroTest_frame (s : State) : blank s.shareZeroTest = blank s := by
  unfold State.shareZeroTest; split
  · split <;> rfl
  · rfl

theorem State.stopTest_frame (s : State) : blank s.stopTest = blank s := by
  unfold State.stopTest; split <;> rfl

theorem State.releaseTest_frame (s : State) : blank s.releaseTest = blank s := by
  unfold State.releaseTest; split <;> rfl

theorem State.startTest_frame (s : State) : blank s.startTest = blank s := by
  simp only [State.startTest]
  split
  · split
    · rw [State.startPrecharge_frame]; rfl
    · rfl
  · split
    · rfl
    · split <;> rfl
  · split
    · rfl
    · split
      · rfl
      · split <;> rfl
  · rfl

theorem State.engageTest_frame (s : State) : blank s.engageTest = blank s := rfl

theorem State.retuneTest_frame (s : State) : blank s.retuneTest = blank s := by
  unfold State.retuneTest; split
  · split <;> rfl
  · rfl

theorem State.parkTest_frame (s : State) : blank s.parkTest = blank s := by
  unfold State.parkTest; split
  · exact State.setMode_frame _ _
  · rfl

theorem State.plugWake_frame (s : State) : blank s.plugWake = blank s := by
  unfold State.plugWake; split
  · exact State.setMode_frame _ _
  · rfl

theorem State.meetPlug_frame (s : State) : blank s.meetPlug = blank s := by
  unfold State.meetPlug; split
  · exact State.attach_frame _
  · rfl

theorem State.takeFrame_frame (s : State) : blank s.takeFrame = blank s := by
  unfold State.takeFrame; split
  · split <;> rfl
  · rfl

theorem State.react_frame (s : State) : blank s.react = blank s := by
  simp only [State.react, State.meetPlug_frame, State.plugWake_frame, State.parkTest_frame,
    State.retuneTest_frame, State.engageTest_frame, State.startTest_frame, State.releaseTest_frame,
    State.stopTest_frame, State.shareZeroTest_frame, State.gateNotice_frame, State.noticeTest_frame,
    State.holdSetpoint_frame]

theorem State.settle_frame (s : State) : blank s.settle = blank s := by
  simp only [State.settle, State.react_frame]

/-- The end of a command's handling leaves every field that no reaction touches as it is. -/
theorem State.finish_frame (s : State) : blank s.finish = blank s := by
  unfold State.finish; split
  · rw [State.takeFrame_frame, State.holdSetpoint_frame, State.settle_frame]
  · rfl

/-! ### Each field that no reaction touches -/

theorem blank_now {s t : State} (h : blank t = blank s) : t.now = s.now := by
  have e := congrArg (fun x : State => x.now) h
  exact e
theorem blank_draws {s t : State} (h : blank t = blank s) : t.draws = s.draws := by
  have e := congrArg (fun x : State => x.draws) h
  exact e
theorem blank_pv {s t : State} (h : blank t = blank s) : t.pv = s.pv := by
  have e := congrArg (fun x : State => x.pv) h
  exact e
theorem blank_cu {s t : State} (h : blank t = blank s) : t.cu = s.cu := by
  have e := congrArg (fun x : State => x.cu) h
  exact e
theorem blank_mt {s t : State} (h : blank t = blank s) : t.mt = s.mt := by
  have e := congrArg (fun x : State => x.mt) h
  exact e
theorem blank_pending {s t : State} (h : blank t = blank s) : t.pending = s.pending := by
  have e := congrArg (fun x : State => x.pending) h
  exact e
theorem blank_inputs {s t : State} (h : blank t = blank s) : t.inputs = s.inputs := by
  have e := congrArg (fun x : State => x.inputs) h
  exact e
theorem blank_lp_stall {s t : State} (h : blank t = blank s) : t.lp.stall = s.lp.stall := by
  have e := congrArg (fun x : State => x.lp.stall) h
  exact e
theorem blank_lp_echoFailures {s t : State} (h : blank t = blank s) : t.lp.echoFailures = s.lp.echoFailures := by
  have e := congrArg (fun x : State => x.lp.echoFailures) h
  exact e
theorem blank_lp_standingAt {s t : State} (h : blank t = blank s) : t.lp.standingAt = s.lp.standingAt := by
  have e := congrArg (fun x : State => x.lp.standingAt) h
  exact e
theorem blank_lp_stats {s t : State} (h : blank t = blank s) : t.lp.stats = s.lp.stats := by
  have e := congrArg (fun x : State => x.lp.stats) h
  exact e
theorem blank_ct_tickAt {s t : State} (h : blank t = blank s) : t.ct.tickAt = s.ct.tickAt := by
  have e := congrArg (fun x : State => x.ct.tickAt) h
  exact e
theorem blank_ct_echoAt {s t : State} (h : blank t = blank s) : t.ct.echoAt = s.ct.echoAt := by
  have e := congrArg (fun x : State => x.ct.echoAt) h
  exact e
theorem blank_ct_repeats {s t : State} (h : blank t = blank s) : t.ct.repeats = s.ct.repeats := by
  have e := congrArg (fun x : State => x.ct.repeats) h
  exact e
theorem blank_ea_record {s t : State} (h : blank t = blank s) : t.ea.record = s.ea.record := by
  have e := congrArg (fun x : State => x.ea.record) h
  exact e
theorem blank_ea_estimate {s t : State} (h : blank t = blank s) : t.ea.estimate = s.ea.estimate := by
  have e := congrArg (fun x : State => x.ea.estimate) h
  exact e
theorem blank_ea_reported {s t : State} (h : blank t = blank s) : t.ea.reported = s.ea.reported := by
  have e := congrArg (fun x : State => x.ea.reported) h
  exact e
theorem blank_ea_residue {s t : State} (h : blank t = blank s) : t.ea.residue = s.ea.residue := by
  have e := congrArg (fun x : State => x.ea.residue) h
  exact e
theorem blank_ea_departureLeft {s t : State} (h : blank t = blank s) : t.ea.departureLeft = s.ea.departureLeft := by
  have e := congrArg (fun x : State => x.ea.departureLeft) h
  exact e
theorem blank_ea_minuteAt {s t : State} (h : blank t = blank s) : t.ea.minuteAt = s.ea.minuteAt := by
  have e := congrArg (fun x : State => x.ea.minuteAt) h
  exact e
theorem blank_ap_stepAt {s t : State} (h : blank t = blank s) : t.ap.stepAt = s.ap.stepAt := by
  have e := congrArg (fun x : State => x.ap.stepAt) h
  exact e
theorem blank_cc_measured {s t : State} (h : blank t = blank s) : t.cc.measured = s.cc.measured := by
  have e := congrArg (fun x : State => x.cc.measured) h
  exact e
theorem blank_cc_slewAt {s t : State} (h : blank t = blank s) : t.cc.slewAt = s.cc.slewAt := by
  have e := congrArg (fun x : State => x.cc.slewAt) h
  exact e
theorem blank_cc_ready {s t : State} (h : blank t = blank s) : t.cc.ready = s.cc.ready := by
  have e := congrArg (fun x : State => x.cc.ready) h
  exact e
theorem blank_cc_fault {s t : State} (h : blank t = blank s) : t.cc.fault = s.cc.fault := by
  have e := congrArg (fun x : State => x.cc.fault) h
  exact e
theorem blank_vl_plug {s t : State} (h : blank t = blank s) : t.vl.plug = s.vl.plug := by
  have e := congrArg (fun x : State => x.vl.plug) h
  exact e
theorem blank_vl_inFlight {s t : State} (h : blank t = blank s) : t.vl.inFlight = s.vl.inFlight := by
  have e := congrArg (fun x : State => x.vl.inFlight) h
  exact e
theorem blank_vl_counter {s t : State} (h : blank t = blank s) : t.vl.counter = s.vl.counter := by
  have e := congrArg (fun x : State => x.vl.counter) h
  exact e
theorem blank_vl_items {s t : State} (h : blank t = blank s) : t.vl.items = s.vl.items := by
  have e := congrArg (fun x : State => x.vl.items) h
  exact e
theorem blank_vl_identifyAt {s t : State} (h : blank t = blank s) : t.vl.identifyAt = s.vl.identifyAt := by
  have e := congrArg (fun x : State => x.vl.identifyAt) h
  exact e
theorem blank_vl_requeryAt {s t : State} (h : blank t = blank s) : t.vl.requeryAt = s.vl.requeryAt := by
  have e := congrArg (fun x : State => x.vl.requeryAt) h
  exact e
theorem blank_vl_retryAt {s t : State} (h : blank t = blank s) : t.vl.retryAt = s.vl.retryAt := by
  have e := congrArg (fun x : State => x.vl.retryAt) h
  exact e
theorem blank_vl_failures {s t : State} (h : blank t = blank s) : t.vl.failures = s.vl.failures := by
  have e := congrArg (fun x : State => x.vl.failures) h
  exact e
theorem blank_vl_lastFailure {s t : State} (h : blank t = blank s) : t.vl.lastFailure = s.vl.lastFailure := by
  have e := congrArg (fun x : State => x.vl.lastFailure) h
  exact e
theorem blank_vl_releaseOwed {s t : State} (h : blank t = blank s) : t.vl.releaseOwed = s.vl.releaseOwed := by
  have e := congrArg (fun x : State => x.vl.releaseOwed) h
  exact e
theorem blank_vl_refreshAt {s t : State} (h : blank t = blank s) : t.vl.refreshAt = s.vl.refreshAt := by
  have e := congrArg (fun x : State => x.vl.refreshAt) h
  exact e
theorem blank_vl_allowance {s t : State} (h : blank t = blank s) : t.vl.allowance = s.vl.allowance := by
  have e := congrArg (fun x : State => x.vl.allowance) h
  exact e
theorem blank_vl_desired {s t : State} (h : blank t = blank s) : t.vl.desired = s.vl.desired := by
  have e := congrArg (fun x : State => x.vl.desired) h
  exact e
theorem blank_vl_phase {s t : State} (h : blank t = blank s) : t.vl.phase = s.vl.phase := by
  have e := congrArg (fun x : State => x.vl.phase) h
  exact e
theorem blank_vl_kind {s t : State} (h : blank t = blank s) : t.vl.kind = s.vl.kind := by
  have e := congrArg (fun x : State => x.vl.kind) h
  exact e
theorem blank_vl_code {s t : State} (h : blank t = blank s) : t.vl.code = s.vl.code := by
  have e := congrArg (fun x : State => x.vl.code) h
  exact e
theorem blank_vl_busLevel {s t : State} (h : blank t = blank s) : t.vl.busLevel = s.vl.busLevel := by
  have e := congrArg (fun x : State => x.vl.busLevel) h
  exact e
theorem blank_vl_busStatus {s t : State} (h : blank t = blank s) : t.vl.busStatus = s.vl.busStatus := by
  have e := congrArg (fun x : State => x.vl.busStatus) h
  exact e
theorem blank_vl_tuningAt {s t : State} (h : blank t = blank s) : t.vl.tuningAt = s.vl.tuningAt := by
  have e := congrArg (fun x : State => x.vl.tuningAt) h
  exact e
theorem blank_vl_stepAt {s t : State} (h : blank t = blank s) : t.vl.stepAt = s.vl.stepAt := by
  have e := congrArg (fun x : State => x.vl.stepAt) h
  exact e
theorem blank_vl_settleAt {s t : State} (h : blank t = blank s) : t.vl.settleAt = s.vl.settleAt := by
  have e := congrArg (fun x : State => x.vl.settleAt) h
  exact e
theorem blank_vl_holdAnswered {s t : State} (h : blank t = blank s) : t.vl.holdAnswered = s.vl.holdAnswered := by
  have e := congrArg (fun x : State => x.vl.holdAnswered) h
  exact e
theorem blank_vl_retuneDue {s t : State} (h : blank t = blank s) : t.vl.retuneDue = s.vl.retuneDue := by
  have e := congrArg (fun x : State => x.vl.retuneDue) h
  exact e
theorem blank_vl_engageHoldAt {s t : State} (h : blank t = blank s) : t.vl.engageHoldAt = s.vl.engageHoldAt := by
  have e := congrArg (fun x : State => x.vl.engageHoldAt) h
  exact e
theorem blank_vl_stopLatch {s t : State} (h : blank t = blank s) : t.vl.stopLatch = s.vl.stopLatch := by
  have e := congrArg (fun x : State => x.vl.stopLatch) h
  exact e
theorem blank_vl_lastCeiling {s t : State} (h : blank t = blank s) : t.vl.lastCeiling = s.vl.lastCeiling := by
  have e := congrArg (fun x : State => x.vl.lastCeiling) h
  exact e
theorem blank_vl_due_tune {s t : State} (h : blank t = blank s) : t.vl.due.tune = s.vl.due.tune := by
  have e := congrArg (fun x : State => x.vl.due.tune) h
  exact e
theorem blank_vl_due_identify {s t : State} (h : blank t = blank s) : t.vl.due.identify = s.vl.due.identify := by
  have e := congrArg (fun x : State => x.vl.due.identify) h
  exact e
theorem blank_vl_due_refresh {s t : State} (h : blank t = blank s) : t.vl.due.refresh = s.vl.due.refresh := by
  have e := congrArg (fun x : State => x.vl.due.refresh) h
  exact e
theorem blank_vl_due_poll {s t : State} (h : blank t = blank s) : t.vl.due.poll = s.vl.due.poll := by
  have e := congrArg (fun x : State => x.vl.due.poll) h
  exact e
theorem blank_sp_config {s t : State} (h : blank t = blank s) : t.sp.config = s.sp.config := by
  have e := congrArg (fun x : State => x.sp.config) h
  exact e
theorem blank_sp_clamped {s t : State} (h : blank t = blank s) : t.sp.clamped = s.sp.clamped := by
  have e := congrArg (fun x : State => x.sp.clamped) h
  exact e
theorem blank_sp_pendingKey {s t : State} (h : blank t = blank s) : t.sp.pendingKey = s.sp.pendingKey := by
  have e := congrArg (fun x : State => x.sp.pendingKey) h
  exact e
theorem blank_sp_locked {s t : State} (h : blank t = blank s) : t.sp.locked = s.sp.locked := by
  have e := congrArg (fun x : State => x.sp.locked) h
  exact e
theorem blank_sp_restarting {s t : State} (h : blank t = blank s) : t.sp.restarting = s.sp.restarting := by
  have e := congrArg (fun x : State => x.sp.restarting) h
  exact e
theorem blank_sp_pointer {s t : State} (h : blank t = blank s) : t.sp.pointer = s.sp.pointer := by
  have e := congrArg (fun x : State => x.sp.pointer) h
  exact e
theorem blank_sp_response {s t : State} (h : blank t = blank s) : t.sp.response = s.sp.response := by
  have e := congrArg (fun x : State => x.sp.response) h
  exact e

@[simp] theorem State.finish_now (s : State) : s.finish.now = s.now :=
  blank_now s.finish_frame
@[simp] theorem State.finish_draws (s : State) : s.finish.draws = s.draws :=
  blank_draws s.finish_frame
@[simp] theorem State.finish_pv (s : State) : s.finish.pv = s.pv :=
  blank_pv s.finish_frame
@[simp] theorem State.finish_cu (s : State) : s.finish.cu = s.cu :=
  blank_cu s.finish_frame
@[simp] theorem State.finish_mt (s : State) : s.finish.mt = s.mt :=
  blank_mt s.finish_frame
@[simp] theorem State.finish_pending (s : State) : s.finish.pending = s.pending :=
  blank_pending s.finish_frame
@[simp] theorem State.finish_inputs (s : State) : s.finish.inputs = s.inputs :=
  blank_inputs s.finish_frame
@[simp] theorem State.finish_lp_stall (s : State) : s.finish.lp.stall = s.lp.stall :=
  blank_lp_stall s.finish_frame
@[simp] theorem State.finish_lp_echoFailures (s : State) : s.finish.lp.echoFailures = s.lp.echoFailures :=
  blank_lp_echoFailures s.finish_frame
@[simp] theorem State.finish_lp_standingAt (s : State) : s.finish.lp.standingAt = s.lp.standingAt :=
  blank_lp_standingAt s.finish_frame
@[simp] theorem State.finish_lp_stats (s : State) : s.finish.lp.stats = s.lp.stats :=
  blank_lp_stats s.finish_frame
@[simp] theorem State.finish_ct_tickAt (s : State) : s.finish.ct.tickAt = s.ct.tickAt :=
  blank_ct_tickAt s.finish_frame
@[simp] theorem State.finish_ct_echoAt (s : State) : s.finish.ct.echoAt = s.ct.echoAt :=
  blank_ct_echoAt s.finish_frame
@[simp] theorem State.finish_ct_repeats (s : State) : s.finish.ct.repeats = s.ct.repeats :=
  blank_ct_repeats s.finish_frame
@[simp] theorem State.finish_ea_record (s : State) : s.finish.ea.record = s.ea.record :=
  blank_ea_record s.finish_frame
@[simp] theorem State.finish_ea_estimate (s : State) : s.finish.ea.estimate = s.ea.estimate :=
  blank_ea_estimate s.finish_frame
@[simp] theorem State.finish_ea_reported (s : State) : s.finish.ea.reported = s.ea.reported :=
  blank_ea_reported s.finish_frame
@[simp] theorem State.finish_ea_residue (s : State) : s.finish.ea.residue = s.ea.residue :=
  blank_ea_residue s.finish_frame
@[simp] theorem State.finish_ea_departureLeft (s : State) : s.finish.ea.departureLeft = s.ea.departureLeft :=
  blank_ea_departureLeft s.finish_frame
@[simp] theorem State.finish_ea_minuteAt (s : State) : s.finish.ea.minuteAt = s.ea.minuteAt :=
  blank_ea_minuteAt s.finish_frame
@[simp] theorem State.finish_ap_stepAt (s : State) : s.finish.ap.stepAt = s.ap.stepAt :=
  blank_ap_stepAt s.finish_frame
@[simp] theorem State.finish_cc_measured (s : State) : s.finish.cc.measured = s.cc.measured :=
  blank_cc_measured s.finish_frame
@[simp] theorem State.finish_cc_slewAt (s : State) : s.finish.cc.slewAt = s.cc.slewAt :=
  blank_cc_slewAt s.finish_frame
@[simp] theorem State.finish_cc_ready (s : State) : s.finish.cc.ready = s.cc.ready :=
  blank_cc_ready s.finish_frame
@[simp] theorem State.finish_cc_fault (s : State) : s.finish.cc.fault = s.cc.fault :=
  blank_cc_fault s.finish_frame
@[simp] theorem State.finish_vl_plug (s : State) : s.finish.vl.plug = s.vl.plug :=
  blank_vl_plug s.finish_frame
@[simp] theorem State.finish_vl_inFlight (s : State) : s.finish.vl.inFlight = s.vl.inFlight :=
  blank_vl_inFlight s.finish_frame
@[simp] theorem State.finish_vl_counter (s : State) : s.finish.vl.counter = s.vl.counter :=
  blank_vl_counter s.finish_frame
@[simp] theorem State.finish_vl_items (s : State) : s.finish.vl.items = s.vl.items :=
  blank_vl_items s.finish_frame
@[simp] theorem State.finish_vl_identifyAt (s : State) : s.finish.vl.identifyAt = s.vl.identifyAt :=
  blank_vl_identifyAt s.finish_frame
@[simp] theorem State.finish_vl_requeryAt (s : State) : s.finish.vl.requeryAt = s.vl.requeryAt :=
  blank_vl_requeryAt s.finish_frame
@[simp] theorem State.finish_vl_retryAt (s : State) : s.finish.vl.retryAt = s.vl.retryAt :=
  blank_vl_retryAt s.finish_frame
@[simp] theorem State.finish_vl_failures (s : State) : s.finish.vl.failures = s.vl.failures :=
  blank_vl_failures s.finish_frame
@[simp] theorem State.finish_vl_lastFailure (s : State) : s.finish.vl.lastFailure = s.vl.lastFailure :=
  blank_vl_lastFailure s.finish_frame
@[simp] theorem State.finish_vl_releaseOwed (s : State) : s.finish.vl.releaseOwed = s.vl.releaseOwed :=
  blank_vl_releaseOwed s.finish_frame
@[simp] theorem State.finish_vl_refreshAt (s : State) : s.finish.vl.refreshAt = s.vl.refreshAt :=
  blank_vl_refreshAt s.finish_frame
@[simp] theorem State.finish_vl_allowance (s : State) : s.finish.vl.allowance = s.vl.allowance :=
  blank_vl_allowance s.finish_frame
@[simp] theorem State.finish_vl_desired (s : State) : s.finish.vl.desired = s.vl.desired :=
  blank_vl_desired s.finish_frame
@[simp] theorem State.finish_vl_phase (s : State) : s.finish.vl.phase = s.vl.phase :=
  blank_vl_phase s.finish_frame
@[simp] theorem State.finish_vl_kind (s : State) : s.finish.vl.kind = s.vl.kind :=
  blank_vl_kind s.finish_frame
@[simp] theorem State.finish_vl_code (s : State) : s.finish.vl.code = s.vl.code :=
  blank_vl_code s.finish_frame
@[simp] theorem State.finish_vl_busLevel (s : State) : s.finish.vl.busLevel = s.vl.busLevel :=
  blank_vl_busLevel s.finish_frame
@[simp] theorem State.finish_vl_busStatus (s : State) : s.finish.vl.busStatus = s.vl.busStatus :=
  blank_vl_busStatus s.finish_frame
@[simp] theorem State.finish_vl_tuningAt (s : State) : s.finish.vl.tuningAt = s.vl.tuningAt :=
  blank_vl_tuningAt s.finish_frame
@[simp] theorem State.finish_vl_stepAt (s : State) : s.finish.vl.stepAt = s.vl.stepAt :=
  blank_vl_stepAt s.finish_frame
@[simp] theorem State.finish_vl_settleAt (s : State) : s.finish.vl.settleAt = s.vl.settleAt :=
  blank_vl_settleAt s.finish_frame
@[simp] theorem State.finish_vl_holdAnswered (s : State) : s.finish.vl.holdAnswered = s.vl.holdAnswered :=
  blank_vl_holdAnswered s.finish_frame
@[simp] theorem State.finish_vl_retuneDue (s : State) : s.finish.vl.retuneDue = s.vl.retuneDue :=
  blank_vl_retuneDue s.finish_frame
@[simp] theorem State.finish_vl_engageHoldAt (s : State) : s.finish.vl.engageHoldAt = s.vl.engageHoldAt :=
  blank_vl_engageHoldAt s.finish_frame
@[simp] theorem State.finish_vl_stopLatch (s : State) : s.finish.vl.stopLatch = s.vl.stopLatch :=
  blank_vl_stopLatch s.finish_frame
@[simp] theorem State.finish_vl_lastCeiling (s : State) : s.finish.vl.lastCeiling = s.vl.lastCeiling :=
  blank_vl_lastCeiling s.finish_frame
@[simp] theorem State.finish_vl_due_tune (s : State) : s.finish.vl.due.tune = s.vl.due.tune :=
  blank_vl_due_tune s.finish_frame
@[simp] theorem State.finish_vl_due_identify (s : State) : s.finish.vl.due.identify = s.vl.due.identify :=
  blank_vl_due_identify s.finish_frame
@[simp] theorem State.finish_vl_due_refresh (s : State) : s.finish.vl.due.refresh = s.vl.due.refresh :=
  blank_vl_due_refresh s.finish_frame
@[simp] theorem State.finish_vl_due_poll (s : State) : s.finish.vl.due.poll = s.vl.due.poll :=
  blank_vl_due_poll s.finish_frame
@[simp] theorem State.finish_sp_config (s : State) : s.finish.sp.config = s.sp.config :=
  blank_sp_config s.finish_frame
@[simp] theorem State.finish_sp_clamped (s : State) : s.finish.sp.clamped = s.sp.clamped :=
  blank_sp_clamped s.finish_frame
@[simp] theorem State.finish_sp_pendingKey (s : State) : s.finish.sp.pendingKey = s.sp.pendingKey :=
  blank_sp_pendingKey s.finish_frame
@[simp] theorem State.finish_sp_locked (s : State) : s.finish.sp.locked = s.sp.locked :=
  blank_sp_locked s.finish_frame
@[simp] theorem State.finish_sp_restarting (s : State) : s.finish.sp.restarting = s.sp.restarting :=
  blank_sp_restarting s.finish_frame
@[simp] theorem State.finish_sp_pointer (s : State) : s.finish.sp.pointer = s.sp.pointer :=
  blank_sp_pointer s.finish_frame
@[simp] theorem State.finish_sp_response (s : State) : s.finish.sp.response = s.sp.response :=
  blank_sp_response s.finish_frame

@[simp] theorem State.takeFrame_now (s : State) : s.takeFrame.now = s.now :=
  blank_now s.takeFrame_frame
@[simp] theorem State.takeFrame_draws (s : State) : s.takeFrame.draws = s.draws :=
  blank_draws s.takeFrame_frame
@[simp] theorem State.takeFrame_pv (s : State) : s.takeFrame.pv = s.pv :=
  blank_pv s.takeFrame_frame
@[simp] theorem State.takeFrame_cu (s : State) : s.takeFrame.cu = s.cu :=
  blank_cu s.takeFrame_frame
@[simp] theorem State.takeFrame_mt (s : State) : s.takeFrame.mt = s.mt :=
  blank_mt s.takeFrame_frame
@[simp] theorem State.takeFrame_pending (s : State) : s.takeFrame.pending = s.pending :=
  blank_pending s.takeFrame_frame
@[simp] theorem State.takeFrame_inputs (s : State) : s.takeFrame.inputs = s.inputs :=
  blank_inputs s.takeFrame_frame
@[simp] theorem State.takeFrame_lp_stall (s : State) : s.takeFrame.lp.stall = s.lp.stall :=
  blank_lp_stall s.takeFrame_frame
@[simp] theorem State.takeFrame_lp_echoFailures (s : State) : s.takeFrame.lp.echoFailures = s.lp.echoFailures :=
  blank_lp_echoFailures s.takeFrame_frame
@[simp] theorem State.takeFrame_lp_standingAt (s : State) : s.takeFrame.lp.standingAt = s.lp.standingAt :=
  blank_lp_standingAt s.takeFrame_frame
@[simp] theorem State.takeFrame_lp_stats (s : State) : s.takeFrame.lp.stats = s.lp.stats :=
  blank_lp_stats s.takeFrame_frame
@[simp] theorem State.takeFrame_ct_tickAt (s : State) : s.takeFrame.ct.tickAt = s.ct.tickAt :=
  blank_ct_tickAt s.takeFrame_frame
@[simp] theorem State.takeFrame_ct_echoAt (s : State) : s.takeFrame.ct.echoAt = s.ct.echoAt :=
  blank_ct_echoAt s.takeFrame_frame
@[simp] theorem State.takeFrame_ct_repeats (s : State) : s.takeFrame.ct.repeats = s.ct.repeats :=
  blank_ct_repeats s.takeFrame_frame
@[simp] theorem State.takeFrame_ea_record (s : State) : s.takeFrame.ea.record = s.ea.record :=
  blank_ea_record s.takeFrame_frame
@[simp] theorem State.takeFrame_ea_estimate (s : State) : s.takeFrame.ea.estimate = s.ea.estimate :=
  blank_ea_estimate s.takeFrame_frame
@[simp] theorem State.takeFrame_ea_reported (s : State) : s.takeFrame.ea.reported = s.ea.reported :=
  blank_ea_reported s.takeFrame_frame
@[simp] theorem State.takeFrame_ea_residue (s : State) : s.takeFrame.ea.residue = s.ea.residue :=
  blank_ea_residue s.takeFrame_frame
@[simp] theorem State.takeFrame_ea_departureLeft (s : State) : s.takeFrame.ea.departureLeft = s.ea.departureLeft :=
  blank_ea_departureLeft s.takeFrame_frame
@[simp] theorem State.takeFrame_ea_minuteAt (s : State) : s.takeFrame.ea.minuteAt = s.ea.minuteAt :=
  blank_ea_minuteAt s.takeFrame_frame
@[simp] theorem State.takeFrame_ap_stepAt (s : State) : s.takeFrame.ap.stepAt = s.ap.stepAt :=
  blank_ap_stepAt s.takeFrame_frame
@[simp] theorem State.takeFrame_cc_measured (s : State) : s.takeFrame.cc.measured = s.cc.measured :=
  blank_cc_measured s.takeFrame_frame
@[simp] theorem State.takeFrame_cc_slewAt (s : State) : s.takeFrame.cc.slewAt = s.cc.slewAt :=
  blank_cc_slewAt s.takeFrame_frame
@[simp] theorem State.takeFrame_cc_ready (s : State) : s.takeFrame.cc.ready = s.cc.ready :=
  blank_cc_ready s.takeFrame_frame
@[simp] theorem State.takeFrame_cc_fault (s : State) : s.takeFrame.cc.fault = s.cc.fault :=
  blank_cc_fault s.takeFrame_frame
@[simp] theorem State.takeFrame_vl_plug (s : State) : s.takeFrame.vl.plug = s.vl.plug :=
  blank_vl_plug s.takeFrame_frame
@[simp] theorem State.takeFrame_vl_inFlight (s : State) : s.takeFrame.vl.inFlight = s.vl.inFlight :=
  blank_vl_inFlight s.takeFrame_frame
@[simp] theorem State.takeFrame_vl_counter (s : State) : s.takeFrame.vl.counter = s.vl.counter :=
  blank_vl_counter s.takeFrame_frame
@[simp] theorem State.takeFrame_vl_items (s : State) : s.takeFrame.vl.items = s.vl.items :=
  blank_vl_items s.takeFrame_frame
@[simp] theorem State.takeFrame_vl_identifyAt (s : State) : s.takeFrame.vl.identifyAt = s.vl.identifyAt :=
  blank_vl_identifyAt s.takeFrame_frame
@[simp] theorem State.takeFrame_vl_requeryAt (s : State) : s.takeFrame.vl.requeryAt = s.vl.requeryAt :=
  blank_vl_requeryAt s.takeFrame_frame
@[simp] theorem State.takeFrame_vl_retryAt (s : State) : s.takeFrame.vl.retryAt = s.vl.retryAt :=
  blank_vl_retryAt s.takeFrame_frame
@[simp] theorem State.takeFrame_vl_failures (s : State) : s.takeFrame.vl.failures = s.vl.failures :=
  blank_vl_failures s.takeFrame_frame
@[simp] theorem State.takeFrame_vl_lastFailure (s : State) : s.takeFrame.vl.lastFailure = s.vl.lastFailure :=
  blank_vl_lastFailure s.takeFrame_frame
@[simp] theorem State.takeFrame_vl_releaseOwed (s : State) : s.takeFrame.vl.releaseOwed = s.vl.releaseOwed :=
  blank_vl_releaseOwed s.takeFrame_frame
@[simp] theorem State.takeFrame_vl_refreshAt (s : State) : s.takeFrame.vl.refreshAt = s.vl.refreshAt :=
  blank_vl_refreshAt s.takeFrame_frame
@[simp] theorem State.takeFrame_vl_allowance (s : State) : s.takeFrame.vl.allowance = s.vl.allowance :=
  blank_vl_allowance s.takeFrame_frame
@[simp] theorem State.takeFrame_vl_desired (s : State) : s.takeFrame.vl.desired = s.vl.desired :=
  blank_vl_desired s.takeFrame_frame
@[simp] theorem State.takeFrame_vl_phase (s : State) : s.takeFrame.vl.phase = s.vl.phase :=
  blank_vl_phase s.takeFrame_frame
@[simp] theorem State.takeFrame_vl_kind (s : State) : s.takeFrame.vl.kind = s.vl.kind :=
  blank_vl_kind s.takeFrame_frame
@[simp] theorem State.takeFrame_vl_code (s : State) : s.takeFrame.vl.code = s.vl.code :=
  blank_vl_code s.takeFrame_frame
@[simp] theorem State.takeFrame_vl_busLevel (s : State) : s.takeFrame.vl.busLevel = s.vl.busLevel :=
  blank_vl_busLevel s.takeFrame_frame
@[simp] theorem State.takeFrame_vl_busStatus (s : State) : s.takeFrame.vl.busStatus = s.vl.busStatus :=
  blank_vl_busStatus s.takeFrame_frame
@[simp] theorem State.takeFrame_vl_tuningAt (s : State) : s.takeFrame.vl.tuningAt = s.vl.tuningAt :=
  blank_vl_tuningAt s.takeFrame_frame
@[simp] theorem State.takeFrame_vl_stepAt (s : State) : s.takeFrame.vl.stepAt = s.vl.stepAt :=
  blank_vl_stepAt s.takeFrame_frame
@[simp] theorem State.takeFrame_vl_settleAt (s : State) : s.takeFrame.vl.settleAt = s.vl.settleAt :=
  blank_vl_settleAt s.takeFrame_frame
@[simp] theorem State.takeFrame_vl_holdAnswered (s : State) : s.takeFrame.vl.holdAnswered = s.vl.holdAnswered :=
  blank_vl_holdAnswered s.takeFrame_frame
@[simp] theorem State.takeFrame_vl_retuneDue (s : State) : s.takeFrame.vl.retuneDue = s.vl.retuneDue :=
  blank_vl_retuneDue s.takeFrame_frame
@[simp] theorem State.takeFrame_vl_engageHoldAt (s : State) : s.takeFrame.vl.engageHoldAt = s.vl.engageHoldAt :=
  blank_vl_engageHoldAt s.takeFrame_frame
@[simp] theorem State.takeFrame_vl_stopLatch (s : State) : s.takeFrame.vl.stopLatch = s.vl.stopLatch :=
  blank_vl_stopLatch s.takeFrame_frame
@[simp] theorem State.takeFrame_vl_lastCeiling (s : State) : s.takeFrame.vl.lastCeiling = s.vl.lastCeiling :=
  blank_vl_lastCeiling s.takeFrame_frame
@[simp] theorem State.takeFrame_vl_due_tune (s : State) : s.takeFrame.vl.due.tune = s.vl.due.tune :=
  blank_vl_due_tune s.takeFrame_frame
@[simp] theorem State.takeFrame_vl_due_identify (s : State) : s.takeFrame.vl.due.identify = s.vl.due.identify :=
  blank_vl_due_identify s.takeFrame_frame
@[simp] theorem State.takeFrame_vl_due_refresh (s : State) : s.takeFrame.vl.due.refresh = s.vl.due.refresh :=
  blank_vl_due_refresh s.takeFrame_frame
@[simp] theorem State.takeFrame_vl_due_poll (s : State) : s.takeFrame.vl.due.poll = s.vl.due.poll :=
  blank_vl_due_poll s.takeFrame_frame
@[simp] theorem State.takeFrame_sp_config (s : State) : s.takeFrame.sp.config = s.sp.config :=
  blank_sp_config s.takeFrame_frame
@[simp] theorem State.takeFrame_sp_clamped (s : State) : s.takeFrame.sp.clamped = s.sp.clamped :=
  blank_sp_clamped s.takeFrame_frame
@[simp] theorem State.takeFrame_sp_pendingKey (s : State) : s.takeFrame.sp.pendingKey = s.sp.pendingKey :=
  blank_sp_pendingKey s.takeFrame_frame
@[simp] theorem State.takeFrame_sp_locked (s : State) : s.takeFrame.sp.locked = s.sp.locked :=
  blank_sp_locked s.takeFrame_frame
@[simp] theorem State.takeFrame_sp_restarting (s : State) : s.takeFrame.sp.restarting = s.sp.restarting :=
  blank_sp_restarting s.takeFrame_frame
@[simp] theorem State.takeFrame_sp_pointer (s : State) : s.takeFrame.sp.pointer = s.sp.pointer :=
  blank_sp_pointer s.takeFrame_frame
@[simp] theorem State.takeFrame_sp_response (s : State) : s.takeFrame.sp.response = s.sp.response :=
  blank_sp_response s.takeFrame_frame

@[simp] theorem State.react_now (s : State) : s.react.now = s.now :=
  blank_now s.react_frame
@[simp] theorem State.react_draws (s : State) : s.react.draws = s.draws :=
  blank_draws s.react_frame
@[simp] theorem State.react_pv (s : State) : s.react.pv = s.pv :=
  blank_pv s.react_frame
@[simp] theorem State.react_cu (s : State) : s.react.cu = s.cu :=
  blank_cu s.react_frame
@[simp] theorem State.react_mt (s : State) : s.react.mt = s.mt :=
  blank_mt s.react_frame
@[simp] theorem State.react_pending (s : State) : s.react.pending = s.pending :=
  blank_pending s.react_frame
@[simp] theorem State.react_inputs (s : State) : s.react.inputs = s.inputs :=
  blank_inputs s.react_frame
@[simp] theorem State.react_lp_stall (s : State) : s.react.lp.stall = s.lp.stall :=
  blank_lp_stall s.react_frame
@[simp] theorem State.react_lp_echoFailures (s : State) : s.react.lp.echoFailures = s.lp.echoFailures :=
  blank_lp_echoFailures s.react_frame
@[simp] theorem State.react_lp_standingAt (s : State) : s.react.lp.standingAt = s.lp.standingAt :=
  blank_lp_standingAt s.react_frame
@[simp] theorem State.react_lp_stats (s : State) : s.react.lp.stats = s.lp.stats :=
  blank_lp_stats s.react_frame
@[simp] theorem State.react_ct_tickAt (s : State) : s.react.ct.tickAt = s.ct.tickAt :=
  blank_ct_tickAt s.react_frame
@[simp] theorem State.react_ct_echoAt (s : State) : s.react.ct.echoAt = s.ct.echoAt :=
  blank_ct_echoAt s.react_frame
@[simp] theorem State.react_ct_repeats (s : State) : s.react.ct.repeats = s.ct.repeats :=
  blank_ct_repeats s.react_frame
@[simp] theorem State.react_ea_record (s : State) : s.react.ea.record = s.ea.record :=
  blank_ea_record s.react_frame
@[simp] theorem State.react_ea_estimate (s : State) : s.react.ea.estimate = s.ea.estimate :=
  blank_ea_estimate s.react_frame
@[simp] theorem State.react_ea_reported (s : State) : s.react.ea.reported = s.ea.reported :=
  blank_ea_reported s.react_frame
@[simp] theorem State.react_ea_residue (s : State) : s.react.ea.residue = s.ea.residue :=
  blank_ea_residue s.react_frame
@[simp] theorem State.react_ea_departureLeft (s : State) : s.react.ea.departureLeft = s.ea.departureLeft :=
  blank_ea_departureLeft s.react_frame
@[simp] theorem State.react_ea_minuteAt (s : State) : s.react.ea.minuteAt = s.ea.minuteAt :=
  blank_ea_minuteAt s.react_frame
@[simp] theorem State.react_ap_stepAt (s : State) : s.react.ap.stepAt = s.ap.stepAt :=
  blank_ap_stepAt s.react_frame
@[simp] theorem State.react_cc_measured (s : State) : s.react.cc.measured = s.cc.measured :=
  blank_cc_measured s.react_frame
@[simp] theorem State.react_cc_slewAt (s : State) : s.react.cc.slewAt = s.cc.slewAt :=
  blank_cc_slewAt s.react_frame
@[simp] theorem State.react_cc_ready (s : State) : s.react.cc.ready = s.cc.ready :=
  blank_cc_ready s.react_frame
@[simp] theorem State.react_cc_fault (s : State) : s.react.cc.fault = s.cc.fault :=
  blank_cc_fault s.react_frame
@[simp] theorem State.react_vl_plug (s : State) : s.react.vl.plug = s.vl.plug :=
  blank_vl_plug s.react_frame
@[simp] theorem State.react_vl_inFlight (s : State) : s.react.vl.inFlight = s.vl.inFlight :=
  blank_vl_inFlight s.react_frame
@[simp] theorem State.react_vl_counter (s : State) : s.react.vl.counter = s.vl.counter :=
  blank_vl_counter s.react_frame
@[simp] theorem State.react_vl_items (s : State) : s.react.vl.items = s.vl.items :=
  blank_vl_items s.react_frame
@[simp] theorem State.react_vl_identifyAt (s : State) : s.react.vl.identifyAt = s.vl.identifyAt :=
  blank_vl_identifyAt s.react_frame
@[simp] theorem State.react_vl_requeryAt (s : State) : s.react.vl.requeryAt = s.vl.requeryAt :=
  blank_vl_requeryAt s.react_frame
@[simp] theorem State.react_vl_retryAt (s : State) : s.react.vl.retryAt = s.vl.retryAt :=
  blank_vl_retryAt s.react_frame
@[simp] theorem State.react_vl_failures (s : State) : s.react.vl.failures = s.vl.failures :=
  blank_vl_failures s.react_frame
@[simp] theorem State.react_vl_lastFailure (s : State) : s.react.vl.lastFailure = s.vl.lastFailure :=
  blank_vl_lastFailure s.react_frame
@[simp] theorem State.react_vl_releaseOwed (s : State) : s.react.vl.releaseOwed = s.vl.releaseOwed :=
  blank_vl_releaseOwed s.react_frame
@[simp] theorem State.react_vl_refreshAt (s : State) : s.react.vl.refreshAt = s.vl.refreshAt :=
  blank_vl_refreshAt s.react_frame
@[simp] theorem State.react_vl_allowance (s : State) : s.react.vl.allowance = s.vl.allowance :=
  blank_vl_allowance s.react_frame
@[simp] theorem State.react_vl_desired (s : State) : s.react.vl.desired = s.vl.desired :=
  blank_vl_desired s.react_frame
@[simp] theorem State.react_vl_phase (s : State) : s.react.vl.phase = s.vl.phase :=
  blank_vl_phase s.react_frame
@[simp] theorem State.react_vl_kind (s : State) : s.react.vl.kind = s.vl.kind :=
  blank_vl_kind s.react_frame
@[simp] theorem State.react_vl_code (s : State) : s.react.vl.code = s.vl.code :=
  blank_vl_code s.react_frame
@[simp] theorem State.react_vl_busLevel (s : State) : s.react.vl.busLevel = s.vl.busLevel :=
  blank_vl_busLevel s.react_frame
@[simp] theorem State.react_vl_busStatus (s : State) : s.react.vl.busStatus = s.vl.busStatus :=
  blank_vl_busStatus s.react_frame
@[simp] theorem State.react_vl_tuningAt (s : State) : s.react.vl.tuningAt = s.vl.tuningAt :=
  blank_vl_tuningAt s.react_frame
@[simp] theorem State.react_vl_stepAt (s : State) : s.react.vl.stepAt = s.vl.stepAt :=
  blank_vl_stepAt s.react_frame
@[simp] theorem State.react_vl_settleAt (s : State) : s.react.vl.settleAt = s.vl.settleAt :=
  blank_vl_settleAt s.react_frame
@[simp] theorem State.react_vl_holdAnswered (s : State) : s.react.vl.holdAnswered = s.vl.holdAnswered :=
  blank_vl_holdAnswered s.react_frame
@[simp] theorem State.react_vl_retuneDue (s : State) : s.react.vl.retuneDue = s.vl.retuneDue :=
  blank_vl_retuneDue s.react_frame
@[simp] theorem State.react_vl_engageHoldAt (s : State) : s.react.vl.engageHoldAt = s.vl.engageHoldAt :=
  blank_vl_engageHoldAt s.react_frame
@[simp] theorem State.react_vl_stopLatch (s : State) : s.react.vl.stopLatch = s.vl.stopLatch :=
  blank_vl_stopLatch s.react_frame
@[simp] theorem State.react_vl_lastCeiling (s : State) : s.react.vl.lastCeiling = s.vl.lastCeiling :=
  blank_vl_lastCeiling s.react_frame
@[simp] theorem State.react_vl_due_tune (s : State) : s.react.vl.due.tune = s.vl.due.tune :=
  blank_vl_due_tune s.react_frame
@[simp] theorem State.react_vl_due_identify (s : State) : s.react.vl.due.identify = s.vl.due.identify :=
  blank_vl_due_identify s.react_frame
@[simp] theorem State.react_vl_due_refresh (s : State) : s.react.vl.due.refresh = s.vl.due.refresh :=
  blank_vl_due_refresh s.react_frame
@[simp] theorem State.react_vl_due_poll (s : State) : s.react.vl.due.poll = s.vl.due.poll :=
  blank_vl_due_poll s.react_frame
@[simp] theorem State.react_sp_config (s : State) : s.react.sp.config = s.sp.config :=
  blank_sp_config s.react_frame
@[simp] theorem State.react_sp_clamped (s : State) : s.react.sp.clamped = s.sp.clamped :=
  blank_sp_clamped s.react_frame
@[simp] theorem State.react_sp_pendingKey (s : State) : s.react.sp.pendingKey = s.sp.pendingKey :=
  blank_sp_pendingKey s.react_frame
@[simp] theorem State.react_sp_locked (s : State) : s.react.sp.locked = s.sp.locked :=
  blank_sp_locked s.react_frame
@[simp] theorem State.react_sp_restarting (s : State) : s.react.sp.restarting = s.sp.restarting :=
  blank_sp_restarting s.react_frame
@[simp] theorem State.react_sp_pointer (s : State) : s.react.sp.pointer = s.sp.pointer :=
  blank_sp_pointer s.react_frame
@[simp] theorem State.react_sp_response (s : State) : s.react.sp.response = s.sp.response :=
  blank_sp_response s.react_frame

end Sys2Proof.Machine
end

