-- ==== Sys2Proof/Laws/Moves.lean ====
section
/-!
SUPPORT. How the fields that the at-once reactions do change can move: the event counts only rise, the call
records change in the serving flag alone, the session moves from EXPORTING to RELEASING or from ABSENT to
ATTACHED, the mode leaves PARKING by the park's completion or DORMANT by the plug, and the setpoint moves to 0.
-/

namespace Sys2Proof.Safety

open Sys2Proof.Machine

/-! ### The serving flag -/

/-- A record with its serving flag set when it is in force. -/
theorem markServing_twice (rs : List CallRecord) : markServing (markServing rs) = markServing rs := by
  unfold markServing
  rw [List.map_map]
  congr 1
  funext r
  by_cases h : r.inForce = true
  · have h2 : CallRecord.inForce { r with serving := true } = true := h
    simp [Function.comp, h, h2]
  · simp [Function.comp, h]

theorem inForce_serving (r : CallRecord) (b : Bool) :
    CallRecord.inForce { r with serving := b } = r.inForce := rfl

/-! ### The relation -/

theorem Moves.refl (s : State) : Moves s s where
  counts _ h := ⟨Nat.le_refl _, h⟩
  others _ _ := rfl
  records := .inl rfl
  clock := rfl
  poll := .inl rfl
  plug := rfl
  restarting := rfl
  session := .inl rfl
  mode := .inl rfl
  setpoint := .inl rfl
  on := id
  enables := .inl
  steady _ h := ⟨rfl, rfl, rfl, rfl, rfl, h⟩
  flows h _ := ⟨h, rfl⟩
  line := .inl rfl

theorem Moves.trans {s t u : State} (h : Moves s t) (g : Moves t u) : Moves s u where
  counts k hk := by
    have a := h.counts k hk
    have b := g.counts k a.2
    exact ⟨Nat.le_trans a.1 b.1, b.2⟩
  others k hk := (g.others k hk).trans (h.others k hk)
  records := by
    rcases h.records with a | a <;> rcases g.records with b | b
    · left; rw [b, a]
    · right; rw [b, a]
    · right; rw [b, a]
    · right; rw [b, a, markServing_twice]
  clock := g.clock.trans h.clock
  poll := by
    have c := h.clock
    rcases h.poll with a | ⟨a1, a2, a3, a4⟩ <;> rcases g.poll with b | ⟨b1, b2, b3, b4⟩
    · exact .inl (b.trans a)
    · right
      rcases h.mode with m | ⟨_, m | m⟩
      · exact ⟨m ▸ b1, b2, a ▸ b3, c ▸ b4⟩
      · rw [b1] at m; simp at m
      · rw [b1] at m; simp at m
    · right
      refine ⟨a1, ?_, a3, b.trans a4⟩
      rcases g.mode with m | ⟨_, m | m⟩
      · exact m.trans a2
      · rw [a2] at m; simp at m
      · rw [a2] at m; simp at m
    · rw [a2] at b1; cases b1
  plug := g.plug.trans h.plug
  restarting := g.restarting.trans h.restarting
  session := by
    have p := h.plug
    rcases h.session with a | a | a <;> rcases g.session with b | b | b <;> simp_all
  mode := by
    have p := h.plug
    have r := h.restarting
    rcases h.mode with a | ⟨q, a | a⟩ <;> rcases g.mode with b | ⟨q', b | b⟩ <;> simp_all
  setpoint := by
    rcases h.setpoint with a | a <;> rcases g.setpoint with b | b <;> simp_all
  on e := h.on (g.on e)
  enables e := by
    rcases g.enables e with a | a
    · rcases h.enables a with b | b
      · exact .inl b
      · right
        refine ⟨?_, b.2⟩
        rcases g.mode with c | ⟨_, c | c⟩
        · rw [c, b.1]
        · rw [b.1] at c; exact absurd c.1 (by decide)
        · exact c.2.2
    · right; rw [← h.restarting]; exact a
  steady hs hp := by
    obtain ⟨a1, a2, a3, a4, a5, a6⟩ := h.steady hs hp
    obtain ⟨b1, b2, b3, b4, b5, b6⟩ := g.steady (by rw [a1]; exact hs) a6
    exact ⟨b1.trans a1, b2.trans a2, b3.trans a3, b4.trans a4, b5.trans a5, b6⟩
  flows hf hp := by
    obtain ⟨a1, a2⟩ := h.flows hf hp
    obtain ⟨b1, b2⟩ := g.flows a1 (by rw [a2]; exact hp)
    exact ⟨b1, b2.trans a2⟩
  line := by
    rcases h.line with a | ⟨a1, a2, f, q, a3, a4, a5, a6, body, a7⟩
    · rw [← a]; exact g.line
    · rcases g.line with b | ⟨b1, _⟩
      · right; rw [b]; exact ⟨a1, a2, f, q, a3, a4, a5, a6, body, a7⟩
      · rw [a7] at b1; exact absurd b1 (by simp)

/-- Replacing a block that the relation does not look into. -/
theorem Moves.of_same {s t : State} (he : t.sp.events = s.sp.events)
    (hr : t.ct.records = s.ct.records) (hp : t.vl.plug = s.vl.plug)
    (hs : t.vl.session = s.vl.session) (hm : t.sp.mode = s.sp.mode)
    (hw : t.sp.restarting = s.sp.restarting) (hc : t.cc = s.cc) (hl : t.lp = s.lp)
    (hn : t.now = s.now := by rfl) (hv : t.vl.pollAt = s.vl.pollAt := by rfl) :
    Moves s t where
  clock := hn
  poll := .inl hv
  counts k h := by rw [he]; exact ⟨Nat.le_refl _, h⟩
  others k _ := by rw [he]
  records := .inl hr
  plug := hp
  restarting := hw
  session := .inl hs
  mode := .inl hm
  setpoint := .inl (by rw [hc])
  on e := by rw [← hc]; exact e
  enables e := by rw [← hc]; exact .inl e
  steady _ h := by rw [hc]; exact ⟨rfl, rfl, rfl, rfl, rfl, h⟩
  flows h _ := by
    refine ⟨?_, by rw [hc]⟩
    unfold State.powerPath at h ⊢
    rw [hc, hs]; exact h
  line := .inl hl

theorem Moves.raise (s : State) (k : EventKind) (hk : raisedAtOnce k = true) :
    Moves s (s.raise k) where
  counts j h := by
    refine ⟨?_, ?_⟩
    · simpa using EventSet.count_le_raise s.sp.events j k h
    · by_cases e : j = k
      · subst e; simp only [State.raise_sp_events, EventSet.count_raise_self]; exact satSucc_le _ _
      · simpa only [State.raise_sp_events, EventSet.count_raise_of_ne _ e] using h
  others j hj := by
    have : j ≠ k := by intro e; subst e; rw [hk] at hj; exact absurd hj (by decide)
    simp only [State.raise_sp_events, EventSet.count_raise_of_ne _ this]
  records := .inl rfl
  clock := rfl
  poll := .inl rfl
  plug := rfl
  restarting := rfl
  session := .inl rfl
  mode := .inl rfl
  setpoint := .inl rfl
  on := id
  enables := .inl
  steady _ h := ⟨rfl, rfl, rfl, rfl, rfl, h⟩
  flows h _ := ⟨h, rfl⟩
  line := .inl rfl

theorem Moves.raiseIf (s : State) (p : Bool) (k : EventKind) (hk : raisedAtOnce k = true) :
    Moves s (s.raiseIf p k) := by
  cases p
  · exact Moves.refl s
  · exact Moves.raise s k hk

/-- A change of the converter from a state in which `steady` and `flows` claim nothing. -/
theorem Moves.setCc (s : State) (c : Converter) (h : c.setpoint = s.cc.setpoint ∨ c.setpoint = 0)
    (ho : c.state = .on → s.cc.state = .on)
    (he : c.state.enabled = true →
      s.cc.state.enabled = true ∨ (s.sp.mode = .active ∧ s.sp.restarting = none))
    (hn : s.cc.state = .off ∨ (s.cc.state = .on ∧ s.cc.stopPending = true ∧ s.cc.setpoint = 0)) :
    Moves s (s.setCc c) where
  counts _ h := ⟨Nat.le_refl _, h⟩
  others _ _ := rfl
  records := .inl rfl
  clock := rfl
  poll := .inl rfl
  plug := rfl
  restarting := rfl
  session := .inl rfl
  mode := .inl rfl
  setpoint := h
  on := ho
  enables := he
  steady a b := by
    rcases hn with hn | hn
    · exact absurd hn a
    · have := b hn.1; rw [hn.2.1] at this; exact absurd this (by decide)
  flows a b := by
    rcases hn with hn | hn
    · unfold State.powerPath at a; rw [hn] at a; exact absurd a (by simp)
    · omega
  line := .inl rfl

/-- A change of the converter that leaves its state, its timers and its setpoint as they are. -/
theorem Moves.setCc_same (s : State) (c : Converter) (h : c.setpoint = s.cc.setpoint)
    (ho : c.state = s.cc.state) (hp : c.prechargeAt = s.cc.prechargeAt)
    (hr : c.retryAt = s.cc.retryAt) (hs : c.stableAt = s.cc.stableAt)
    (hf : c.failures = s.cc.failures) (hq : c.stopPending = s.cc.stopPending ∨ c.stopPending = false) :
    Moves s (s.setCc c) where
  counts _ h := ⟨Nat.le_refl _, h⟩
  others _ _ := rfl
  records := .inl rfl
  clock := rfl
  poll := .inl rfl
  plug := rfl
  restarting := rfl
  session := .inl rfl
  mode := .inl rfl
  setpoint := .inl h
  on e := by rw [← ho]; exact e
  enables e := by rw [← ho]; exact .inl e
  steady a b := by
    refine ⟨ho, hp, hr, hs, hf, fun e => ?_⟩
    have e' : c.state = .on := e
    rcases hq with q | q
    · exact (show c.stopPending = false by rw [q]; exact b (by rw [← ho]; exact e'))
    · exact q
  flows a _ := by
    refine ⟨?_, h⟩
    unfold State.powerPath at a ⊢
    simp only [State.setCc_cc, State.setCc_vl, ho]; exact a
  line := .inl rfl

theorem Moves.setVl (s : State) (v : VehicleLink) (hp : v.plug = s.vl.plug)
    (hs : v.session = s.vl.session) (hv : v.pollAt = s.vl.pollAt := by rfl) :
    Moves s (s.setVl v) where
  clock := rfl
  poll := .inl hv
  counts _ h := ⟨Nat.le_refl _, h⟩
  others _ _ := rfl
  records := .inl rfl
  plug := hp
  restarting := rfl
  session := .inl hs
  mode := .inl rfl
  setpoint := .inl rfl
  on := id
  enables := .inl
  steady _ h := ⟨rfl, rfl, rfl, rfl, rfl, h⟩
  flows a _ := by
    refine ⟨?_, rfl⟩
    unfold State.powerPath at a ⊢
    simp only [State.setVl_cc, State.setVl_vl, hs]; exact a
  line := .inl rfl

theorem Moves.setEa (s : State) (a : EnergyAccount) : Moves s (s.setEa a) :=
  Moves.of_same rfl rfl rfl rfl rfl rfl rfl rfl

theorem Moves.compute (s : State) (t : Trigger) : Moves s (s.compute t) := by
  simp only [State.compute]
  split
  · exact { Moves.refl s with records := .inr rfl }
  · exact Moves.of_same rfl rfl rfl rfl rfl rfl rfl rfl

/-! ### Each reaction -/

theorem holdSetpoint_moves (s : State) : Moves s s.holdSetpoint := by
  unfold State.holdSetpoint; split
  · exact Moves.refl s
  · rename_i h
    exact { Moves.refl s with
      setpoint := .inr rfl
      flows := fun a _ => absurd a h }

theorem noticeTest_moves (s : State) : Moves s s.noticeTest := by
  unfold State.noticeTest; split
  · exact (Moves.setEa s _).trans (Moves.raise _ _ rfl)
  · exact (Moves.setEa s _).trans (Moves.raise _ _ rfl)
  · exact Moves.refl s

theorem gateNotice_moves (s : State) : Moves s s.gateNotice := by
  unfold State.gateNotice; split
  · exact Moves.refl s
  · exact (Moves.setEa s _).trans (Moves.compute _ _)

theorem shareZeroTest_moves (s : State) : Moves s s.shareZeroTest := by
  unfold State.shareZeroTest; split
  · split
    · exact Moves.refl s
    · exact Moves.setVl s _ rfl rfl
  · exact Moves.setVl s _ rfl rfl

theorem stopTest_moves (s : State) : Moves s s.stopTest := by
  unfold State.stopTest; split
  · rename_i h
    unfold State.stopReady at h
    simp at h
    exact Moves.setCc s _ (.inr rfl) (fun e => by cases e) (fun e => by cases e)
      (.inr ⟨h.1.1.1, h.1.1.2, h.1.2⟩)
  · exact Moves.refl s

theorem releaseTest_moves (s : State) : Moves s s.releaseTest := by
  unfold State.releaseTest; split
  · rename_i h
    unfold State.releaseWanted at h
    simp at h
    exact { Moves.refl s with
      session := .inr (.inl ⟨h.1.1, rfl⟩)
      flows := fun _ b => by have := h.1.2; omega }
  · exact Moves.refl s

theorem convFails_moves (s : State) (k : EventKind) (hk : raisedAtOnce k = true)
    (h : s.cc.state = .off) : Moves s (s.convFails k) := by
  simp only [State.convFails]
  refine Moves.trans (Moves.setCc s _ (Or.inr (by rfl)) ?_ ?_ (.inl h))
    ((Moves.raise _ _ hk).trans (Moves.raiseIf _ _ _ rfl))
  · intro e; dsimp only at e; split at e <;> cases e
  · intro e; dsimp only at e; split at e <;> cases e

/-- Starting a precharge that trips at once is failing from OFF. -/
theorem convFails_of_cc (s : State) (c : Converter) (k : EventKind)
    (h : c.disabled = s.cc.disabled) (hf : c.failures = s.cc.failures) :
    (s.setCc c).convFails k = s.convFails k := by
  have e : ∀ (x : ConverterState) (y : Timer) (z : Nat),
      ({ c.disabled with state := x, retryAt := y, failures := z } : Converter) =
        { s.cc.disabled with state := x, retryAt := y, failures := z } := by
    intro x y z; rw [h]
  simp only [State.convFails, State.setCc_cc, State.setCc_now, hf, e]
  rfl

theorem startPrecharge_moves (s : State) (h : s.sp.mode = .active) (g : s.sp.restarting = none)
    (ho : s.cc.state = .off) : Moves s s.startPrecharge := by
  simp only [State.startPrecharge]; split
  · rw [convFails_of_cc s _ _ (by rfl) (by rfl)]
    exact convFails_moves s _ rfl ho
  · exact Moves.setCc s _ (.inl rfl) (fun e => by cases e) (fun _ => .inr ⟨h, g⟩) (.inl ho)

theorem startRequest_active {s : State} (h : s.startRequest = true) :
    s.sp.mode = .active ∧ s.sp.restarting = none := by
  unfold State.startRequest at h; simp at h; exact ⟨h.1.1.1.1, h.1.2⟩

theorem startTest_moves (s : State) : Moves s s.startTest := by
  have h0 : Moves s (s.setCc { s.cc with startHeld := s.startRequest }) :=
    Moves.setCc_same s _ rfl rfl rfl rfl rfl rfl (.inl rfl)
  simp only [State.startTest]
  split
  · rename_i ho
    split
    · rename_i h
      have a := startRequest_active h
      exact h0.trans (startPrecharge_moves _ a.1 a.2 ho)
    · exact h0
  · split
    · exact Moves.setCc_same s _ rfl rfl rfl rfl rfl rfl (.inl rfl)
    · split
      · exact Moves.setCc_same s _ rfl rfl rfl rfl rfl rfl (.inl rfl)
      · exact h0
  · split
    · exact Moves.setCc_same s _ rfl rfl rfl rfl rfl rfl (.inr rfl)
    · split
      · exact Moves.setCc_same s _ rfl rfl rfl rfl rfl rfl (.inl rfl)
      · split
        · exact Moves.setCc_same s _ rfl rfl rfl rfl rfl rfl (.inl rfl)
        · exact h0
  · exact h0

theorem engageTest_moves (s : State) : Moves s s.engageTest := Moves.setVl s _ rfl rfl

theorem retuneTest_moves (s : State) : Moves s s.retuneTest := by
  unfold State.retuneTest; split
  · split
    · exact Moves.refl s
    · exact Moves.setVl s _ rfl rfl
  · exact Moves.setVl s _ rfl rfl

/-- A change of mode writes the mode, and starts a running poll timer again where the period changes (R147). -/
theorem setMode_eq (s : State) (m : PostMode) : s.setMode m = { s with
    vl := { s.vl with
      pollAt :=
        if (s.sp.mode != m) && (s.sp.mode.slowPoll || m.slowPoll) && s.vl.pollAt.isSome then
          some (s.now + m.pollPeriod)
        else s.vl.pollAt }
    sp := { s.sp with mode := m } } := by
  unfold State.setMode
  dsimp only
  split <;> rfl

/-- A change of mode that one of the two rules of `Moves.mode` allows. -/
theorem setMode_moves (s : State) (m : PostMode) (hr : s.sp.restarting = none)
    (h : (s.sp.mode = .parking ∧ (m = .hold ∨ (m = .dormant ∧ s.vl.plug = false))) ∨
      (s.sp.mode = .dormant ∧ s.vl.plug = true ∧ m = .active)) : Moves s (s.setMode m) where
  counts k h := by simp only [State.setMode_sp_events]; exact ⟨Nat.le_refl _, h⟩
  others k _ := by simp only [State.setMode_sp_events]
  records := .inl (by simp only [State.setMode_ct])
  clock := by simp only [State.setMode_now]
  poll := by
    by_cases e : s.vl.pollAt = none
    · left; rw [setMode_eq]; simp [e]
    · rcases h with ⟨a, b | b⟩ | b
      · right
        have e' : s.vl.pollAt.isSome = true := by cases h : s.vl.pollAt <;> simp_all
        rw [setMode_eq, b]; simp [a, e, e', PostMode.slowPoll, PostMode.pollPeriod]
      · left; rw [setMode_eq, b.1]; simp [a, PostMode.slowPoll]
      · left; rw [setMode_eq, b.2.2]; simp [b.1, PostMode.slowPoll]
  plug := by simp only [State.setMode_vl_plug]
  restarting := by simp only [State.setMode_sp_restarting]
  session := .inl (by simp only [State.setMode_vl_session])
  mode := .inr ⟨hr, by simpa only [State.setMode_sp_mode] using h⟩
  setpoint := .inl (by simp only [State.setMode_cc])
  on e := by simpa only [State.setMode_cc] using e
  enables e := by simp only [State.setMode_cc] at e; exact .inl e
  steady _ h := by rw [State.setMode_cc]; exact ⟨rfl, rfl, rfl, rfl, rfl, h⟩
  flows a _ := by
    unfold State.powerPath at a ⊢
    rw [State.setMode_cc, State.setMode_vl_session]; exact ⟨a, rfl⟩
  line := .inl (by simp only [State.setMode_lp])

theorem parkTest_moves (s : State) : Moves s s.parkTest := by
  unfold State.parkTest; split
  · rename_i h
    unfold State.parkReady at h; simp at h
    apply setMode_moves s _ h.2
    left
    refine ⟨h.1.1.1.1, ?_⟩
    cases s.vl.plug <;> simp
  · exact Moves.refl s

theorem plugWake_moves (s : State) : Moves s s.plugWake := by
  unfold State.plugWake; split
  · rename_i h
    exact setMode_moves s _ h.2.2 (.inr ⟨h.1, h.2.1, rfl⟩)
  · exact Moves.refl s

theorem meetPlug_moves (s : State) : Moves s s.meetPlug := by
  unfold State.meetPlug; split
  · rename_i h
    simp at h
    unfold State.attach
    refine Moves.trans ?_ (Moves.raise _ _ rfl)
    exact { Moves.refl s with
      session := .inr (.inr ⟨h.2, rfl, h.1.2⟩)
      flows := fun a _ => by unfold State.powerPath at a; rw [h.2] at a; exact absurd a (by simp) }
  · exact Moves.refl s

theorem takeFrame_moves (s : State) : Moves s s.takeFrame := by
  unfold State.takeFrame; split
  · rename_i f q hf hq
    split
    · rename_i h
      simp at h
      exact { Moves.refl s with
        line := .inr ⟨hf, h.1, f, q, hq, rfl, rfl, rfl, _, rfl⟩ }
    · exact Moves.refl s
  · exact Moves.refl s

theorem react_moves (s : State) : Moves s s.react := by
  unfold State.react
  exact ((((((((((((holdSetpoint_moves _).trans (noticeTest_moves _)).trans
    (gateNotice_moves _)).trans (shareZeroTest_moves _)).trans (stopTest_moves _)).trans
    (releaseTest_moves _)).trans (startTest_moves _)).trans (engageTest_moves _)).trans
    (retuneTest_moves _)).trans (parkTest_moves _)).trans (plugWake_moves _)).trans
    (meetPlug_moves _))

theorem settle_moves (s : State) : Moves s s.settle := by
  unfold State.settle
  exact ((((react_moves _).trans (react_moves _)).trans (react_moves _)).trans (react_moves _)).trans
    (react_moves _)

/-- What the end of a command's handling can do to the fields that it may change. -/
theorem finish_moves (s : State) : Moves s s.finish := by
  unfold State.finish; split
  · exact ((settle_moves s).trans (holdSetpoint_moves _)).trans (takeFrame_moves _)
  · exact Moves.refl s

/-- The end of a command's handling is what may follow at once. -/
theorem finish_reacted (s : State) : Reacted s s.finish := ⟨s.finish_frame, finish_moves s⟩

/-- Taking a waiting frame is what may follow at once. -/
theorem takeFrame_reacted (s : State) : Reacted s s.takeFrame := ⟨s.takeFrame_frame, takeFrame_moves s⟩

/-! ### Composing what followed -/

theorem Reacted.refl (s : State) : Reacted s s := ⟨rfl, Moves.refl s⟩

theorem Reacted.trans {s t u : State} (h : Reacted s t) (g : Reacted t u) : Reacted s u :=
  ⟨g.1.trans h.1, h.2.trans g.2⟩

/-- Two states that differ in what the relation does not look into. -/
theorem Reacted.of_same {s t : State} (h : blank t = blank s) (he : t.sp.events = s.sp.events)
    (hr : t.ct.records = s.ct.records) (hs : t.vl.session = s.vl.session)
    (hm : t.sp.mode = s.sp.mode) (hw : t.sp.restarting = s.sp.restarting) (hc : t.cc = s.cc)
    (hl : t.lp = s.lp) (hv : t.vl.pollAt = s.vl.pollAt := by rfl) : Reacted s t :=
  ⟨h, Moves.of_same he hr (blank_vl_plug h) hs hm hw hc hl (blank_now h) hv⟩

/-- A response beside what followed. -/
theorem Reacted.respond {u t : State} (h : Reacted u t) (r : ResultCode) (d : ResponseData) :
    Reacted (u.respond r d) (t.respond r d) := by
  obtain ⟨a, b⟩ := h
  refine ⟨?_, ?_⟩
  · have e : blank (t.respond r d) = (blank t).respond r d := rfl
    have e' : blank (u.respond r d) = (blank u).respond r d := rfl
    rw [e, e', a]
  · exact { clock := b.clock, poll := b.poll, counts := b.counts, others := b.others, records := b.records, plug := b.plug
            restarting := b.restarting, session := b.session, mode := b.mode
            setpoint := b.setpoint, on := b.on, enables := b.enables, steady := b.steady
            flows := b.flows, line := b.line }

/-- The reactions at the end of a command. -/
theorem Reacted.finish {u s : State} (h : Reacted u s) : Reacted u s.finish :=
  h.trans (finish_reacted s)

/-- The reactions at the end of a command, and its response. -/
theorem Reacted.finish_respond {u s : State} {r : ResultCode} {d : ResponseData}
    (h : Reacted u (s.respond r d)) : Reacted u (s.finish.respond r d) :=
  h.trans ((finish_reacted s).respond r d)

/-- A computation at once. -/
theorem compute_reacted (s : State) (t : Trigger) : Reacted s (s.compute t) :=
  ⟨s.compute_frame t, Moves.compute s t⟩

/-- A mode that no reaction leaves. -/
theorem Reacted.mode_eq {s t : State} (h : Reacted s t) (p : s.sp.mode ≠ .parking)
    (d : s.sp.mode ≠ .dormant) : t.sp.mode = s.sp.mode := by
  rcases h.2.mode with a | a
  · exact a
  · rcases a.2 with a | a
    · exact absurd a.1 p
    · exact absurd a.1 d

/-! ### What follows for each command that ends with it -/

/-- A mode that no reaction leaves. -/
theorem finish_mode (s : State) (h : s.sp.mode ≠ .parking) (g : s.sp.mode ≠ .dormant) :
    s.finish.sp.mode = s.sp.mode := by
  rcases (finish_moves s).mode with a | a
  · exact a
  · rcases a.2 with a | a
    · exact absurd a.1 h
    · exact absurd a.1 g

/-- A session that no reaction leaves. -/
theorem finish_session (s : State) (h : s.vl.session ≠ .exporting) (g : s.vl.session ≠ .absent) :
    s.finish.vl.session = s.vl.session := by
  rcases (finish_moves s).session with a | a | a
  · exact a
  · exact absurd a.1 h
  · exact absurd a.1 g

theorem finish_setpoint_le (s : State) : s.finish.cc.setpoint ≤ s.cc.setpoint := by
  rcases (finish_moves s).setpoint with a | a <;> omega

end Sys2Proof.Safety
end

