-- ==== Sys2Proof/Laws/Admission.lean ====
section
/-!
SUPPORT. What the admission table says of each command (R176), and that a key written is read back (R169).
-/

namespace Sys2Proof.Safety

open Sys2Proof Sys2Proof.Machine

/-! ### Refusals -/

theorem refusal_busy {s : State} (a : Admission) (h : s.sp.restarting.isSome = true) :
    s.refusal a = some .busy := by
  unfold State.refusal; simp [h]

theorem refusal_sequence {s : State} (a : Admission) (h : s.sp.restarting = none)
    (g : s.sp.pendingKey.isSome = true) (i : a.passesKey = false) : s.refusal a = some .sequence := by
  unfold State.refusal; simp [h, g, i]

theorem refusal_notJoined {s : State} (a : Admission) (h : s.sp.restarting = none)
    (g : s.sp.pendingKey = none) (m : s.sp.mode = .config) (i : a.needsJoin = true) :
    s.refusal a = some .notJoined := by
  unfold State.refusal State.joined; simp [h, g, i, m]

theorem refusal_locked {s : State} (a : Admission) (h : s.sp.restarting = none)
    (g : s.sp.pendingKey = none) (m : s.sp.locked = true) (i : a.writes = true)
    (n : a.needsJoin = false) : s.refusal a = some .locked := by
  unfold State.refusal State.joined; simp [h, g, i, m, n]

/-- A command that writes configuration is admitted in CONFIG. -/
theorem refusal_configurable {s : State} (a : Admission) (h : Configurable s)
    (g : s.sp.pendingKey = none ∨ a.passesKey = true) (n : a.needsJoin = false) :
    s.refusal a = none := by
  unfold State.refusal
  rcases g with g | g <;> simp [h.2.2, h.2.1, g, n]

/-- A command that needs a joined part is admitted there. -/
theorem refusal_admitted {s : State} (h : Admitted s) : s.refusal .joinedOnly = none := by
  unfold State.refusal State.joined Admission.joinedOnly; simp [h.1, h.2.1, h.2.2]

/-- A reading command is admitted with no restart waiting and no key pending. -/
theorem refusal_always {s : State} (h : s.sp.restarting = none) (g : s.sp.pendingKey = none) :
    s.refusal .always = none := by
  unfold State.refusal Admission.always; simp [h, g]

/-- A refused command changes the response alone. -/
theorem exec_refused {s : State} {c : Instr} {a : Admission} {r : ResultCode}
    (hc : supervisorRow c = some a) (h : s.refusal a = some r) :
    exec c s = .next (answered s r .empty) := by
  cases c <;> simp [supervisorRow] at hc <;> subst hc <;>
    simp only [exec, execSelect, execValue, execJoin, execCall, execPark, execWake, execRestart,
      execPoint, execRead, execUnknownCommand, Admission.writing, Admission.value,
      Admission.joinedOnly, Admission.always, h] <;> rfl

/-- No command both writes configuration and needs a joined part. -/
theorem supervisorRow_writes {c : Instr} {a : Admission} (hc : supervisorRow c = some a)
    (h : a.writes = true) : a.needsJoin = false := by
  cases c <;> simp [supervisorRow] at hc <;> subst hc <;> simp_all

/-! ### Configuration -/

/-- The stored value of a key that is no set is the nearest limit; that of EVENT_MASK leaves out bit 31. -/
theorem ConfigKey.stored_eq (k : ConfigKey) (v : Int) :
    k.stored v = if k = .eventMask then v % 2147483648 else clampInt k.range.1 k.range.2 v := by
  cases k <;> rfl

theorem flag_read {w : Int} (h : 0 ≤ w ∧ w ≤ 1) :
    (if (w == 1) = true then (1 : Int) else 0) = w := by
  by_cases e : w = 1
  · simp [e]
  · simp [e]; omega

theorem tuneStart_read {w : Int} (h : 0 ≤ w ∧ w ≤ 1) :
    ((if w = 0 then TuneStart.default else TuneStart.top).code : Int) = w := by
  by_cases e : w = 0
  · simp [e, TuneStart.code]
  · simp [e, TuneStart.code]; omega

/-- A key written is read back. -/
theorem Configuration.read_write_self (c : Configuration) (k : ConfigKey) (v : Int) :
    (c.write k (k.stored v)).read k = k.stored v := by
  cases k
  case eventMask =>
    simp only [Configuration.write, Configuration.read, ConfigKey.stored]
    have : 0 ≤ v % 2147483648 := Int.emod_nonneg _ (by decide)
    have h2 : v % 2147483648 < 2147483648 := Int.emod_lt_of_pos _ (by decide)
    simp [BitVec.toNat_ofNat]; omega
  all_goals
    simp only [Configuration.write, Configuration.read, ConfigKey.stored, ConfigKey.range]
  case sensorFitted => exact flag_read (clampInt_range 0 1 v (by decide))
  case tuneStart => exact tuneStart_read (clampInt_range 0 1 v (by decide))
  case indA =>
    have := clampInt_range 0 7 v (by decide)
    generalize clampInt 0 7 v = w at *
    have : w = 0 ∨ w = 1 ∨ w = 2 ∨ w = 3 ∨ w = 4 ∨ w = 5 ∨ w = 6 ∨ w = 7 := by omega
    rcases this with h|h|h|h|h|h|h|h <;> subst h <;> rfl
  case indB =>
    have := clampInt_range 0 7 v (by decide)
    generalize clampInt 0 7 v = w at *
    have : w = 0 ∨ w = 1 ∨ w = 2 ∨ w = 3 ∨ w = 4 ∨ w = 5 ∨ w = 6 ∨ w = 7 := by omega
    rcases this with h|h|h|h|h|h|h|h <;> subst h <;> rfl
  all_goals
    exact Int.toNat_of_nonneg (Int.le_trans (by decide) (clampInt_range _ _ v (by decide)).1)

/-- The other keys are untouched. -/
theorem Configuration.read_write_ne (c : Configuration) (k j : ConfigKey) (v : Int) (h : j ≠ k) :
    (c.write k v).read j = c.read j := by
  cases k <;> cases j <;> first | rfl | exact absurd rfl h

end Sys2Proof.Safety
end

