-- ==== Sys2Proof/Laws/Blocks.lean ====
section
/-!
SUPPORT. Which blocks of the state each shared operation leaves as they are: one lemma per operation and block that
it does not touch, and per field of the Mode Control block that it does not touch.
-/

namespace Sys2Proof.Machine

/-! ### compute -/

@[simp] theorem State.compute_now (s : State) (k : Trigger) : (s.compute k).now = s.now := by
  unfold State.compute; (try dsimp only); (repeat' split) <;> (try simp)
@[simp] theorem State.compute_draws (s : State) (k : Trigger) : (s.compute k).draws = s.draws := by
  unfold State.compute; (try dsimp only); (repeat' split) <;> (try simp)
@[simp] theorem State.compute_lp (s : State) (k : Trigger) : (s.compute k).lp = s.lp := by
  unfold State.compute; (try dsimp only); (repeat' split) <;> (try simp)
@[simp] theorem State.compute_pv (s : State) (k : Trigger) : (s.compute k).pv = s.pv := by
  unfold State.compute; (try dsimp only); (repeat' split) <;> (try simp)
@[simp] theorem State.compute_ea (s : State) (k : Trigger) : (s.compute k).ea = s.ea := by
  unfold State.compute; (try dsimp only); (repeat' split) <;> (try simp)
@[simp] theorem State.compute_mt (s : State) (k : Trigger) : (s.compute k).mt = s.mt := by
  unfold State.compute; (try dsimp only); (repeat' split) <;> (try simp)
@[simp] theorem State.compute_cu (s : State) (k : Trigger) : (s.compute k).cu = s.cu := by
  unfold State.compute; (try dsimp only); (repeat' split) <;> (try simp)
@[simp] theorem State.compute_cc (s : State) (k : Trigger) : (s.compute k).cc = s.cc := by
  unfold State.compute; (try dsimp only); (repeat' split) <;> (try simp)
@[simp] theorem State.compute_vl (s : State) (k : Trigger) : (s.compute k).vl = s.vl := by
  unfold State.compute; (try dsimp only); (repeat' split) <;> (try simp)
@[simp] theorem State.compute_sp (s : State) (k : Trigger) : (s.compute k).sp = s.sp := by
  unfold State.compute; (try dsimp only); (repeat' split) <;> (try simp)
@[simp] theorem State.compute_pending (s : State) (k : Trigger) : (s.compute k).pending = s.pending := by
  unfold State.compute; (try dsimp only); (repeat' split) <;> (try simp)
@[simp] theorem State.compute_inputs (s : State) (k : Trigger) : (s.compute k).inputs = s.inputs := by
  unfold State.compute; (try dsimp only); (repeat' split) <;> (try simp)

/-! ### enqueueNow -/

@[simp] theorem State.enqueueNow_now (s : State) (f : QueuedFrame) : (s.enqueueNow f).now = s.now := by
  unfold State.enqueueNow; (try dsimp only); (repeat' split) <;> (try simp)
@[simp] theorem State.enqueueNow_draws (s : State) (f : QueuedFrame) : (s.enqueueNow f).draws = s.draws := by
  unfold State.enqueueNow; (try dsimp only); (repeat' split) <;> (try simp)
@[simp] theorem State.enqueueNow_pv (s : State) (f : QueuedFrame) : (s.enqueueNow f).pv = s.pv := by
  unfold State.enqueueNow; (try dsimp only); (repeat' split) <;> (try simp)
@[simp] theorem State.enqueueNow_ct (s : State) (f : QueuedFrame) : (s.enqueueNow f).ct = s.ct := by
  unfold State.enqueueNow; (try dsimp only); (repeat' split) <;> (try simp)
@[simp] theorem State.enqueueNow_ea (s : State) (f : QueuedFrame) : (s.enqueueNow f).ea = s.ea := by
  unfold State.enqueueNow; (try dsimp only); (repeat' split) <;> (try simp)
@[simp] theorem State.enqueueNow_mt (s : State) (f : QueuedFrame) : (s.enqueueNow f).mt = s.mt := by
  unfold State.enqueueNow; (try dsimp only); (repeat' split) <;> (try simp)
@[simp] theorem State.enqueueNow_ap (s : State) (f : QueuedFrame) : (s.enqueueNow f).ap = s.ap := by
  unfold State.enqueueNow; (try dsimp only); (repeat' split) <;> (try simp)
@[simp] theorem State.enqueueNow_cu (s : State) (f : QueuedFrame) : (s.enqueueNow f).cu = s.cu := by
  unfold State.enqueueNow; (try dsimp only); (repeat' split) <;> (try simp)
@[simp] theorem State.enqueueNow_cc (s : State) (f : QueuedFrame) : (s.enqueueNow f).cc = s.cc := by
  unfold State.enqueueNow; (try dsimp only); (repeat' split) <;> (try simp)
@[simp] theorem State.enqueueNow_vl (s : State) (f : QueuedFrame) : (s.enqueueNow f).vl = s.vl := by
  unfold State.enqueueNow; (try dsimp only); (repeat' split) <;> (try simp)
@[simp] theorem State.enqueueNow_sp_mode (s : State) (f : QueuedFrame) : (s.enqueueNow f).sp.mode = s.sp.mode := by
  unfold State.enqueueNow; (try dsimp only); (repeat' split) <;> (try simp)
@[simp] theorem State.enqueueNow_sp_config (s : State) (f : QueuedFrame) : (s.enqueueNow f).sp.config = s.sp.config := by
  unfold State.enqueueNow; (try dsimp only); (repeat' split) <;> (try simp)
@[simp] theorem State.enqueueNow_sp_clamped (s : State) (f : QueuedFrame) : (s.enqueueNow f).sp.clamped = s.sp.clamped := by
  unfold State.enqueueNow; (try dsimp only); (repeat' split) <;> (try simp)
@[simp] theorem State.enqueueNow_sp_pendingKey (s : State) (f : QueuedFrame) : (s.enqueueNow f).sp.pendingKey = s.sp.pendingKey := by
  unfold State.enqueueNow; (try dsimp only); (repeat' split) <;> (try simp)
@[simp] theorem State.enqueueNow_sp_locked (s : State) (f : QueuedFrame) : (s.enqueueNow f).sp.locked = s.sp.locked := by
  unfold State.enqueueNow; (try dsimp only); (repeat' split) <;> (try simp)
@[simp] theorem State.enqueueNow_sp_restarting (s : State) (f : QueuedFrame) : (s.enqueueNow f).sp.restarting = s.sp.restarting := by
  unfold State.enqueueNow; (try dsimp only); (repeat' split) <;> (try simp)
@[simp] theorem State.enqueueNow_sp_pointer (s : State) (f : QueuedFrame) : (s.enqueueNow f).sp.pointer = s.sp.pointer := by
  unfold State.enqueueNow; (try dsimp only); (repeat' split) <;> (try simp)
@[simp] theorem State.enqueueNow_sp_response (s : State) (f : QueuedFrame) : (s.enqueueNow f).sp.response = s.sp.response := by
  unfold State.enqueueNow; (try dsimp only); (repeat' split) <;> (try simp)
@[simp] theorem State.enqueueNow_pending (s : State) (f : QueuedFrame) : (s.enqueueNow f).pending = s.pending := by
  unfold State.enqueueNow; (try dsimp only); (repeat' split) <;> (try simp)
@[simp] theorem State.enqueueNow_inputs (s : State) (f : QueuedFrame) : (s.enqueueNow f).inputs = s.inputs := by
  unfold State.enqueueNow; (try dsimp only); (repeat' split) <;> (try simp)

/-! ### enqueue -/

@[simp] theorem State.enqueue_now (s : State) (f : QueuedFrame) : (s.enqueue f).now = s.now := by
  unfold State.enqueue; (repeat' split) <;> (try simp)
@[simp] theorem State.enqueue_draws (s : State) (f : QueuedFrame) : (s.enqueue f).draws = s.draws := by
  unfold State.enqueue; (repeat' split) <;> (try simp)
@[simp] theorem State.enqueue_pv (s : State) (f : QueuedFrame) : (s.enqueue f).pv = s.pv := by
  unfold State.enqueue; (repeat' split) <;> (try simp)
@[simp] theorem State.enqueue_ct (s : State) (f : QueuedFrame) : (s.enqueue f).ct = s.ct := by
  unfold State.enqueue; (repeat' split) <;> (try simp)
@[simp] theorem State.enqueue_ea (s : State) (f : QueuedFrame) : (s.enqueue f).ea = s.ea := by
  unfold State.enqueue; (repeat' split) <;> (try simp)
@[simp] theorem State.enqueue_mt (s : State) (f : QueuedFrame) : (s.enqueue f).mt = s.mt := by
  unfold State.enqueue; (repeat' split) <;> (try simp)
@[simp] theorem State.enqueue_ap (s : State) (f : QueuedFrame) : (s.enqueue f).ap = s.ap := by
  unfold State.enqueue; (repeat' split) <;> (try simp)
@[simp] theorem State.enqueue_cu (s : State) (f : QueuedFrame) : (s.enqueue f).cu = s.cu := by
  unfold State.enqueue; (repeat' split) <;> (try simp)
@[simp] theorem State.enqueue_cc (s : State) (f : QueuedFrame) : (s.enqueue f).cc = s.cc := by
  unfold State.enqueue; (repeat' split) <;> (try simp)
@[simp] theorem State.enqueue_vl (s : State) (f : QueuedFrame) : (s.enqueue f).vl = s.vl := by
  unfold State.enqueue; (repeat' split) <;> (try simp)
@[simp] theorem State.enqueue_sp_mode (s : State) (f : QueuedFrame) : (s.enqueue f).sp.mode = s.sp.mode := by
  unfold State.enqueue; (repeat' split) <;> (try simp)
@[simp] theorem State.enqueue_sp_config (s : State) (f : QueuedFrame) : (s.enqueue f).sp.config = s.sp.config := by
  unfold State.enqueue; (repeat' split) <;> (try simp)
@[simp] theorem State.enqueue_sp_clamped (s : State) (f : QueuedFrame) : (s.enqueue f).sp.clamped = s.sp.clamped := by
  unfold State.enqueue; (repeat' split) <;> (try simp)
@[simp] theorem State.enqueue_sp_pendingKey (s : State) (f : QueuedFrame) : (s.enqueue f).sp.pendingKey = s.sp.pendingKey := by
  unfold State.enqueue; (repeat' split) <;> (try simp)
@[simp] theorem State.enqueue_sp_locked (s : State) (f : QueuedFrame) : (s.enqueue f).sp.locked = s.sp.locked := by
  unfold State.enqueue; (repeat' split) <;> (try simp)
@[simp] theorem State.enqueue_sp_restarting (s : State) (f : QueuedFrame) : (s.enqueue f).sp.restarting = s.sp.restarting := by
  unfold State.enqueue; (repeat' split) <;> (try simp)
@[simp] theorem State.enqueue_sp_pointer (s : State) (f : QueuedFrame) : (s.enqueue f).sp.pointer = s.sp.pointer := by
  unfold State.enqueue; (repeat' split) <;> (try simp)
@[simp] theorem State.enqueue_sp_response (s : State) (f : QueuedFrame) : (s.enqueue f).sp.response = s.sp.response := by
  unfold State.enqueue; (repeat' split) <;> (try simp)
@[simp] theorem State.enqueue_pending (s : State) (f : QueuedFrame) : (s.enqueue f).pending = s.pending := by
  unfold State.enqueue; (repeat' split) <;> (try simp)
@[simp] theorem State.enqueue_inputs (s : State) (f : QueuedFrame) : (s.enqueue f).inputs = s.inputs := by
  unfold State.enqueue; (repeat' split) <;> (try simp)

/-! ### enqueueStanding -/

@[simp] theorem State.enqueueStanding_now (s : State) : (s.enqueueStanding).now = s.now := by
  unfold State.enqueueStanding; (repeat' split) <;> (try simp)
@[simp] theorem State.enqueueStanding_draws (s : State) : (s.enqueueStanding).draws = s.draws := by
  unfold State.enqueueStanding; (repeat' split) <;> (try simp)
@[simp] theorem State.enqueueStanding_pv (s : State) : (s.enqueueStanding).pv = s.pv := by
  unfold State.enqueueStanding; (repeat' split) <;> (try simp)
@[simp] theorem State.enqueueStanding_ct (s : State) : (s.enqueueStanding).ct = s.ct := by
  unfold State.enqueueStanding; (repeat' split) <;> (try simp)
@[simp] theorem State.enqueueStanding_ea (s : State) : (s.enqueueStanding).ea = s.ea := by
  unfold State.enqueueStanding; (repeat' split) <;> (try simp)
@[simp] theorem State.enqueueStanding_mt (s : State) : (s.enqueueStanding).mt = s.mt := by
  unfold State.enqueueStanding; (repeat' split) <;> (try simp)
@[simp] theorem State.enqueueStanding_ap (s : State) : (s.enqueueStanding).ap = s.ap := by
  unfold State.enqueueStanding; (repeat' split) <;> (try simp)
@[simp] theorem State.enqueueStanding_cu (s : State) : (s.enqueueStanding).cu = s.cu := by
  unfold State.enqueueStanding; (repeat' split) <;> (try simp)
@[simp] theorem State.enqueueStanding_cc (s : State) : (s.enqueueStanding).cc = s.cc := by
  unfold State.enqueueStanding; (repeat' split) <;> (try simp)
@[simp] theorem State.enqueueStanding_vl (s : State) : (s.enqueueStanding).vl = s.vl := by
  unfold State.enqueueStanding; (repeat' split) <;> (try simp)
@[simp] theorem State.enqueueStanding_sp_mode (s : State) : (s.enqueueStanding).sp.mode = s.sp.mode := by
  unfold State.enqueueStanding; (repeat' split) <;> (try simp)
@[simp] theorem State.enqueueStanding_sp_config (s : State) : (s.enqueueStanding).sp.config = s.sp.config := by
  unfold State.enqueueStanding; (repeat' split) <;> (try simp)
@[simp] theorem State.enqueueStanding_sp_clamped (s : State) : (s.enqueueStanding).sp.clamped = s.sp.clamped := by
  unfold State.enqueueStanding; (repeat' split) <;> (try simp)
@[simp] theorem State.enqueueStanding_sp_pendingKey (s : State) : (s.enqueueStanding).sp.pendingKey = s.sp.pendingKey := by
  unfold State.enqueueStanding; (repeat' split) <;> (try simp)
@[simp] theorem State.enqueueStanding_sp_locked (s : State) : (s.enqueueStanding).sp.locked = s.sp.locked := by
  unfold State.enqueueStanding; (repeat' split) <;> (try simp)
@[simp] theorem State.enqueueStanding_sp_restarting (s : State) : (s.enqueueStanding).sp.restarting = s.sp.restarting := by
  unfold State.enqueueStanding; (repeat' split) <;> (try simp)
@[simp] theorem State.enqueueStanding_sp_pointer (s : State) : (s.enqueueStanding).sp.pointer = s.sp.pointer := by
  unfold State.enqueueStanding; (repeat' split) <;> (try simp)
@[simp] theorem State.enqueueStanding_sp_response (s : State) : (s.enqueueStanding).sp.response = s.sp.response := by
  unfold State.enqueueStanding; (repeat' split) <;> (try simp)
@[simp] theorem State.enqueueStanding_pending (s : State) : (s.enqueueStanding).pending = s.pending := by
  unfold State.enqueueStanding; (repeat' split) <;> (try simp)
@[simp] theorem State.enqueueStanding_inputs (s : State) : (s.enqueueStanding).inputs = s.inputs := by
  unfold State.enqueueStanding; (repeat' split) <;> (try simp)

/-! ### startStanding -/

@[simp] theorem State.startStanding_now (s : State) : (s.startStanding).now = s.now := by
  unfold State.startStanding; (try dsimp only); (try simp)
@[simp] theorem State.startStanding_pv (s : State) : (s.startStanding).pv = s.pv := by
  unfold State.startStanding; (try dsimp only); (try simp)
@[simp] theorem State.startStanding_ct (s : State) : (s.startStanding).ct = s.ct := by
  unfold State.startStanding; (try dsimp only); (try simp)
@[simp] theorem State.startStanding_ea (s : State) : (s.startStanding).ea = s.ea := by
  unfold State.startStanding; (try dsimp only); (try simp)
@[simp] theorem State.startStanding_mt (s : State) : (s.startStanding).mt = s.mt := by
  unfold State.startStanding; (try dsimp only); (try simp)
@[simp] theorem State.startStanding_ap (s : State) : (s.startStanding).ap = s.ap := by
  unfold State.startStanding; (try dsimp only); (try simp)
@[simp] theorem State.startStanding_cu (s : State) : (s.startStanding).cu = s.cu := by
  unfold State.startStanding; (try dsimp only); (try simp)
@[simp] theorem State.startStanding_cc (s : State) : (s.startStanding).cc = s.cc := by
  unfold State.startStanding; (try dsimp only); (try simp)
@[simp] theorem State.startStanding_vl (s : State) : (s.startStanding).vl = s.vl := by
  unfold State.startStanding; (try dsimp only); (try simp)
@[simp] theorem State.startStanding_sp_mode (s : State) : (s.startStanding).sp.mode = s.sp.mode := by
  unfold State.startStanding; (try dsimp only); (try simp)
@[simp] theorem State.startStanding_sp_config (s : State) : (s.startStanding).sp.config = s.sp.config := by
  unfold State.startStanding; (try dsimp only); (try simp)
@[simp] theorem State.startStanding_sp_clamped (s : State) : (s.startStanding).sp.clamped = s.sp.clamped := by
  unfold State.startStanding; (try dsimp only); (try simp)
@[simp] theorem State.startStanding_sp_pendingKey (s : State) : (s.startStanding).sp.pendingKey = s.sp.pendingKey := by
  unfold State.startStanding; (try dsimp only); (try simp)
@[simp] theorem State.startStanding_sp_locked (s : State) : (s.startStanding).sp.locked = s.sp.locked := by
  unfold State.startStanding; (try dsimp only); (try simp)
@[simp] theorem State.startStanding_sp_restarting (s : State) : (s.startStanding).sp.restarting = s.sp.restarting := by
  unfold State.startStanding; (try dsimp only); (try simp)
@[simp] theorem State.startStanding_sp_pointer (s : State) : (s.startStanding).sp.pointer = s.sp.pointer := by
  unfold State.startStanding; (try dsimp only); (try simp)
@[simp] theorem State.startStanding_sp_response (s : State) : (s.startStanding).sp.response = s.sp.response := by
  unfold State.startStanding; (try dsimp only); (try simp)
@[simp] theorem State.startStanding_pending (s : State) : (s.startStanding).pending = s.pending := by
  unfold State.startStanding; (try dsimp only); (try simp)
@[simp] theorem State.startStanding_inputs (s : State) : (s.startStanding).inputs = s.inputs := by
  unfold State.startStanding; (try dsimp only); (try simp)

/-! ### beginAttempt -/

@[simp] theorem State.beginAttempt_now (s : State) (f : InFlight) : (s.beginAttempt f).now = s.now := by
  unfold State.beginAttempt; (try dsimp only); (try simp)
@[simp] theorem State.beginAttempt_draws (s : State) (f : InFlight) : (s.beginAttempt f).draws = s.draws := by
  unfold State.beginAttempt; (try dsimp only); (try simp)
@[simp] theorem State.beginAttempt_pv (s : State) (f : InFlight) : (s.beginAttempt f).pv = s.pv := by
  unfold State.beginAttempt; (try dsimp only); (try simp)
@[simp] theorem State.beginAttempt_ct (s : State) (f : InFlight) : (s.beginAttempt f).ct = s.ct := by
  unfold State.beginAttempt; (try dsimp only); (try simp)
@[simp] theorem State.beginAttempt_ea (s : State) (f : InFlight) : (s.beginAttempt f).ea = s.ea := by
  unfold State.beginAttempt; (try dsimp only); (try simp)
@[simp] theorem State.beginAttempt_mt (s : State) (f : InFlight) : (s.beginAttempt f).mt = s.mt := by
  unfold State.beginAttempt; (try dsimp only); (try simp)
@[simp] theorem State.beginAttempt_ap (s : State) (f : InFlight) : (s.beginAttempt f).ap = s.ap := by
  unfold State.beginAttempt; (try dsimp only); (try simp)
@[simp] theorem State.beginAttempt_cu (s : State) (f : InFlight) : (s.beginAttempt f).cu = s.cu := by
  unfold State.beginAttempt; (try dsimp only); (try simp)
@[simp] theorem State.beginAttempt_cc (s : State) (f : InFlight) : (s.beginAttempt f).cc = s.cc := by
  unfold State.beginAttempt; (try dsimp only); (try simp)
@[simp] theorem State.beginAttempt_vl (s : State) (f : InFlight) : (s.beginAttempt f).vl = s.vl := by
  unfold State.beginAttempt; (try dsimp only); (try simp)
@[simp] theorem State.beginAttempt_sp (s : State) (f : InFlight) : (s.beginAttempt f).sp = s.sp := by
  unfold State.beginAttempt; (try dsimp only); (try simp)
@[simp] theorem State.beginAttempt_pending (s : State) (f : InFlight) : (s.beginAttempt f).pending = s.pending := by
  unfold State.beginAttempt; (try dsimp only); (try simp)
@[simp] theorem State.beginAttempt_inputs (s : State) (f : InFlight) : (s.beginAttempt f).inputs = s.inputs := by
  unfold State.beginAttempt; (try dsimp only); (try simp)

/-! ### setLine -/

@[simp] theorem State.setLine_now (s : State) (b : Bool) : (s.setLine b).now = s.now := by
  unfold State.setLine; (try dsimp only); (try simp)
@[simp] theorem State.setLine_draws (s : State) (b : Bool) : (s.setLine b).draws = s.draws := by
  unfold State.setLine; (try dsimp only); (try simp)
@[simp] theorem State.setLine_pv (s : State) (b : Bool) : (s.setLine b).pv = s.pv := by
  unfold State.setLine; (try dsimp only); (try simp)
@[simp] theorem State.setLine_ct (s : State) (b : Bool) : (s.setLine b).ct = s.ct := by
  unfold State.setLine; (try dsimp only); (try simp)
@[simp] theorem State.setLine_ea (s : State) (b : Bool) : (s.setLine b).ea = s.ea := by
  unfold State.setLine; (try dsimp only); (try simp)
@[simp] theorem State.setLine_mt (s : State) (b : Bool) : (s.setLine b).mt = s.mt := by
  unfold State.setLine; (try dsimp only); (try simp)
@[simp] theorem State.setLine_ap (s : State) (b : Bool) : (s.setLine b).ap = s.ap := by
  unfold State.setLine; (try dsimp only); (try simp)
@[simp] theorem State.setLine_cu (s : State) (b : Bool) : (s.setLine b).cu = s.cu := by
  unfold State.setLine; (try dsimp only); (try simp)
@[simp] theorem State.setLine_cc (s : State) (b : Bool) : (s.setLine b).cc = s.cc := by
  unfold State.setLine; (try dsimp only); (try simp)
@[simp] theorem State.setLine_vl (s : State) (b : Bool) : (s.setLine b).vl = s.vl := by
  unfold State.setLine; (try dsimp only); (try simp)
@[simp] theorem State.setLine_sp (s : State) (b : Bool) : (s.setLine b).sp = s.sp := by
  unfold State.setLine; (try dsimp only); (try simp)
@[simp] theorem State.setLine_pending (s : State) (b : Bool) : (s.setLine b).pending = s.pending := by
  unfold State.setLine; (try dsimp only); (try simp)
@[simp] theorem State.setLine_inputs (s : State) (b : Bool) : (s.setLine b).inputs = s.inputs := by
  unfold State.setLine; (try dsimp only); (try simp)

/-! ### discardRecord -/

@[simp] theorem State.discardRecord_now (s : State) : (s.discardRecord).now = s.now := by
  unfold State.discardRecord; (try dsimp only); (try simp)
@[simp] theorem State.discardRecord_draws (s : State) : (s.discardRecord).draws = s.draws := by
  unfold State.discardRecord; (try dsimp only); (try simp)
@[simp] theorem State.discardRecord_lp (s : State) : (s.discardRecord).lp = s.lp := by
  unfold State.discardRecord; (try dsimp only); (try simp)
@[simp] theorem State.discardRecord_pv (s : State) : (s.discardRecord).pv = s.pv := by
  unfold State.discardRecord; (try dsimp only); (try simp)
@[simp] theorem State.discardRecord_ct (s : State) : (s.discardRecord).ct = s.ct := by
  unfold State.discardRecord; (try dsimp only); (try simp)
@[simp] theorem State.discardRecord_mt (s : State) : (s.discardRecord).mt = s.mt := by
  unfold State.discardRecord; (try dsimp only); (try simp)
@[simp] theorem State.discardRecord_ap (s : State) : (s.discardRecord).ap = s.ap := by
  unfold State.discardRecord; (try dsimp only); (try simp)
@[simp] theorem State.discardRecord_cu (s : State) : (s.discardRecord).cu = s.cu := by
  unfold State.discardRecord; (try dsimp only); (try simp)
@[simp] theorem State.discardRecord_cc (s : State) : (s.discardRecord).cc = s.cc := by
  unfold State.discardRecord; (try dsimp only); (try simp)
@[simp] theorem State.discardRecord_vl (s : State) : (s.discardRecord).vl = s.vl := by
  unfold State.discardRecord; (try dsimp only); (try simp)
@[simp] theorem State.discardRecord_sp (s : State) : (s.discardRecord).sp = s.sp := by
  unfold State.discardRecord; (try dsimp only); (try simp)
@[simp] theorem State.discardRecord_pending (s : State) : (s.discardRecord).pending = s.pending := by
  unfold State.discardRecord; (try dsimp only); (try simp)
@[simp] theorem State.discardRecord_inputs (s : State) : (s.discardRecord).inputs = s.inputs := by
  unfold State.discardRecord; (try dsimp only); (try simp)

/-! ### takeRecord -/

@[simp] theorem State.takeRecord_now (s : State) (r : BusRecord) : (s.takeRecord r).now = s.now := by
  unfold State.takeRecord; (try dsimp only); (try simp)
@[simp] theorem State.takeRecord_draws (s : State) (r : BusRecord) : (s.takeRecord r).draws = s.draws := by
  unfold State.takeRecord; (try dsimp only); (try simp)
@[simp] theorem State.takeRecord_lp (s : State) (r : BusRecord) : (s.takeRecord r).lp = s.lp := by
  unfold State.takeRecord; (try dsimp only); (try simp)
@[simp] theorem State.takeRecord_pv (s : State) (r : BusRecord) : (s.takeRecord r).pv = s.pv := by
  unfold State.takeRecord; (try dsimp only); (try simp)
@[simp] theorem State.takeRecord_ct (s : State) (r : BusRecord) : (s.takeRecord r).ct = s.ct := by
  unfold State.takeRecord; (try dsimp only); (try simp)
@[simp] theorem State.takeRecord_mt (s : State) (r : BusRecord) : (s.takeRecord r).mt = s.mt := by
  unfold State.takeRecord; (try dsimp only); (try simp)
@[simp] theorem State.takeRecord_ap (s : State) (r : BusRecord) : (s.takeRecord r).ap = s.ap := by
  unfold State.takeRecord; (try dsimp only); (try simp)
@[simp] theorem State.takeRecord_cu (s : State) (r : BusRecord) : (s.takeRecord r).cu = s.cu := by
  unfold State.takeRecord; (try dsimp only); (try simp)
@[simp] theorem State.takeRecord_cc (s : State) (r : BusRecord) : (s.takeRecord r).cc = s.cc := by
  unfold State.takeRecord; (try dsimp only); (try simp)
@[simp] theorem State.takeRecord_vl (s : State) (r : BusRecord) : (s.takeRecord r).vl = s.vl := by
  unfold State.takeRecord; (try dsimp only); (try simp)
@[simp] theorem State.takeRecord_sp (s : State) (r : BusRecord) : (s.takeRecord r).sp = s.sp := by
  unfold State.takeRecord; (try dsimp only); (try simp)
@[simp] theorem State.takeRecord_pending (s : State) (r : BusRecord) : (s.takeRecord r).pending = s.pending := by
  unfold State.takeRecord; (try dsimp only); (try simp)
@[simp] theorem State.takeRecord_inputs (s : State) (r : BusRecord) : (s.takeRecord r).inputs = s.inputs := by
  unfold State.takeRecord; (try dsimp only); (try simp)

/-! ### replacePack -/

@[simp] theorem State.replacePack_now (s : State) (x : Int) : (s.replacePack x).now = s.now := by
  unfold State.replacePack; (try dsimp only); (repeat' split) <;> (try simp)
@[simp] theorem State.replacePack_draws (s : State) (x : Int) : (s.replacePack x).draws = s.draws := by
  unfold State.replacePack; (try dsimp only); (repeat' split) <;> (try simp)
@[simp] theorem State.replacePack_lp (s : State) (x : Int) : (s.replacePack x).lp = s.lp := by
  unfold State.replacePack; (try dsimp only); (repeat' split) <;> (try simp)
@[simp] theorem State.replacePack_pv (s : State) (x : Int) : (s.replacePack x).pv = s.pv := by
  unfold State.replacePack; (try dsimp only); (repeat' split) <;> (try simp)
@[simp] theorem State.replacePack_ct (s : State) (x : Int) : (s.replacePack x).ct = s.ct := by
  unfold State.replacePack; (try dsimp only); (repeat' split) <;> (try simp)
@[simp] theorem State.replacePack_mt (s : State) (x : Int) : (s.replacePack x).mt = s.mt := by
  unfold State.replacePack; (try dsimp only); (repeat' split) <;> (try simp)
@[simp] theorem State.replacePack_ap (s : State) (x : Int) : (s.replacePack x).ap = s.ap := by
  unfold State.replacePack; (try dsimp only); (repeat' split) <;> (try simp)
@[simp] theorem State.replacePack_cu (s : State) (x : Int) : (s.replacePack x).cu = s.cu := by
  unfold State.replacePack; (try dsimp only); (repeat' split) <;> (try simp)
@[simp] theorem State.replacePack_cc (s : State) (x : Int) : (s.replacePack x).cc = s.cc := by
  unfold State.replacePack; (try dsimp only); (repeat' split) <;> (try simp)
@[simp] theorem State.replacePack_vl (s : State) (x : Int) : (s.replacePack x).vl = s.vl := by
  unfold State.replacePack; (try dsimp only); (repeat' split) <;> (try simp)
@[simp] theorem State.replacePack_sp (s : State) (x : Int) : (s.replacePack x).sp = s.sp := by
  unfold State.replacePack; (try dsimp only); (repeat' split) <;> (try simp)
@[simp] theorem State.replacePack_pending (s : State) (x : Int) : (s.replacePack x).pending = s.pending := by
  unfold State.replacePack; (try dsimp only); (repeat' split) <;> (try simp)
@[simp] theorem State.replacePack_inputs (s : State) (x : Int) : (s.replacePack x).inputs = s.inputs := by
  unfold State.replacePack; (try dsimp only); (repeat' split) <;> (try simp)

/-! ### refreshEnergy -/

@[simp] theorem State.refreshEnergy_now (s : State) (v : Nat) : (s.refreshEnergy v).now = s.now := by
  unfold State.refreshEnergy; (try dsimp only); (repeat' split) <;> (try simp)
@[simp] theorem State.refreshEnergy_draws (s : State) (v : Nat) : (s.refreshEnergy v).draws = s.draws := by
  unfold State.refreshEnergy; (try dsimp only); (repeat' split) <;> (try simp)
@[simp] theorem State.refreshEnergy_lp (s : State) (v : Nat) : (s.refreshEnergy v).lp = s.lp := by
  unfold State.refreshEnergy; (try dsimp only); (repeat' split) <;> (try simp)
@[simp] theorem State.refreshEnergy_pv (s : State) (v : Nat) : (s.refreshEnergy v).pv = s.pv := by
  unfold State.refreshEnergy; (try dsimp only); (repeat' split) <;> (try simp)
@[simp] theorem State.refreshEnergy_ct (s : State) (v : Nat) : (s.refreshEnergy v).ct = s.ct := by
  unfold State.refreshEnergy; (try dsimp only); (repeat' split) <;> (try simp)
@[simp] theorem State.refreshEnergy_mt (s : State) (v : Nat) : (s.refreshEnergy v).mt = s.mt := by
  unfold State.refreshEnergy; (try dsimp only); (repeat' split) <;> (try simp)
@[simp] theorem State.refreshEnergy_ap (s : State) (v : Nat) : (s.refreshEnergy v).ap = s.ap := by
  unfold State.refreshEnergy; (try dsimp only); (repeat' split) <;> (try simp)
@[simp] theorem State.refreshEnergy_cu (s : State) (v : Nat) : (s.refreshEnergy v).cu = s.cu := by
  unfold State.refreshEnergy; (try dsimp only); (repeat' split) <;> (try simp)
@[simp] theorem State.refreshEnergy_cc (s : State) (v : Nat) : (s.refreshEnergy v).cc = s.cc := by
  unfold State.refreshEnergy; (try dsimp only); (repeat' split) <;> (try simp)
@[simp] theorem State.refreshEnergy_vl (s : State) (v : Nat) : (s.refreshEnergy v).vl = s.vl := by
  unfold State.refreshEnergy; (try dsimp only); (repeat' split) <;> (try simp)
@[simp] theorem State.refreshEnergy_sp (s : State) (v : Nat) : (s.refreshEnergy v).sp = s.sp := by
  unfold State.refreshEnergy; (try dsimp only); (repeat' split) <;> (try simp)
@[simp] theorem State.refreshEnergy_pending (s : State) (v : Nat) : (s.refreshEnergy v).pending = s.pending := by
  unfold State.refreshEnergy; (try dsimp only); (repeat' split) <;> (try simp)
@[simp] theorem State.refreshEnergy_inputs (s : State) (v : Nat) : (s.refreshEnergy v).inputs = s.inputs := by
  unfold State.refreshEnergy; (try dsimp only); (repeat' split) <;> (try simp)

/-! ### isolate -/

@[simp] theorem State.isolate_now (s : State) (b : Bool) : (s.isolate b).now = s.now := by
  unfold State.isolate; (try dsimp only); (repeat' split) <;> (try simp)
@[simp] theorem State.isolate_draws (s : State) (b : Bool) : (s.isolate b).draws = s.draws := by
  unfold State.isolate; (try dsimp only); (repeat' split) <;> (try simp)
@[simp] theorem State.isolate_lp (s : State) (b : Bool) : (s.isolate b).lp = s.lp := by
  unfold State.isolate; (try dsimp only); (repeat' split) <;> (try simp)
@[simp] theorem State.isolate_ct (s : State) (b : Bool) : (s.isolate b).ct = s.ct := by
  unfold State.isolate; (try dsimp only); (repeat' split) <;> (try simp)
@[simp] theorem State.isolate_ea (s : State) (b : Bool) : (s.isolate b).ea = s.ea := by
  unfold State.isolate; (try dsimp only); (repeat' split) <;> (try simp)
@[simp] theorem State.isolate_mt (s : State) (b : Bool) : (s.isolate b).mt = s.mt := by
  unfold State.isolate; (try dsimp only); (repeat' split) <;> (try simp)
@[simp] theorem State.isolate_ap (s : State) (b : Bool) : (s.isolate b).ap = s.ap := by
  unfold State.isolate; (try dsimp only); (repeat' split) <;> (try simp)
@[simp] theorem State.isolate_cu (s : State) (b : Bool) : (s.isolate b).cu = s.cu := by
  unfold State.isolate; (try dsimp only); (repeat' split) <;> (try simp)
@[simp] theorem State.isolate_cc (s : State) (b : Bool) : (s.isolate b).cc = s.cc := by
  unfold State.isolate; (try dsimp only); (repeat' split) <;> (try simp)
@[simp] theorem State.isolate_vl (s : State) (b : Bool) : (s.isolate b).vl = s.vl := by
  unfold State.isolate; (try dsimp only); (repeat' split) <;> (try simp)
@[simp] theorem State.isolate_sp_mode (s : State) (b : Bool) : (s.isolate b).sp.mode = s.sp.mode := by
  unfold State.isolate; (try dsimp only); (repeat' split) <;> (try simp)
@[simp] theorem State.isolate_sp_config (s : State) (b : Bool) : (s.isolate b).sp.config = s.sp.config := by
  unfold State.isolate; (try dsimp only); (repeat' split) <;> (try simp)
@[simp] theorem State.isolate_sp_clamped (s : State) (b : Bool) : (s.isolate b).sp.clamped = s.sp.clamped := by
  unfold State.isolate; (try dsimp only); (repeat' split) <;> (try simp)
@[simp] theorem State.isolate_sp_pendingKey (s : State) (b : Bool) : (s.isolate b).sp.pendingKey = s.sp.pendingKey := by
  unfold State.isolate; (try dsimp only); (repeat' split) <;> (try simp)
@[simp] theorem State.isolate_sp_locked (s : State) (b : Bool) : (s.isolate b).sp.locked = s.sp.locked := by
  unfold State.isolate; (try dsimp only); (repeat' split) <;> (try simp)
@[simp] theorem State.isolate_sp_restarting (s : State) (b : Bool) : (s.isolate b).sp.restarting = s.sp.restarting := by
  unfold State.isolate; (try dsimp only); (repeat' split) <;> (try simp)
@[simp] theorem State.isolate_sp_pointer (s : State) (b : Bool) : (s.isolate b).sp.pointer = s.sp.pointer := by
  unfold State.isolate; (try dsimp only); (repeat' split) <;> (try simp)
@[simp] theorem State.isolate_sp_response (s : State) (b : Bool) : (s.isolate b).sp.response = s.sp.response := by
  unfold State.isolate; (try dsimp only); (repeat' split) <;> (try simp)
@[simp] theorem State.isolate_pending (s : State) (b : Bool) : (s.isolate b).pending = s.pending := by
  unfold State.isolate; (try dsimp only); (repeat' split) <;> (try simp)
@[simp] theorem State.isolate_inputs (s : State) (b : Bool) : (s.isolate b).inputs = s.inputs := by
  unfold State.isolate; (try dsimp only); (repeat' split) <;> (try simp)

/-! ### clearIsolation -/

@[simp] theorem State.clearIsolation_now (s : State) : (s.clearIsolation).now = s.now := by
  unfold State.clearIsolation; (try dsimp only); (try simp)
@[simp] theorem State.clearIsolation_draws (s : State) : (s.clearIsolation).draws = s.draws := by
  unfold State.clearIsolation; (try dsimp only); (try simp)
@[simp] theorem State.clearIsolation_lp (s : State) : (s.clearIsolation).lp = s.lp := by
  unfold State.clearIsolation; (try dsimp only); (try simp)
@[simp] theorem State.clearIsolation_ct (s : State) : (s.clearIsolation).ct = s.ct := by
  unfold State.clearIsolation; (try dsimp only); (try simp)
@[simp] theorem State.clearIsolation_ea (s : State) : (s.clearIsolation).ea = s.ea := by
  unfold State.clearIsolation; (try dsimp only); (try simp)
@[simp] theorem State.clearIsolation_mt (s : State) : (s.clearIsolation).mt = s.mt := by
  unfold State.clearIsolation; (try dsimp only); (try simp)
@[simp] theorem State.clearIsolation_ap (s : State) : (s.clearIsolation).ap = s.ap := by
  unfold State.clearIsolation; (try dsimp only); (try simp)
@[simp] theorem State.clearIsolation_cu (s : State) : (s.clearIsolation).cu = s.cu := by
  unfold State.clearIsolation; (try dsimp only); (try simp)
@[simp] theorem State.clearIsolation_cc (s : State) : (s.clearIsolation).cc = s.cc := by
  unfold State.clearIsolation; (try dsimp only); (try simp)
@[simp] theorem State.clearIsolation_vl (s : State) : (s.clearIsolation).vl = s.vl := by
  unfold State.clearIsolation; (try dsimp only); (try simp)
@[simp] theorem State.clearIsolation_sp_mode (s : State) : (s.clearIsolation).sp.mode = s.sp.mode := by
  unfold State.clearIsolation; (try dsimp only); (try simp)
@[simp] theorem State.clearIsolation_sp_config (s : State) : (s.clearIsolation).sp.config = s.sp.config := by
  unfold State.clearIsolation; (try dsimp only); (try simp)
@[simp] theorem State.clearIsolation_sp_clamped (s : State) : (s.clearIsolation).sp.clamped = s.sp.clamped := by
  unfold State.clearIsolation; (try dsimp only); (try simp)
@[simp] theorem State.clearIsolation_sp_pendingKey (s : State) : (s.clearIsolation).sp.pendingKey = s.sp.pendingKey := by
  unfold State.clearIsolation; (try dsimp only); (try simp)
@[simp] theorem State.clearIsolation_sp_locked (s : State) : (s.clearIsolation).sp.locked = s.sp.locked := by
  unfold State.clearIsolation; (try dsimp only); (try simp)
@[simp] theorem State.clearIsolation_sp_restarting (s : State) : (s.clearIsolation).sp.restarting = s.sp.restarting := by
  unfold State.clearIsolation; (try dsimp only); (try simp)
@[simp] theorem State.clearIsolation_sp_pointer (s : State) : (s.clearIsolation).sp.pointer = s.sp.pointer := by
  unfold State.clearIsolation; (try dsimp only); (try simp)
@[simp] theorem State.clearIsolation_sp_response (s : State) : (s.clearIsolation).sp.response = s.sp.response := by
  unfold State.clearIsolation; (try dsimp only); (try simp)
@[simp] theorem State.clearIsolation_pending (s : State) : (s.clearIsolation).pending = s.pending := by
  unfold State.clearIsolation; (try dsimp only); (try simp)
@[simp] theorem State.clearIsolation_inputs (s : State) : (s.clearIsolation).inputs = s.inputs := by
  unfold State.clearIsolation; (try dsimp only); (try simp)

/-! ### convFails -/

@[simp] theorem State.convFails_now (s : State) (k : EventKind) : (s.convFails k).now = s.now := by
  unfold State.convFails; (try dsimp only); (repeat' split) <;> (try simp)
@[simp] theorem State.convFails_draws (s : State) (k : EventKind) : (s.convFails k).draws = s.draws := by
  unfold State.convFails; (try dsimp only); (repeat' split) <;> (try simp)
@[simp] theorem State.convFails_lp (s : State) (k : EventKind) : (s.convFails k).lp = s.lp := by
  unfold State.convFails; (try dsimp only); (repeat' split) <;> (try simp)
@[simp] theorem State.convFails_pv (s : State) (k : EventKind) : (s.convFails k).pv = s.pv := by
  unfold State.convFails; (try dsimp only); (repeat' split) <;> (try simp)
@[simp] theorem State.convFails_ct (s : State) (k : EventKind) : (s.convFails k).ct = s.ct := by
  unfold State.convFails; (try dsimp only); (repeat' split) <;> (try simp)
@[simp] theorem State.convFails_ea (s : State) (k : EventKind) : (s.convFails k).ea = s.ea := by
  unfold State.convFails; (try dsimp only); (repeat' split) <;> (try simp)
@[simp] theorem State.convFails_mt (s : State) (k : EventKind) : (s.convFails k).mt = s.mt := by
  unfold State.convFails; (try dsimp only); (repeat' split) <;> (try simp)
@[simp] theorem State.convFails_ap (s : State) (k : EventKind) : (s.convFails k).ap = s.ap := by
  unfold State.convFails; (try dsimp only); (repeat' split) <;> (try simp)
@[simp] theorem State.convFails_cu (s : State) (k : EventKind) : (s.convFails k).cu = s.cu := by
  unfold State.convFails; (try dsimp only); (repeat' split) <;> (try simp)
@[simp] theorem State.convFails_vl (s : State) (k : EventKind) : (s.convFails k).vl = s.vl := by
  unfold State.convFails; (try dsimp only); (repeat' split) <;> (try simp)
@[simp] theorem State.convFails_sp_mode (s : State) (k : EventKind) : (s.convFails k).sp.mode = s.sp.mode := by
  unfold State.convFails; (try dsimp only); (repeat' split) <;> (try simp)
@[simp] theorem State.convFails_sp_config (s : State) (k : EventKind) : (s.convFails k).sp.config = s.sp.config := by
  unfold State.convFails; (try dsimp only); (repeat' split) <;> (try simp)
@[simp] theorem State.convFails_sp_clamped (s : State) (k : EventKind) : (s.convFails k).sp.clamped = s.sp.clamped := by
  unfold State.convFails; (try dsimp only); (repeat' split) <;> (try simp)
@[simp] theorem State.convFails_sp_pendingKey (s : State) (k : EventKind) : (s.convFails k).sp.pendingKey = s.sp.pendingKey := by
  unfold State.convFails; (try dsimp only); (repeat' split) <;> (try simp)
@[simp] theorem State.convFails_sp_locked (s : State) (k : EventKind) : (s.convFails k).sp.locked = s.sp.locked := by
  unfold State.convFails; (try dsimp only); (repeat' split) <;> (try simp)
@[simp] theorem State.convFails_sp_restarting (s : State) (k : EventKind) : (s.convFails k).sp.restarting = s.sp.restarting := by
  unfold State.convFails; (try dsimp only); (repeat' split) <;> (try simp)
@[simp] theorem State.convFails_sp_pointer (s : State) (k : EventKind) : (s.convFails k).sp.pointer = s.sp.pointer := by
  unfold State.convFails; (try dsimp only); (repeat' split) <;> (try simp)
@[simp] theorem State.convFails_sp_response (s : State) (k : EventKind) : (s.convFails k).sp.response = s.sp.response := by
  unfold State.convFails; (try dsimp only); (repeat' split) <;> (try simp)
@[simp] theorem State.convFails_pending (s : State) (k : EventKind) : (s.convFails k).pending = s.pending := by
  unfold State.convFails; (try dsimp only); (repeat' split) <;> (try simp)
@[simp] theorem State.convFails_inputs (s : State) (k : EventKind) : (s.convFails k).inputs = s.inputs := by
  unfold State.convFails; (try dsimp only); (repeat' split) <;> (try simp)

/-! ### startPrecharge -/

@[simp] theorem State.startPrecharge_now (s : State) : (s.startPrecharge).now = s.now := by
  unfold State.startPrecharge; (try dsimp only); (repeat' split) <;> (try simp)
@[simp] theorem State.startPrecharge_draws (s : State) : (s.startPrecharge).draws = s.draws := by
  unfold State.startPrecharge; (try dsimp only); (repeat' split) <;> (try simp)
@[simp] theorem State.startPrecharge_lp (s : State) : (s.startPrecharge).lp = s.lp := by
  unfold State.startPrecharge; (try dsimp only); (repeat' split) <;> (try simp)
@[simp] theorem State.startPrecharge_pv (s : State) : (s.startPrecharge).pv = s.pv := by
  unfold State.startPrecharge; (try dsimp only); (repeat' split) <;> (try simp)
@[simp] theorem State.startPrecharge_ct (s : State) : (s.startPrecharge).ct = s.ct := by
  unfold State.startPrecharge; (try dsimp only); (repeat' split) <;> (try simp)
@[simp] theorem State.startPrecharge_ea (s : State) : (s.startPrecharge).ea = s.ea := by
  unfold State.startPrecharge; (try dsimp only); (repeat' split) <;> (try simp)
@[simp] theorem State.startPrecharge_mt (s : State) : (s.startPrecharge).mt = s.mt := by
  unfold State.startPrecharge; (try dsimp only); (repeat' split) <;> (try simp)
@[simp] theorem State.startPrecharge_ap (s : State) : (s.startPrecharge).ap = s.ap := by
  unfold State.startPrecharge; (try dsimp only); (repeat' split) <;> (try simp)
@[simp] theorem State.startPrecharge_cu (s : State) : (s.startPrecharge).cu = s.cu := by
  unfold State.startPrecharge; (try dsimp only); (repeat' split) <;> (try simp)
@[simp] theorem State.startPrecharge_vl (s : State) : (s.startPrecharge).vl = s.vl := by
  unfold State.startPrecharge; (try dsimp only); (repeat' split) <;> (try simp)
@[simp] theorem State.startPrecharge_sp_mode (s : State) : (s.startPrecharge).sp.mode = s.sp.mode := by
  unfold State.startPrecharge; (try dsimp only); (repeat' split) <;> (try simp)
@[simp] theorem State.startPrecharge_sp_config (s : State) : (s.startPrecharge).sp.config = s.sp.config := by
  unfold State.startPrecharge; (try dsimp only); (repeat' split) <;> (try simp)
@[simp] theorem State.startPrecharge_sp_clamped (s : State) : (s.startPrecharge).sp.clamped = s.sp.clamped := by
  unfold State.startPrecharge; (try dsimp only); (repeat' split) <;> (try simp)
@[simp] theorem State.startPrecharge_sp_pendingKey (s : State) : (s.startPrecharge).sp.pendingKey = s.sp.pendingKey := by
  unfold State.startPrecharge; (try dsimp only); (repeat' split) <;> (try simp)
@[simp] theorem State.startPrecharge_sp_locked (s : State) : (s.startPrecharge).sp.locked = s.sp.locked := by
  unfold State.startPrecharge; (try dsimp only); (repeat' split) <;> (try simp)
@[simp] theorem State.startPrecharge_sp_restarting (s : State) : (s.startPrecharge).sp.restarting = s.sp.restarting := by
  unfold State.startPrecharge; (try dsimp only); (repeat' split) <;> (try simp)
@[simp] theorem State.startPrecharge_sp_pointer (s : State) : (s.startPrecharge).sp.pointer = s.sp.pointer := by
  unfold State.startPrecharge; (try dsimp only); (repeat' split) <;> (try simp)
@[simp] theorem State.startPrecharge_sp_response (s : State) : (s.startPrecharge).sp.response = s.sp.response := by
  unfold State.startPrecharge; (try dsimp only); (repeat' split) <;> (try simp)
@[simp] theorem State.startPrecharge_pending (s : State) : (s.startPrecharge).pending = s.pending := by
  unfold State.startPrecharge; (try dsimp only); (repeat' split) <;> (try simp)
@[simp] theorem State.startPrecharge_inputs (s : State) : (s.startPrecharge).inputs = s.inputs := by
  unfold State.startPrecharge; (try dsimp only); (repeat' split) <;> (try simp)

/-! ### requestStop -/

@[simp] theorem State.requestStop_now (s : State) : (s.requestStop).now = s.now := by
  unfold State.requestStop; (try dsimp only); (repeat' split) <;> (try simp)
@[simp] theorem State.requestStop_draws (s : State) : (s.requestStop).draws = s.draws := by
  unfold State.requestStop; (try dsimp only); (repeat' split) <;> (try simp)
@[simp] theorem State.requestStop_lp (s : State) : (s.requestStop).lp = s.lp := by
  unfold State.requestStop; (try dsimp only); (repeat' split) <;> (try simp)
@[simp] theorem State.requestStop_pv (s : State) : (s.requestStop).pv = s.pv := by
  unfold State.requestStop; (try dsimp only); (repeat' split) <;> (try simp)
@[simp] theorem State.requestStop_ct (s : State) : (s.requestStop).ct = s.ct := by
  unfold State.requestStop; (try dsimp only); (repeat' split) <;> (try simp)
@[simp] theorem State.requestStop_ea (s : State) : (s.requestStop).ea = s.ea := by
  unfold State.requestStop; (try dsimp only); (repeat' split) <;> (try simp)
@[simp] theorem State.requestStop_mt (s : State) : (s.requestStop).mt = s.mt := by
  unfold State.requestStop; (try dsimp only); (repeat' split) <;> (try simp)
@[simp] theorem State.requestStop_ap (s : State) : (s.requestStop).ap = s.ap := by
  unfold State.requestStop; (try dsimp only); (repeat' split) <;> (try simp)
@[simp] theorem State.requestStop_cu (s : State) : (s.requestStop).cu = s.cu := by
  unfold State.requestStop; (try dsimp only); (repeat' split) <;> (try simp)
@[simp] theorem State.requestStop_vl (s : State) : (s.requestStop).vl = s.vl := by
  unfold State.requestStop; (try dsimp only); (repeat' split) <;> (try simp)
@[simp] theorem State.requestStop_sp (s : State) : (s.requestStop).sp = s.sp := by
  unfold State.requestStop; (try dsimp only); (repeat' split) <;> (try simp)
@[simp] theorem State.requestStop_pending (s : State) : (s.requestStop).pending = s.pending := by
  unfold State.requestStop; (try dsimp only); (repeat' split) <;> (try simp)
@[simp] theorem State.requestStop_inputs (s : State) : (s.requestStop).inputs = s.inputs := by
  unfold State.requestStop; (try dsimp only); (repeat' split) <;> (try simp)

/-! ### dropEnable -/

@[simp] theorem State.dropEnable_now (s : State) : (s.dropEnable).now = s.now := by
  unfold State.dropEnable; (repeat' split) <;> (try simp)
@[simp] theorem State.dropEnable_draws (s : State) : (s.dropEnable).draws = s.draws := by
  unfold State.dropEnable; (repeat' split) <;> (try simp)
@[simp] theorem State.dropEnable_lp (s : State) : (s.dropEnable).lp = s.lp := by
  unfold State.dropEnable; (repeat' split) <;> (try simp)
@[simp] theorem State.dropEnable_pv (s : State) : (s.dropEnable).pv = s.pv := by
  unfold State.dropEnable; (repeat' split) <;> (try simp)
@[simp] theorem State.dropEnable_ct (s : State) : (s.dropEnable).ct = s.ct := by
  unfold State.dropEnable; (repeat' split) <;> (try simp)
@[simp] theorem State.dropEnable_ea (s : State) : (s.dropEnable).ea = s.ea := by
  unfold State.dropEnable; (repeat' split) <;> (try simp)
@[simp] theorem State.dropEnable_mt (s : State) : (s.dropEnable).mt = s.mt := by
  unfold State.dropEnable; (repeat' split) <;> (try simp)
@[simp] theorem State.dropEnable_ap (s : State) : (s.dropEnable).ap = s.ap := by
  unfold State.dropEnable; (repeat' split) <;> (try simp)
@[simp] theorem State.dropEnable_cu (s : State) : (s.dropEnable).cu = s.cu := by
  unfold State.dropEnable; (repeat' split) <;> (try simp)
@[simp] theorem State.dropEnable_vl (s : State) : (s.dropEnable).vl = s.vl := by
  unfold State.dropEnable; (repeat' split) <;> (try simp)
@[simp] theorem State.dropEnable_sp (s : State) : (s.dropEnable).sp = s.sp := by
  unfold State.dropEnable; (repeat' split) <;> (try simp)
@[simp] theorem State.dropEnable_pending (s : State) : (s.dropEnable).pending = s.pending := by
  unfold State.dropEnable; (repeat' split) <;> (try simp)
@[simp] theorem State.dropEnable_inputs (s : State) : (s.dropEnable).inputs = s.inputs := by
  unfold State.dropEnable; (repeat' split) <;> (try simp)

/-! ### stepDown -/

@[simp] theorem State.stepDown_now (s : State) (v : Nat) : (s.stepDown v).now = s.now := by
  unfold State.stepDown; (try dsimp only); (try simp)
@[simp] theorem State.stepDown_draws (s : State) (v : Nat) : (s.stepDown v).draws = s.draws := by
  unfold State.stepDown; (try dsimp only); (try simp)
@[simp] theorem State.stepDown_lp (s : State) (v : Nat) : (s.stepDown v).lp = s.lp := by
  unfold State.stepDown; (try dsimp only); (try simp)
@[simp] theorem State.stepDown_pv (s : State) (v : Nat) : (s.stepDown v).pv = s.pv := by
  unfold State.stepDown; (try dsimp only); (try simp)
@[simp] theorem State.stepDown_ct (s : State) (v : Nat) : (s.stepDown v).ct = s.ct := by
  unfold State.stepDown; (try dsimp only); (try simp)
@[simp] theorem State.stepDown_ea (s : State) (v : Nat) : (s.stepDown v).ea = s.ea := by
  unfold State.stepDown; (try dsimp only); (try simp)
@[simp] theorem State.stepDown_mt (s : State) (v : Nat) : (s.stepDown v).mt = s.mt := by
  unfold State.stepDown; (try dsimp only); (try simp)
@[simp] theorem State.stepDown_ap (s : State) (v : Nat) : (s.stepDown v).ap = s.ap := by
  unfold State.stepDown; (try dsimp only); (try simp)
@[simp] theorem State.stepDown_cu (s : State) (v : Nat) : (s.stepDown v).cu = s.cu := by
  unfold State.stepDown; (try dsimp only); (try simp)
@[simp] theorem State.stepDown_vl (s : State) (v : Nat) : (s.stepDown v).vl = s.vl := by
  unfold State.stepDown; (try dsimp only); (try simp)
@[simp] theorem State.stepDown_sp (s : State) (v : Nat) : (s.stepDown v).sp = s.sp := by
  unfold State.stepDown; (try dsimp only); (try simp)
@[simp] theorem State.stepDown_pending (s : State) (v : Nat) : (s.stepDown v).pending = s.pending := by
  unfold State.stepDown; (try dsimp only); (try simp)
@[simp] theorem State.stepDown_inputs (s : State) (v : Nat) : (s.stepDown v).inputs = s.inputs := by
  unfold State.stepDown; (try dsimp only); (try simp)

/-! ### setSession -/

@[simp] theorem State.setSession_now (s : State) (x : SessionState) : (s.setSession x).now = s.now := by
  unfold State.setSession; (try dsimp only); (try simp)
@[simp] theorem State.setSession_draws (s : State) (x : SessionState) : (s.setSession x).draws = s.draws := by
  unfold State.setSession; (try dsimp only); (try simp)
@[simp] theorem State.setSession_lp (s : State) (x : SessionState) : (s.setSession x).lp = s.lp := by
  unfold State.setSession; (try dsimp only); (try simp)
@[simp] theorem State.setSession_pv (s : State) (x : SessionState) : (s.setSession x).pv = s.pv := by
  unfold State.setSession; (try dsimp only); (try simp)
@[simp] theorem State.setSession_ct (s : State) (x : SessionState) : (s.setSession x).ct = s.ct := by
  unfold State.setSession; (try dsimp only); (try simp)
@[simp] theorem State.setSession_ea (s : State) (x : SessionState) : (s.setSession x).ea = s.ea := by
  unfold State.setSession; (try dsimp only); (try simp)
@[simp] theorem State.setSession_mt (s : State) (x : SessionState) : (s.setSession x).mt = s.mt := by
  unfold State.setSession; (try dsimp only); (try simp)
@[simp] theorem State.setSession_ap (s : State) (x : SessionState) : (s.setSession x).ap = s.ap := by
  unfold State.setSession; (try dsimp only); (try simp)
@[simp] theorem State.setSession_cu (s : State) (x : SessionState) : (s.setSession x).cu = s.cu := by
  unfold State.setSession; (try dsimp only); (try simp)
@[simp] theorem State.setSession_cc (s : State) (x : SessionState) : (s.setSession x).cc = s.cc := by
  unfold State.setSession; (try dsimp only); (try simp)
@[simp] theorem State.setSession_sp (s : State) (x : SessionState) : (s.setSession x).sp = s.sp := by
  unfold State.setSession; (try dsimp only); (try simp)
@[simp] theorem State.setSession_pending (s : State) (x : SessionState) : (s.setSession x).pending = s.pending := by
  unfold State.setSession; (try dsimp only); (try simp)
@[simp] theorem State.setSession_inputs (s : State) (x : SessionState) : (s.setSession x).inputs = s.inputs := by
  unfold State.setSession; (try dsimp only); (try simp)

/-! ### failSession -/

@[simp] theorem State.failSession_now (s : State) (f : LastFailure) (w : Nat) : (s.failSession f w).now = s.now := by
  unfold State.failSession; (try dsimp only); (repeat' split) <;> (try simp)
@[simp] theorem State.failSession_draws (s : State) (f : LastFailure) (w : Nat) : (s.failSession f w).draws = s.draws := by
  unfold State.failSession; (try dsimp only); (repeat' split) <;> (try simp)
@[simp] theorem State.failSession_lp (s : State) (f : LastFailure) (w : Nat) : (s.failSession f w).lp = s.lp := by
  unfold State.failSession; (try dsimp only); (repeat' split) <;> (try simp)
@[simp] theorem State.failSession_pv (s : State) (f : LastFailure) (w : Nat) : (s.failSession f w).pv = s.pv := by
  unfold State.failSession; (try dsimp only); (repeat' split) <;> (try simp)
@[simp] theorem State.failSession_ct (s : State) (f : LastFailure) (w : Nat) : (s.failSession f w).ct = s.ct := by
  unfold State.failSession; (try dsimp only); (repeat' split) <;> (try simp)
@[simp] theorem State.failSession_ea (s : State) (f : LastFailure) (w : Nat) : (s.failSession f w).ea = s.ea := by
  unfold State.failSession; (try dsimp only); (repeat' split) <;> (try simp)
@[simp] theorem State.failSession_mt (s : State) (f : LastFailure) (w : Nat) : (s.failSession f w).mt = s.mt := by
  unfold State.failSession; (try dsimp only); (repeat' split) <;> (try simp)
@[simp] theorem State.failSession_ap (s : State) (f : LastFailure) (w : Nat) : (s.failSession f w).ap = s.ap := by
  unfold State.failSession; (try dsimp only); (repeat' split) <;> (try simp)
@[simp] theorem State.failSession_cu (s : State) (f : LastFailure) (w : Nat) : (s.failSession f w).cu = s.cu := by
  unfold State.failSession; (try dsimp only); (repeat' split) <;> (try simp)
@[simp] theorem State.failSession_cc (s : State) (f : LastFailure) (w : Nat) : (s.failSession f w).cc = s.cc := by
  unfold State.failSession; (try dsimp only); (repeat' split) <;> (try simp)
@[simp] theorem State.failSession_sp_mode (s : State) (f : LastFailure) (w : Nat) : (s.failSession f w).sp.mode = s.sp.mode := by
  unfold State.failSession; (try dsimp only); (repeat' split) <;> (try simp)
@[simp] theorem State.failSession_sp_config (s : State) (f : LastFailure) (w : Nat) : (s.failSession f w).sp.config = s.sp.config := by
  unfold State.failSession; (try dsimp only); (repeat' split) <;> (try simp)
@[simp] theorem State.failSession_sp_clamped (s : State) (f : LastFailure) (w : Nat) : (s.failSession f w).sp.clamped = s.sp.clamped := by
  unfold State.failSession; (try dsimp only); (repeat' split) <;> (try simp)
@[simp] theorem State.failSession_sp_pendingKey (s : State) (f : LastFailure) (w : Nat) : (s.failSession f w).sp.pendingKey = s.sp.pendingKey := by
  unfold State.failSession; (try dsimp only); (repeat' split) <;> (try simp)
@[simp] theorem State.failSession_sp_locked (s : State) (f : LastFailure) (w : Nat) : (s.failSession f w).sp.locked = s.sp.locked := by
  unfold State.failSession; (try dsimp only); (repeat' split) <;> (try simp)
@[simp] theorem State.failSession_sp_restarting (s : State) (f : LastFailure) (w : Nat) : (s.failSession f w).sp.restarting = s.sp.restarting := by
  unfold State.failSession; (try dsimp only); (repeat' split) <;> (try simp)
@[simp] theorem State.failSession_sp_pointer (s : State) (f : LastFailure) (w : Nat) : (s.failSession f w).sp.pointer = s.sp.pointer := by
  unfold State.failSession; (try dsimp only); (repeat' split) <;> (try simp)
@[simp] theorem State.failSession_sp_response (s : State) (f : LastFailure) (w : Nat) : (s.failSession f w).sp.response = s.sp.response := by
  unfold State.failSession; (try dsimp only); (repeat' split) <;> (try simp)
@[simp] theorem State.failSession_pending (s : State) (f : LastFailure) (w : Nat) : (s.failSession f w).pending = s.pending := by
  unfold State.failSession; (try dsimp only); (repeat' split) <;> (try simp)
@[simp] theorem State.failSession_inputs (s : State) (f : LastFailure) (w : Nat) : (s.failSession f w).inputs = s.inputs := by
  unfold State.failSession; (try dsimp only); (repeat' split) <;> (try simp)

/-! ### linkLost -/

@[simp] theorem State.linkLost_now (s : State) : (s.linkLost).now = s.now := by
  unfold State.linkLost; (try dsimp only); (try simp)
@[simp] theorem State.linkLost_draws (s : State) : (s.linkLost).draws = s.draws := by
  unfold State.linkLost; (try dsimp only); (try simp)
@[simp] theorem State.linkLost_lp (s : State) : (s.linkLost).lp = s.lp := by
  unfold State.linkLost; (try dsimp only); (try simp)
@[simp] theorem State.linkLost_pv (s : State) : (s.linkLost).pv = s.pv := by
  unfold State.linkLost; (try dsimp only); (try simp)
@[simp] theorem State.linkLost_ct (s : State) : (s.linkLost).ct = s.ct := by
  unfold State.linkLost; (try dsimp only); (try simp)
@[simp] theorem State.linkLost_ea (s : State) : (s.linkLost).ea = s.ea := by
  unfold State.linkLost; (try dsimp only); (try simp)
@[simp] theorem State.linkLost_mt (s : State) : (s.linkLost).mt = s.mt := by
  unfold State.linkLost; (try dsimp only); (try simp)
@[simp] theorem State.linkLost_ap (s : State) : (s.linkLost).ap = s.ap := by
  unfold State.linkLost; (try dsimp only); (try simp)
@[simp] theorem State.linkLost_cu (s : State) : (s.linkLost).cu = s.cu := by
  unfold State.linkLost; (try dsimp only); (try simp)
@[simp] theorem State.linkLost_cc (s : State) : (s.linkLost).cc = s.cc := by
  unfold State.linkLost; (try dsimp only); (try simp)
@[simp] theorem State.linkLost_sp_mode (s : State) : (s.linkLost).sp.mode = s.sp.mode := by
  unfold State.linkLost; (try dsimp only); (try simp)
@[simp] theorem State.linkLost_sp_config (s : State) : (s.linkLost).sp.config = s.sp.config := by
  unfold State.linkLost; (try dsimp only); (try simp)
@[simp] theorem State.linkLost_sp_clamped (s : State) : (s.linkLost).sp.clamped = s.sp.clamped := by
  unfold State.linkLost; (try dsimp only); (try simp)
@[simp] theorem State.linkLost_sp_pendingKey (s : State) : (s.linkLost).sp.pendingKey = s.sp.pendingKey := by
  unfold State.linkLost; (try dsimp only); (try simp)
@[simp] theorem State.linkLost_sp_locked (s : State) : (s.linkLost).sp.locked = s.sp.locked := by
  unfold State.linkLost; (try dsimp only); (try simp)
@[simp] theorem State.linkLost_sp_restarting (s : State) : (s.linkLost).sp.restarting = s.sp.restarting := by
  unfold State.linkLost; (try dsimp only); (try simp)
@[simp] theorem State.linkLost_sp_pointer (s : State) : (s.linkLost).sp.pointer = s.sp.pointer := by
  unfold State.linkLost; (try dsimp only); (try simp)
@[simp] theorem State.linkLost_sp_response (s : State) : (s.linkLost).sp.response = s.sp.response := by
  unfold State.linkLost; (try dsimp only); (try simp)
@[simp] theorem State.linkLost_pending (s : State) : (s.linkLost).pending = s.pending := by
  unfold State.linkLost; (try dsimp only); (try simp)
@[simp] theorem State.linkLost_inputs (s : State) : (s.linkLost).inputs = s.inputs := by
  unfold State.linkLost; (try dsimp only); (try simp)

/-! ### identifyFails -/

@[simp] theorem State.identifyFails_now (s : State) (f : LastFailure) : (s.identifyFails f).now = s.now := by
  unfold State.identifyFails; (try dsimp only); (try simp)
@[simp] theorem State.identifyFails_draws (s : State) (f : LastFailure) : (s.identifyFails f).draws = s.draws := by
  unfold State.identifyFails; (try dsimp only); (try simp)
@[simp] theorem State.identifyFails_lp (s : State) (f : LastFailure) : (s.identifyFails f).lp = s.lp := by
  unfold State.identifyFails; (try dsimp only); (try simp)
@[simp] theorem State.identifyFails_pv (s : State) (f : LastFailure) : (s.identifyFails f).pv = s.pv := by
  unfold State.identifyFails; (try dsimp only); (try simp)
@[simp] theorem State.identifyFails_ct (s : State) (f : LastFailure) : (s.identifyFails f).ct = s.ct := by
  unfold State.identifyFails; (try dsimp only); (try simp)
@[simp] theorem State.identifyFails_ea (s : State) (f : LastFailure) : (s.identifyFails f).ea = s.ea := by
  unfold State.identifyFails; (try dsimp only); (try simp)
@[simp] theorem State.identifyFails_mt (s : State) (f : LastFailure) : (s.identifyFails f).mt = s.mt := by
  unfold State.identifyFails; (try dsimp only); (try simp)
@[simp] theorem State.identifyFails_ap (s : State) (f : LastFailure) : (s.identifyFails f).ap = s.ap := by
  unfold State.identifyFails; (try dsimp only); (try simp)
@[simp] theorem State.identifyFails_cu (s : State) (f : LastFailure) : (s.identifyFails f).cu = s.cu := by
  unfold State.identifyFails; (try dsimp only); (try simp)
@[simp] theorem State.identifyFails_cc (s : State) (f : LastFailure) : (s.identifyFails f).cc = s.cc := by
  unfold State.identifyFails; (try dsimp only); (try simp)
@[simp] theorem State.identifyFails_sp_mode (s : State) (f : LastFailure) : (s.identifyFails f).sp.mode = s.sp.mode := by
  unfold State.identifyFails; (try dsimp only); (try simp)
@[simp] theorem State.identifyFails_sp_config (s : State) (f : LastFailure) : (s.identifyFails f).sp.config = s.sp.config := by
  unfold State.identifyFails; (try dsimp only); (try simp)
@[simp] theorem State.identifyFails_sp_clamped (s : State) (f : LastFailure) : (s.identifyFails f).sp.clamped = s.sp.clamped := by
  unfold State.identifyFails; (try dsimp only); (try simp)
@[simp] theorem State.identifyFails_sp_pendingKey (s : State) (f : LastFailure) : (s.identifyFails f).sp.pendingKey = s.sp.pendingKey := by
  unfold State.identifyFails; (try dsimp only); (try simp)
@[simp] theorem State.identifyFails_sp_locked (s : State) (f : LastFailure) : (s.identifyFails f).sp.locked = s.sp.locked := by
  unfold State.identifyFails; (try dsimp only); (try simp)
@[simp] theorem State.identifyFails_sp_restarting (s : State) (f : LastFailure) : (s.identifyFails f).sp.restarting = s.sp.restarting := by
  unfold State.identifyFails; (try dsimp only); (try simp)
@[simp] theorem State.identifyFails_sp_pointer (s : State) (f : LastFailure) : (s.identifyFails f).sp.pointer = s.sp.pointer := by
  unfold State.identifyFails; (try dsimp only); (try simp)
@[simp] theorem State.identifyFails_sp_response (s : State) (f : LastFailure) : (s.identifyFails f).sp.response = s.sp.response := by
  unfold State.identifyFails; (try dsimp only); (try simp)
@[simp] theorem State.identifyFails_pending (s : State) (f : LastFailure) : (s.identifyFails f).pending = s.pending := by
  unfold State.identifyFails; (try dsimp only); (try simp)
@[simp] theorem State.identifyFails_inputs (s : State) (f : LastFailure) : (s.identifyFails f).inputs = s.inputs := by
  unfold State.identifyFails; (try dsimp only); (try simp)

/-! ### enterIdentifying -/

@[simp] theorem State.enterIdentifying_now (s : State) : (s.enterIdentifying).now = s.now := by
  unfold State.enterIdentifying; (try dsimp only); (try simp)
@[simp] theorem State.enterIdentifying_draws (s : State) : (s.enterIdentifying).draws = s.draws := by
  unfold State.enterIdentifying; (try dsimp only); (try simp)
@[simp] theorem State.enterIdentifying_lp (s : State) : (s.enterIdentifying).lp = s.lp := by
  unfold State.enterIdentifying; (try dsimp only); (try simp)
@[simp] theorem State.enterIdentifying_pv (s : State) : (s.enterIdentifying).pv = s.pv := by
  unfold State.enterIdentifying; (try dsimp only); (try simp)
@[simp] theorem State.enterIdentifying_ct (s : State) : (s.enterIdentifying).ct = s.ct := by
  unfold State.enterIdentifying; (try dsimp only); (try simp)
@[simp] theorem State.enterIdentifying_mt (s : State) : (s.enterIdentifying).mt = s.mt := by
  unfold State.enterIdentifying; (try dsimp only); (try simp)
@[simp] theorem State.enterIdentifying_ap (s : State) : (s.enterIdentifying).ap = s.ap := by
  unfold State.enterIdentifying; (try dsimp only); (try simp)
@[simp] theorem State.enterIdentifying_cu (s : State) : (s.enterIdentifying).cu = s.cu := by
  unfold State.enterIdentifying; (try dsimp only); (try simp)
@[simp] theorem State.enterIdentifying_cc (s : State) : (s.enterIdentifying).cc = s.cc := by
  unfold State.enterIdentifying; (try dsimp only); (try simp)
@[simp] theorem State.enterIdentifying_sp (s : State) : (s.enterIdentifying).sp = s.sp := by
  unfold State.enterIdentifying; (try dsimp only); (try simp)
@[simp] theorem State.enterIdentifying_pending (s : State) : (s.enterIdentifying).pending = s.pending := by
  unfold State.enterIdentifying; (try dsimp only); (try simp)
@[simp] theorem State.enterIdentifying_inputs (s : State) : (s.enterIdentifying).inputs = s.inputs := by
  unfold State.enterIdentifying; (try dsimp only); (try simp)

/-! ### attach -/

@[simp] theorem State.attach_now (s : State) : (s.attach).now = s.now := by
  unfold State.attach; (try dsimp only); (try simp)
@[simp] theorem State.attach_draws (s : State) : (s.attach).draws = s.draws := by
  unfold State.attach; (try dsimp only); (try simp)
@[simp] theorem State.attach_lp (s : State) : (s.attach).lp = s.lp := by
  unfold State.attach; (try dsimp only); (try simp)
@[simp] theorem State.attach_pv (s : State) : (s.attach).pv = s.pv := by
  unfold State.attach; (try dsimp only); (try simp)
@[simp] theorem State.attach_ct (s : State) : (s.attach).ct = s.ct := by
  unfold State.attach; (try dsimp only); (try simp)
@[simp] theorem State.attach_ea (s : State) : (s.attach).ea = s.ea := by
  unfold State.attach; (try dsimp only); (try simp)
@[simp] theorem State.attach_mt (s : State) : (s.attach).mt = s.mt := by
  unfold State.attach; (try dsimp only); (try simp)
@[simp] theorem State.attach_ap (s : State) : (s.attach).ap = s.ap := by
  unfold State.attach; (try dsimp only); (try simp)
@[simp] theorem State.attach_cu (s : State) : (s.attach).cu = s.cu := by
  unfold State.attach; (try dsimp only); (try simp)
@[simp] theorem State.attach_cc (s : State) : (s.attach).cc = s.cc := by
  unfold State.attach; (try dsimp only); (try simp)
@[simp] theorem State.attach_sp_mode (s : State) : (s.attach).sp.mode = s.sp.mode := by
  unfold State.attach; (try dsimp only); (try simp)
@[simp] theorem State.attach_sp_config (s : State) : (s.attach).sp.config = s.sp.config := by
  unfold State.attach; (try dsimp only); (try simp)
@[simp] theorem State.attach_sp_clamped (s : State) : (s.attach).sp.clamped = s.sp.clamped := by
  unfold State.attach; (try dsimp only); (try simp)
@[simp] theorem State.attach_sp_pendingKey (s : State) : (s.attach).sp.pendingKey = s.sp.pendingKey := by
  unfold State.attach; (try dsimp only); (try simp)
@[simp] theorem State.attach_sp_locked (s : State) : (s.attach).sp.locked = s.sp.locked := by
  unfold State.attach; (try dsimp only); (try simp)
@[simp] theorem State.attach_sp_restarting (s : State) : (s.attach).sp.restarting = s.sp.restarting := by
  unfold State.attach; (try dsimp only); (try simp)
@[simp] theorem State.attach_sp_pointer (s : State) : (s.attach).sp.pointer = s.sp.pointer := by
  unfold State.attach; (try dsimp only); (try simp)
@[simp] theorem State.attach_sp_response (s : State) : (s.attach).sp.response = s.sp.response := by
  unfold State.attach; (try dsimp only); (try simp)
@[simp] theorem State.attach_pending (s : State) : (s.attach).pending = s.pending := by
  unfold State.attach; (try dsimp only); (try simp)
@[simp] theorem State.attach_inputs (s : State) : (s.attach).inputs = s.inputs := by
  unfold State.attach; (try dsimp only); (try simp)

/-! ### enterTuning -/

@[simp] theorem State.enterTuning_now (s : State) (k : TuningKind) (c : TuneCode) : (s.enterTuning k c).now = s.now := by
  unfold State.enterTuning; (try dsimp only); (repeat' split) <;> (try simp)
@[simp] theorem State.enterTuning_draws (s : State) (k : TuningKind) (c : TuneCode) : (s.enterTuning k c).draws = s.draws := by
  unfold State.enterTuning; (try dsimp only); (repeat' split) <;> (try simp)
@[simp] theorem State.enterTuning_lp (s : State) (k : TuningKind) (c : TuneCode) : (s.enterTuning k c).lp = s.lp := by
  unfold State.enterTuning; (try dsimp only); (repeat' split) <;> (try simp)
@[simp] theorem State.enterTuning_pv (s : State) (k : TuningKind) (c : TuneCode) : (s.enterTuning k c).pv = s.pv := by
  unfold State.enterTuning; (try dsimp only); (repeat' split) <;> (try simp)
@[simp] theorem State.enterTuning_ct (s : State) (k : TuningKind) (c : TuneCode) : (s.enterTuning k c).ct = s.ct := by
  unfold State.enterTuning; (try dsimp only); (repeat' split) <;> (try simp)
@[simp] theorem State.enterTuning_ea (s : State) (k : TuningKind) (c : TuneCode) : (s.enterTuning k c).ea = s.ea := by
  unfold State.enterTuning; (try dsimp only); (repeat' split) <;> (try simp)
@[simp] theorem State.enterTuning_mt (s : State) (k : TuningKind) (c : TuneCode) : (s.enterTuning k c).mt = s.mt := by
  unfold State.enterTuning; (try dsimp only); (repeat' split) <;> (try simp)
@[simp] theorem State.enterTuning_ap (s : State) (k : TuningKind) (c : TuneCode) : (s.enterTuning k c).ap = s.ap := by
  unfold State.enterTuning; (try dsimp only); (repeat' split) <;> (try simp)
@[simp] theorem State.enterTuning_cu (s : State) (k : TuningKind) (c : TuneCode) : (s.enterTuning k c).cu = s.cu := by
  unfold State.enterTuning; (try dsimp only); (repeat' split) <;> (try simp)
@[simp] theorem State.enterTuning_cc (s : State) (k : TuningKind) (c : TuneCode) : (s.enterTuning k c).cc = s.cc := by
  unfold State.enterTuning; (try dsimp only); (repeat' split) <;> (try simp)
@[simp] theorem State.enterTuning_sp (s : State) (k : TuningKind) (c : TuneCode) : (s.enterTuning k c).sp = s.sp := by
  unfold State.enterTuning; (try dsimp only); (repeat' split) <;> (try simp)
@[simp] theorem State.enterTuning_pending (s : State) (k : TuningKind) (c : TuneCode) : (s.enterTuning k c).pending = s.pending := by
  unfold State.enterTuning; (try dsimp only); (repeat' split) <;> (try simp)
@[simp] theorem State.enterTuning_inputs (s : State) (k : TuningKind) (c : TuneCode) : (s.enterTuning k c).inputs = s.inputs := by
  unfold State.enterTuning; (try dsimp only); (repeat' split) <;> (try simp)

/-! ### enterLockout -/

@[simp] theorem State.enterLockout_now (s : State) : (s.enterLockout).now = s.now := by
  unfold State.enterLockout; (try dsimp only); (repeat' split) <;> (try simp)
@[simp] theorem State.enterLockout_draws (s : State) : (s.enterLockout).draws = s.draws := by
  unfold State.enterLockout; (try dsimp only); (repeat' split) <;> (try simp)
@[simp] theorem State.enterLockout_pv (s : State) : (s.enterLockout).pv = s.pv := by
  unfold State.enterLockout; (try dsimp only); (repeat' split) <;> (try simp)
@[simp] theorem State.enterLockout_ct (s : State) : (s.enterLockout).ct = s.ct := by
  unfold State.enterLockout; (try dsimp only); (repeat' split) <;> (try simp)
@[simp] theorem State.enterLockout_ea (s : State) : (s.enterLockout).ea = s.ea := by
  unfold State.enterLockout; (try dsimp only); (repeat' split) <;> (try simp)
@[simp] theorem State.enterLockout_mt (s : State) : (s.enterLockout).mt = s.mt := by
  unfold State.enterLockout; (try dsimp only); (repeat' split) <;> (try simp)
@[simp] theorem State.enterLockout_ap (s : State) : (s.enterLockout).ap = s.ap := by
  unfold State.enterLockout; (try dsimp only); (repeat' split) <;> (try simp)
@[simp] theorem State.enterLockout_cu (s : State) : (s.enterLockout).cu = s.cu := by
  unfold State.enterLockout; (try dsimp only); (repeat' split) <;> (try simp)
@[simp] theorem State.enterLockout_sp_config (s : State) : (s.enterLockout).sp.config = s.sp.config := by
  unfold State.enterLockout; (try dsimp only); (repeat' split) <;> (try simp)
@[simp] theorem State.enterLockout_sp_clamped (s : State) : (s.enterLockout).sp.clamped = s.sp.clamped := by
  unfold State.enterLockout; (try dsimp only); (repeat' split) <;> (try simp)
@[simp] theorem State.enterLockout_sp_pendingKey (s : State) : (s.enterLockout).sp.pendingKey = s.sp.pendingKey := by
  unfold State.enterLockout; (try dsimp only); (repeat' split) <;> (try simp)
@[simp] theorem State.enterLockout_sp_locked (s : State) : (s.enterLockout).sp.locked = s.sp.locked := by
  unfold State.enterLockout; (try dsimp only); (repeat' split) <;> (try simp)
@[simp] theorem State.enterLockout_sp_restarting (s : State) : (s.enterLockout).sp.restarting = s.sp.restarting := by
  unfold State.enterLockout; (try dsimp only); (repeat' split) <;> (try simp)
@[simp] theorem State.enterLockout_sp_events (s : State) : (s.enterLockout).sp.events = s.sp.events := by
  unfold State.enterLockout; (try dsimp only); (repeat' split) <;> (try simp)
@[simp] theorem State.enterLockout_sp_pointer (s : State) : (s.enterLockout).sp.pointer = s.sp.pointer := by
  unfold State.enterLockout; (try dsimp only); (repeat' split) <;> (try simp)
@[simp] theorem State.enterLockout_sp_response (s : State) : (s.enterLockout).sp.response = s.sp.response := by
  unfold State.enterLockout; (try dsimp only); (repeat' split) <;> (try simp)
@[simp] theorem State.enterLockout_pending (s : State) : (s.enterLockout).pending = s.pending := by
  unfold State.enterLockout; (try dsimp only); (repeat' split) <;> (try simp)
@[simp] theorem State.enterLockout_inputs (s : State) : (s.enterLockout).inputs = s.inputs := by
  unfold State.enterLockout; (try dsimp only); (repeat' split) <;> (try simp)

/-! ### startEchoTimer -/

@[simp] theorem State.startEchoTimer_now (s : State) : (s.startEchoTimer).now = s.now := by
  unfold State.startEchoTimer; (try dsimp only); (try simp)
@[simp] theorem State.startEchoTimer_lp (s : State) : (s.startEchoTimer).lp = s.lp := by
  unfold State.startEchoTimer; (try dsimp only); (try simp)
@[simp] theorem State.startEchoTimer_pv (s : State) : (s.startEchoTimer).pv = s.pv := by
  unfold State.startEchoTimer; (try dsimp only); (try simp)
@[simp] theorem State.startEchoTimer_ea (s : State) : (s.startEchoTimer).ea = s.ea := by
  unfold State.startEchoTimer; (try dsimp only); (try simp)
@[simp] theorem State.startEchoTimer_mt (s : State) : (s.startEchoTimer).mt = s.mt := by
  unfold State.startEchoTimer; (try dsimp only); (try simp)
@[simp] theorem State.startEchoTimer_ap (s : State) : (s.startEchoTimer).ap = s.ap := by
  unfold State.startEchoTimer; (try dsimp only); (try simp)
@[simp] theorem State.startEchoTimer_cu (s : State) : (s.startEchoTimer).cu = s.cu := by
  unfold State.startEchoTimer; (try dsimp only); (try simp)
@[simp] theorem State.startEchoTimer_cc (s : State) : (s.startEchoTimer).cc = s.cc := by
  unfold State.startEchoTimer; (try dsimp only); (try simp)
@[simp] theorem State.startEchoTimer_vl (s : State) : (s.startEchoTimer).vl = s.vl := by
  unfold State.startEchoTimer; (try dsimp only); (try simp)
@[simp] theorem State.startEchoTimer_sp (s : State) : (s.startEchoTimer).sp = s.sp := by
  unfold State.startEchoTimer; (try dsimp only); (try simp)
@[simp] theorem State.startEchoTimer_pending (s : State) : (s.startEchoTimer).pending = s.pending := by
  unfold State.startEchoTimer; (try dsimp only); (try simp)
@[simp] theorem State.startEchoTimer_inputs (s : State) : (s.startEchoTimer).inputs = s.inputs := by
  unfold State.startEchoTimer; (try dsimp only); (try simp)

/-! ### heard -/

@[simp] theorem State.heard_now (s : State) (a b : Nat) : (s.heard a b).now = s.now := by
  unfold State.heard; (try dsimp only); (try simp)
@[simp] theorem State.heard_draws (s : State) (a b : Nat) : (s.heard a b).draws = s.draws := by
  unfold State.heard; (try dsimp only); (try simp)
@[simp] theorem State.heard_lp (s : State) (a b : Nat) : (s.heard a b).lp = s.lp := by
  unfold State.heard; (try dsimp only); (try simp)
@[simp] theorem State.heard_ct (s : State) (a b : Nat) : (s.heard a b).ct = s.ct := by
  unfold State.heard; (try dsimp only); (try simp)
@[simp] theorem State.heard_ea (s : State) (a b : Nat) : (s.heard a b).ea = s.ea := by
  unfold State.heard; (try dsimp only); (try simp)
@[simp] theorem State.heard_mt (s : State) (a b : Nat) : (s.heard a b).mt = s.mt := by
  unfold State.heard; (try dsimp only); (try simp)
@[simp] theorem State.heard_ap (s : State) (a b : Nat) : (s.heard a b).ap = s.ap := by
  unfold State.heard; (try dsimp only); (try simp)
@[simp] theorem State.heard_cu (s : State) (a b : Nat) : (s.heard a b).cu = s.cu := by
  unfold State.heard; (try dsimp only); (try simp)
@[simp] theorem State.heard_cc (s : State) (a b : Nat) : (s.heard a b).cc = s.cc := by
  unfold State.heard; (try dsimp only); (try simp)
@[simp] theorem State.heard_vl (s : State) (a b : Nat) : (s.heard a b).vl = s.vl := by
  unfold State.heard; (try dsimp only); (try simp)
@[simp] theorem State.heard_sp (s : State) (a b : Nat) : (s.heard a b).sp = s.sp := by
  unfold State.heard; (try dsimp only); (try simp)
@[simp] theorem State.heard_pending (s : State) (a b : Nat) : (s.heard a b).pending = s.pending := by
  unfold State.heard; (try dsimp only); (try simp)
@[simp] theorem State.heard_inputs (s : State) (a b : Nat) : (s.heard a b).inputs = s.inputs := by
  unfold State.heard; (try dsimp only); (try simp)

/-! ### countReceived -/

@[simp] theorem State.countReceived_now (s : State) : (s.countReceived).now = s.now := by
  unfold State.countReceived; (try dsimp only); (try simp)
@[simp] theorem State.countReceived_draws (s : State) : (s.countReceived).draws = s.draws := by
  unfold State.countReceived; (try dsimp only); (try simp)
@[simp] theorem State.countReceived_pv (s : State) : (s.countReceived).pv = s.pv := by
  unfold State.countReceived; (try dsimp only); (try simp)
@[simp] theorem State.countReceived_ct (s : State) : (s.countReceived).ct = s.ct := by
  unfold State.countReceived; (try dsimp only); (try simp)
@[simp] theorem State.countReceived_ea (s : State) : (s.countReceived).ea = s.ea := by
  unfold State.countReceived; (try dsimp only); (try simp)
@[simp] theorem State.countReceived_mt (s : State) : (s.countReceived).mt = s.mt := by
  unfold State.countReceived; (try dsimp only); (try simp)
@[simp] theorem State.countReceived_ap (s : State) : (s.countReceived).ap = s.ap := by
  unfold State.countReceived; (try dsimp only); (try simp)
@[simp] theorem State.countReceived_cu (s : State) : (s.countReceived).cu = s.cu := by
  unfold State.countReceived; (try dsimp only); (try simp)
@[simp] theorem State.countReceived_cc (s : State) : (s.countReceived).cc = s.cc := by
  unfold State.countReceived; (try dsimp only); (try simp)
@[simp] theorem State.countReceived_vl (s : State) : (s.countReceived).vl = s.vl := by
  unfold State.countReceived; (try dsimp only); (try simp)
@[simp] theorem State.countReceived_sp (s : State) : (s.countReceived).sp = s.sp := by
  unfold State.countReceived; (try dsimp only); (try simp)
@[simp] theorem State.countReceived_pending (s : State) : (s.countReceived).pending = s.pending := by
  unfold State.countReceived; (try dsimp only); (try simp)
@[simp] theorem State.countReceived_inputs (s : State) : (s.countReceived).inputs = s.inputs := by
  unfold State.countReceived; (try dsimp only); (try simp)

/-! ### acceptStanding -/

@[simp] theorem State.acceptStanding_now (s : State) (a b : Nat) (f : Announced) : (s.acceptStanding a b f).now = s.now := by
  unfold State.acceptStanding; (try dsimp only); (try simp)
@[simp] theorem State.acceptStanding_draws (s : State) (a b : Nat) (f : Announced) : (s.acceptStanding a b f).draws = s.draws := by
  unfold State.acceptStanding; (try dsimp only); (try simp)
@[simp] theorem State.acceptStanding_lp (s : State) (a b : Nat) (f : Announced) : (s.acceptStanding a b f).lp = s.lp := by
  unfold State.acceptStanding; (try dsimp only); (try simp)
@[simp] theorem State.acceptStanding_ct (s : State) (a b : Nat) (f : Announced) : (s.acceptStanding a b f).ct = s.ct := by
  unfold State.acceptStanding; (try dsimp only); (try simp)
@[simp] theorem State.acceptStanding_ea (s : State) (a b : Nat) (f : Announced) : (s.acceptStanding a b f).ea = s.ea := by
  unfold State.acceptStanding; (try dsimp only); (try simp)
@[simp] theorem State.acceptStanding_mt (s : State) (a b : Nat) (f : Announced) : (s.acceptStanding a b f).mt = s.mt := by
  unfold State.acceptStanding; (try dsimp only); (try simp)
@[simp] theorem State.acceptStanding_ap (s : State) (a b : Nat) (f : Announced) : (s.acceptStanding a b f).ap = s.ap := by
  unfold State.acceptStanding; (try dsimp only); (try simp)
@[simp] theorem State.acceptStanding_cu (s : State) (a b : Nat) (f : Announced) : (s.acceptStanding a b f).cu = s.cu := by
  unfold State.acceptStanding; (try dsimp only); (try simp)
@[simp] theorem State.acceptStanding_cc (s : State) (a b : Nat) (f : Announced) : (s.acceptStanding a b f).cc = s.cc := by
  unfold State.acceptStanding; (try dsimp only); (try simp)
@[simp] theorem State.acceptStanding_vl (s : State) (a b : Nat) (f : Announced) : (s.acceptStanding a b f).vl = s.vl := by
  unfold State.acceptStanding; (try dsimp only); (try simp)
@[simp] theorem State.acceptStanding_sp_mode (s : State) (a b : Nat) (f : Announced) : (s.acceptStanding a b f).sp.mode = s.sp.mode := by
  unfold State.acceptStanding; (try dsimp only); (try simp)
@[simp] theorem State.acceptStanding_sp_config (s : State) (a b : Nat) (f : Announced) : (s.acceptStanding a b f).sp.config = s.sp.config := by
  unfold State.acceptStanding; (try dsimp only); (try simp)
@[simp] theorem State.acceptStanding_sp_clamped (s : State) (a b : Nat) (f : Announced) : (s.acceptStanding a b f).sp.clamped = s.sp.clamped := by
  unfold State.acceptStanding; (try dsimp only); (try simp)
@[simp] theorem State.acceptStanding_sp_pendingKey (s : State) (a b : Nat) (f : Announced) : (s.acceptStanding a b f).sp.pendingKey = s.sp.pendingKey := by
  unfold State.acceptStanding; (try dsimp only); (try simp)
@[simp] theorem State.acceptStanding_sp_locked (s : State) (a b : Nat) (f : Announced) : (s.acceptStanding a b f).sp.locked = s.sp.locked := by
  unfold State.acceptStanding; (try dsimp only); (try simp)
@[simp] theorem State.acceptStanding_sp_restarting (s : State) (a b : Nat) (f : Announced) : (s.acceptStanding a b f).sp.restarting = s.sp.restarting := by
  unfold State.acceptStanding; (try dsimp only); (try simp)
@[simp] theorem State.acceptStanding_sp_pointer (s : State) (a b : Nat) (f : Announced) : (s.acceptStanding a b f).sp.pointer = s.sp.pointer := by
  unfold State.acceptStanding; (try dsimp only); (try simp)
@[simp] theorem State.acceptStanding_sp_response (s : State) (a b : Nat) (f : Announced) : (s.acceptStanding a b f).sp.response = s.sp.response := by
  unfold State.acceptStanding; (try dsimp only); (try simp)
@[simp] theorem State.acceptStanding_pending (s : State) (a b : Nat) (f : Announced) : (s.acceptStanding a b f).pending = s.pending := by
  unfold State.acceptStanding; (try dsimp only); (try simp)
@[simp] theorem State.acceptStanding_inputs (s : State) (a b : Nat) (f : Announced) : (s.acceptStanding a b f).inputs = s.inputs := by
  unfold State.acceptStanding; (try dsimp only); (try simp)

/-! ### ownEchoed -/

@[simp] theorem State.ownEchoed_now (s : State) : (s.ownEchoed).now = s.now := by
  unfold State.ownEchoed; (try dsimp only); (repeat' split) <;> (try simp)
@[simp] theorem State.ownEchoed_draws (s : State) : (s.ownEchoed).draws = s.draws := by
  unfold State.ownEchoed; (try dsimp only); (repeat' split) <;> (try simp)
@[simp] theorem State.ownEchoed_lp (s : State) : (s.ownEchoed).lp = s.lp := by
  unfold State.ownEchoed; (try dsimp only); (repeat' split) <;> (try simp)
@[simp] theorem State.ownEchoed_ct (s : State) : (s.ownEchoed).ct = s.ct := by
  unfold State.ownEchoed; (try dsimp only); (repeat' split) <;> (try simp)
@[simp] theorem State.ownEchoed_ea (s : State) : (s.ownEchoed).ea = s.ea := by
  unfold State.ownEchoed; (try dsimp only); (repeat' split) <;> (try simp)
@[simp] theorem State.ownEchoed_mt (s : State) : (s.ownEchoed).mt = s.mt := by
  unfold State.ownEchoed; (try dsimp only); (repeat' split) <;> (try simp)
@[simp] theorem State.ownEchoed_ap (s : State) : (s.ownEchoed).ap = s.ap := by
  unfold State.ownEchoed; (try dsimp only); (repeat' split) <;> (try simp)
@[simp] theorem State.ownEchoed_cu (s : State) : (s.ownEchoed).cu = s.cu := by
  unfold State.ownEchoed; (try dsimp only); (repeat' split) <;> (try simp)
@[simp] theorem State.ownEchoed_cc (s : State) : (s.ownEchoed).cc = s.cc := by
  unfold State.ownEchoed; (try dsimp only); (repeat' split) <;> (try simp)
@[simp] theorem State.ownEchoed_vl (s : State) : (s.ownEchoed).vl = s.vl := by
  unfold State.ownEchoed; (try dsimp only); (repeat' split) <;> (try simp)
@[simp] theorem State.ownEchoed_sp_mode (s : State) : (s.ownEchoed).sp.mode = s.sp.mode := by
  unfold State.ownEchoed; (try dsimp only); (repeat' split) <;> (try simp)
@[simp] theorem State.ownEchoed_sp_config (s : State) : (s.ownEchoed).sp.config = s.sp.config := by
  unfold State.ownEchoed; (try dsimp only); (repeat' split) <;> (try simp)
@[simp] theorem State.ownEchoed_sp_clamped (s : State) : (s.ownEchoed).sp.clamped = s.sp.clamped := by
  unfold State.ownEchoed; (try dsimp only); (repeat' split) <;> (try simp)
@[simp] theorem State.ownEchoed_sp_pendingKey (s : State) : (s.ownEchoed).sp.pendingKey = s.sp.pendingKey := by
  unfold State.ownEchoed; (try dsimp only); (repeat' split) <;> (try simp)
@[simp] theorem State.ownEchoed_sp_locked (s : State) : (s.ownEchoed).sp.locked = s.sp.locked := by
  unfold State.ownEchoed; (try dsimp only); (repeat' split) <;> (try simp)
@[simp] theorem State.ownEchoed_sp_restarting (s : State) : (s.ownEchoed).sp.restarting = s.sp.restarting := by
  unfold State.ownEchoed; (try dsimp only); (repeat' split) <;> (try simp)
@[simp] theorem State.ownEchoed_sp_pointer (s : State) : (s.ownEchoed).sp.pointer = s.sp.pointer := by
  unfold State.ownEchoed; (try dsimp only); (repeat' split) <;> (try simp)
@[simp] theorem State.ownEchoed_sp_response (s : State) : (s.ownEchoed).sp.response = s.sp.response := by
  unfold State.ownEchoed; (try dsimp only); (repeat' split) <;> (try simp)
@[simp] theorem State.ownEchoed_pending (s : State) : (s.ownEchoed).pending = s.pending := by
  unfold State.ownEchoed; (try dsimp only); (repeat' split) <;> (try simp)
@[simp] theorem State.ownEchoed_inputs (s : State) : (s.ownEchoed).inputs = s.inputs := by
  unfold State.ownEchoed; (try dsimp only); (repeat' split) <;> (try simp)

/-! ### ownNotEchoed -/

@[simp] theorem State.ownNotEchoed_now (s : State) : (s.ownNotEchoed).now = s.now := by
  unfold State.ownNotEchoed; (try dsimp only); (repeat' split) <;> (try simp)
@[simp] theorem State.ownNotEchoed_draws (s : State) : (s.ownNotEchoed).draws = s.draws := by
  unfold State.ownNotEchoed; (try dsimp only); (repeat' split) <;> (try simp)
@[simp] theorem State.ownNotEchoed_lp (s : State) : (s.ownNotEchoed).lp = s.lp := by
  unfold State.ownNotEchoed; (try dsimp only); (repeat' split) <;> (try simp)
@[simp] theorem State.ownNotEchoed_ct (s : State) : (s.ownNotEchoed).ct = s.ct := by
  unfold State.ownNotEchoed; (try dsimp only); (repeat' split) <;> (try simp)
@[simp] theorem State.ownNotEchoed_ea (s : State) : (s.ownNotEchoed).ea = s.ea := by
  unfold State.ownNotEchoed; (try dsimp only); (repeat' split) <;> (try simp)
@[simp] theorem State.ownNotEchoed_mt (s : State) : (s.ownNotEchoed).mt = s.mt := by
  unfold State.ownNotEchoed; (try dsimp only); (repeat' split) <;> (try simp)
@[simp] theorem State.ownNotEchoed_ap (s : State) : (s.ownNotEchoed).ap = s.ap := by
  unfold State.ownNotEchoed; (try dsimp only); (repeat' split) <;> (try simp)
@[simp] theorem State.ownNotEchoed_cu (s : State) : (s.ownNotEchoed).cu = s.cu := by
  unfold State.ownNotEchoed; (try dsimp only); (repeat' split) <;> (try simp)
@[simp] theorem State.ownNotEchoed_cc (s : State) : (s.ownNotEchoed).cc = s.cc := by
  unfold State.ownNotEchoed; (try dsimp only); (repeat' split) <;> (try simp)
@[simp] theorem State.ownNotEchoed_vl (s : State) : (s.ownNotEchoed).vl = s.vl := by
  unfold State.ownNotEchoed; (try dsimp only); (repeat' split) <;> (try simp)
@[simp] theorem State.ownNotEchoed_sp_mode (s : State) : (s.ownNotEchoed).sp.mode = s.sp.mode := by
  unfold State.ownNotEchoed; (try dsimp only); (repeat' split) <;> (try simp)
@[simp] theorem State.ownNotEchoed_sp_config (s : State) : (s.ownNotEchoed).sp.config = s.sp.config := by
  unfold State.ownNotEchoed; (try dsimp only); (repeat' split) <;> (try simp)
@[simp] theorem State.ownNotEchoed_sp_clamped (s : State) : (s.ownNotEchoed).sp.clamped = s.sp.clamped := by
  unfold State.ownNotEchoed; (try dsimp only); (repeat' split) <;> (try simp)
@[simp] theorem State.ownNotEchoed_sp_pendingKey (s : State) : (s.ownNotEchoed).sp.pendingKey = s.sp.pendingKey := by
  unfold State.ownNotEchoed; (try dsimp only); (repeat' split) <;> (try simp)
@[simp] theorem State.ownNotEchoed_sp_locked (s : State) : (s.ownNotEchoed).sp.locked = s.sp.locked := by
  unfold State.ownNotEchoed; (try dsimp only); (repeat' split) <;> (try simp)
@[simp] theorem State.ownNotEchoed_sp_restarting (s : State) : (s.ownNotEchoed).sp.restarting = s.sp.restarting := by
  unfold State.ownNotEchoed; (try dsimp only); (repeat' split) <;> (try simp)
@[simp] theorem State.ownNotEchoed_sp_pointer (s : State) : (s.ownNotEchoed).sp.pointer = s.sp.pointer := by
  unfold State.ownNotEchoed; (try dsimp only); (repeat' split) <;> (try simp)
@[simp] theorem State.ownNotEchoed_sp_response (s : State) : (s.ownNotEchoed).sp.response = s.sp.response := by
  unfold State.ownNotEchoed; (try dsimp only); (repeat' split) <;> (try simp)
@[simp] theorem State.ownNotEchoed_pending (s : State) : (s.ownNotEchoed).pending = s.pending := by
  unfold State.ownNotEchoed; (try dsimp only); (repeat' split) <;> (try simp)
@[simp] theorem State.ownNotEchoed_inputs (s : State) : (s.ownNotEchoed).inputs = s.inputs := by
  unfold State.ownNotEchoed; (try dsimp only); (repeat' split) <;> (try simp)

/-! ### collided -/

@[simp] theorem State.collided_now (s : State) (f : InFlight) (b : Bool) : (s.collided f b).now = s.now := by
  unfold State.collided; (try dsimp only); (repeat' split) <;> (try simp)
@[simp] theorem State.collided_pv (s : State) (f : InFlight) (b : Bool) : (s.collided f b).pv = s.pv := by
  unfold State.collided; (try dsimp only); (repeat' split) <;> (try simp)
@[simp] theorem State.collided_ct (s : State) (f : InFlight) (b : Bool) : (s.collided f b).ct = s.ct := by
  unfold State.collided; (try dsimp only); (repeat' split) <;> (try simp)
@[simp] theorem State.collided_ea (s : State) (f : InFlight) (b : Bool) : (s.collided f b).ea = s.ea := by
  unfold State.collided; (try dsimp only); (repeat' split) <;> (try simp)
@[simp] theorem State.collided_mt (s : State) (f : InFlight) (b : Bool) : (s.collided f b).mt = s.mt := by
  unfold State.collided; (try dsimp only); (repeat' split) <;> (try simp)
@[simp] theorem State.collided_ap (s : State) (f : InFlight) (b : Bool) : (s.collided f b).ap = s.ap := by
  unfold State.collided; (try dsimp only); (repeat' split) <;> (try simp)
@[simp] theorem State.collided_cu (s : State) (f : InFlight) (b : Bool) : (s.collided f b).cu = s.cu := by
  unfold State.collided; (try dsimp only); (repeat' split) <;> (try simp)
@[simp] theorem State.collided_cc (s : State) (f : InFlight) (b : Bool) : (s.collided f b).cc = s.cc := by
  unfold State.collided; (try dsimp only); (repeat' split) <;> (try simp)
@[simp] theorem State.collided_vl (s : State) (f : InFlight) (b : Bool) : (s.collided f b).vl = s.vl := by
  unfold State.collided; (try dsimp only); (repeat' split) <;> (try simp)
@[simp] theorem State.collided_sp (s : State) (f : InFlight) (b : Bool) : (s.collided f b).sp = s.sp := by
  unfold State.collided; (try dsimp only); (repeat' split) <;> (try simp)
@[simp] theorem State.collided_pending (s : State) (f : InFlight) (b : Bool) : (s.collided f b).pending = s.pending := by
  unfold State.collided; (try dsimp only); (repeat' split) <;> (try simp)
@[simp] theorem State.collided_inputs (s : State) (f : InFlight) (b : Bool) : (s.collided f b).inputs = s.inputs := by
  unfold State.collided; (try dsimp only); (repeat' split) <;> (try simp)

/-! ### givenUp -/

@[simp] theorem State.givenUp_now (s : State) : (s.givenUp).now = s.now := by
  unfold State.givenUp; (try dsimp only); (try simp)
@[simp] theorem State.givenUp_draws (s : State) : (s.givenUp).draws = s.draws := by
  unfold State.givenUp; (try dsimp only); (try simp)
@[simp] theorem State.givenUp_ct (s : State) : (s.givenUp).ct = s.ct := by
  unfold State.givenUp; (try dsimp only); (try simp)
@[simp] theorem State.givenUp_ea (s : State) : (s.givenUp).ea = s.ea := by
  unfold State.givenUp; (try dsimp only); (try simp)
@[simp] theorem State.givenUp_mt (s : State) : (s.givenUp).mt = s.mt := by
  unfold State.givenUp; (try dsimp only); (try simp)
@[simp] theorem State.givenUp_ap (s : State) : (s.givenUp).ap = s.ap := by
  unfold State.givenUp; (try dsimp only); (try simp)
@[simp] theorem State.givenUp_cu (s : State) : (s.givenUp).cu = s.cu := by
  unfold State.givenUp; (try dsimp only); (try simp)
@[simp] theorem State.givenUp_cc (s : State) : (s.givenUp).cc = s.cc := by
  unfold State.givenUp; (try dsimp only); (try simp)
@[simp] theorem State.givenUp_vl (s : State) : (s.givenUp).vl = s.vl := by
  unfold State.givenUp; (try dsimp only); (try simp)
@[simp] theorem State.givenUp_sp_mode (s : State) : (s.givenUp).sp.mode = s.sp.mode := by
  unfold State.givenUp; (try dsimp only); (try simp)
@[simp] theorem State.givenUp_sp_config (s : State) : (s.givenUp).sp.config = s.sp.config := by
  unfold State.givenUp; (try dsimp only); (try simp)
@[simp] theorem State.givenUp_sp_clamped (s : State) : (s.givenUp).sp.clamped = s.sp.clamped := by
  unfold State.givenUp; (try dsimp only); (try simp)
@[simp] theorem State.givenUp_sp_pendingKey (s : State) : (s.givenUp).sp.pendingKey = s.sp.pendingKey := by
  unfold State.givenUp; (try dsimp only); (try simp)
@[simp] theorem State.givenUp_sp_locked (s : State) : (s.givenUp).sp.locked = s.sp.locked := by
  unfold State.givenUp; (try dsimp only); (try simp)
@[simp] theorem State.givenUp_sp_restarting (s : State) : (s.givenUp).sp.restarting = s.sp.restarting := by
  unfold State.givenUp; (try dsimp only); (try simp)
@[simp] theorem State.givenUp_sp_pointer (s : State) : (s.givenUp).sp.pointer = s.sp.pointer := by
  unfold State.givenUp; (try dsimp only); (try simp)
@[simp] theorem State.givenUp_sp_response (s : State) : (s.givenUp).sp.response = s.sp.response := by
  unfold State.givenUp; (try dsimp only); (try simp)
@[simp] theorem State.givenUp_pending (s : State) : (s.givenUp).pending = s.pending := by
  unfold State.givenUp; (try dsimp only); (try simp)
@[simp] theorem State.givenUp_inputs (s : State) : (s.givenUp).inputs = s.inputs := by
  unfold State.givenUp; (try dsimp only); (try simp)

/-! ### setCalls -/

@[simp] theorem State.setCalls_now (s : State) (rs : List CallRecord) : (s.setCalls rs).now = s.now := by
  unfold State.setCalls; (try dsimp only); (repeat' split) <;> (try simp)
@[simp] theorem State.setCalls_draws (s : State) (rs : List CallRecord) : (s.setCalls rs).draws = s.draws := by
  unfold State.setCalls; (try dsimp only); (repeat' split) <;> (try simp)
@[simp] theorem State.setCalls_lp (s : State) (rs : List CallRecord) : (s.setCalls rs).lp = s.lp := by
  unfold State.setCalls; (try dsimp only); (repeat' split) <;> (try simp)
@[simp] theorem State.setCalls_pv (s : State) (rs : List CallRecord) : (s.setCalls rs).pv = s.pv := by
  unfold State.setCalls; (try dsimp only); (repeat' split) <;> (try simp)
@[simp] theorem State.setCalls_ea (s : State) (rs : List CallRecord) : (s.setCalls rs).ea = s.ea := by
  unfold State.setCalls; (try dsimp only); (repeat' split) <;> (try simp)
@[simp] theorem State.setCalls_mt (s : State) (rs : List CallRecord) : (s.setCalls rs).mt = s.mt := by
  unfold State.setCalls; (try dsimp only); (repeat' split) <;> (try simp)
@[simp] theorem State.setCalls_cu (s : State) (rs : List CallRecord) : (s.setCalls rs).cu = s.cu := by
  unfold State.setCalls; (try dsimp only); (repeat' split) <;> (try simp)
@[simp] theorem State.setCalls_cc (s : State) (rs : List CallRecord) : (s.setCalls rs).cc = s.cc := by
  unfold State.setCalls; (try dsimp only); (repeat' split) <;> (try simp)
@[simp] theorem State.setCalls_vl (s : State) (rs : List CallRecord) : (s.setCalls rs).vl = s.vl := by
  unfold State.setCalls; (try dsimp only); (repeat' split) <;> (try simp)
@[simp] theorem State.setCalls_sp (s : State) (rs : List CallRecord) : (s.setCalls rs).sp = s.sp := by
  unfold State.setCalls; (try dsimp only); (repeat' split) <;> (try simp)
@[simp] theorem State.setCalls_pending (s : State) (rs : List CallRecord) : (s.setCalls rs).pending = s.pending := by
  unfold State.setCalls; (try dsimp only); (repeat' split) <;> (try simp)
@[simp] theorem State.setCalls_inputs (s : State) (rs : List CallRecord) : (s.setCalls rs).inputs = s.inputs := by
  unfold State.setCalls; (try dsimp only); (repeat' split) <;> (try simp)

/-! ### sendCall -/

@[simp] theorem State.sendCall_now (s : State) (d : CallFrame) : (s.sendCall d).now = s.now := by
  unfold State.sendCall; (try dsimp only); (try simp)
@[simp] theorem State.sendCall_draws (s : State) (d : CallFrame) : (s.sendCall d).draws = s.draws := by
  unfold State.sendCall; (try dsimp only); (try simp)
@[simp] theorem State.sendCall_pv (s : State) (d : CallFrame) : (s.sendCall d).pv = s.pv := by
  unfold State.sendCall; (try dsimp only); (try simp)
@[simp] theorem State.sendCall_ea (s : State) (d : CallFrame) : (s.sendCall d).ea = s.ea := by
  unfold State.sendCall; (try dsimp only); (try simp)
@[simp] theorem State.sendCall_mt (s : State) (d : CallFrame) : (s.sendCall d).mt = s.mt := by
  unfold State.sendCall; (try dsimp only); (try simp)
@[simp] theorem State.sendCall_ap (s : State) (d : CallFrame) : (s.sendCall d).ap = s.ap := by
  unfold State.sendCall; (try dsimp only); (try simp)
@[simp] theorem State.sendCall_cu (s : State) (d : CallFrame) : (s.sendCall d).cu = s.cu := by
  unfold State.sendCall; (try dsimp only); (try simp)
@[simp] theorem State.sendCall_cc (s : State) (d : CallFrame) : (s.sendCall d).cc = s.cc := by
  unfold State.sendCall; (try dsimp only); (try simp)
@[simp] theorem State.sendCall_vl (s : State) (d : CallFrame) : (s.sendCall d).vl = s.vl := by
  unfold State.sendCall; (try dsimp only); (try simp)
@[simp] theorem State.sendCall_sp_mode (s : State) (d : CallFrame) : (s.sendCall d).sp.mode = s.sp.mode := by
  unfold State.sendCall; (try dsimp only); (try simp)
@[simp] theorem State.sendCall_sp_config (s : State) (d : CallFrame) : (s.sendCall d).sp.config = s.sp.config := by
  unfold State.sendCall; (try dsimp only); (try simp)
@[simp] theorem State.sendCall_sp_clamped (s : State) (d : CallFrame) : (s.sendCall d).sp.clamped = s.sp.clamped := by
  unfold State.sendCall; (try dsimp only); (try simp)
@[simp] theorem State.sendCall_sp_pendingKey (s : State) (d : CallFrame) : (s.sendCall d).sp.pendingKey = s.sp.pendingKey := by
  unfold State.sendCall; (try dsimp only); (try simp)
@[simp] theorem State.sendCall_sp_locked (s : State) (d : CallFrame) : (s.sendCall d).sp.locked = s.sp.locked := by
  unfold State.sendCall; (try dsimp only); (try simp)
@[simp] theorem State.sendCall_sp_restarting (s : State) (d : CallFrame) : (s.sendCall d).sp.restarting = s.sp.restarting := by
  unfold State.sendCall; (try dsimp only); (try simp)
@[simp] theorem State.sendCall_sp_pointer (s : State) (d : CallFrame) : (s.sendCall d).sp.pointer = s.sp.pointer := by
  unfold State.sendCall; (try dsimp only); (try simp)
@[simp] theorem State.sendCall_sp_response (s : State) (d : CallFrame) : (s.sendCall d).sp.response = s.sp.response := by
  unfold State.sendCall; (try dsimp only); (try simp)
@[simp] theorem State.sendCall_pending (s : State) (d : CallFrame) : (s.sendCall d).pending = s.pending := by
  unfold State.sendCall; (try dsimp only); (try simp)
@[simp] theorem State.sendCall_inputs (s : State) (d : CallFrame) : (s.sendCall d).inputs = s.inputs := by
  unfold State.sendCall; (try dsimp only); (try simp)

/-! ### curbComputation -/

@[simp] theorem State.curbComputation_now (s : State) : (s.curbComputation).now = s.now := by
  unfold State.curbComputation; (try dsimp only); (repeat' split) <;> (try simp)
@[simp] theorem State.curbComputation_draws (s : State) : (s.curbComputation).draws = s.draws := by
  unfold State.curbComputation; (try dsimp only); (repeat' split) <;> (try simp)
@[simp] theorem State.curbComputation_lp (s : State) : (s.curbComputation).lp = s.lp := by
  unfold State.curbComputation; (try dsimp only); (repeat' split) <;> (try simp)
@[simp] theorem State.curbComputation_pv (s : State) : (s.curbComputation).pv = s.pv := by
  unfold State.curbComputation; (try dsimp only); (repeat' split) <;> (try simp)
@[simp] theorem State.curbComputation_ea (s : State) : (s.curbComputation).ea = s.ea := by
  unfold State.curbComputation; (try dsimp only); (repeat' split) <;> (try simp)
@[simp] theorem State.curbComputation_mt (s : State) : (s.curbComputation).mt = s.mt := by
  unfold State.curbComputation; (try dsimp only); (repeat' split) <;> (try simp)
@[simp] theorem State.curbComputation_vl (s : State) : (s.curbComputation).vl = s.vl := by
  unfold State.curbComputation; (try dsimp only); (repeat' split) <;> (try simp)
@[simp] theorem State.curbComputation_sp_mode (s : State) : (s.curbComputation).sp.mode = s.sp.mode := by
  unfold State.curbComputation; (try dsimp only); (repeat' split) <;> (try simp)
@[simp] theorem State.curbComputation_sp_config (s : State) : (s.curbComputation).sp.config = s.sp.config := by
  unfold State.curbComputation; (try dsimp only); (repeat' split) <;> (try simp)
@[simp] theorem State.curbComputation_sp_clamped (s : State) : (s.curbComputation).sp.clamped = s.sp.clamped := by
  unfold State.curbComputation; (try dsimp only); (repeat' split) <;> (try simp)
@[simp] theorem State.curbComputation_sp_pendingKey (s : State) : (s.curbComputation).sp.pendingKey = s.sp.pendingKey := by
  unfold State.curbComputation; (try dsimp only); (repeat' split) <;> (try simp)
@[simp] theorem State.curbComputation_sp_locked (s : State) : (s.curbComputation).sp.locked = s.sp.locked := by
  unfold State.curbComputation; (try dsimp only); (repeat' split) <;> (try simp)
@[simp] theorem State.curbComputation_sp_restarting (s : State) : (s.curbComputation).sp.restarting = s.sp.restarting := by
  unfold State.curbComputation; (try dsimp only); (repeat' split) <;> (try simp)
@[simp] theorem State.curbComputation_sp_pointer (s : State) : (s.curbComputation).sp.pointer = s.sp.pointer := by
  unfold State.curbComputation; (try dsimp only); (repeat' split) <;> (try simp)
@[simp] theorem State.curbComputation_sp_response (s : State) : (s.curbComputation).sp.response = s.sp.response := by
  unfold State.curbComputation; (try dsimp only); (repeat' split) <;> (try simp)
@[simp] theorem State.curbComputation_pending (s : State) : (s.curbComputation).pending = s.pending := by
  unfold State.curbComputation; (try dsimp only); (repeat' split) <;> (try simp)
@[simp] theorem State.curbComputation_inputs (s : State) : (s.curbComputation).inputs = s.inputs := by
  unfold State.curbComputation; (try dsimp only); (repeat' split) <;> (try simp)

/-! ### applyCurb -/

@[simp] theorem State.applyCurb_now (s : State) (a b : Nat) : (s.applyCurb a b).now = s.now := by
  unfold State.applyCurb; (try dsimp only); (try simp)
@[simp] theorem State.applyCurb_draws (s : State) (a b : Nat) : (s.applyCurb a b).draws = s.draws := by
  unfold State.applyCurb; (try dsimp only); (try simp)
@[simp] theorem State.applyCurb_lp (s : State) (a b : Nat) : (s.applyCurb a b).lp = s.lp := by
  unfold State.applyCurb; (try dsimp only); (try simp)
@[simp] theorem State.applyCurb_pv (s : State) (a b : Nat) : (s.applyCurb a b).pv = s.pv := by
  unfold State.applyCurb; (try dsimp only); (try simp)
@[simp] theorem State.applyCurb_ea (s : State) (a b : Nat) : (s.applyCurb a b).ea = s.ea := by
  unfold State.applyCurb; (try dsimp only); (try simp)
@[simp] theorem State.applyCurb_mt (s : State) (a b : Nat) : (s.applyCurb a b).mt = s.mt := by
  unfold State.applyCurb; (try dsimp only); (try simp)
@[simp] theorem State.applyCurb_vl (s : State) (a b : Nat) : (s.applyCurb a b).vl = s.vl := by
  unfold State.applyCurb; (try dsimp only); (try simp)
@[simp] theorem State.applyCurb_sp_mode (s : State) (a b : Nat) : (s.applyCurb a b).sp.mode = s.sp.mode := by
  unfold State.applyCurb; (try dsimp only); (try simp)
@[simp] theorem State.applyCurb_sp_config (s : State) (a b : Nat) : (s.applyCurb a b).sp.config = s.sp.config := by
  unfold State.applyCurb; (try dsimp only); (try simp)
@[simp] theorem State.applyCurb_sp_clamped (s : State) (a b : Nat) : (s.applyCurb a b).sp.clamped = s.sp.clamped := by
  unfold State.applyCurb; (try dsimp only); (try simp)
@[simp] theorem State.applyCurb_sp_pendingKey (s : State) (a b : Nat) : (s.applyCurb a b).sp.pendingKey = s.sp.pendingKey := by
  unfold State.applyCurb; (try dsimp only); (try simp)
@[simp] theorem State.applyCurb_sp_locked (s : State) (a b : Nat) : (s.applyCurb a b).sp.locked = s.sp.locked := by
  unfold State.applyCurb; (try dsimp only); (try simp)
@[simp] theorem State.applyCurb_sp_restarting (s : State) (a b : Nat) : (s.applyCurb a b).sp.restarting = s.sp.restarting := by
  unfold State.applyCurb; (try dsimp only); (try simp)
@[simp] theorem State.applyCurb_sp_pointer (s : State) (a b : Nat) : (s.applyCurb a b).sp.pointer = s.sp.pointer := by
  unfold State.applyCurb; (try dsimp only); (try simp)
@[simp] theorem State.applyCurb_sp_response (s : State) (a b : Nat) : (s.applyCurb a b).sp.response = s.sp.response := by
  unfold State.applyCurb; (try dsimp only); (try simp)
@[simp] theorem State.applyCurb_pending (s : State) (a b : Nat) : (s.applyCurb a b).pending = s.pending := by
  unfold State.applyCurb; (try dsimp only); (try simp)
@[simp] theorem State.applyCurb_inputs (s : State) (a b : Nat) : (s.applyCurb a b).inputs = s.inputs := by
  unfold State.applyCurb; (try dsimp only); (try simp)

/-! ### judgeReading -/

@[simp] theorem State.judgeReading_now (s : State) (x : Int) : (s.judgeReading x).now = s.now := by
  unfold State.judgeReading; (try dsimp only); (repeat' split) <;> (try simp)
@[simp] theorem State.judgeReading_draws (s : State) (x : Int) : (s.judgeReading x).draws = s.draws := by
  unfold State.judgeReading; (try dsimp only); (repeat' split) <;> (try simp)
@[simp] theorem State.judgeReading_lp (s : State) (x : Int) : (s.judgeReading x).lp = s.lp := by
  unfold State.judgeReading; (try dsimp only); (repeat' split) <;> (try simp)
@[simp] theorem State.judgeReading_pv (s : State) (x : Int) : (s.judgeReading x).pv = s.pv := by
  unfold State.judgeReading; (try dsimp only); (repeat' split) <;> (try simp)
@[simp] theorem State.judgeReading_ct (s : State) (x : Int) : (s.judgeReading x).ct = s.ct := by
  unfold State.judgeReading; (try dsimp only); (repeat' split) <;> (try simp)
@[simp] theorem State.judgeReading_ea (s : State) (x : Int) : (s.judgeReading x).ea = s.ea := by
  unfold State.judgeReading; (try dsimp only); (repeat' split) <;> (try simp)
@[simp] theorem State.judgeReading_mt (s : State) (x : Int) : (s.judgeReading x).mt = s.mt := by
  unfold State.judgeReading; (try dsimp only); (repeat' split) <;> (try simp)
@[simp] theorem State.judgeReading_ap (s : State) (x : Int) : (s.judgeReading x).ap = s.ap := by
  unfold State.judgeReading; (try dsimp only); (repeat' split) <;> (try simp)
@[simp] theorem State.judgeReading_cc (s : State) (x : Int) : (s.judgeReading x).cc = s.cc := by
  unfold State.judgeReading; (try dsimp only); (repeat' split) <;> (try simp)
@[simp] theorem State.judgeReading_vl (s : State) (x : Int) : (s.judgeReading x).vl = s.vl := by
  unfold State.judgeReading; (try dsimp only); (repeat' split) <;> (try simp)
@[simp] theorem State.judgeReading_sp_mode (s : State) (x : Int) : (s.judgeReading x).sp.mode = s.sp.mode := by
  unfold State.judgeReading; (try dsimp only); (repeat' split) <;> (try simp)
@[simp] theorem State.judgeReading_sp_config (s : State) (x : Int) : (s.judgeReading x).sp.config = s.sp.config := by
  unfold State.judgeReading; (try dsimp only); (repeat' split) <;> (try simp)
@[simp] theorem State.judgeReading_sp_clamped (s : State) (x : Int) : (s.judgeReading x).sp.clamped = s.sp.clamped := by
  unfold State.judgeReading; (try dsimp only); (repeat' split) <;> (try simp)
@[simp] theorem State.judgeReading_sp_pendingKey (s : State) (x : Int) : (s.judgeReading x).sp.pendingKey = s.sp.pendingKey := by
  unfold State.judgeReading; (try dsimp only); (repeat' split) <;> (try simp)
@[simp] theorem State.judgeReading_sp_locked (s : State) (x : Int) : (s.judgeReading x).sp.locked = s.sp.locked := by
  unfold State.judgeReading; (try dsimp only); (repeat' split) <;> (try simp)
@[simp] theorem State.judgeReading_sp_restarting (s : State) (x : Int) : (s.judgeReading x).sp.restarting = s.sp.restarting := by
  unfold State.judgeReading; (try dsimp only); (repeat' split) <;> (try simp)
@[simp] theorem State.judgeReading_sp_pointer (s : State) (x : Int) : (s.judgeReading x).sp.pointer = s.sp.pointer := by
  unfold State.judgeReading; (try dsimp only); (repeat' split) <;> (try simp)
@[simp] theorem State.judgeReading_sp_response (s : State) (x : Int) : (s.judgeReading x).sp.response = s.sp.response := by
  unfold State.judgeReading; (try dsimp only); (repeat' split) <;> (try simp)
@[simp] theorem State.judgeReading_pending (s : State) (x : Int) : (s.judgeReading x).pending = s.pending := by
  unfold State.judgeReading; (try dsimp only); (repeat' split) <;> (try simp)
@[simp] theorem State.judgeReading_inputs (s : State) (x : Int) : (s.judgeReading x).inputs = s.inputs := by
  unfold State.judgeReading; (try dsimp only); (repeat' split) <;> (try simp)

/-! ### originate -/

@[simp] theorem State.originate_now (s : State) (x : Int) : (s.originate x).now = s.now := by
  unfold State.originate; (try dsimp only); (try simp)
@[simp] theorem State.originate_draws (s : State) (x : Int) : (s.originate x).draws = s.draws := by
  unfold State.originate; (try dsimp only); (try simp)
@[simp] theorem State.originate_pv (s : State) (x : Int) : (s.originate x).pv = s.pv := by
  unfold State.originate; (try dsimp only); (try simp)
@[simp] theorem State.originate_ea (s : State) (x : Int) : (s.originate x).ea = s.ea := by
  unfold State.originate; (try dsimp only); (try simp)
@[simp] theorem State.originate_mt (s : State) (x : Int) : (s.originate x).mt = s.mt := by
  unfold State.originate; (try dsimp only); (try simp)
@[simp] theorem State.originate_vl (s : State) (x : Int) : (s.originate x).vl = s.vl := by
  unfold State.originate; (try dsimp only); (try simp)
@[simp] theorem State.originate_sp_mode (s : State) (x : Int) : (s.originate x).sp.mode = s.sp.mode := by
  unfold State.originate; (try dsimp only); (try simp)
@[simp] theorem State.originate_sp_config (s : State) (x : Int) : (s.originate x).sp.config = s.sp.config := by
  unfold State.originate; (try dsimp only); (try simp)
@[simp] theorem State.originate_sp_clamped (s : State) (x : Int) : (s.originate x).sp.clamped = s.sp.clamped := by
  unfold State.originate; (try dsimp only); (try simp)
@[simp] theorem State.originate_sp_pendingKey (s : State) (x : Int) : (s.originate x).sp.pendingKey = s.sp.pendingKey := by
  unfold State.originate; (try dsimp only); (try simp)
@[simp] theorem State.originate_sp_locked (s : State) (x : Int) : (s.originate x).sp.locked = s.sp.locked := by
  unfold State.originate; (try dsimp only); (try simp)
@[simp] theorem State.originate_sp_restarting (s : State) (x : Int) : (s.originate x).sp.restarting = s.sp.restarting := by
  unfold State.originate; (try dsimp only); (try simp)
@[simp] theorem State.originate_sp_pointer (s : State) (x : Int) : (s.originate x).sp.pointer = s.sp.pointer := by
  unfold State.originate; (try dsimp only); (try simp)
@[simp] theorem State.originate_sp_response (s : State) (x : Int) : (s.originate x).sp.response = s.sp.response := by
  unfold State.originate; (try dsimp only); (try simp)
@[simp] theorem State.originate_pending (s : State) (x : Int) : (s.originate x).pending = s.pending := by
  unfold State.originate; (try dsimp only); (try simp)
@[simp] theorem State.originate_inputs (s : State) (x : Int) : (s.originate x).inputs = s.inputs := by
  unfold State.originate; (try dsimp only); (try simp)

/-! ### takeSample -/

@[simp] theorem State.takeSample_now (s : State) (x : Int) : (s.takeSample x).now = s.now := by
  unfold State.takeSample; (try dsimp only); (repeat' split) <;> (try simp)
@[simp] theorem State.takeSample_draws (s : State) (x : Int) : (s.takeSample x).draws = s.draws := by
  unfold State.takeSample; (try dsimp only); (repeat' split) <;> (try simp)
@[simp] theorem State.takeSample_pv (s : State) (x : Int) : (s.takeSample x).pv = s.pv := by
  unfold State.takeSample; (try dsimp only); (repeat' split) <;> (try simp)
@[simp] theorem State.takeSample_ea (s : State) (x : Int) : (s.takeSample x).ea = s.ea := by
  unfold State.takeSample; (try dsimp only); (repeat' split) <;> (try simp)
@[simp] theorem State.takeSample_mt (s : State) (x : Int) : (s.takeSample x).mt = s.mt := by
  unfold State.takeSample; (try dsimp only); (repeat' split) <;> (try simp)
@[simp] theorem State.takeSample_vl (s : State) (x : Int) : (s.takeSample x).vl = s.vl := by
  unfold State.takeSample; (try dsimp only); (repeat' split) <;> (try simp)
@[simp] theorem State.takeSample_sp_mode (s : State) (x : Int) : (s.takeSample x).sp.mode = s.sp.mode := by
  unfold State.takeSample; (try dsimp only); (repeat' split) <;> (try simp)
@[simp] theorem State.takeSample_sp_config (s : State) (x : Int) : (s.takeSample x).sp.config = s.sp.config := by
  unfold State.takeSample; (try dsimp only); (repeat' split) <;> (try simp)
@[simp] theorem State.takeSample_sp_clamped (s : State) (x : Int) : (s.takeSample x).sp.clamped = s.sp.clamped := by
  unfold State.takeSample; (try dsimp only); (repeat' split) <;> (try simp)
@[simp] theorem State.takeSample_sp_pendingKey (s : State) (x : Int) : (s.takeSample x).sp.pendingKey = s.sp.pendingKey := by
  unfold State.takeSample; (try dsimp only); (repeat' split) <;> (try simp)
@[simp] theorem State.takeSample_sp_locked (s : State) (x : Int) : (s.takeSample x).sp.locked = s.sp.locked := by
  unfold State.takeSample; (try dsimp only); (repeat' split) <;> (try simp)
@[simp] theorem State.takeSample_sp_restarting (s : State) (x : Int) : (s.takeSample x).sp.restarting = s.sp.restarting := by
  unfold State.takeSample; (try dsimp only); (repeat' split) <;> (try simp)
@[simp] theorem State.takeSample_sp_pointer (s : State) (x : Int) : (s.takeSample x).sp.pointer = s.sp.pointer := by
  unfold State.takeSample; (try dsimp only); (repeat' split) <;> (try simp)
@[simp] theorem State.takeSample_sp_response (s : State) (x : Int) : (s.takeSample x).sp.response = s.sp.response := by
  unfold State.takeSample; (try dsimp only); (repeat' split) <;> (try simp)
@[simp] theorem State.takeSample_pending (s : State) (x : Int) : (s.takeSample x).pending = s.pending := by
  unfold State.takeSample; (try dsimp only); (repeat' split) <;> (try simp)
@[simp] theorem State.takeSample_inputs (s : State) (x : Int) : (s.takeSample x).inputs = s.inputs := by
  unfold State.takeSample; (try dsimp only); (repeat' split) <;> (try simp)

/-! ### takeRequest -/

@[simp] theorem State.takeRequest_now (s : State) (r : Request) : (s.takeRequest r).now = s.now := by
  unfold State.takeRequest; (try dsimp only); (repeat' split) <;> (try simp)
@[simp] theorem State.takeRequest_draws (s : State) (r : Request) : (s.takeRequest r).draws = s.draws := by
  unfold State.takeRequest; (try dsimp only); (repeat' split) <;> (try simp)
@[simp] theorem State.takeRequest_lp (s : State) (r : Request) : (s.takeRequest r).lp = s.lp := by
  unfold State.takeRequest; (try dsimp only); (repeat' split) <;> (try simp)
@[simp] theorem State.takeRequest_pv (s : State) (r : Request) : (s.takeRequest r).pv = s.pv := by
  unfold State.takeRequest; (try dsimp only); (repeat' split) <;> (try simp)
@[simp] theorem State.takeRequest_ct (s : State) (r : Request) : (s.takeRequest r).ct = s.ct := by
  unfold State.takeRequest; (try dsimp only); (repeat' split) <;> (try simp)
@[simp] theorem State.takeRequest_ea (s : State) (r : Request) : (s.takeRequest r).ea = s.ea := by
  unfold State.takeRequest; (try dsimp only); (repeat' split) <;> (try simp)
@[simp] theorem State.takeRequest_mt (s : State) (r : Request) : (s.takeRequest r).mt = s.mt := by
  unfold State.takeRequest; (try dsimp only); (repeat' split) <;> (try simp)
@[simp] theorem State.takeRequest_ap (s : State) (r : Request) : (s.takeRequest r).ap = s.ap := by
  unfold State.takeRequest; (try dsimp only); (repeat' split) <;> (try simp)
@[simp] theorem State.takeRequest_cu (s : State) (r : Request) : (s.takeRequest r).cu = s.cu := by
  unfold State.takeRequest; (try dsimp only); (repeat' split) <;> (try simp)
@[simp] theorem State.takeRequest_cc (s : State) (r : Request) : (s.takeRequest r).cc = s.cc := by
  unfold State.takeRequest; (try dsimp only); (repeat' split) <;> (try simp)
@[simp] theorem State.takeRequest_sp (s : State) (r : Request) : (s.takeRequest r).sp = s.sp := by
  unfold State.takeRequest; (try dsimp only); (repeat' split) <;> (try simp)
@[simp] theorem State.takeRequest_pending (s : State) (r : Request) : (s.takeRequest r).pending = s.pending := by
  unfold State.takeRequest; (try dsimp only); (repeat' split) <;> (try simp)
@[simp] theorem State.takeRequest_inputs (s : State) (r : Request) : (s.takeRequest r).inputs = s.inputs := by
  unfold State.takeRequest; (try dsimp only); (repeat' split) <;> (try simp)

/-! ### endRequest -/

@[simp] theorem State.endRequest_now (s : State) : (s.endRequest).now = s.now := by
  unfold State.endRequest; (try dsimp only); (try simp)
@[simp] theorem State.endRequest_draws (s : State) : (s.endRequest).draws = s.draws := by
  unfold State.endRequest; (try dsimp only); (try simp)
@[simp] theorem State.endRequest_lp (s : State) : (s.endRequest).lp = s.lp := by
  unfold State.endRequest; (try dsimp only); (try simp)
@[simp] theorem State.endRequest_pv (s : State) : (s.endRequest).pv = s.pv := by
  unfold State.endRequest; (try dsimp only); (try simp)
@[simp] theorem State.endRequest_ct (s : State) : (s.endRequest).ct = s.ct := by
  unfold State.endRequest; (try dsimp only); (try simp)
@[simp] theorem State.endRequest_ea (s : State) : (s.endRequest).ea = s.ea := by
  unfold State.endRequest; (try dsimp only); (try simp)
@[simp] theorem State.endRequest_mt (s : State) : (s.endRequest).mt = s.mt := by
  unfold State.endRequest; (try dsimp only); (try simp)
@[simp] theorem State.endRequest_ap (s : State) : (s.endRequest).ap = s.ap := by
  unfold State.endRequest; (try dsimp only); (try simp)
@[simp] theorem State.endRequest_cu (s : State) : (s.endRequest).cu = s.cu := by
  unfold State.endRequest; (try dsimp only); (try simp)
@[simp] theorem State.endRequest_cc (s : State) : (s.endRequest).cc = s.cc := by
  unfold State.endRequest; (try dsimp only); (try simp)
@[simp] theorem State.endRequest_sp (s : State) : (s.endRequest).sp = s.sp := by
  unfold State.endRequest; (try dsimp only); (try simp)
@[simp] theorem State.endRequest_pending (s : State) : (s.endRequest).pending = s.pending := by
  unfold State.endRequest; (try dsimp only); (try simp)
@[simp] theorem State.endRequest_inputs (s : State) : (s.endRequest).inputs = s.inputs := by
  unfold State.endRequest; (try dsimp only); (try simp)

/-! ### holdItem -/

@[simp] theorem State.holdItem_now (s : State) (v : Option Int) : (s.holdItem v).now = s.now := by
  unfold State.holdItem; (try dsimp only); (try simp)
@[simp] theorem State.holdItem_draws (s : State) (v : Option Int) : (s.holdItem v).draws = s.draws := by
  unfold State.holdItem; (try dsimp only); (try simp)
@[simp] theorem State.holdItem_lp (s : State) (v : Option Int) : (s.holdItem v).lp = s.lp := by
  unfold State.holdItem; (try dsimp only); (try simp)
@[simp] theorem State.holdItem_pv (s : State) (v : Option Int) : (s.holdItem v).pv = s.pv := by
  unfold State.holdItem; (try dsimp only); (try simp)
@[simp] theorem State.holdItem_ct (s : State) (v : Option Int) : (s.holdItem v).ct = s.ct := by
  unfold State.holdItem; (try dsimp only); (try simp)
@[simp] theorem State.holdItem_ea (s : State) (v : Option Int) : (s.holdItem v).ea = s.ea := by
  unfold State.holdItem; (try dsimp only); (try simp)
@[simp] theorem State.holdItem_mt (s : State) (v : Option Int) : (s.holdItem v).mt = s.mt := by
  unfold State.holdItem; (try dsimp only); (try simp)
@[simp] theorem State.holdItem_ap (s : State) (v : Option Int) : (s.holdItem v).ap = s.ap := by
  unfold State.holdItem; (try dsimp only); (try simp)
@[simp] theorem State.holdItem_cu (s : State) (v : Option Int) : (s.holdItem v).cu = s.cu := by
  unfold State.holdItem; (try dsimp only); (try simp)
@[simp] theorem State.holdItem_cc (s : State) (v : Option Int) : (s.holdItem v).cc = s.cc := by
  unfold State.holdItem; (try dsimp only); (try simp)
@[simp] theorem State.holdItem_sp (s : State) (v : Option Int) : (s.holdItem v).sp = s.sp := by
  unfold State.holdItem; (try dsimp only); (try simp)
@[simp] theorem State.holdItem_pending (s : State) (v : Option Int) : (s.holdItem v).pending = s.pending := by
  unfold State.holdItem; (try dsimp only); (try simp)
@[simp] theorem State.holdItem_inputs (s : State) (v : Option Int) : (s.holdItem v).inputs = s.inputs := by
  unfold State.holdItem; (try dsimp only); (try simp)

/-! ### identifyCompletes -/

@[simp] theorem State.identifyCompletes_now (s : State) : (s.identifyCompletes).now = s.now := by
  unfold State.identifyCompletes; (try dsimp only); (repeat' split) <;> (try simp)
@[simp] theorem State.identifyCompletes_draws (s : State) : (s.identifyCompletes).draws = s.draws := by
  unfold State.identifyCompletes; (try dsimp only); (repeat' split) <;> (try simp)
@[simp] theorem State.identifyCompletes_lp (s : State) : (s.identifyCompletes).lp = s.lp := by
  unfold State.identifyCompletes; (try dsimp only); (repeat' split) <;> (try simp)
@[simp] theorem State.identifyCompletes_pv (s : State) : (s.identifyCompletes).pv = s.pv := by
  unfold State.identifyCompletes; (try dsimp only); (repeat' split) <;> (try simp)
@[simp] theorem State.identifyCompletes_ct (s : State) : (s.identifyCompletes).ct = s.ct := by
  unfold State.identifyCompletes; (try dsimp only); (repeat' split) <;> (try simp)
@[simp] theorem State.identifyCompletes_mt (s : State) : (s.identifyCompletes).mt = s.mt := by
  unfold State.identifyCompletes; (try dsimp only); (repeat' split) <;> (try simp)
@[simp] theorem State.identifyCompletes_ap (s : State) : (s.identifyCompletes).ap = s.ap := by
  unfold State.identifyCompletes; (try dsimp only); (repeat' split) <;> (try simp)
@[simp] theorem State.identifyCompletes_cu (s : State) : (s.identifyCompletes).cu = s.cu := by
  unfold State.identifyCompletes; (try dsimp only); (repeat' split) <;> (try simp)
@[simp] theorem State.identifyCompletes_cc (s : State) : (s.identifyCompletes).cc = s.cc := by
  unfold State.identifyCompletes; (try dsimp only); (repeat' split) <;> (try simp)
@[simp] theorem State.identifyCompletes_sp_mode (s : State) : (s.identifyCompletes).sp.mode = s.sp.mode := by
  unfold State.identifyCompletes; (try dsimp only); (repeat' split) <;> (try simp)
@[simp] theorem State.identifyCompletes_sp_config (s : State) : (s.identifyCompletes).sp.config = s.sp.config := by
  unfold State.identifyCompletes; (try dsimp only); (repeat' split) <;> (try simp)
@[simp] theorem State.identifyCompletes_sp_clamped (s : State) : (s.identifyCompletes).sp.clamped = s.sp.clamped := by
  unfold State.identifyCompletes; (try dsimp only); (repeat' split) <;> (try simp)
@[simp] theorem State.identifyCompletes_sp_pendingKey (s : State) : (s.identifyCompletes).sp.pendingKey = s.sp.pendingKey := by
  unfold State.identifyCompletes; (try dsimp only); (repeat' split) <;> (try simp)
@[simp] theorem State.identifyCompletes_sp_locked (s : State) : (s.identifyCompletes).sp.locked = s.sp.locked := by
  unfold State.identifyCompletes; (try dsimp only); (repeat' split) <;> (try simp)
@[simp] theorem State.identifyCompletes_sp_restarting (s : State) : (s.identifyCompletes).sp.restarting = s.sp.restarting := by
  unfold State.identifyCompletes; (try dsimp only); (repeat' split) <;> (try simp)
@[simp] theorem State.identifyCompletes_sp_pointer (s : State) : (s.identifyCompletes).sp.pointer = s.sp.pointer := by
  unfold State.identifyCompletes; (try dsimp only); (repeat' split) <;> (try simp)
@[simp] theorem State.identifyCompletes_sp_response (s : State) : (s.identifyCompletes).sp.response = s.sp.response := by
  unfold State.identifyCompletes; (try dsimp only); (repeat' split) <;> (try simp)
@[simp] theorem State.identifyCompletes_pending (s : State) : (s.identifyCompletes).pending = s.pending := by
  unfold State.identifyCompletes; (try dsimp only); (repeat' split) <;> (try simp)
@[simp] theorem State.identifyCompletes_inputs (s : State) : (s.identifyCompletes).inputs = s.inputs := by
  unfold State.identifyCompletes; (try dsimp only); (repeat' split) <;> (try simp)

/-! ### identifyItem -/

@[simp] theorem State.identifyItem_now (s : State) (k : Nat) (v : Int) : (s.identifyItem k v).now = s.now := by
  unfold State.identifyItem; (repeat' split) <;> (try simp)
@[simp] theorem State.identifyItem_draws (s : State) (k : Nat) (v : Int) : (s.identifyItem k v).draws = s.draws := by
  unfold State.identifyItem; (repeat' split) <;> (try simp)
@[simp] theorem State.identifyItem_lp (s : State) (k : Nat) (v : Int) : (s.identifyItem k v).lp = s.lp := by
  unfold State.identifyItem; (repeat' split) <;> (try simp)
@[simp] theorem State.identifyItem_pv (s : State) (k : Nat) (v : Int) : (s.identifyItem k v).pv = s.pv := by
  unfold State.identifyItem; (repeat' split) <;> (try simp)
@[simp] theorem State.identifyItem_ct (s : State) (k : Nat) (v : Int) : (s.identifyItem k v).ct = s.ct := by
  unfold State.identifyItem; (repeat' split) <;> (try simp)
@[simp] theorem State.identifyItem_mt (s : State) (k : Nat) (v : Int) : (s.identifyItem k v).mt = s.mt := by
  unfold State.identifyItem; (repeat' split) <;> (try simp)
@[simp] theorem State.identifyItem_ap (s : State) (k : Nat) (v : Int) : (s.identifyItem k v).ap = s.ap := by
  unfold State.identifyItem; (repeat' split) <;> (try simp)
@[simp] theorem State.identifyItem_cu (s : State) (k : Nat) (v : Int) : (s.identifyItem k v).cu = s.cu := by
  unfold State.identifyItem; (repeat' split) <;> (try simp)
@[simp] theorem State.identifyItem_cc (s : State) (k : Nat) (v : Int) : (s.identifyItem k v).cc = s.cc := by
  unfold State.identifyItem; (repeat' split) <;> (try simp)
@[simp] theorem State.identifyItem_sp_mode (s : State) (k : Nat) (v : Int) : (s.identifyItem k v).sp.mode = s.sp.mode := by
  unfold State.identifyItem; (repeat' split) <;> (try simp)
@[simp] theorem State.identifyItem_sp_config (s : State) (k : Nat) (v : Int) : (s.identifyItem k v).sp.config = s.sp.config := by
  unfold State.identifyItem; (repeat' split) <;> (try simp)
@[simp] theorem State.identifyItem_sp_clamped (s : State) (k : Nat) (v : Int) : (s.identifyItem k v).sp.clamped = s.sp.clamped := by
  unfold State.identifyItem; (repeat' split) <;> (try simp)
@[simp] theorem State.identifyItem_sp_pendingKey (s : State) (k : Nat) (v : Int) : (s.identifyItem k v).sp.pendingKey = s.sp.pendingKey := by
  unfold State.identifyItem; (repeat' split) <;> (try simp)
@[simp] theorem State.identifyItem_sp_locked (s : State) (k : Nat) (v : Int) : (s.identifyItem k v).sp.locked = s.sp.locked := by
  unfold State.identifyItem; (repeat' split) <;> (try simp)
@[simp] theorem State.identifyItem_sp_restarting (s : State) (k : Nat) (v : Int) : (s.identifyItem k v).sp.restarting = s.sp.restarting := by
  unfold State.identifyItem; (repeat' split) <;> (try simp)
@[simp] theorem State.identifyItem_sp_pointer (s : State) (k : Nat) (v : Int) : (s.identifyItem k v).sp.pointer = s.sp.pointer := by
  unfold State.identifyItem; (repeat' split) <;> (try simp)
@[simp] theorem State.identifyItem_sp_response (s : State) (k : Nat) (v : Int) : (s.identifyItem k v).sp.response = s.sp.response := by
  unfold State.identifyItem; (repeat' split) <;> (try simp)
@[simp] theorem State.identifyItem_pending (s : State) (k : Nat) (v : Int) : (s.identifyItem k v).pending = s.pending := by
  unfold State.identifyItem; (repeat' split) <;> (try simp)
@[simp] theorem State.identifyItem_inputs (s : State) (k : Nat) (v : Int) : (s.identifyItem k v).inputs = s.inputs := by
  unfold State.identifyItem; (repeat' split) <;> (try simp)

/-! ### refreshGoesOn -/

@[simp] theorem State.refreshGoesOn_now (s : State) (k : Nat) : (s.refreshGoesOn k).now = s.now := by
  unfold State.refreshGoesOn; (try dsimp only); (repeat' split) <;> (try simp)
@[simp] theorem State.refreshGoesOn_draws (s : State) (k : Nat) : (s.refreshGoesOn k).draws = s.draws := by
  unfold State.refreshGoesOn; (try dsimp only); (repeat' split) <;> (try simp)
@[simp] theorem State.refreshGoesOn_lp (s : State) (k : Nat) : (s.refreshGoesOn k).lp = s.lp := by
  unfold State.refreshGoesOn; (try dsimp only); (repeat' split) <;> (try simp)
@[simp] theorem State.refreshGoesOn_pv (s : State) (k : Nat) : (s.refreshGoesOn k).pv = s.pv := by
  unfold State.refreshGoesOn; (try dsimp only); (repeat' split) <;> (try simp)
@[simp] theorem State.refreshGoesOn_ct (s : State) (k : Nat) : (s.refreshGoesOn k).ct = s.ct := by
  unfold State.refreshGoesOn; (try dsimp only); (repeat' split) <;> (try simp)
@[simp] theorem State.refreshGoesOn_ea (s : State) (k : Nat) : (s.refreshGoesOn k).ea = s.ea := by
  unfold State.refreshGoesOn; (try dsimp only); (repeat' split) <;> (try simp)
@[simp] theorem State.refreshGoesOn_mt (s : State) (k : Nat) : (s.refreshGoesOn k).mt = s.mt := by
  unfold State.refreshGoesOn; (try dsimp only); (repeat' split) <;> (try simp)
@[simp] theorem State.refreshGoesOn_ap (s : State) (k : Nat) : (s.refreshGoesOn k).ap = s.ap := by
  unfold State.refreshGoesOn; (try dsimp only); (repeat' split) <;> (try simp)
@[simp] theorem State.refreshGoesOn_cu (s : State) (k : Nat) : (s.refreshGoesOn k).cu = s.cu := by
  unfold State.refreshGoesOn; (try dsimp only); (repeat' split) <;> (try simp)
@[simp] theorem State.refreshGoesOn_cc (s : State) (k : Nat) : (s.refreshGoesOn k).cc = s.cc := by
  unfold State.refreshGoesOn; (try dsimp only); (repeat' split) <;> (try simp)
@[simp] theorem State.refreshGoesOn_sp (s : State) (k : Nat) : (s.refreshGoesOn k).sp = s.sp := by
  unfold State.refreshGoesOn; (try dsimp only); (repeat' split) <;> (try simp)
@[simp] theorem State.refreshGoesOn_pending (s : State) (k : Nat) : (s.refreshGoesOn k).pending = s.pending := by
  unfold State.refreshGoesOn; (try dsimp only); (repeat' split) <;> (try simp)
@[simp] theorem State.refreshGoesOn_inputs (s : State) (k : Nat) : (s.refreshGoesOn k).inputs = s.inputs := by
  unfold State.refreshGoesOn; (try dsimp only); (repeat' split) <;> (try simp)

/-! ### refreshItem -/

@[simp] theorem State.refreshItem_now (s : State) (k : Nat) (v : Int) : (s.refreshItem k v).now = s.now := by
  unfold State.refreshItem; (try dsimp only); (repeat' split) <;> (try simp)
@[simp] theorem State.refreshItem_draws (s : State) (k : Nat) (v : Int) : (s.refreshItem k v).draws = s.draws := by
  unfold State.refreshItem; (try dsimp only); (repeat' split) <;> (try simp)
@[simp] theorem State.refreshItem_lp (s : State) (k : Nat) (v : Int) : (s.refreshItem k v).lp = s.lp := by
  unfold State.refreshItem; (try dsimp only); (repeat' split) <;> (try simp)
@[simp] theorem State.refreshItem_pv (s : State) (k : Nat) (v : Int) : (s.refreshItem k v).pv = s.pv := by
  unfold State.refreshItem; (try dsimp only); (repeat' split) <;> (try simp)
@[simp] theorem State.refreshItem_ct (s : State) (k : Nat) (v : Int) : (s.refreshItem k v).ct = s.ct := by
  unfold State.refreshItem; (try dsimp only); (repeat' split) <;> (try simp)
@[simp] theorem State.refreshItem_mt (s : State) (k : Nat) (v : Int) : (s.refreshItem k v).mt = s.mt := by
  unfold State.refreshItem; (try dsimp only); (repeat' split) <;> (try simp)
@[simp] theorem State.refreshItem_ap (s : State) (k : Nat) (v : Int) : (s.refreshItem k v).ap = s.ap := by
  unfold State.refreshItem; (try dsimp only); (repeat' split) <;> (try simp)
@[simp] theorem State.refreshItem_cu (s : State) (k : Nat) (v : Int) : (s.refreshItem k v).cu = s.cu := by
  unfold State.refreshItem; (try dsimp only); (repeat' split) <;> (try simp)
@[simp] theorem State.refreshItem_cc (s : State) (k : Nat) (v : Int) : (s.refreshItem k v).cc = s.cc := by
  unfold State.refreshItem; (try dsimp only); (repeat' split) <;> (try simp)
@[simp] theorem State.refreshItem_sp (s : State) (k : Nat) (v : Int) : (s.refreshItem k v).sp = s.sp := by
  unfold State.refreshItem; (try dsimp only); (repeat' split) <;> (try simp)
@[simp] theorem State.refreshItem_pending (s : State) (k : Nat) (v : Int) : (s.refreshItem k v).pending = s.pending := by
  unfold State.refreshItem; (try dsimp only); (repeat' split) <;> (try simp)
@[simp] theorem State.refreshItem_inputs (s : State) (k : Nat) (v : Int) : (s.refreshItem k v).inputs = s.inputs := by
  unfold State.refreshItem; (try dsimp only); (repeat' split) <;> (try simp)

/-! ### makeTune -/

@[simp] theorem State.makeTune_now (s : State) (c : TuneCode) : (s.makeTune c).now = s.now := by
  unfold State.makeTune; (try dsimp only); (try simp)
@[simp] theorem State.makeTune_draws (s : State) (c : TuneCode) : (s.makeTune c).draws = s.draws := by
  unfold State.makeTune; (try dsimp only); (try simp)
@[simp] theorem State.makeTune_lp (s : State) (c : TuneCode) : (s.makeTune c).lp = s.lp := by
  unfold State.makeTune; (try dsimp only); (try simp)
@[simp] theorem State.makeTune_pv (s : State) (c : TuneCode) : (s.makeTune c).pv = s.pv := by
  unfold State.makeTune; (try dsimp only); (try simp)
@[simp] theorem State.makeTune_ct (s : State) (c : TuneCode) : (s.makeTune c).ct = s.ct := by
  unfold State.makeTune; (try dsimp only); (try simp)
@[simp] theorem State.makeTune_ea (s : State) (c : TuneCode) : (s.makeTune c).ea = s.ea := by
  unfold State.makeTune; (try dsimp only); (try simp)
@[simp] theorem State.makeTune_mt (s : State) (c : TuneCode) : (s.makeTune c).mt = s.mt := by
  unfold State.makeTune; (try dsimp only); (try simp)
@[simp] theorem State.makeTune_ap (s : State) (c : TuneCode) : (s.makeTune c).ap = s.ap := by
  unfold State.makeTune; (try dsimp only); (try simp)
@[simp] theorem State.makeTune_cu (s : State) (c : TuneCode) : (s.makeTune c).cu = s.cu := by
  unfold State.makeTune; (try dsimp only); (try simp)
@[simp] theorem State.makeTune_cc (s : State) (c : TuneCode) : (s.makeTune c).cc = s.cc := by
  unfold State.makeTune; (try dsimp only); (try simp)
@[simp] theorem State.makeTune_sp (s : State) (c : TuneCode) : (s.makeTune c).sp = s.sp := by
  unfold State.makeTune; (try dsimp only); (try simp)
@[simp] theorem State.makeTune_pending (s : State) (c : TuneCode) : (s.makeTune c).pending = s.pending := by
  unfold State.makeTune; (try dsimp only); (try simp)
@[simp] theorem State.makeTune_inputs (s : State) (c : TuneCode) : (s.makeTune c).inputs = s.inputs := by
  unfold State.makeTune; (try dsimp only); (try simp)

/-! ### beginSettle -/

@[simp] theorem State.beginSettle_now (s : State) : (s.beginSettle).now = s.now := by
  unfold State.beginSettle; (try dsimp only); (try simp)
@[simp] theorem State.beginSettle_draws (s : State) : (s.beginSettle).draws = s.draws := by
  unfold State.beginSettle; (try dsimp only); (try simp)
@[simp] theorem State.beginSettle_lp (s : State) : (s.beginSettle).lp = s.lp := by
  unfold State.beginSettle; (try dsimp only); (try simp)
@[simp] theorem State.beginSettle_pv (s : State) : (s.beginSettle).pv = s.pv := by
  unfold State.beginSettle; (try dsimp only); (try simp)
@[simp] theorem State.beginSettle_ct (s : State) : (s.beginSettle).ct = s.ct := by
  unfold State.beginSettle; (try dsimp only); (try simp)
@[simp] theorem State.beginSettle_ea (s : State) : (s.beginSettle).ea = s.ea := by
  unfold State.beginSettle; (try dsimp only); (try simp)
@[simp] theorem State.beginSettle_mt (s : State) : (s.beginSettle).mt = s.mt := by
  unfold State.beginSettle; (try dsimp only); (try simp)
@[simp] theorem State.beginSettle_ap (s : State) : (s.beginSettle).ap = s.ap := by
  unfold State.beginSettle; (try dsimp only); (try simp)
@[simp] theorem State.beginSettle_cu (s : State) : (s.beginSettle).cu = s.cu := by
  unfold State.beginSettle; (try dsimp only); (try simp)
@[simp] theorem State.beginSettle_cc (s : State) : (s.beginSettle).cc = s.cc := by
  unfold State.beginSettle; (try dsimp only); (try simp)
@[simp] theorem State.beginSettle_sp (s : State) : (s.beginSettle).sp = s.sp := by
  unfold State.beginSettle; (try dsimp only); (try simp)
@[simp] theorem State.beginSettle_pending (s : State) : (s.beginSettle).pending = s.pending := by
  unfold State.beginSettle; (try dsimp only); (try simp)
@[simp] theorem State.beginSettle_inputs (s : State) : (s.beginSettle).inputs = s.inputs := by
  unfold State.beginSettle; (try dsimp only); (try simp)

/-! ### settleEnds -/

@[simp] theorem State.settleEnds_now (s : State) : (s.settleEnds).now = s.now := by
  unfold State.settleEnds; (try dsimp only); (repeat' split) <;> (try simp)
@[simp] theorem State.settleEnds_draws (s : State) : (s.settleEnds).draws = s.draws := by
  unfold State.settleEnds; (try dsimp only); (repeat' split) <;> (try simp)
@[simp] theorem State.settleEnds_lp (s : State) : (s.settleEnds).lp = s.lp := by
  unfold State.settleEnds; (try dsimp only); (repeat' split) <;> (try simp)
@[simp] theorem State.settleEnds_pv (s : State) : (s.settleEnds).pv = s.pv := by
  unfold State.settleEnds; (try dsimp only); (repeat' split) <;> (try simp)
@[simp] theorem State.settleEnds_ct (s : State) : (s.settleEnds).ct = s.ct := by
  unfold State.settleEnds; (try dsimp only); (repeat' split) <;> (try simp)
@[simp] theorem State.settleEnds_ea (s : State) : (s.settleEnds).ea = s.ea := by
  unfold State.settleEnds; (try dsimp only); (repeat' split) <;> (try simp)
@[simp] theorem State.settleEnds_mt (s : State) : (s.settleEnds).mt = s.mt := by
  unfold State.settleEnds; (try dsimp only); (repeat' split) <;> (try simp)
@[simp] theorem State.settleEnds_ap (s : State) : (s.settleEnds).ap = s.ap := by
  unfold State.settleEnds; (try dsimp only); (repeat' split) <;> (try simp)
@[simp] theorem State.settleEnds_cu (s : State) : (s.settleEnds).cu = s.cu := by
  unfold State.settleEnds; (try dsimp only); (repeat' split) <;> (try simp)
@[simp] theorem State.settleEnds_cc (s : State) : (s.settleEnds).cc = s.cc := by
  unfold State.settleEnds; (try dsimp only); (repeat' split) <;> (try simp)
@[simp] theorem State.settleEnds_sp_mode (s : State) : (s.settleEnds).sp.mode = s.sp.mode := by
  unfold State.settleEnds; (try dsimp only); (repeat' split) <;> (try simp)
@[simp] theorem State.settleEnds_sp_config (s : State) : (s.settleEnds).sp.config = s.sp.config := by
  unfold State.settleEnds; (try dsimp only); (repeat' split) <;> (try simp)
@[simp] theorem State.settleEnds_sp_clamped (s : State) : (s.settleEnds).sp.clamped = s.sp.clamped := by
  unfold State.settleEnds; (try dsimp only); (repeat' split) <;> (try simp)
@[simp] theorem State.settleEnds_sp_pendingKey (s : State) : (s.settleEnds).sp.pendingKey = s.sp.pendingKey := by
  unfold State.settleEnds; (try dsimp only); (repeat' split) <;> (try simp)
@[simp] theorem State.settleEnds_sp_locked (s : State) : (s.settleEnds).sp.locked = s.sp.locked := by
  unfold State.settleEnds; (try dsimp only); (repeat' split) <;> (try simp)
@[simp] theorem State.settleEnds_sp_restarting (s : State) : (s.settleEnds).sp.restarting = s.sp.restarting := by
  unfold State.settleEnds; (try dsimp only); (repeat' split) <;> (try simp)
@[simp] theorem State.settleEnds_sp_pointer (s : State) : (s.settleEnds).sp.pointer = s.sp.pointer := by
  unfold State.settleEnds; (try dsimp only); (repeat' split) <;> (try simp)
@[simp] theorem State.settleEnds_sp_response (s : State) : (s.settleEnds).sp.response = s.sp.response := by
  unfold State.settleEnds; (try dsimp only); (repeat' split) <;> (try simp)
@[simp] theorem State.settleEnds_pending (s : State) : (s.settleEnds).pending = s.pending := by
  unfold State.settleEnds; (try dsimp only); (repeat' split) <;> (try simp)
@[simp] theorem State.settleEnds_inputs (s : State) : (s.settleEnds).inputs = s.inputs := by
  unfold State.settleEnds; (try dsimp only); (repeat' split) <;> (try simp)

/-! ### tuneReply -/

@[simp] theorem State.tuneReply_now (s : State) (x : TuneStatus) (l : Nat) : (s.tuneReply x l).now = s.now := by
  unfold State.tuneReply; (try dsimp only); (repeat' split) <;> (try simp)
@[simp] theorem State.tuneReply_draws (s : State) (x : TuneStatus) (l : Nat) : (s.tuneReply x l).draws = s.draws := by
  unfold State.tuneReply; (try dsimp only); (repeat' split) <;> (try simp)
@[simp] theorem State.tuneReply_lp (s : State) (x : TuneStatus) (l : Nat) : (s.tuneReply x l).lp = s.lp := by
  unfold State.tuneReply; (try dsimp only); (repeat' split) <;> (try simp)
@[simp] theorem State.tuneReply_pv (s : State) (x : TuneStatus) (l : Nat) : (s.tuneReply x l).pv = s.pv := by
  unfold State.tuneReply; (try dsimp only); (repeat' split) <;> (try simp)
@[simp] theorem State.tuneReply_ct (s : State) (x : TuneStatus) (l : Nat) : (s.tuneReply x l).ct = s.ct := by
  unfold State.tuneReply; (try dsimp only); (repeat' split) <;> (try simp)
@[simp] theorem State.tuneReply_ea (s : State) (x : TuneStatus) (l : Nat) : (s.tuneReply x l).ea = s.ea := by
  unfold State.tuneReply; (try dsimp only); (repeat' split) <;> (try simp)
@[simp] theorem State.tuneReply_mt (s : State) (x : TuneStatus) (l : Nat) : (s.tuneReply x l).mt = s.mt := by
  unfold State.tuneReply; (try dsimp only); (repeat' split) <;> (try simp)
@[simp] theorem State.tuneReply_ap (s : State) (x : TuneStatus) (l : Nat) : (s.tuneReply x l).ap = s.ap := by
  unfold State.tuneReply; (try dsimp only); (repeat' split) <;> (try simp)
@[simp] theorem State.tuneReply_cu (s : State) (x : TuneStatus) (l : Nat) : (s.tuneReply x l).cu = s.cu := by
  unfold State.tuneReply; (try dsimp only); (repeat' split) <;> (try simp)
@[simp] theorem State.tuneReply_cc (s : State) (x : TuneStatus) (l : Nat) : (s.tuneReply x l).cc = s.cc := by
  unfold State.tuneReply; (try dsimp only); (repeat' split) <;> (try simp)
@[simp] theorem State.tuneReply_sp (s : State) (x : TuneStatus) (l : Nat) : (s.tuneReply x l).sp = s.sp := by
  unfold State.tuneReply; (try dsimp only); (repeat' split) <;> (try simp)
@[simp] theorem State.tuneReply_pending (s : State) (x : TuneStatus) (l : Nat) : (s.tuneReply x l).pending = s.pending := by
  unfold State.tuneReply; (try dsimp only); (repeat' split) <;> (try simp)
@[simp] theorem State.tuneReply_inputs (s : State) (x : TuneStatus) (l : Nat) : (s.tuneReply x l).inputs = s.inputs := by
  unfold State.tuneReply; (try dsimp only); (repeat' split) <;> (try simp)

/-! ### holdReply -/

@[simp] theorem State.holdReply_now (s : State) (x : TuneStatus) (l : Nat) : (s.holdReply x l).now = s.now := by
  unfold State.holdReply; (try dsimp only); (repeat' split) <;> (try simp)
@[simp] theorem State.holdReply_draws (s : State) (x : TuneStatus) (l : Nat) : (s.holdReply x l).draws = s.draws := by
  unfold State.holdReply; (try dsimp only); (repeat' split) <;> (try simp)
@[simp] theorem State.holdReply_lp (s : State) (x : TuneStatus) (l : Nat) : (s.holdReply x l).lp = s.lp := by
  unfold State.holdReply; (try dsimp only); (repeat' split) <;> (try simp)
@[simp] theorem State.holdReply_pv (s : State) (x : TuneStatus) (l : Nat) : (s.holdReply x l).pv = s.pv := by
  unfold State.holdReply; (try dsimp only); (repeat' split) <;> (try simp)
@[simp] theorem State.holdReply_ct (s : State) (x : TuneStatus) (l : Nat) : (s.holdReply x l).ct = s.ct := by
  unfold State.holdReply; (try dsimp only); (repeat' split) <;> (try simp)
@[simp] theorem State.holdReply_ea (s : State) (x : TuneStatus) (l : Nat) : (s.holdReply x l).ea = s.ea := by
  unfold State.holdReply; (try dsimp only); (repeat' split) <;> (try simp)
@[simp] theorem State.holdReply_mt (s : State) (x : TuneStatus) (l : Nat) : (s.holdReply x l).mt = s.mt := by
  unfold State.holdReply; (try dsimp only); (repeat' split) <;> (try simp)
@[simp] theorem State.holdReply_ap (s : State) (x : TuneStatus) (l : Nat) : (s.holdReply x l).ap = s.ap := by
  unfold State.holdReply; (try dsimp only); (repeat' split) <;> (try simp)
@[simp] theorem State.holdReply_cu (s : State) (x : TuneStatus) (l : Nat) : (s.holdReply x l).cu = s.cu := by
  unfold State.holdReply; (try dsimp only); (repeat' split) <;> (try simp)
@[simp] theorem State.holdReply_cc (s : State) (x : TuneStatus) (l : Nat) : (s.holdReply x l).cc = s.cc := by
  unfold State.holdReply; (try dsimp only); (repeat' split) <;> (try simp)
@[simp] theorem State.holdReply_sp_mode (s : State) (x : TuneStatus) (l : Nat) : (s.holdReply x l).sp.mode = s.sp.mode := by
  unfold State.holdReply; (try dsimp only); (repeat' split) <;> (try simp)
@[simp] theorem State.holdReply_sp_config (s : State) (x : TuneStatus) (l : Nat) : (s.holdReply x l).sp.config = s.sp.config := by
  unfold State.holdReply; (try dsimp only); (repeat' split) <;> (try simp)
@[simp] theorem State.holdReply_sp_clamped (s : State) (x : TuneStatus) (l : Nat) : (s.holdReply x l).sp.clamped = s.sp.clamped := by
  unfold State.holdReply; (try dsimp only); (repeat' split) <;> (try simp)
@[simp] theorem State.holdReply_sp_pendingKey (s : State) (x : TuneStatus) (l : Nat) : (s.holdReply x l).sp.pendingKey = s.sp.pendingKey := by
  unfold State.holdReply; (try dsimp only); (repeat' split) <;> (try simp)
@[simp] theorem State.holdReply_sp_locked (s : State) (x : TuneStatus) (l : Nat) : (s.holdReply x l).sp.locked = s.sp.locked := by
  unfold State.holdReply; (try dsimp only); (repeat' split) <;> (try simp)
@[simp] theorem State.holdReply_sp_restarting (s : State) (x : TuneStatus) (l : Nat) : (s.holdReply x l).sp.restarting = s.sp.restarting := by
  unfold State.holdReply; (try dsimp only); (repeat' split) <;> (try simp)
@[simp] theorem State.holdReply_sp_pointer (s : State) (x : TuneStatus) (l : Nat) : (s.holdReply x l).sp.pointer = s.sp.pointer := by
  unfold State.holdReply; (try dsimp only); (repeat' split) <;> (try simp)
@[simp] theorem State.holdReply_sp_response (s : State) (x : TuneStatus) (l : Nat) : (s.holdReply x l).sp.response = s.sp.response := by
  unfold State.holdReply; (try dsimp only); (repeat' split) <;> (try simp)
@[simp] theorem State.holdReply_pending (s : State) (x : TuneStatus) (l : Nat) : (s.holdReply x l).pending = s.pending := by
  unfold State.holdReply; (try dsimp only); (repeat' split) <;> (try simp)
@[simp] theorem State.holdReply_inputs (s : State) (x : TuneStatus) (l : Nat) : (s.holdReply x l).inputs = s.inputs := by
  unfold State.holdReply; (try dsimp only); (repeat' split) <;> (try simp)

/-! ### meetCeiling -/

@[simp] theorem State.meetCeiling_now (s : State) (c : Nat) : (s.meetCeiling c).now = s.now := by
  unfold State.meetCeiling; (try dsimp only); (try simp)
@[simp] theorem State.meetCeiling_draws (s : State) (c : Nat) : (s.meetCeiling c).draws = s.draws := by
  unfold State.meetCeiling; (try dsimp only); (try simp)
@[simp] theorem State.meetCeiling_lp (s : State) (c : Nat) : (s.meetCeiling c).lp = s.lp := by
  unfold State.meetCeiling; (try dsimp only); (try simp)
@[simp] theorem State.meetCeiling_pv (s : State) (c : Nat) : (s.meetCeiling c).pv = s.pv := by
  unfold State.meetCeiling; (try dsimp only); (try simp)
@[simp] theorem State.meetCeiling_ct (s : State) (c : Nat) : (s.meetCeiling c).ct = s.ct := by
  unfold State.meetCeiling; (try dsimp only); (try simp)
@[simp] theorem State.meetCeiling_ea (s : State) (c : Nat) : (s.meetCeiling c).ea = s.ea := by
  unfold State.meetCeiling; (try dsimp only); (try simp)
@[simp] theorem State.meetCeiling_mt (s : State) (c : Nat) : (s.meetCeiling c).mt = s.mt := by
  unfold State.meetCeiling; (try dsimp only); (try simp)
@[simp] theorem State.meetCeiling_ap (s : State) (c : Nat) : (s.meetCeiling c).ap = s.ap := by
  unfold State.meetCeiling; (try dsimp only); (try simp)
@[simp] theorem State.meetCeiling_cu (s : State) (c : Nat) : (s.meetCeiling c).cu = s.cu := by
  unfold State.meetCeiling; (try dsimp only); (try simp)
@[simp] theorem State.meetCeiling_cc (s : State) (c : Nat) : (s.meetCeiling c).cc = s.cc := by
  unfold State.meetCeiling; (try dsimp only); (try simp)
@[simp] theorem State.meetCeiling_sp_mode (s : State) (c : Nat) : (s.meetCeiling c).sp.mode = s.sp.mode := by
  unfold State.meetCeiling; (try dsimp only); (try simp)
@[simp] theorem State.meetCeiling_sp_config (s : State) (c : Nat) : (s.meetCeiling c).sp.config = s.sp.config := by
  unfold State.meetCeiling; (try dsimp only); (try simp)
@[simp] theorem State.meetCeiling_sp_clamped (s : State) (c : Nat) : (s.meetCeiling c).sp.clamped = s.sp.clamped := by
  unfold State.meetCeiling; (try dsimp only); (try simp)
@[simp] theorem State.meetCeiling_sp_pendingKey (s : State) (c : Nat) : (s.meetCeiling c).sp.pendingKey = s.sp.pendingKey := by
  unfold State.meetCeiling; (try dsimp only); (try simp)
@[simp] theorem State.meetCeiling_sp_locked (s : State) (c : Nat) : (s.meetCeiling c).sp.locked = s.sp.locked := by
  unfold State.meetCeiling; (try dsimp only); (try simp)
@[simp] theorem State.meetCeiling_sp_restarting (s : State) (c : Nat) : (s.meetCeiling c).sp.restarting = s.sp.restarting := by
  unfold State.meetCeiling; (try dsimp only); (try simp)
@[simp] theorem State.meetCeiling_sp_pointer (s : State) (c : Nat) : (s.meetCeiling c).sp.pointer = s.sp.pointer := by
  unfold State.meetCeiling; (try dsimp only); (try simp)
@[simp] theorem State.meetCeiling_sp_response (s : State) (c : Nat) : (s.meetCeiling c).sp.response = s.sp.response := by
  unfold State.meetCeiling; (try dsimp only); (try simp)
@[simp] theorem State.meetCeiling_pending (s : State) (c : Nat) : (s.meetCeiling c).pending = s.pending := by
  unfold State.meetCeiling; (try dsimp only); (try simp)
@[simp] theorem State.meetCeiling_inputs (s : State) (c : Nat) : (s.meetCeiling c).inputs = s.inputs := by
  unfold State.meetCeiling; (try dsimp only); (try simp)

/-! ### meetStop -/

@[simp] theorem State.meetStop_now (s : State) (b : Bool) : (s.meetStop b).now = s.now := by
  unfold State.meetStop; (try dsimp only); (repeat' split) <;> (try simp)
@[simp] theorem State.meetStop_draws (s : State) (b : Bool) : (s.meetStop b).draws = s.draws := by
  unfold State.meetStop; (try dsimp only); (repeat' split) <;> (try simp)
@[simp] theorem State.meetStop_lp (s : State) (b : Bool) : (s.meetStop b).lp = s.lp := by
  unfold State.meetStop; (try dsimp only); (repeat' split) <;> (try simp)
@[simp] theorem State.meetStop_pv (s : State) (b : Bool) : (s.meetStop b).pv = s.pv := by
  unfold State.meetStop; (try dsimp only); (repeat' split) <;> (try simp)
@[simp] theorem State.meetStop_ct (s : State) (b : Bool) : (s.meetStop b).ct = s.ct := by
  unfold State.meetStop; (try dsimp only); (repeat' split) <;> (try simp)
@[simp] theorem State.meetStop_ea (s : State) (b : Bool) : (s.meetStop b).ea = s.ea := by
  unfold State.meetStop; (try dsimp only); (repeat' split) <;> (try simp)
@[simp] theorem State.meetStop_mt (s : State) (b : Bool) : (s.meetStop b).mt = s.mt := by
  unfold State.meetStop; (try dsimp only); (repeat' split) <;> (try simp)
@[simp] theorem State.meetStop_ap (s : State) (b : Bool) : (s.meetStop b).ap = s.ap := by
  unfold State.meetStop; (try dsimp only); (repeat' split) <;> (try simp)
@[simp] theorem State.meetStop_cu (s : State) (b : Bool) : (s.meetStop b).cu = s.cu := by
  unfold State.meetStop; (try dsimp only); (repeat' split) <;> (try simp)
@[simp] theorem State.meetStop_sp_mode (s : State) (b : Bool) : (s.meetStop b).sp.mode = s.sp.mode := by
  unfold State.meetStop; (try dsimp only); (repeat' split) <;> (try simp)
@[simp] theorem State.meetStop_sp_config (s : State) (b : Bool) : (s.meetStop b).sp.config = s.sp.config := by
  unfold State.meetStop; (try dsimp only); (repeat' split) <;> (try simp)
@[simp] theorem State.meetStop_sp_clamped (s : State) (b : Bool) : (s.meetStop b).sp.clamped = s.sp.clamped := by
  unfold State.meetStop; (try dsimp only); (repeat' split) <;> (try simp)
@[simp] theorem State.meetStop_sp_pendingKey (s : State) (b : Bool) : (s.meetStop b).sp.pendingKey = s.sp.pendingKey := by
  unfold State.meetStop; (try dsimp only); (repeat' split) <;> (try simp)
@[simp] theorem State.meetStop_sp_locked (s : State) (b : Bool) : (s.meetStop b).sp.locked = s.sp.locked := by
  unfold State.meetStop; (try dsimp only); (repeat' split) <;> (try simp)
@[simp] theorem State.meetStop_sp_restarting (s : State) (b : Bool) : (s.meetStop b).sp.restarting = s.sp.restarting := by
  unfold State.meetStop; (try dsimp only); (repeat' split) <;> (try simp)
@[simp] theorem State.meetStop_sp_pointer (s : State) (b : Bool) : (s.meetStop b).sp.pointer = s.sp.pointer := by
  unfold State.meetStop; (try dsimp only); (repeat' split) <;> (try simp)
@[simp] theorem State.meetStop_sp_response (s : State) (b : Bool) : (s.meetStop b).sp.response = s.sp.response := by
  unfold State.meetStop; (try dsimp only); (repeat' split) <;> (try simp)
@[simp] theorem State.meetStop_pending (s : State) (b : Bool) : (s.meetStop b).pending = s.pending := by
  unfold State.meetStop; (try dsimp only); (repeat' split) <;> (try simp)
@[simp] theorem State.meetStop_inputs (s : State) (b : Bool) : (s.meetStop b).inputs = s.inputs := by
  unfold State.meetStop; (try dsimp only); (repeat' split) <;> (try simp)

/-! ### releaseForRestart -/

@[simp] theorem State.releaseForRestart_now (s : State) : (s.releaseForRestart).now = s.now := by
  unfold State.releaseForRestart; (try dsimp only); (repeat' split) <;> (try simp)
@[simp] theorem State.releaseForRestart_draws (s : State) : (s.releaseForRestart).draws = s.draws := by
  unfold State.releaseForRestart; (try dsimp only); (repeat' split) <;> (try simp)
@[simp] theorem State.releaseForRestart_lp (s : State) : (s.releaseForRestart).lp = s.lp := by
  unfold State.releaseForRestart; (try dsimp only); (repeat' split) <;> (try simp)
@[simp] theorem State.releaseForRestart_pv (s : State) : (s.releaseForRestart).pv = s.pv := by
  unfold State.releaseForRestart; (try dsimp only); (repeat' split) <;> (try simp)
@[simp] theorem State.releaseForRestart_ct (s : State) : (s.releaseForRestart).ct = s.ct := by
  unfold State.releaseForRestart; (try dsimp only); (repeat' split) <;> (try simp)
@[simp] theorem State.releaseForRestart_ea (s : State) : (s.releaseForRestart).ea = s.ea := by
  unfold State.releaseForRestart; (try dsimp only); (repeat' split) <;> (try simp)
@[simp] theorem State.releaseForRestart_mt (s : State) : (s.releaseForRestart).mt = s.mt := by
  unfold State.releaseForRestart; (try dsimp only); (repeat' split) <;> (try simp)
@[simp] theorem State.releaseForRestart_ap (s : State) : (s.releaseForRestart).ap = s.ap := by
  unfold State.releaseForRestart; (try dsimp only); (repeat' split) <;> (try simp)
@[simp] theorem State.releaseForRestart_cu (s : State) : (s.releaseForRestart).cu = s.cu := by
  unfold State.releaseForRestart; (try dsimp only); (repeat' split) <;> (try simp)
@[simp] theorem State.releaseForRestart_cc (s : State) : (s.releaseForRestart).cc = s.cc := by
  unfold State.releaseForRestart; (try dsimp only); (repeat' split) <;> (try simp)
@[simp] theorem State.releaseForRestart_sp (s : State) : (s.releaseForRestart).sp = s.sp := by
  unfold State.releaseForRestart; (try dsimp only); (repeat' split) <;> (try simp)
@[simp] theorem State.releaseForRestart_pending (s : State) : (s.releaseForRestart).pending = s.pending := by
  unfold State.releaseForRestart; (try dsimp only); (repeat' split) <;> (try simp)
@[simp] theorem State.releaseForRestart_inputs (s : State) : (s.releaseForRestart).inputs = s.inputs := by
  unfold State.releaseForRestart; (try dsimp only); (repeat' split) <;> (try simp)

/-! ### callNotice -/

@[simp] theorem State.callNotice_now (s : State) (r : CallRecord) : (s.callNotice r).now = s.now := by
  unfold State.callNotice; (repeat' split) <;> (try simp)
@[simp] theorem State.callNotice_draws (s : State) (r : CallRecord) : (s.callNotice r).draws = s.draws := by
  unfold State.callNotice; (repeat' split) <;> (try simp)
@[simp] theorem State.callNotice_lp (s : State) (r : CallRecord) : (s.callNotice r).lp = s.lp := by
  unfold State.callNotice; (repeat' split) <;> (try simp)
@[simp] theorem State.callNotice_pv (s : State) (r : CallRecord) : (s.callNotice r).pv = s.pv := by
  unfold State.callNotice; (repeat' split) <;> (try simp)
@[simp] theorem State.callNotice_ct (s : State) (r : CallRecord) : (s.callNotice r).ct = s.ct := by
  unfold State.callNotice; (repeat' split) <;> (try simp)
@[simp] theorem State.callNotice_ea (s : State) (r : CallRecord) : (s.callNotice r).ea = s.ea := by
  unfold State.callNotice; (repeat' split) <;> (try simp)
@[simp] theorem State.callNotice_mt (s : State) (r : CallRecord) : (s.callNotice r).mt = s.mt := by
  unfold State.callNotice; (repeat' split) <;> (try simp)
@[simp] theorem State.callNotice_ap (s : State) (r : CallRecord) : (s.callNotice r).ap = s.ap := by
  unfold State.callNotice; (repeat' split) <;> (try simp)
@[simp] theorem State.callNotice_cu (s : State) (r : CallRecord) : (s.callNotice r).cu = s.cu := by
  unfold State.callNotice; (repeat' split) <;> (try simp)
@[simp] theorem State.callNotice_cc (s : State) (r : CallRecord) : (s.callNotice r).cc = s.cc := by
  unfold State.callNotice; (repeat' split) <;> (try simp)
@[simp] theorem State.callNotice_sp_config (s : State) (r : CallRecord) : (s.callNotice r).sp.config = s.sp.config := by
  unfold State.callNotice; (repeat' split) <;> (try simp)
@[simp] theorem State.callNotice_sp_clamped (s : State) (r : CallRecord) : (s.callNotice r).sp.clamped = s.sp.clamped := by
  unfold State.callNotice; (repeat' split) <;> (try simp)
@[simp] theorem State.callNotice_sp_pendingKey (s : State) (r : CallRecord) : (s.callNotice r).sp.pendingKey = s.sp.pendingKey := by
  unfold State.callNotice; (repeat' split) <;> (try simp)
@[simp] theorem State.callNotice_sp_locked (s : State) (r : CallRecord) : (s.callNotice r).sp.locked = s.sp.locked := by
  unfold State.callNotice; (repeat' split) <;> (try simp)
@[simp] theorem State.callNotice_sp_restarting (s : State) (r : CallRecord) : (s.callNotice r).sp.restarting = s.sp.restarting := by
  unfold State.callNotice; (repeat' split) <;> (try simp)
@[simp] theorem State.callNotice_sp_pointer (s : State) (r : CallRecord) : (s.callNotice r).sp.pointer = s.sp.pointer := by
  unfold State.callNotice; (repeat' split) <;> (try simp)
@[simp] theorem State.callNotice_sp_response (s : State) (r : CallRecord) : (s.callNotice r).sp.response = s.sp.response := by
  unfold State.callNotice; (repeat' split) <;> (try simp)
@[simp] theorem State.callNotice_pending (s : State) (r : CallRecord) : (s.callNotice r).pending = s.pending := by
  unfold State.callNotice; (repeat' split) <;> (try simp)
@[simp] theorem State.callNotice_inputs (s : State) (r : CallRecord) : (s.callNotice r).inputs = s.inputs := by
  unfold State.callNotice; (repeat' split) <;> (try simp)

/-! ### meetDuplicate -/

@[simp] theorem State.meetDuplicate_now (s : State) : (s.meetDuplicate).now = s.now := by
  unfold State.meetDuplicate; (try dsimp only); (repeat' split) <;> (try simp)
@[simp] theorem State.meetDuplicate_draws (s : State) : (s.meetDuplicate).draws = s.draws := by
  unfold State.meetDuplicate; (try dsimp only); (repeat' split) <;> (try simp)
@[simp] theorem State.meetDuplicate_pv (s : State) : (s.meetDuplicate).pv = s.pv := by
  unfold State.meetDuplicate; (try dsimp only); (repeat' split) <;> (try simp)
@[simp] theorem State.meetDuplicate_ct (s : State) : (s.meetDuplicate).ct = s.ct := by
  unfold State.meetDuplicate; (try dsimp only); (repeat' split) <;> (try simp)
@[simp] theorem State.meetDuplicate_ea (s : State) : (s.meetDuplicate).ea = s.ea := by
  unfold State.meetDuplicate; (try dsimp only); (repeat' split) <;> (try simp)
@[simp] theorem State.meetDuplicate_mt (s : State) : (s.meetDuplicate).mt = s.mt := by
  unfold State.meetDuplicate; (try dsimp only); (repeat' split) <;> (try simp)
@[simp] theorem State.meetDuplicate_ap (s : State) : (s.meetDuplicate).ap = s.ap := by
  unfold State.meetDuplicate; (try dsimp only); (repeat' split) <;> (try simp)
@[simp] theorem State.meetDuplicate_cu (s : State) : (s.meetDuplicate).cu = s.cu := by
  unfold State.meetDuplicate; (try dsimp only); (repeat' split) <;> (try simp)
@[simp] theorem State.meetDuplicate_sp_config (s : State) : (s.meetDuplicate).sp.config = s.sp.config := by
  unfold State.meetDuplicate; (try dsimp only); (repeat' split) <;> (try simp)
@[simp] theorem State.meetDuplicate_sp_clamped (s : State) : (s.meetDuplicate).sp.clamped = s.sp.clamped := by
  unfold State.meetDuplicate; (try dsimp only); (repeat' split) <;> (try simp)
@[simp] theorem State.meetDuplicate_sp_pendingKey (s : State) : (s.meetDuplicate).sp.pendingKey = s.sp.pendingKey := by
  unfold State.meetDuplicate; (try dsimp only); (repeat' split) <;> (try simp)
@[simp] theorem State.meetDuplicate_sp_locked (s : State) : (s.meetDuplicate).sp.locked = s.sp.locked := by
  unfold State.meetDuplicate; (try dsimp only); (repeat' split) <;> (try simp)
@[simp] theorem State.meetDuplicate_sp_pointer (s : State) : (s.meetDuplicate).sp.pointer = s.sp.pointer := by
  unfold State.meetDuplicate; (try dsimp only); (repeat' split) <;> (try simp)
@[simp] theorem State.meetDuplicate_sp_response (s : State) : (s.meetDuplicate).sp.response = s.sp.response := by
  unfold State.meetDuplicate; (try dsimp only); (repeat' split) <;> (try simp)
@[simp] theorem State.meetDuplicate_pending (s : State) : (s.meetDuplicate).pending = s.pending := by
  unfold State.meetDuplicate; (try dsimp only); (repeat' split) <;> (try simp)
@[simp] theorem State.meetDuplicate_inputs (s : State) : (s.meetDuplicate).inputs = s.inputs := by
  unfold State.meetDuplicate; (try dsimp only); (repeat' split) <;> (try simp)

/-! ### startTimers -/

@[simp] theorem State.startTimers_now (s : State) : (s.startTimers).now = s.now := by
  unfold State.startTimers; (try dsimp only); (repeat' split) <;> (try simp)
@[simp] theorem State.startTimers_draws (s : State) : (s.startTimers).draws = s.draws := by
  unfold State.startTimers; (try dsimp only); (repeat' split) <;> (try simp)
@[simp] theorem State.startTimers_lp (s : State) : (s.startTimers).lp = s.lp := by
  unfold State.startTimers; (try dsimp only); (repeat' split) <;> (try simp)
@[simp] theorem State.startTimers_ea (s : State) : (s.startTimers).ea = s.ea := by
  unfold State.startTimers; (try dsimp only); (repeat' split) <;> (try simp)
@[simp] theorem State.startTimers_vl (s : State) : (s.startTimers).vl = s.vl := by
  unfold State.startTimers; (try dsimp only); (repeat' split) <;> (try simp)
@[simp] theorem State.startTimers_sp (s : State) : (s.startTimers).sp = s.sp := by
  unfold State.startTimers; (try dsimp only); (repeat' split) <;> (try simp)
@[simp] theorem State.startTimers_pending (s : State) : (s.startTimers).pending = s.pending := by
  unfold State.startTimers; (try dsimp only); (repeat' split) <;> (try simp)
@[simp] theorem State.startTimers_inputs (s : State) : (s.startTimers).inputs = s.inputs := by
  unfold State.startTimers; (try dsimp only); (repeat' split) <;> (try simp)

end Sys2Proof.Machine
end

