-- ==== Sys2Proof/Laws/Equations.lean ====
section
/-!
SUPPORT. What each shared operation that several commands use makes of a state, as one record update.
-/

namespace Sys2Proof.Safety

open Sys2Proof Sys2Proof.Machine

theorem requestStop_eq (s : State) : s.requestStop = { s with
    cc := if s.cc.state = .precharging then converterOff s.cc
      else if s.cc.state = .on then { s.cc with stopPending := true } else s.cc } := by
  unfold State.requestStop
  cases h : s.cc.state <;> rfl

/-- A computation replaces the recorded values, and nothing else but serving flags (R81, R57). -/
theorem compute_eq (s : State) (t : Trigger) : s.compute t = { s with
    ap := s.computation t
    ct := { s.ct with
      records := if 0 < (s.computation t).result then markServing s.ct.records
        else s.ct.records } } := by
  unfold State.compute
  dsimp only
  split <;> rfl

theorem computation_trigger (s : State) (t : Trigger) : (s.computation t).trigger = t := by
  unfold State.computation; dsimp only; split <;> rfl

theorem computation_call (s : State) (t : Trigger) :
    (s.computation t).call = s.call.map (·.callId) := by
  unfold State.computation
  cases h : s.call <;> rfl

theorem computation_stepAt (s : State) (t : Trigger) :
    (s.computation t).stepAt = s.ap.stepAt := by
  unfold State.computation; dsimp only; split <;> rfl

theorem dropEnable_eq (s : State) : (s.stepDown 0).dropEnable = { s with
    cc := if s.cc.state.enabled then converterOff s.cc else { s.cc with setpoint := 0 } } := by
  unfold State.stepDown State.dropEnable
  simp only [State.setCc, Nat.min_zero]
  split <;> rfl

/-- A start failure or a trip (R121, R122, R123). -/
theorem convFails_eq (s : State) (k : EventKind) : s.convFails k = { s with
    cc := converterFailed s.cc s.now
    sp := { s.sp with
      events := if s.cc.failures < 2 then s.sp.events.raise k
        else (s.sp.events.raise k).raise .convFault } } := by
  unfold State.convFails converterFailed
  simp only [State.raiseIf_eq]
  by_cases h : s.cc.failures < 2
  · have n : satSucc 3 s.cc.failures = s.cc.failures + 1 := by unfold satSucc; split <;> omega
    have l : ¬ 3 ≤ s.cc.failures + 1 := by omega
    simp [n, l, h]
    rfl
  · have n : satSucc 3 s.cc.failures = 3 := by unfold satSucc; split <;> omega
    simp [n, h]
    rfl

/-- A session failure (R141, R143, R145, R156). -/
theorem failSession_eq (s : State) (cause : LastFailure) (wait : Nat) :
    s.failSession cause wait = { s with
      vl := sessionFailed s.vl s.now cause wait s.vl.releaseOwed s.vl.inFlight
      sp := { s.sp with
        events := if s.vl.failures < 2 then s.sp.events
          else s.sp.events.raise .vehicleFault } } := by
  unfold State.failSession sessionFailed
  simp only [State.raiseIf_eq]
  by_cases h : s.vl.failures < 2
  · have n : satSucc 3 s.vl.failures = s.vl.failures + 1 := by unfold satSucc; split <;> omega
    have l : ¬ 3 ≤ s.vl.failures + 1 := by omega
    simp [n, l, h]
    rfl
  · have n : satSucc 3 s.vl.failures = 3 := by unfold satSucc; split <;> omega
    simp [n, h]
    rfl

theorem releaseForRestart_eq (s : State) : s.releaseForRestart = { s with
    vl := if s.vl.session = .ready ∨ s.vl.session = .engaging ∨ s.vl.session = .exporting then
        { s.vl with session := .releasing, due := { s.vl.due with release := true } }
      else s.vl } := by
  unfold State.releaseForRestart
  cases h : s.vl.session <;> rfl

theorem enterLockout_eq (s : State) (h : s.sp.mode ≠ .lockout) : s.enterLockout = { s with
    lp := { s.lp with queue := [], inFlight := none, standingAt := none }
    cc := if s.cc.state.enabled then converterOff s.cc else { s.cc with setpoint := 0 }
    vl := (s.setMode .lockout).vl
    sp := { s.sp with mode := .lockout } } := by
  unfold State.enterLockout
  rw [if_neg h]
  simp only [dropEnable_eq]
  rw [setMode_eq]
  rfl

theorem enqueueNow_eq (s : State) (f : QueuedFrame) : s.enqueueNow f = { s with
    lp := { s.lp with
      queue := enqueued f s.lp.queue
      stats := { s.lp.stats with
        queueDrops := if drops s.lp.queue then satSucc 65535 s.lp.stats.queueDrops
          else s.lp.stats.queueDrops } }
    sp := { s.sp with
      events := if drops s.lp.queue then s.sp.events.raise .frameDropped else s.sp.events } } := by
  unfold State.enqueueNow
  simp only [State.raiseIf_eq]
  cases drops s.lp.queue <;> rfl

theorem enqueue_eq (s : State) (f : QueuedFrame) (m : s.sp.mode ≠ .config)
    (l : s.sp.mode ≠ .lockout) : s.enqueue f = s.enqueueNow f := by
  unfold State.enqueue State.transmitEnabled State.joined
  simp [m, l]

theorem enqueue_refused (s : State) (f : QueuedFrame)
    (h : s.sp.mode = .config ∨ s.sp.mode = .lockout) : s.enqueue f = s := by
  unfold State.enqueue State.transmitEnabled State.joined
  rcases h with h | h <;> simp [h]

/-- The STANDING timer started where the queue is empty and the Line Port takes frames. -/
theorem startStanding_empty (s : State) (h : s.lp.queue = []) (m : s.sp.mode ≠ .config)
    (l : s.sp.mode ≠ .lockout) : s.startStanding = { s with
      draws := s.draws + 1
      lp := { s.lp with queue := [.standing], standingAt := some (s.now + s.drawn 1000 100) } } := by
  have e : ((s.countDraw).setLp
      { s.lp with standingAt := some (s.now + s.drawn 1000 100) }).enqueueStanding =
      { s with
        draws := s.draws + 1
        lp := { s.lp with queue := [.standing], standingAt := some (s.now + s.drawn 1000 100) } } := by
    unfold State.enqueueStanding State.transmitEnabled State.joined State.enqueueNow enqueued drops
    simp [h, m, l, State.setLp, State.countDraw, State.setDraws, State.raiseIf, placeFrame]
  exact e

/-- A change of mode with no poll timer running. -/
theorem setMode_of_none (s : State) (m : PostMode) (h : s.vl.pollAt = none) :
    s.setMode m = { s with sp := { s.sp with mode := m } } := by
  rw [setMode_eq, h]
  simp only [Option.isSome_none, Bool.and_false, Bool.false_eq_true, if_false]
  rw [← h]

/-- The completion of a restart (R178), with the intervals that it draws. -/
theorem completeRestart_eq (s : State) (o : PostMode) (d : Bool) :
    ∃ v, Reacted (restartedInto s (restartMode o d) (s.drawn 10000 1000)
      (s.countDraw.drawn 1000 100)) v ∧ s.completeRestart o d = v := by
  refine ⟨_, ?_, rfl⟩
  have m : restartMode o d ≠ .config := by
    unfold restartMode; cases o <;> cases d <;> decide
  unfold State.completeRestart
  dsimp only
  rw [setMode_of_none _ _ (by rfl)]
  by_cases l : restartMode o d = .lockout
  · rw [if_pos l]
    unfold restartedInto
    simp only [l, if_true]
    exact Reacted.of_same rfl rfl rfl rfl rfl rfl rfl rfl
  · rw [if_neg l, startStanding_empty _ rfl m l]
    unfold restartedInto
    simp only [l, if_false]
    exact Reacted.of_same rfl rfl rfl rfl rfl rfl rfl rfl

/-- The model's list of due requests is that of R139's order. -/
theorem dueList_eq (v : VehicleLink) : v.dueList = dueInOrder v := by
  unfold VehicleLink.dueList dueInOrder
  cases v.due.tune <;> cases v.due.refresh <;> rfl

/-- The model's test of a session is that of the states in which the kind is sent. -/
theorem allows_eq (v : VehicleLink) (r : Request) : v.allows r = sentIn v r := by
  unfold VehicleLink.allows sentIn VehicleLink.polling
  cases r <;> cases h : v.session <;> cases k : v.kind <;> rfl

end Sys2Proof.Safety
end

