-- ==== Sys2Proof/Laws/Settling.lean ====
section
/-! SUPPORT. Why the reactions of one event settle: the mode, the session and the converter state
can change only a few times in a sequence of reactions and never come back (`Descends`), and a
round that keeps the three keeps what the gates, the offer and the start request read (`SameView`). -/
open Sys2Proof Sys2Proof.Machine Sys2Proof.Safety
namespace Sys2Proof.Safety

/-- What the gates and the start request read of the state and a reaction may change. -/
def control (s : State) : PostMode × SessionState × ConverterState :=
  (s.sp.mode, s.vl.session, s.cc.state)

/-- How many changes of the mode may still follow. -/
def modeRank : PostMode → Bool → Nat
  | .parking, _ => 1
  | .dormant, true => 1
  | _, _ => 0

/-- How many changes of the session may still follow. -/
def sessionRank : SessionState → Nat
  | .exporting => 1
  | .absent => 1
  | _ => 0

/-- How many changes of the converter state may still follow. -/
def converterRank : ConverterState → Nat
  | .on => 2
  | .off => 1
  | _ => 0

/-- How many changes of the control may still follow. -/
def rank (s : State) : Nat :=
  modeRank s.sp.mode s.vl.plug + sessionRank s.vl.session + converterRank s.cc.state

/-- The control stays, or fewer changes are left. -/
def Descends (s t : State) : Prop :=
  t.vl.plug = s.vl.plug ∧ (control t = control s ∨ rank t < rank s)

theorem rank_eq {s t : State} (p : t.vl.plug = s.vl.plug) (h : control t = control s) : rank t = rank s := by
  unfold control at h
  simp only [Prod.mk.injEq] at h
  unfold rank
  rw [h.1, h.2.1, h.2.2, p]

/-- No reaction at all descends. -/
theorem Descends.refl (s : State) : Descends s s := ⟨rfl, .inl rfl⟩

theorem Descends.of_same {s t : State} (p : t.vl.plug = s.vl.plug) (h : control t = control s) : Descends s t :=
  ⟨p, .inl h⟩

theorem Descends.trans {s t u : State} (h : Descends s t) (g : Descends t u) : Descends s u := by
  refine ⟨g.1.trans h.1, ?_⟩
  rcases h.2 with a | a <;> rcases g.2 with b | b
  · exact .inl (b.trans a)
  · right; rw [← rank_eq h.1 a]; exact b
  · right; rw [rank_eq g.1 b]; exact a
  · right; omega

/-- No way back: where the control is the same in the end, it was the same in between. -/
theorem Descends.between {s t u : State} (h : Descends s t) (g : Descends t u) (e : control u = control s) :
    control t = control s ∧ control u = control t := by
  have p : rank u = rank s := rank_eq (g.1.trans h.1) e
  rcases h.2 with a | a
  · exact ⟨a, e.trans a.symm⟩
  · rcases g.2 with b | b
    · have := rank_eq g.1 b; omega
    · omega

theorem descends_holdSetpoint (s : State) : Descends s s.holdSetpoint := by
  unfold State.holdSetpoint; split
  · exact .refl s
  · exact .of_same rfl rfl
theorem descends_noticeTest (s : State) : Descends s s.noticeTest := by
  unfold State.noticeTest; split <;> exact .of_same rfl rfl
theorem descends_gateNotice (s : State) : Descends s s.gateNotice := by
  unfold State.gateNotice; split
  · exact .refl s
  · refine .of_same ?_ ?_
    · simp only [State.compute]; split <;> rfl
    · simp only [State.compute]; split <;> rfl
theorem descends_shareZeroTest (s : State) : Descends s s.shareZeroTest := by
  unfold State.shareZeroTest; split
  · split
    · exact .refl s
    · exact .of_same rfl rfl
  · exact .of_same rfl rfl
theorem descends_stopTest (s : State) : Descends s s.stopTest := by
  unfold State.stopTest; split
  · rename_i h
    refine ⟨rfl, .inr ?_⟩
    unfold State.stopReady at h
    simp at h
    unfold rank
    simp [h.1.1.1, State.setCc, Converter.disabled, converterRank]
  · exact .refl s
theorem descends_releaseTest (s : State) : Descends s s.releaseTest := by
  unfold State.releaseTest; split
  · rename_i h
    refine ⟨rfl, .inr ?_⟩
    unfold State.releaseWanted at h
    simp at h
    unfold rank
    simp [h.1.1, State.setVl, sessionRank]
  · exact .refl s
/-- A precharge that starts, or trips at once, leaves OFF for good. -/
theorem converterRank_convFails (s : State) (k : EventKind) : converterRank (s.convFails k).cc.state = 0 := by
  unfold State.convFails
  simp only [State.raiseIf_eq, State.raise, State.setSp, State.setCc]
  split <;> rfl

theorem converterRank_startPrecharge (s : State) : converterRank s.startPrecharge.cc.state = 0 := by
  unfold State.startPrecharge
  dsimp only
  split
  · exact converterRank_convFails _ _
  · rfl

theorem descends_startTest (s : State) : Descends s s.startTest := by
  unfold State.startTest
  dsimp only
  split
  · rename_i h
    have h' : s.cc.state = .off := h
    split
    · refine ⟨by simp, .inr ?_⟩
      have e : converterRank s.cc.state = 1 := by rw [h']; rfl
      unfold rank
      rw [converterRank_startPrecharge, e]
      simp
    · exact .of_same rfl rfl
  · split
    · exact .of_same rfl rfl
    · split <;> exact .of_same rfl rfl
  · split
    · exact .of_same rfl rfl
    · split
      · exact .of_same rfl rfl
      · split <;> exact .of_same rfl rfl
  · exact .of_same rfl rfl
theorem descends_engageTest (s : State) : Descends s s.engageTest := .of_same rfl rfl
theorem descends_retuneTest (s : State) : Descends s s.retuneTest := by
  unfold State.retuneTest; split
  · split
    · exact .refl s
    · exact .of_same rfl rfl
  · exact .of_same rfl rfl
theorem descends_parkTest (s : State) : Descends s s.parkTest := by
  unfold State.parkTest; split
  · rename_i h
    unfold State.parkReady at h
    simp at h
    refine ⟨by simp, .inr ?_⟩
    unfold rank
    cases hp : s.vl.plug <;> simp [h.1.1.1.1, hp, modeRank]
  · exact .refl s
theorem descends_plugWake (s : State) : Descends s s.plugWake := by
  unfold State.plugWake; split
  · rename_i h
    refine ⟨by simp, .inr ?_⟩
    unfold rank
    simp [h.1, h.2.1, modeRank]
  · exact .refl s
theorem descends_meetPlug (s : State) : Descends s s.meetPlug := by
  unfold State.meetPlug; split
  · rename_i h
    simp at h
    refine ⟨rfl, .inr ?_⟩
    unfold rank
    simp [h.2, State.attach, State.raise, State.setVl, State.setSp, sessionRank]
  · exact .refl s

theorem markServing_call (rs : List CallRecord) :
    callInForce (markServing rs) = (callInForce rs).map fun r => { r with serving := true } := by
  unfold callInForce markServing
  induction rs with
  | nil => rfl
  | cons r rs ih =>
    by_cases h : r.inForce = true
    · have h2 : CallRecord.inForce { r with serving := true } = true := h
      simp [h, h2]
    · simp [h, ih]

theorem markServing_nearest (rs : List CallRecord) :
    nearestPending (markServing rs) = nearestPending rs := by
  induction rs with
  | nil => rfl
  | cons r rs ih =>
    unfold markServing at ih ⊢
    simp only [List.map_cons, nearestPending, ih]
    cases h : r.state <;> simp [CallRecord.inForce, h]

/-- The table with the serving flags that a computation sets (R57). -/
theorem compute_records (s : State) (k : Trigger) :
    (s.compute k).ct.records = s.ct.records ∨ (s.compute k).ct.records = markServing s.ct.records := by
  unfold State.compute; dsimp only; split
  · exact .inr rfl
  · exact .inl rfl

/-- What the formulas of the Energy Account, the gates and the start request read. -/
structure SameView (s t : State) : Prop where
  control : control t = control s
  now : t.now = s.now
  plug : t.vl.plug = s.vl.plug
  restarting : t.sp.restarting = s.sp.restarting
  config : t.sp.config = s.sp.config
  pv : t.pv = s.pv
  cu : t.cu = s.cu
  record : t.ea.record = s.ea.record
  estimate : t.ea.estimate = s.ea.estimate
  departure : t.ea.departureLeft = s.ea.departureLeft
  allowance : t.vl.allowance = s.vl.allowance
  latch : t.vl.stopLatch = s.vl.stopLatch
  records : t.ct.records = s.ct.records ∨ t.ct.records = markServing s.ct.records

theorem SameView.refl (s : State) : SameView s s :=
  ⟨rfl, rfl, rfl, rfl, rfl, rfl, rfl, rfl, rfl, rfl, rfl, rfl, .inl rfl⟩

theorem SameView.mode {s t : State} (h : SameView s t) : t.sp.mode = s.sp.mode := congrArg (·.1) h.control
theorem SameView.session {s t : State} (h : SameView s t) : t.vl.session = s.vl.session :=
  congrArg (·.2.1) h.control
theorem SameView.converter {s t : State} (h : SameView s t) : t.cc.state = s.cc.state :=
  congrArg (·.2.2) h.control

theorem SameView.nearest {s t : State} (h : SameView s t) :
    nearestPending t.ct.records = nearestPending s.ct.records := by
  rcases h.records with e | e <;> rw [e]
  exact markServing_nearest _

theorem SameView.call {s t : State} (h : SameView s t) :
    t.call = s.call ∨ t.call = s.call.map fun r => { r with serving := true } := by
  unfold State.call
  rcases h.records with e | e <;> rw [e]
  · exact .inl rfl
  · exact .inr (markServing_call _)

theorem SameView.timeBase {s t : State} (h : SameView s t) : t.timeBase = s.timeBase := by
  unfold State.timeBase
  rw [h.nearest]
  rcases h.call with e | e <;> rw [e]
  cases s.call <;> rfl

theorem SameView.energy {s t : State} (h : SameView s t) : t.energy = s.energy := by
  unfold State.energy State.reserveFloor
  rw [h.record, h.estimate, h.config]

theorem SameView.gateHolds {s t : State} (h : SameView s t) (g : Gate) : t.gateHolds g = s.gateHolds g := by
  unfold State.gateHolds
  rw [h.mode, h.session, h.converter, h.allowance, h.config, h.departure, h.record, h.energy, h.pv, h.cu, h.latch]

theorem SameView.gateView {s t : State} (h : SameView s t) : t.gateView = s.gateView := by
  unfold State.gateView
  simp only [h.gateHolds, h.mode, h.pv, h.cu]

theorem SameView.offer {s t : State} (h : SameView s t) : t.offer = s.offer := by
  have e : t.gateHolds = s.gateHolds := funext h.gateHolds
  unfold State.offer State.gated State.offerLimit State.energyPower
  rw [e, h.energy, h.timeBase, h.config, h.allowance]

theorem SameView.startRequest {s t : State} (h : SameView s t) : t.startRequest = s.startRequest := by
  have e : t.gateHolds = s.gateHolds := funext h.gateHolds
  have c : t.call.isSome = s.call.isSome := by
    rcases h.call with e | e <;> rw [e]
    simp
  unfold State.startRequest State.gatedForStart State.callInView
  rw [e, h.mode, h.session, h.restarting, c, h.nearest, h.config]

theorem SameView.share {s t : State} (h : SameView s t) (a : t.ap.result = s.ap.result) : t.share = s.share := by
  unfold State.share
  rw [a, h.offer]

theorem SameView.trans {s t u : State} (h : SameView s t) (g : SameView t u) : SameView s u where
  control := g.control.trans h.control
  now := g.now.trans h.now
  plug := g.plug.trans h.plug
  restarting := g.restarting.trans h.restarting
  config := g.config.trans h.config
  pv := g.pv.trans h.pv
  cu := g.cu.trans h.cu
  record := g.record.trans h.record
  estimate := g.estimate.trans h.estimate
  departure := g.departure.trans h.departure
  allowance := g.allowance.trans h.allowance
  latch := g.latch.trans h.latch
  records := by
    rcases h.records with a | a <;> rcases g.records with b | b <;> rw [b, a]
    · exact .inl rfl
    · exact .inr rfl
    · exact .inr rfl
    · exact .inr (markServing_twice _)
end Sys2Proof.Safety
end

