-- ==== Sys2Proof/Laws/Tables.lean ====
section
/-!
SUPPORT. What the operations on the queue, on the tables and on the lists of the part give, each said once: placing,
finding, replacing and removing an entry, a record, a frame or a copy; and the small facts of events, configuration,
requests and sessions that the statements' proofs use.
-/

namespace Sys2Proof.Safety

open Sys2Proof Sys2Proof.Machine

/-! ### The depot line -/

/-- The count and the heard notice of a good frame. -/
theorem heardFrom_eq (s : State) (k q) : s.countReceived.heard k q = heardFrom s k q := by
  unfold State.countReceived State.heard heardFrom PeerEntry.track skipped
  rfl

/-- A new entry stands in its place in stall order (R4). -/
theorem placeEntry_of_ascending (e : PeerEntry) (es : List PeerEntry) (h : es.Pairwise (fun a b => a.stall < b.stall)) (n : ∀ x ∈ es, x.stall ≠ e.stall) :
   placeEntry e es = es.filter (fun x => decide (x.stall < e.stall)) ++ e :: es.filter (fun x => decide (e.stall < x.stall)) := by
  induction es with
  | nil => rfl
  | cons x xs ih =>
    have hx := List.pairwise_cons.mp h
    unfold placeEntry
    by_cases c : e.stall < x.stall
    · have f1 : xs.filter (fun x => decide (x.stall < e.stall)) = [] := by
        rw [List.filter_eq_nil_iff]; intro a ha; have := hx.1 a ha; simp; omega
      have f2 : xs.filter (fun x => decide (e.stall < x.stall)) = xs := by
        rw [List.filter_eq_self]; intro a ha; have := hx.1 a ha; simp; omega
      have : ¬ x.stall < e.stall := by omega
      simp [c, f1, f2, this]
    · have : x.stall < e.stall := by have := n x (by simp); omega
      simp [c, this, ih hx.2 (fun a ha => n a (by simp [ha]))]

/-- A frame stands behind its class and before the lower ones (R23). -/
theorem placeFrame_of_ordered (f : QueuedFrame) (q : List QueuedFrame) (h : q.Pairwise (fun a b => b.rank ≤ a.rank)) :
   placeFrame f q = q.filter (fun g => decide (f.rank ≤ g.rank)) ++ f :: q.filter (fun g => decide (g.rank < f.rank)) := by
  induction q with
  | nil => rfl
  | cons x xs ih =>
    have hx := List.pairwise_cons.mp h
    unfold placeFrame
    by_cases c : f.rank ≤ x.rank
    · have : ¬ x.rank < f.rank := by omega
      simp [c, this, ih hx.2]
    · have f1 : xs.filter (fun g => decide (f.rank ≤ g.rank)) = [] := by
        rw [List.filter_eq_nil_iff]; intro a ha; have := hx.1 a ha; simp; omega
      have f2 : xs.filter (fun g => decide (g.rank < f.rank)) = xs := by
        rw [List.filter_eq_self]; intro a ha; have := hx.1 a ha; simp; omega
      have : x.rank < f.rank := by omega
      simp [c, f1, f2, this]

/-- A STANDING stands at the tail (R24). -/
theorem placeFrame_standing (q : List QueuedFrame) : placeFrame .standing q = q ++ [.standing] := by
  induction q with
  | nil => rfl
  | cons g q ih => simp [placeFrame, ih, QueuedFrame.rank]

/-- No class lies below that of a STANDING (R24). -/
theorem standing_not_above (q : List QueuedFrame) : ¬ lowestRank q < QueuedFrame.standing.rank := by
  simp [QueuedFrame.rank]

/-- The lowest class of a queue in class order. -/
theorem lowestRank_of_ordered (q : List QueuedFrame) (h : q.Pairwise (fun a b => b.rank ≤ a.rank)) (n : q ≠ []) : (∀ x ∈ q, lowestRank q ≤ x.rank) ∧ ∃ x ∈ q, x.rank = lowestRank q := by
  induction q with
  | nil => simp at n
  | cons x xs ih =>
    have hx := List.pairwise_cons.mp h
    cases xs with
    | nil => exact ⟨by simp [lowestRank], ⟨x, by simp, rfl⟩⟩
    | cons y ys =>
      obtain ⟨i1, z, zz, i2⟩ := ih hx.2 (by simp)
      have e : lowestRank (x :: y :: ys) = lowestRank (y :: ys) := rfl
      rw [e]
      refine ⟨fun w hw => ?_, z, by simp [zz], i2⟩
      rcases List.mem_cons.mp hw with r | r
      · subst r; rw [← i2]; exact hx.1 z zz
      · exact i1 w r

/-- The lowest class of a queue in class order, by one of its frames. -/
theorem lowestRank_eq (q : List QueuedFrame) (h : q.Pairwise (fun a b => b.rank ≤ a.rank)) (g) (hg : g ∈ q) (m : ∀ x ∈ q, g.rank ≤ x.rank) : lowestRank q = g.rank := by
  obtain ⟨a, z, zz, b⟩ := lowestRank_of_ordered q h (by intro e; subst e; simp at hg)
  have := a g hg; have := m z zz; omega

/-- The oldest frame of the lowest class goes (R23). -/
theorem evictOldest_at (r) (b : List QueuedFrame) (g a) (h : ∀ x ∈ b, r < x.rank) (e : g.rank = r) : evictOldest r (b ++ g :: a) = b ++ a := by
  induction b with
  | nil => simp [evictOldest, e]
  | cons x xs ih =>
    have : x.rank ≠ r := by have := h x (by simp); omega
    simp [evictOldest, this, ih (fun x hx => h x (by simp [hx]))]

/-! ### The call table -/

/-- No record of an unknown id. -/
theorem findCall_of_unknown (rs : List CallRecord) (id) (h : ∀ r ∈ rs, r.callId ≠ id) : findCall id rs = none := by
  unfold findCall; simp; exact h

/-- The record of an id that stands once. -/
theorem findCall_at (b : List CallRecord) (r a) (h : ∀ x ∈ b ++ a, x.callId ≠ r.callId) : findCall r.callId (b ++ r :: a) = some r := by
  unfold findCall
  rw [List.find?_append]
  have : b.find? (·.callId == r.callId) = none := by simp; intro x hx; exact h x (by simp [hx])
  simp [this]

/-- A record replaced in its place. -/
theorem putCall_at (b : List CallRecord) (r a m) (h : ∀ x ∈ b ++ a, x.callId ≠ r.callId) (hm : m.callId = r.callId) : putCall m (b ++ r :: a) = b ++ m :: a := by
  unfold putCall
  rw [List.map_append, List.map_cons, hm, if_pos rfl]
  have idm : ∀ l : List CallRecord, (∀ x ∈ l, x.callId ≠ r.callId) → l.map (fun x => if x.callId = r.callId then m else x) = l := by
    intro l hl
    rw [List.map_congr_left (g := id)]
    · exact List.map_id l
    · intro x hx; simp [hl x hx]
  rw [idm b (fun x hx => h x (by simp [hx])), idm a (fun x hx => h x (by simp [hx]))]

/-- A new record stands in its place in id order (R40). -/
theorem placeCall_of_ascending (r : CallRecord) (rs : List CallRecord) (h : rs.Pairwise (fun a b => a.callId < b.callId)) (n : ∀ x ∈ rs, x.callId ≠ r.callId) :
   placeCall r rs = rs.filter (fun x => decide (x.callId < r.callId)) ++ r :: rs.filter (fun x => decide (r.callId < x.callId)) := by
  induction rs with
  | nil => rfl
  | cons x xs ih =>
    have hx := List.pairwise_cons.mp h
    unfold placeCall
    by_cases c : r.callId < x.callId
    · have f1 : xs.filter (fun x => decide (x.callId < r.callId)) = [] := by
        rw [List.filter_eq_nil_iff]; intro a ha; have := hx.1 a ha; simp; omega
      have f2 : xs.filter (fun x => decide (r.callId < x.callId)) = xs := by
        rw [List.filter_eq_self]; intro a ha; have := hx.1 a ha; simp; omega
      have : ¬ x.callId < r.callId := by omega
      simp [c, f1, f2, this]
    · have : x.callId < r.callId := by have := n x (by simp); omega
      simp [c, this, ih hx.2 (fun a ha => n a (by simp [ha]))]

/-- Placing a record adds it and no other. -/
theorem placeCall_perm (r : CallRecord) (rs : List CallRecord) : (placeCall r rs).Perm (r :: rs) := by
  induction rs with
  | nil => exact List.Perm.refl _
  | cons x xs ih =>
    unfold placeCall; split
    · exact List.Perm.refl _
    · exact (ih.cons x).trans (List.Perm.swap _ _ _)

/-- The active slot is free when no record is ACTIVE or ENDING (R48). -/
theorem slotFree_eq (rs : List CallRecord) : slotFree rs = rs.all fun x => !(x.state == .active || x.state == .ending) := by
  unfold slotFree callInForce
  induction rs with
  | nil => rfl
  | cons r rs ih =>
    rw [List.find?_cons]
    cases hh : r.inForce
    · simp only; rw [ih, List.all_cons]
      unfold CallRecord.inForce at hh
      simp [hh]
    · simp only [List.all_cons]
      unfold CallRecord.inForce at hh
      simp [hh]

/-- The call in force, by its place. -/
theorem callInForce_at (b : List CallRecord) (r a) (h : ∀ x ∈ b, x.inForce = false) (i : r.inForce = true) : callInForce (b ++ r :: a) = some r := by
  unfold callInForce
  rw [List.find?_append]
  have : b.find? (·.inForce) = none := by simp; intro x hx; simpa using h x hx
  simp [this, i]

/-- No call in force. -/
theorem callInForce_of_none (rs : List CallRecord) (h : ∀ x ∈ rs, x.inForce = false) : callInForce rs = none := by
  unfold callInForce; simp; intro x hx; simpa using h x hx

/-- A placed record that is not in force changes no call in force. -/
theorem callInForce_placeCall (r : CallRecord) (rs) (h : r.inForce = false) : callInForce (placeCall r rs) = callInForce rs := by
  unfold callInForce
  induction rs with
  | nil => simp [placeCall, h]
  | cons x xs ih =>
    unfold placeCall; split
    · simp [h]
    · rw [List.find?_cons, List.find?_cons, ih]

/-- A removed record that is not in force changes no call in force. -/
theorem callInForce_filter (rs : List CallRecord) (k) (h : ∀ x ∈ rs, x.callId = k → x.inForce = false) : callInForce (rs.filter (·.callId != k)) = callInForce rs := by
  unfold callInForce
  induction rs with
  | nil => rfl
  | cons x xs ih =>
    have i := ih (fun y hy => h y (by simp [hy]))
    rw [List.filter_cons, List.find?_cons]
    by_cases e : x.callId = k
    · have : (x.callId != k) = false := by simp [e]
      simp only [this]; rw [h x (by simp) e]; simpa using i
    · have : (x.callId != k) = true := by simp [e]
      simp only [this, if_true]; rw [List.find?_cons, i]

/-- No record is deferred. -/
theorem nextDeferred_of_none (rs : List CallRecord) (h : ∀ x ∈ rs, x.deferred = false) : nextDeferred rs = none := by
  induction rs with
  | nil => rfl
  | cons r rs ih => unfold nextDeferred; simp [h r (by simp), ih (fun x hx => h x (by simp [hx]))]

/-- A table of live records has none that makes room (R44). -/
theorem oldestFinal_of_live (rs : List CallRecord) (h : ∀ r ∈ rs, r.isFinal = false) : oldestFinal rs = none := by
  induction rs with
  | nil => rfl
  | cons r rs ih => unfold oldestFinal; simp [h r (by simp), ih (fun x hx => h x (by simp [hx]))]

/-- The final record of the least retention makes room, of equal ones the lower id (R44). -/
theorem oldestFinal_of_final (rs : List CallRecord) (h : ∃ r ∈ rs, r.isFinal = true) (pw : rs.Pairwise (fun a b => a.callId < b.callId)) : ∃ o ∈ rs, oldestFinal rs = some o ∧ o.isFinal = true ∧ ∀ r ∈ rs, r.isFinal = true → o.retention < r.retention ∨ (o.retention = r.retention ∧ o.callId ≤ r.callId) := by
  induction rs with
  | nil => simp at h
  | cons r rs ih =>
    have hx := List.pairwise_cons.mp pw
    by_cases hr : r.isFinal = true
    · by_cases g : ∃ r ∈ rs, r.isFinal = true
      · obtain ⟨o, o1, o2, o3, o4⟩ := ih g hx.2
        have := hx.1 o o1
        unfold oldestFinal; simp only [hr, if_true, o2]
        by_cases c : r.retention ≤ o.retention
        · refine ⟨r, by simp, by simp [c], hr, ?_⟩
          intro z hz zf; rcases List.mem_cons.mp hz with rfl | hz
          · right; omega
          · have a := o4 z hz zf; have b := hx.1 z hz; omega
        · refine ⟨o, by simp [o1], by simp [c], o3, ?_⟩
          intro z hz zf; rcases List.mem_cons.mp hz with rfl | hz
          · left; omega
          · exact o4 z hz zf
      · have nf : ∀ z ∈ rs, z.isFinal = false := by intro z hz; cases q : z.isFinal; rfl; exact absurd ⟨z, hz, q⟩ g
        refine ⟨r, by simp, by unfold oldestFinal; simp [hr, oldestFinal_of_live rs nf], hr, ?_⟩
        intro z hz zf; rcases List.mem_cons.mp hz with rfl | hz
        · right; omega
        · rw [nf z hz] at zf; simp at zf
    · have g : ∃ r ∈ rs, r.isFinal = true := by
        obtain ⟨z, hz, zf⟩ := h; rcases List.mem_cons.mp hz with rfl | hz
        · exact absurd zf hr
        · exact ⟨z, hz, zf⟩
      obtain ⟨o, o1, o2, o3, o4⟩ := ih g hx.2
      refine ⟨o, by simp [o1], by unfold oldestFinal; simp [hr, o2], o3, ?_⟩
      intro z hz zf; rcases List.mem_cons.mp hz with rfl | hz
      · exact absurd zf hr
      · exact o4 z hz zf

/-- A new table, with the computation that a call notice starts. -/
theorem setCalls_reacted (s : State) (rs) : Reacted { s with ct := { s.ct with records := rs } } (s.setCalls rs) := by
  unfold State.setCalls
  dsimp only
  split
  · exact Reacted.refl _
  · exact compute_reacted _ _

/-- A new table with the same call in force is no call notice. -/
theorem setCalls_of_same_call (s : State) (rs) (h : callInForce rs = callInForce s.ct.records) : s.setCalls rs = { s with ct := { s.ct with records := rs } } := by
  unfold State.setCalls callView
  simp only [h]; rfl

/-- No copy is outstanding. -/
theorem earliestCopy_of_none (rs : List RepeatEntry) (h : ∀ x ∈ rs, x.due = []) : earliestCopy rs = none := by
  induction rs with
  | nil => rfl
  | cons r rs ih => unfold earliestCopy; rw [h r (by simp), ih (fun x hx => h x (by simp [hx]))]; rfl

/-- The earliest outstanding copy, by its place. -/
theorem earliestCopy_at (b : List RepeatEntry) (e a t) (h : t ∈ e.due) (l : ∀ x ∈ b ++ e :: a, ∀ u ∈ x.due, t ≤ u) : earliestCopy (b ++ e :: a) = some t := by
  have aux : ∀ rs : List RepeatEntry, (∀ x ∈ rs, ∀ u ∈ x.due, t ≤ u) → earliestCopy rs = none ∨ ∃ v, earliestCopy rs = some v ∧ t ≤ v := by
    intro rs; induction rs with
    | nil => intro _; left; rfl
    | cons r rs ih =>
      intro hh
      have i := ih (fun x hx => hh x (by simp [hx]))
      unfold earliestCopy
      cases hm : r.due.min? with
      | none => simpa using i
      | some v =>
        have hv : t ≤ v := hh r (by simp) v (List.min?_mem hm)
        rcases i with i | ⟨w, i, iw⟩ <;> simp only [i]
        · right; exact ⟨v, rfl, hv⟩
        · right; exact ⟨_, rfl, by omega⟩
  induction b with
  | nil =>
    simp only [List.nil_append] at *
    unfold earliestCopy
    cases hm : e.due.min? with
    | none => rw [List.min?_eq_none_iff] at hm; rw [hm] at h; simp at h
    | some v =>
      have hv : t ≤ v := l e (by simp) v (List.min?_mem hm)
      have hv2 : v ≤ t := (List.le_min?_iff hm (x := v)).mp (Nat.le_refl _) t h
      have : v = t := by omega
      subst this
      rcases aux a (fun x hx => l x (by simp [hx])) with i | ⟨w, i, iw⟩ <;> simp only [i]
      congr 1; omega
  | cons r rs ih =>
    have i := ih (fun x hx => l x (by rw [List.cons_append]; exact List.mem_cons_of_mem _ hx))
    rw [List.cons_append]
    unfold earliestCopy
    rw [i]
    cases hm : r.due.min? with
    | none => rfl
    | some v =>
        have hv : t ≤ v := l r (by simp) v (List.min?_mem hm)
        simp only; congr 1; omega

/-- The copy due is taken from its command. -/
theorem takeCopy_at (b : List RepeatEntry) (e a t) (h : t ∈ e.due) (n : ∀ x ∈ b, t ∉ x.due) : takeCopy t (b ++ e :: a) = (some e.frame, b ++ (if (e.due.erase t).isEmpty then [] else [{ e with due := e.due.erase t }]) ++ a) := by
  induction b with
  | nil => simp only [List.nil_append]; unfold takeCopy; rw [if_pos h]; dsimp only; split <;> rfl
  | cons r rs ih =>
    rw [List.cons_append]; unfold takeCopy; rw [if_neg (n r (by simp)), ih (fun x hx => n x (by simp [hx]))]
    rfl

/-! ### Events, configuration, requests and the session -/

/-- Every occurrence count keeps to its limit. -/
theorem count_le {s : State} (h : EventCounts s) (k) : s.sp.events.count k ≤ 255 := h _ (by unfold EventSet.count; simp)

/-- A kind raised a number of times. -/
theorem raiseTimes_spec (e : EventSet) (k n) (h : e.count k ≤ 255) : RaisedTimes e k n (e.raiseTimes k n) :=
  ⟨EventSet.count_raiseTimes _ _ _ h, fun _ hj => EventSet.count_raiseTimes_of_ne _ hj _⟩

/-- A key of a configuration in its ranges. -/
theorem read_inRange {c : Configuration} (h : ConfigInRange c) (k : ConfigKey) : k.range.1 ≤ c.read k ∧ c.read k ≤ k.range.2 := by
  have : k ∈ ConfigKey.all := by cases k <;> decide
  have := h k this; unfold ConfigKey.accepts at this; simpa using this

/-- A reply that carries the number of the request in flight answers it (R139). -/
theorem answeredBy_of_awaits {s : State} {n r} (h : Awaits s n r) : s.answeredBy n = some r := by
  obtain ⟨f, a, b, c⟩ := h; unfold State.answeredBy; simp [a, b, c]

/-- A reply of another number answers nothing (R139). -/
theorem answeredBy_of_ne {s : State} {n r m} (h : Awaits s n r) (g : m ≠ n) : s.answeredBy m = none := by
  obtain ⟨f, a, b, c⟩ := h; unfold State.answeredBy; simp [a]; omega

/-- A session that no reaction leaves. -/
theorem Reacted.session_eq {u t : State} (h : Reacted u t) (a : u.vl.session ≠ .exporting) (b : u.vl.session ≠ .absent) : t.vl.session = u.vl.session := by
  rcases h.2.session with c | c | c
  · exact c
  · exact absurd c.1 a
  · exact absurd c.1 b

/-- A setpoint of 0 stays at 0. -/
theorem finish_setpoint_zero (s : State) (h : s.cc.setpoint = 0) : s.finish.cc.setpoint = 0 := by have := finish_setpoint_le s; omega

/-- The sampling starts at JOIN where a sensor is fitted (R115). -/
theorem start_sampleAt (s : State) : s.start.cu.sampleAt = (if s.sp.config.sensorFitted then some (s.now + 1000) else none) := by
  unfold State.start; dsimp only
  have : ∀ (v : State) x, (v.takeSample x).cu.sampleAt = v.cu.sampleAt := by
    intro v x
    unfold State.takeSample State.originate State.judgeReading State.applyCurb State.curbComputation
    dsimp only
    repeat' split
    all_goals simp [State.stepDown]
  split <;> simp_all [State.startEchoTimer, State.startTimers]

end Sys2Proof.Safety
end

