-- ==== Sys2Proof/Tests/Slice0.lean ====
section
/-!
SUPPORT. Tests of the model on small states, with expected results from the spec's worked examples and rules, and the
witnesses of the statements: for each statement with hypotheses, a state and operands that meet them, clause by clause.
-/

namespace Sys2Proof.Tests

open Sys2Proof Sys2Proof.Machine Sys2Proof.Safety

set_option maxRecDepth 20000

/-! ### Small states -/

/-- The part locked, in a mode. -/
def inMode (m : PostMode) : State :=
  { State.reset with sp := { State.reset.sp with mode := m, locked := true } }

/-- The part in ACTIVE with a session. -/
def inSession (x : SessionState) : State :=
  { inMode .active with vl := { State.reset.vl with plug := true, session := x } }

/-- The part in ACTIVE with the converter in a state. -/
def withConverter (x : ConverterState) : State :=
  { inMode .active with cc := { State.reset.cc with state := x } }

/-- The announced fields of a post: class, offer, served call, actual, exportable energy, temperature. -/
def announcing (cls offer : Nat) (served : Option Nat) (actual energy : Nat) (t : Option Int) : Announced :=
  ⟨.active, false, false, false, cls, offer, 0, actual, energy, served, t⟩

/-- The part in ACTIVE with entries. -/
def withEntries (es : List PeerEntry) : State :=
  { inMode .active with pv := { State.reset.pv with entries := es } }

/-- A call record of an id in a state. -/
def callIn (callId : Nat) (x : CallState) : CallRecord := {
  callId := callId
  revision := 0
  kind := .new
  origin := 3
  state := x
  deferred := false
  target := 4200
  ramp := 40
  duration := 5400
  countdown := 0
  startTime := none
  remaining := 3600
  goal := 0
  cancelledMark := false
  serving := false
  accumulators := some ⟨0, 0, 0, 0, 0, 0, 0, 0⟩
  retention := 0 }

/-- The part in ACTIVE with call records. -/
def withCalls (rs : List CallRecord) : State :=
  { inMode .active with ct := { State.reset.ct with records := rs } }

/-- A call frame of an id and a kind. -/
def frameOf (callId : Nat) (kind : CallKind) (carried : CarriedState) (revision countdown : Nat) : CallFrame :=
  ⟨callId, revision, kind, 3, carried, false, 4200, 40, 5400, countdown⟩

/-- The part in ACTIVE with an own LEAVE in flight. -/
def sendingLeave (attempt : Nat) (phase : AttemptPhase) : State :=
  { inMode .active with lp := { State.reset.lp with inFlight := some ⟨0, .leave, attempt, phase⟩ } }

/-- The part in ACTIVE with a session and a request numbered 7 in flight. -/
def awaiting (x : SessionState) (r : Request) : State :=
  { inSession x with vl := { (inSession x).vl with inFlight := some ⟨r, 7, 1, none⟩ } }

/-- A bus record like that of the worked example of section 4.3. -/
def someBus : BusRecord := ⟨1, 2000, 850, 0, false, none, 18, -20, false⟩

/-- The next state of an outcome, or the given one. -/
def after (o : Host.Outcome State Fault Refusal) (s : State) : State :=
  match o with
  | .next t => t
  | _ => s

/-! ### Ill-formed terms are refused -/

theorem test_illFormed_supervisor :
    (Instr.hardwareReset 64).wellFormed = false ∧ (Instr.select 256).wellFormed = false ∧
    (Instr.value 2147483648).wellFormed = false ∧ (Instr.value (-2147483649)).wellFormed = false ∧
    (Instr.call ⟨65536, 0, 1, 0, 0, 60, 1⟩).wellFormed = false ∧
    (Instr.call ⟨1, 256, 1, 0, 0, 60, 1⟩).wellFormed = false ∧
    (Instr.point 256 0).wellFormed = false ∧ (Instr.point 1 256).wellFormed = false ∧
    (Instr.unknownCommand 256 0).wellFormed = false ∧ (Instr.unknownCommand 3 0).wellFormed = false ∧
    (Instr.unknownCommand 8 1).wellFormed = false := by decide

theorem test_illFormed_line :
    (Instr.standing 256 0 ⟨0, 0, 0, 0, 0, 0, 0, 0, 0⟩).wellFormed = false ∧
    (Instr.standing 1 0 ⟨0, 0, 0, 65536, 0, 0, 0, 0, 0⟩).wellFormed = false ∧
    (Instr.standing 1 0 ⟨0, 0, 0, 0, 0, 0, 0, 0, 32768⟩).wellFormed = false ∧
    (Instr.leave 1 256 1).wellFormed = false ∧
    (Instr.dispatch 1 0 ⟨0, 0, 0, 0, 256, 0, 0, 0, 0⟩).wellFormed = false ∧
    (Instr.curb 1 0 ⟨0, 65536, 0⟩).wellFormed = false := by decide

theorem test_illFormed_others :
    (Instr.startCountdownExpiry 0).wellFormed = false ∧
    (Instr.remainingActiveExpiry 65536).wellFormed = false ∧
    (Instr.deferredExpiry 0).wellFormed = false ∧ (Instr.retentionExpiry 0).wellFormed = false ∧
    (Instr.measStb 1024).wellFormed = false ∧ (Instr.item 256 0 0).wellFormed = false ∧
    (Instr.item 0 0 (-32769)).wellFormed = false ∧ (Instr.notReady 0 256).wellFormed = false ∧
    (Instr.unsupported 256 0).wellFormed = false ∧ (Instr.tuned 0 256 0).wellFormed = false ∧
    (Instr.engaged 256).wellFormed = false ∧ (Instr.declined 256).wellFormed = false ∧
    (Instr.released 256).wellFormed = false ∧ (Instr.polled 0 0 256 0).wellFormed = false := by
  decide

/-! ### Formats (chapter 11) -/

/-- The check value of the frame check over the nine digits (section 11.1's parameters; log 20). -/
theorem test_frameCheck_digits :
    frameCheck ([0x31, 0x32, 0x33, 0x34, 0x35, 0x36, 0x37, 0x38, 0x39].map (BitVec.ofNat 8)) =
      0x29B1#16 := by decide

/-- A LEAVE of stall 5 with sequence 7 and reason 1, and its damaged copy. -/
theorem test_leave_is_read_back :
    lineCommand 1 (withCheck [4#8, 5#8, 7#8, 1#8]) = .leave 5 7 1 ∧
    lineCommand 5 (withCheck [4#8, 5#8, 7#8, 1#8]) = .duplicateStall .leave ∧
    lineCommand 1 [4#8, 5#8, 7#8, 1#8, 0#8, 0#8] = .badFrame := by decide

/-- The command codes of section 11.3 with their arguments, the high byte first. -/
theorem test_supervisor_commands :
    supervisorCommand [1#8, 1#8, 2#8] = some (.select 2) ∧
    supervisorCommand [2#8, 4#8, 0#8, 0#8, 0x13#8, 0x88#8] = some (.value 5000) ∧
    supervisorCommand [4#8, 12#8, 0x01#8, 0x9A#8, 0#8, 1#8, 0x10#8, 0x68#8, 0#8, 0#8, 0x15#8, 0x18#8,
      0#8, 40#8] = some (.call ⟨410, 0, 1, 4200, 0, 5400, 40⟩) ∧
    supervisorCommand [9#8, 1#8, 1#8] = some (.unknownCommand 9 1) := by decide

/-- The replies of section 11.2. -/
theorem test_pilot_replies :
    pilotCommand (withCheck [7#8, 0x20#8, 5#8, 0xFF#8, 0xFC#8]) = .item 7 5 (-4) ∧
    pilotCommand (withCheck [7#8, 0x24#8]) = .engaged 7 ∧
    pilotCommand (withCheck [7#8, 0x28#8]) = .pilotFrameDisregarded := by decide

/-! ### One step of each block -/

theorem test_reset_gates : GateView.reset = State.reset.gateView := by decide

theorem test_join_names_the_stall :
    (after (exec .join { State.reset with lp := { State.reset.lp with stall := 13 } }) State.reset).sp.response =
      some ⟨.invalid, .failingItem 1⟩ := by decide

theorem test_value_is_clamped :
    (after (exec (.value 49) { State.reset with
      sp := { State.reset.sp with pendingKey := some .posts } }) State.reset).sp.response =
      some ⟨.acceptedClamped, .storedValue 48⟩ := by decide

/-- R176, row 4: a CALL in CONFIG. -/
theorem test_call_not_joined :
    (after (exec (.call ⟨410, 0, 1, 4200, 0, 5400, 40⟩) State.reset) State.reset).sp.response =
      some ⟨.notJoined, .empty⟩ := by decide

theorem test_wake_from_active_is_refused :
    (after (exec .wake (inMode .active)) State.reset).sp.response = some ⟨.state, .empty⟩ := by decide

theorem test_standing_makes_an_entry :
    ((after (exec (.standing 4 9 ⟨0, 0, 1, 700, 0, 0, 50, 0, 20⟩) (inMode .active)) State.reset).pv.entries.map
      fun e => (e.stall, e.lastSeq, e.gap, e.announced.offer)) = [(4, 9, 0, 600)] := by decide

/-- R6: from 250 to 3 the numbers 251 to 2 were missed, 8 of them. -/
theorem test_gap_wraps :
    ((after (exec (.dispatch 4 3 ⟨0, 0, 0, 0, 0, 0, 0, 0, 0⟩)
      (withEntries [⟨4, 250, 0, announcing 0 0 none 0 0 none, 0, false⟩])) State.reset).pv.entries.map (·.gap)) =
      [8] := by decide

theorem test_leave_outside_the_roster :
    (after (exec (.leave 13 0 1) (inMode .active)) State.reset).sp.events.count .rosterMismatch = 1 := by decide

theorem test_bad_frame_is_counted :
    (after (exec .badFrame (inMode .lockout)) State.reset).lp.stats.bad = 1 := by decide

theorem test_duplicate_locks_out :
    (after (exec (.duplicateStall .curb) (inMode .parking)) State.reset).sp.mode = .lockout := by decide

/-- R22: a DISPATCH goes behind the CURB and before the LEAVE and the STANDING. -/
theorem test_queue_order :
    enqueued (.dispatch (frameOf 1 .new .absent 0 0)) [.curb ⟨60, 120, 20⟩, .leave, .standing] =
      [.curb ⟨60, 120, 20⟩, .dispatch (frameOf 1 .new .absent 0 0), .leave, .standing] := by decide

theorem test_echo_success_counts :
    (after (exec (.echoSuccess true) (sendingLeave 3 .sending)) State.reset).lp.stats.sent = 1 := by decide

theorem test_eighth_collision_drops :
    (after (exec (.collision true) (sendingLeave 8 .sending)) State.reset).sp.events.count .frameDropped = 1 := by
  decide

theorem test_new_call_is_pending :
    ((withCalls []).intake (frameOf 410 .new .absent 0 900)).1.ct.records.map (fun r => (r.callId, r.state)) =
      [(410, .pending)] := by decide

theorem test_cancel_leaves_a_tombstone :
    ((withCalls []).intake (frameOf 410 .cancel .absent 2 900)).1.ct.records.map
      (fun r => (r.state, r.retention, r.revision)) = [(.cancelled, 3600, 2)] := by decide

/-- R51: ramp 40 gives 20 units each half second. -/
theorem test_goal_moves_by_half_the_ramp :
    (moveGoal [callIn 410 .active]).1.map (·.goal) = [20] := by decide

/-- The own post of the worked example of section 5.3: stall 5 with e = 800, of class 1. -/
def workedParticipants : List Participant :=
  [⟨5, 550, 1, 800⟩, ⟨2, 400, 1, 600⟩, ⟨3, 600, 0, 1800⟩, ⟨7, 600, 0, 1500⟩, ⟨9, 480, 1, 950⟩, ⟨11, 600, 1, 800⟩]

/-- The worked example of section 5.3: with A = 3145 tier 0 is filled, and of the remainder 1945 the own post of tier 1
receives 527. -/
theorem test_worked_share : shareOf 5 (apportion 3145 workedParticipants) = 527 := by decide

/-- The derating at 41 °C with the defaults: 88 ‰, and 4560 of 5000. -/
theorem test_derating_at_41 :
    deratingOf .default 41 = 88 ∧ thermalHeadroom 5000 88 = 4560 := by decide

/-- R110: the deeper level and the later end. -/
theorem test_curbs_merge :
    curbApplied (some ⟨60, 120000⟩) 20000 25 60 = ⟨25, 120000⟩ := by decide

theorem test_meas_strobe : (after (exec (.measStb 1023) State.reset) State.reset).cc.measured = 1023 := by decide

theorem test_trip_waits :
    (after (exec .faultHigh (withConverter .on)) State.reset).cc.state = .retryWait := by decide

/-- R128: from 100 toward 0 the setpoint falls by 30. -/
theorem test_slew_falls_by_thirty :
    (after (exec .slewStep { inSession .exporting with
      cc := { State.reset.cc with state := .on, setpoint := 100, slewAt := some 100 } }) State.reset).cc.setpoint =
      70 := by decide

theorem test_unplug_ends_the_session :
    (after (exec .plugLow (inSession .ready)) State.reset).vl.session = .absent := by decide

/-- R139: TUNE comes before POLL. -/
theorem test_tune_before_poll :
    (after (exec .pilotRequestTaken { inSession .tuning with
      vl := { (inSession .tuning).vl with kind := .retune, due := ⟨false, false, some .up, false, none, true⟩ } })
      State.reset).vl.inFlight = some ⟨.tune .up, 1, 1, none⟩ := by decide

theorem test_item_of_another_number_is_disregarded :
    (after (exec (.item 8 0 214) (awaiting .identifying (.identifyQuery 0))) State.reset).vl.items = [] := by decide

theorem test_tuned_at_top_below_desired_is_done :
    tuneAction 55 60 .atTop = .done ∧ tuneAction 55 60 .moved = .up ∧ tuneAction 61 60 .moved = .down := by decide

theorem test_declined_holds :
    (after (exec (.declined 7) (awaiting .engaging .engage)) State.reset).vl.engageHoldAt = some 10000 := by decide

theorem test_stop_flag_latches :
    (after (exec (.polled 7 1 63 20) (awaiting .ready .poll)) State.reset).vl.stopLatch = true := by decide

/-- R43: an ECHO carrying ACTIVE with a carried time of 0 for an unknown call, with the slot free and taken. -/
theorem test_echo_active_over_ends_at_once :
    ((withCalls []).intake (frameOf 9 .echo .active 0 0)).1.ct.records.map (·.state) = [.ending] ∧
    ((withCalls [callIn 1 .active]).intake (frameOf 9 .echo .active 0 0)).1.ct.records.map (·.state) =
      [.active, .done] := by decide

/-- R163, R65, R119, R162: COLD_LOCK ceases with the pack temperature of a POLLED, the start request then holds and the
precharge begins, and the STOP flag of the same reply starts the linger. -/
theorem test_pack_is_met_before_stop :
    let s : State := { awaiting .ready .poll with
      ea := { State.reset.ea with record := some { someBus with packTemp := -40 }, estimate := 850 }
      ct := { State.reset.ct with records := [{ callIn 9 .pending with countdown := 10 }] } }
    let s : State := { s with vl := { s.vl with allowance := 55, lastCeiling := some 63 } }
    let t := after (exec (.polled 7 1 63 20) s) s
    s.startRequest = false ∧ t.cc.state = .precharging ∧ t.cc.lingerAt = some 30000 ∧ t.vl.stopLatch = true := by
  decide

theorem test_status_removes_the_events :
    (after (exec .status { inMode .active with
      sp := { (inMode .active).sp with events := Vector.replicate 31 3 } }) State.reset).sp.events =
      Vector.replicate 31 0 := by decide

/-! ### Witnesses: the port, the modes and the restart -/

theorem witness_StepTakesTheFrontCommand :
    ({ State.reset with pending := [.status, .read] } : State).pending = .status :: [.read] := rfl

theorem witness_CommandsLeaveTheQueue :
    State.reset.pending = [] ∧ ∀ straps, Instr.status ≠ .hardwareReset straps := by
  exact ⟨rfl, fun _ => by simp⟩

theorem witness_HardwareResetSetsEveryBlock : (0 : Nat) < 64 ∧ (63 : Nat) < 64 := by decide

/-- A restart's wait, a pending key, CONFIG, a locked part, and an unknown command in each of the two cases. -/
theorem witness_AdmissionTable :
    supervisorRow .read = some ⟨false, false, false⟩ ∧
    ({ inMode .active with sp := { (inMode .active).sp with restarting := some ⟨.active, false, 200⟩ } } :
      State).sp.restarting.isSome = true ∧
    (inMode .active).sp.restarting = none ∧
    ({ State.reset with sp := { State.reset.sp with pendingKey := some .posts } } :
      State).sp.pendingKey.isSome = true ∧
    State.reset.sp.mode = .config ∧ State.reset.sp.pendingKey = none ∧
    supervisorRow .wake = some ⟨false, true, false⟩ ∧
    (inMode .lockout).sp.locked = true ∧ supervisorRow .join = some ⟨false, false, true⟩ ∧
    supervisorRow (.unknownCommand 2 3) = some ⟨true, false, false⟩ ∧
    supervisorRow (.unknownCommand 77 0) = some ⟨false, false, false⟩ := by decide

/-- No key pending with a known and with an unknown code; a key pending with values at and beyond its limits. -/
theorem witness_SelectAndValueWriteOneKey :
    Configurable State.reset ∧ State.reset.sp.pendingKey = none ∧
    configKeyOfCode 24 = some .eventMask ∧ configKeyOfCode 25 = none ∧ configKeyOfCode 0 = none ∧
    Configurable { State.reset with sp := { State.reset.sp with pendingKey := some .posts } } ∧
    ConfigKey.posts.range = (2, 48) := by decide

/-- The stall below, at and above the roster of 12; ALLOW_FLOOR above ALLOW_CEIL; without a sensor, and with one that
reads a level below and one at CURB_TEMP. -/
theorem witness_JoinValidatesAndStartsThePost :
    Configurable State.reset ∧ State.reset.sp.pendingKey = none ∧
    ¬(1 ≤ (State.resetWith 0).lp.stall) ∧ ¬((State.resetWith 13).lp.stall ≤ (State.resetWith 13).sp.config.posts) ∧
    (State.resetWith 12).lp.stall = 12 ∧ (State.resetWith 12).sp.config.posts = 12 ∧
    ({ Configuration.default with allowFloor := 61 } : Configuration).allowCeil < 61 ∧
    State.reset.lp.queue = [] ∧ State.reset.lp.inFlight = none ∧
    State.reset.sp.config.allowFloor ≤ State.reset.sp.config.allowCeil ∧
    State.reset.sp.config.sensorFitted = false ∧
    (let fitted (t : Int) : State := { State.reset with
        cu := { State.reset.cu with tsense := t }
        sp := { State.reset.sp with config := { Configuration.default with sensorFitted := true } } }
     Configurable (fitted 20) ∧ (fitted 20).originates 20 = false ∧ (fitted 110).originates 110 = true ∧
       (fitted 110).sp.config.curbTemp = 110) := by decide

/-- A call id of 0, kinds 0 and 4, the kinds 1 to 3, and a CALL whose second copy is IGNORED. -/
theorem witness_CallIsHandledAsADispatch :
    Admitted (inMode .active) ∧ (⟨0, 0, 1, 0, 0, 60, 1⟩ : CallArgs).callId = 0 ∧
    (⟨1, 0, 0, 0, 0, 60, 1⟩ : CallArgs).kind < 1 ∧ 3 < (⟨1, 0, 4, 0, 0, 60, 1⟩ : CallArgs).kind ∧
    (⟨1, 0, 3, 0, 0, 60, 1⟩ : CallArgs).kind = 3 ∧ (⟨1, 0, 3, 0, 0, 60, 1⟩ : CallArgs).callId ≠ 0 ∧
    ((withCalls []).intake (frameOf 1 .new .absent 0 0)).2 ≠ .ignored ∧
    ((withCalls [{ callIn 1 .pending with revision := 5 }]).intake (frameOf 1 .new .absent 4 0)).2 = .ignored := by
  decide

/-- The modes that PARK and WAKE meet; a park that completes and one that an enabled converter holds; in HOLD a call
that is created and one that is revised at a countdown of 1800 s, one created beyond it, an ECHO carrying ACTIVE, and a
tombstone. -/
theorem witness_ParkAndWakeChangeTheMode :
    Admitted (inMode .active) ∧ Admitted (inMode .parking) ∧ Admitted (inMode .hold) ∧
    Admitted (inMode .dormant) ∧ Admitted (inMode .lockout) ∧
    (inMode .parking).cc.setpoint = 0 ∧ (inMode .parking).cc.state = .off ∧
    (inMode .parking).vl.session = .absent ∧ (inMode .parking).sp.restarting = none ∧
    (withConverter .on).cc.state = .on ∧
    (inMode .hold).sp.mode = .hold ∧ (inMode .hold).sp.restarting = none ∧
    (let x := (inMode .hold).intake (frameOf 9 .new .absent 0 1800)
     x.2 = .created ∧ x.1.ct.records.map (fun r => (r.callId, r.state, r.deferred, r.countdown)) =
       [(9, .pending, false, 1800)]) ∧
    (let x := (inMode .hold).intake (frameOf 9 .new .absent 0 1801)
     x.2 = .created ∧ x.1.ct.records.map (fun r => (r.callId, r.state, r.deferred, r.countdown)) =
       [(9, .pending, false, 1801)]) ∧
    (let x := (inMode .hold).intake (frameOf 9 .echo .active 0 1)
     x.2 = .created ∧ x.1.ct.records.map (fun r => (r.callId, r.state)) = [(9, .active)]) ∧
    (let x := (inMode .hold).intake (frameOf 9 .cancel .absent 0 0)
     x.2 = .tombstone ∧ x.1.ct.records.map (fun r => (r.callId, r.state)) = [(9, .cancelled)]) ∧
    (let x := ({ withCalls [callIn 9 .pending] with sp := (inMode .hold).sp } : State).intake
       (frameOf 9 .revise .absent 1 1800)
     x.2 = .revised ∧ x.1.ct.records.map (fun r => (r.callId, r.state)) = [(9, .pending)]) := by decide

theorem witness_RestartWaitsAndCompletes :
    Admitted (inMode .active) ∧ (inMode .active).sp.mode ≠ .lockout ∧ Admitted (inMode .lockout) ∧
    (inSession .ready).vl.session = .ready ∧
    ({ inMode .hold with sp := { (inMode .hold).sp with restarting := some ⟨.hold, true, 200⟩ } } :
      State).sp.restarting = some ⟨.hold, true, 200⟩ ∧ (inMode .hold).sp.restarting = none := by decide

/-- The pointer before, at and past the entries and the records, an index beyond the table's end and an empty table;
the first and the last position of OWN, the last key, the stall record and the end of CONFIG. -/
theorem witness_PointAndReadWalkTheReports :
    (inMode .active).sp.restarting = none ∧ (inMode .active).sp.pendingKey = none ∧
    (withEntries [⟨4, 0, 0, announcing 0 0 none 0 0 none, 0, false⟩]).pv.entries =
      [] ++ ⟨4, 0, 0, announcing 0 0 none 0 0 none, 0, false⟩ :: [] ∧ ([] : List PeerEntry).length < 1 ∧
    (announcing 0 0 none 0 0 none).mode ≠ .config ∧ (announcing 0 0 none 0 0 none).mode ≠ .lockout ∧
    (withEntries []).sp.pointer = .peers 0 ∧ (withEntries []).pv.entries = [] ∧ (0 : Nat) < 4 ∧
    (withCalls [callIn 410 .pending]).ct.records = [] ++ callIn 410 .pending :: [] ∧
    (withCalls []).ct.records = [] ∧
    ({ inMode .active with sp := { (inMode .active).sp with pointer := .calls 410 } } : State).sp.pointer =
      .calls 410 ∧
    ({ inMode .active with sp := { (inMode .active).sp with pointer := .own 0 } } : State).sp.pointer = .own 0 ∧
    (ownContents (inMode .active))[0]?.isSome = true ∧ (ownContents (inMode .active))[6]?.isSome = true ∧
    ({ inMode .active with sp := { (inMode .active).sp with pointer := .own 7 } } : State).sp.pointer = .own 7 ∧
    ({ inMode .active with sp := { (inMode .active).sp with pointer := .config 24 } } : State).sp.pointer =
      .config 24 ∧
    ({ inMode .active with sp := { (inMode .active).sp with pointer := .config 25 } } : State).sp.pointer =
      .config 25 ∧
    ({ inMode .active with sp := { (inMode .active).sp with pointer := .config ConfigKey.eventMask.index } } :
      State).sp.pointer = .config 23 := by decide

/-! ### Witnesses: the depot line -/

/-- A STANDING at the limits of its fields, and a DISPATCH that is disregarded beside one that is not. -/
theorem witness_ReceivedFieldsAreCorrected :
    (⟨0, 0, 1, 3, 0, 0, 0, 0, 0⟩ : DispatchWire).corrected = none ∧
    (⟨1, 0, 4, 3, 128, 0, 0, 0, 0⟩ : DispatchWire).corrected = none ∧
    (⟨1, 0, 4, 49, 131, 30001, 0, 59, 3601⟩ : DispatchWire).corrected =
      some ⟨1, 0, .echo, 48, .ending, true, 30000, 1, 60, 3600⟩ := by decide

theorem witness_UnheardAndBadFrames :
    (inMode .active).sp.mode ≠ .config ∧ (∀ f, (inMode .active).lp.inFlight = some f → f.phase ≠ .sending) ∧
    State.reset.sp.mode = .config ∧
    (sendingLeave 1 .sending).lp.inFlight = some ⟨0, .leave, 1, .sending⟩ := by
  exact ⟨by decide, (fun _ h => by cases h), rfl, rfl⟩

/-- The stalls at the ends of the roster, with an entry and without, and while ISOLATED with ECHOED. -/
theorem witness_StandingReplacesTheEntry :
    Hears (inMode .active) 2 ∧ Hears (inMode .active) 12 ∧ (12 : Nat) ≤ (inMode .active).sp.config.posts ∧
    (withEntries [⟨2, 0, 0, announcing 0 0 none 0 0 none, 0, false⟩]).pv.entries.Pairwise
      (fun a b => a.stall < b.stall) ∧
    (withEntries [⟨2, 0, 0, announcing 0 0 none 0 0 none, 0, false⟩]).pv.entries.any (·.stall == 2) = true ∧
    ({ inMode .active with pv := { State.reset.pv with
      isolated := true, causeEcho := true, lastOutcome := .echoed } } : State).pv.lastOutcome = .echoed := by decide

theorem witness_LeaveDeletesTheEntry :
    Hears (inMode .active) 12 ∧ Hears (inMode .active) 0 ∧ Hears (inMode .active) 13 ∧
    (inMode .active).sp.config.posts < 13 := by decide

/-- Ages of 8 s and of 60 s at the sweep at 60 s; the two timers of isolation. -/
theorem witness_SweepAndIsolationTimersRun :
    let s : State := { withEntries [⟨2, 0, 0, announcing 0 0 none 0 0 none, 52000, false⟩,
        ⟨3, 0, 0, announcing 0 0 none 0 0 none, 0, true⟩] with
      pv := { (withEntries [⟨2, 0, 0, announcing 0 0 none 0 0 none, 52000, false⟩,
        ⟨3, 0, 0, announcing 0 0 none 0 0 none, 0, true⟩]).pv with
        sweepAt := some 60000, lastHeardAt := some 60000, rejoinAt := some 60000 } }
    s.pv.sweepAt = some 60000 ∧ EventCounts s ∧ s.pv.lastHeardAt = some 60000 ∧ s.pv.rejoinAt = some 60000 ∧
      s.pv.entries.map (fun e => 60000 - e.received) = [8000, 60000] ∧ State.reset.pv.sweepAt = none := by decide

theorem witness_DuplicateStallLocksOut :
    (inMode .active).receives = true ∧ (inMode .active).sp.restarting = none ∧
    (inMode .lockout).receives = true ∧ (inMode .active).sp.mode ≠ .lockout ∧
    ({ inMode .active with sp := { (inMode .active).sp with restarting := some ⟨.active, false, 200⟩ } } :
      State).receives = true := by decide

/-- An empty queue, a full one whose lowest class is not below the new frame's, and a full one in which it is; a
waiting frame on an idle line. -/
theorem witness_QueueTakesAndYieldsFrames :
    ([] : List QueuedFrame).Pairwise (fun a b => b.rank ≤ a.rank) ∧
    (List.replicate 8 QueuedFrame.leave).Pairwise (fun a b => b.rank ≤ a.rank) ∧
    (List.replicate 8 QueuedFrame.leave).length = 8 ∧
    (QueuedFrame.leave).rank ≤ (QueuedFrame.leave).rank ∧ (QueuedFrame.standing).rank < QueuedFrame.leave.rank ∧
    (List.replicate 7 QueuedFrame.leave ++ [QueuedFrame.standing]).Pairwise (fun a b => b.rank ≤ a.rank) ∧
    (∀ h ∈ List.replicate 7 QueuedFrame.leave, QueuedFrame.standing.rank < h.rank) ∧
    ({ inMode .active with lp := { State.reset.lp with queue := [.leave] } } : State).lp.lineIdle = true ∧
    (inMode .config).sp.mode = .config ∧ (inMode .lockout).sp.mode = .lockout := by decide

theorem witness_LineIdleLetsTheLineBeUsed :
    (inMode .active).lp.inFlight = none ∧
    (sendingLeave 2 (.awaitingIdle 16)).lp.inFlight = some ⟨0, .leave, 2, .awaitingIdle 16⟩ ∧
    (sendingLeave 2 (.backoff 9)).lp.inFlight = some ⟨0, .leave, 2, .backoff 9⟩ ∧
    (sendingLeave 8 .awaitingLine).lp.inFlight = some ⟨0, .leave, 8, .awaitingLine⟩ := by decide

theorem witness_StandingTimerEnqueuesOne :
    ({ inMode .active with lp := { State.reset.lp with
      standingAt := some 1000, queue := List.replicate 8 .leave } } : State).lp.standingAt = some 1000 ∧
    (inMode .active).sp.mode ≠ .config ∧ (inMode .active).sp.mode ≠ .lockout ∧
    State.reset.lp.standingAt = none := by decide

/-- The frame in flight at its attempt; a restart's wait with the LEAVE echoed. -/
theorem witness_EchoSuccessEndsTheFrame :
    (sendingLeave 1 .sending).lp.inFlight = some ⟨0, .leave, 1, .sending⟩ ∧
    (sendingLeave 1 .sending).sp.restarting = none ∧
    ({ sendingLeave 1 .sending with
      sp := { (inMode .active).sp with restarting := some ⟨.active, false, 200⟩ } } : State).sp.restarting =
      some ⟨.active, false, 200⟩ ∧
    ({ sendingLeave 1 .sending with lp := { State.reset.lp with
      inFlight := some ⟨0, .dispatch (frameOf 1 .new .absent 0 0), 1, .sending⟩ } } : State).lp.inFlight ≠ none := by
  decide

theorem witness_CollisionBacksOff :
    (sendingLeave 7 .sending).lp.inFlight = some ⟨0, .leave, 7, .sending⟩ ∧ (7 : Nat) < 8 ∧
    (sendingLeave 8 .sending).lp.inFlight = some ⟨0, .leave, 8, .sending⟩ ∧
    (sendingLeave 2 (.backoff 9)).lp.inFlight = some ⟨0, .leave, 2, .backoff 9⟩ := by decide

/-! ### Witnesses: calls -/

/-- An empty table, a full one of live records, and a full one whose final record makes room. -/
theorem witness_UnknownCallIsCreated :
    (∀ r ∈ (withCalls []).ct.records, r.callId ≠ 9) ∧ (withCalls []).ct.records.length < 4 ∧
    (frameOf 9 .echo .ending 0 0).carried = .ending ∧ (frameOf 9 .echo .pending 0 1800).countdown ≤ 1800 ∧
    (let live := [callIn 1 .pending, callIn 2 .active, callIn 3 .pending, callIn 4 .pending]
     (withCalls live).ct.records.length = 4 ∧ (∀ r ∈ live, r.state ≠ .done ∧ r.state ≠ .cancelled) ∧
       live.Pairwise (fun a b => a.callId < b.callId) ∧ ∀ r ∈ live, r.callId ≠ 9) ∧
    (let full := [callIn 1 .pending, { callIn 2 .done with retention := 5 }, callIn 3 .pending,
        { callIn 4 .cancelled with retention := 5 }]
     full.length = 4 ∧ { callIn 2 .done with retention := 5 } ∈ full ∧
       ∀ r ∈ full, r.state = .done ∨ r.state = .cancelled → 5 < r.retention ∨ (5 = r.retention ∧ 2 ≤ r.callId)) ∧
    (frameOf 9 .echo .active 0 0).countdown = 0 ∧ 0 < (frameOf 9 .echo .active 0 1).countdown ∧
    (withCalls []).sp.mode ≠ .hold ∧ (inMode .hold).ct.records = [] := by decide

theorem witness_DispatchMeetsItsRecord :
    Hears (inMode .active) 7 ∧ (⟨0, 0, 1, 3, 0, 0, 0, 0, 0⟩ : DispatchWire).corrected = none ∧
    (⟨9, 0, 1, 3, 0, 0, 1, 60, 0⟩ : DispatchWire).corrected =
      some ⟨9, 0, .new, 3, .absent, false, 0, 1, 60, 0⟩ ∧
    (withCalls [callIn 9 .pending]).ct.records = [] ++ callIn 9 .pending :: [] ∧
    (frameOf 9 .new .absent 1 0).callId = (callIn 9 .pending).callId ∧
    EventCounts (withCalls [callIn 9 .pending]) ∧
    (let s : State := { inMode .hold with ct := { State.reset.ct with records := [callIn 9 .pending] } }
     s.sp.mode = .hold ∧ s.sp.restarting = none ∧ EventCounts s ∧
       (callIn 9 .pending).revision < (frameOf 9 .revise .absent 1 1800).revision) ∧
    (callIn 9 .pending).revision ≤ (frameOf 9 .new .absent 0 0).revision ∧
    (frameOf 9 .new .absent 4 0).revision < ({ callIn 9 .pending with revision := 5 } : CallRecord).revision := by
  decide

/-- Each held state, and each kind with each carried state; a duration that is the elapsed time and the remaining. -/
theorem witness_RecordsMoveForwardOnly :
    ((callIn 9 .done).revised (frameOf 9 .revise .absent 1 0) 0 true).2 = 0 ∧
    ((callIn 9 .active).merged (frameOf 9 .echo .ending 0 0) 0 false).1.state = .ending ∧
    (callIn 9 .pending).waiting = true ∧ (callIn 9 .active).running = true ∧
    (frameOf 9 .new .absent 1 0).kind = .new ∧ (frameOf 9 .cancel .absent 1 0).kind = .cancel ∧
    (frameOf 9 .echo .pending 0 1).carried = .pending ∧ (frameOf 9 .echo .active 0 0).countdown = 0 ∧
    0 < (frameOf 9 .echo .active 0 1).countdown ∧ 0 < (callIn 9 .pending).duration ∧
    (callIn 9 .pending).deferred = false ∧
    ({ callIn 9 .pending with deferred := true } : CallRecord).deferred = true ∧
    (callIn 9 .active).duration = 1800 + (callIn 9 .active).remaining ∧
    (callIn 9 .cancelled).state = .cancelled := by decide

/-- A tick that falls due; each record's time at its boundary; a table in which none starts and one in which two do. -/
theorem witness_CallTimerPassesOneSecond :
    ({ withCalls [callIn 9 .pending] with ct := { State.reset.ct with
      records := [callIn 9 .pending], tickAt := some 1000 } } : State).ct.tickAt = some 1000 ∧
    EventCounts (withCalls [callIn 9 .pending]) ∧ State.reset.ct.tickAt = none ∧
    ({ callIn 9 .active with remaining := 2 } : CallRecord).state = .active ∧
    ({ callIn 9 .active with remaining := 1 } : CallRecord).remaining ≤ 1 ∧
    ({ callIn 9 .pending with deferred := true, remaining := 1 } : CallRecord).deferred = true ∧
    ({ callIn 9 .done with retention := 1 } : CallRecord).state = .done ∧
    ([callIn 3 .active].filterMap fun r => r.second.1) = [{ callIn 3 .active with remaining := 3599 }] ∧
    ([{ callIn 3 .pending with countdown := 1 }, callIn 9 .pending].filterMap fun r => r.second.1) =
      [] ++ callIn 3 .pending :: [callIn 9 .pending] := by decide

theorem witness_RecordTimesRunOut :
    (withCalls [callIn 9 .pending]).ct.records = [] ++ callIn 9 .pending :: [] ∧
    (callIn 9 .pending).deferred = false ∧ (callIn 9 .active).state = .active ∧
    ({ callIn 9 .pending with deferred := true } : CallRecord).deferred = true ∧
    (callIn 9 .cancelled).state = .cancelled := by decide

theorem witness_EchoesAndRepeatsAreSent :
    ({ withCalls [] with ct := { State.reset.ct with echoAt := some 10000 } } : State).ct.echoAt = some 10000 ∧
    (let e : RepeatEntry := ⟨frameOf 9 .new .absent 0 0, [300, 600]⟩
     let s : State := { withCalls [] with ct := { State.reset.ct with repeats := [e] } }
     s.ct.repeats = [] ++ e :: [] ∧ 300 ∈ e.due ∧ (∀ x ∈ s.ct.repeats, ∀ u ∈ x.due, 300 ≤ u)) ∧
    (∀ x ∈ State.reset.ct.repeats, x.due = []) := by decide

/-! ### Witnesses: energy, apportionment and curbs -/

/-- A step that falls due with the gates as notified; no call in force; a goal that moves, one that ends, and one whose
slot passes to a deferred record. -/
theorem witness_ApportionStepMovesTheGoal :
    (let s : State := { inMode .active with
        ap := { State.reset.ap with stepAt := some 500 }
        ea := { State.reset.ea with gates := (inMode .active).gateView } }
     s.ap.stepAt = some 500 ∧ EventCounts s ∧ s.ea.gates = s.gateView ∧
       (after (exec .apportionStep s) s).sp.mode = s.sp.mode ∧
       (after (exec .apportionStep s) s).vl.session = s.vl.session ∧
       (after (exec .apportionStep s) s).cc.state = s.cc.state) ∧
    State.reset.ap.stepAt = none ∧
    (∀ r ∈ [callIn 1 .pending], r.state ≠ .active ∧ r.state ≠ .ending) ∧
    (callIn 2 .active).state = .active ∧ (∀ x ∈ [callIn 1 .pending], x.inForce = false) ∧
    (∀ x ∈ [callIn 1 .pending], x.callId ≠ (callIn 2 .active).callId) ∧
    ({ callIn 2 .ending with goal := 21 } : CallRecord).goal = max 1 (40 / 2) + 1 ∧
    ({ callIn 2 .ending with goal := 20 } : CallRecord).goal ≤ max 1 (40 / 2) ∧
    (let d : CallRecord := { callIn 5 .pending with deferred := true, startTime := some 7 }
     d.state = .pending ∧ d.deferred = true ∧
       [{ callIn 2 .ending with state := .done, retention := 3600 }, d] =
         [{ callIn 2 .ending with state := .done, retention := 3600 }] ++ d :: []) := by decide

theorem witness_MeterSampleIsIntegrated :
    ({ inMode .active with mt := ⟨999999999, 3599, some 100⟩ } : State).mt.sampleAt = some 100 ∧
    EventCounts (inMode .active) ∧
    ({ inMode .active with ea := { State.reset.ea with minuteAt := some 60000 } } : State).ea.minuteAt =
      some 60000 := by decide

theorem witness_TotalMeterNeverFalls :
    (∀ straps, Instr.meterSample ≠ .hardwareReset straps) ∧ State.reset.mt.total ≤ 999999999 ∧
    State.reset.pending = [] ∧ TotalMeter { inMode .active with mt := ⟨999999999, 3599, some 100⟩ } := by
  exact ⟨fun _ => by simp, by decide, rfl, by decide⟩

/-- Pack temperatures of 10 °C and of 9 °C. -/
theorem witness_ReserveFloorCoversTheRoute :
    ({ inMode .active with ea := { State.reset.ea with record := some { someBus with packTemp := 10 } } } :
      State).ea.record = some { someBus with packTemp := 10 } ∧
    ({ someBus with packTemp := 9 } : BusRecord).packTemp < 10 := by decide

/-- A state in which no gate holds, with 800 units exportable, and one in which the first gate holds; a call in force
in each of its states, and two PENDING records of which the later by id is nearer, being deferred. -/
theorem witness_ClassAndOfferFollowTheRecord :
    (let s : State := { inSession .ready with
      ea := { State.reset.ea with record := some someBus, estimate := 850 }
      vl := { (inSession .ready).vl with allowance := 55 } }
     s.ea.record = some someBus ∧ s.gateInForce = none ∧ s.energy = 800 ∧ s.cls = 1 ∧ s.offer = 550 ∧
      s.settingTerm = .allowance) ∧
    ({ State.reset with ea := { State.reset.ea with record := some someBus } } : State).gateInForce =
      some .mode ∧
    (withCalls [callIn 1 .pending, callIn 2 .active]).ct.records = [callIn 1 .pending] ++ callIn 2 .active :: [] ∧
    (withCalls [callIn 1 .pending, callIn 2 .active]).timeBase = 3600 ∧
    (withCalls [callIn 2 .ending]).timeBase = 60 ∧
    (withCalls [{ callIn 1 .pending with countdown := 1 },
      { callIn 2 .pending with deferred := true, duration := 70 }]).timeBase = 70 ∧
    (withCalls [callIn 3 .done]).timeBase = 60 ∧
    gateTable = [.mode, .session] ++ .allowanceFloor :: gateTable.drop 3 ∧
    (inSession .ready).gateInForce = some .allowanceFloor := by decide

theorem witness_DeratingFollowsTheTemperature :
    ConfigInRange Configuration.default ∧
    ((inMode .active).computation .step).thetaMax = 40 ∧ Configuration.default.derateRef < 40 ∧
    (({ inMode .active with sp := { (inMode .active).sp with
      config := { Configuration.default with tempFallback := 30 } } } : State).computation .step).thetaMax = 30 := by
  decide

/-- A table with a FRESH entry that carries the greatest temperature; the own sample greatest; no candidate; and an own
offer that takes part beside a peer's. -/
theorem witness_HeadroomChainNarrows :
    (let s : State := { withEntries [⟨2, 0, 0, announcing 0 600 (some 9) 50 100 (some 41), 0, false⟩] with
      ct := { State.reset.ct with records := [callIn 9 .active] }
      cu := { State.reset.cu with curb := some ⟨60, 120000⟩ } }
     ConfigInRange s.sp.config ∧ PeerTable s ∧ 1 ≤ s.lp.stall ∧ s.lp.stall ≤ s.sp.config.posts ∧
      s.call = some (callIn 9 .active) ∧ s.cu.curb = some ⟨60, 120000⟩ ∧ (inMode .active).call = none ∧
      s.pv.entries = [] ++ ⟨2, 0, 0, announcing 0 600 (some 9) 50 100 (some 41), 0, false⟩ :: [] ∧
      s.now - 0 < 3000 ∧ (announcing 0 600 (some 9) 50 100 (some 41)).temperature = some 41 ∧ s.offer = 0) ∧
    (let s : State := { inMode .active with
        cu := { State.reset.cu with sample := some 60 }
        sp := { (inMode .active).sp with config := { Configuration.default with sensorFitted := true } } }
     ConfigInRange s.sp.config ∧ PeerTable s ∧ s.sp.config.sensorFitted = true ∧ s.cu.sample = some 60) ∧
    (let s : State := { inSession .ready with
        ea := { State.reset.ea with record := some someBus, estimate := 850 }
        vl := { (inSession .ready).vl with allowance := 55 }
        ct := { State.reset.ct with records := [callIn 9 .active] } }
     s.call = some (callIn 9 .active) ∧ 0 < s.offer ∧ s.pv.entries = []) := by
  exact ⟨by decide, by decide, by decide⟩

theorem witness_TierIsSplitInProportion :
    let ps : List Participant := [⟨5, 550, 1, 800⟩, ⟨2, 400, 1, 600⟩, ⟨11, 600, 1, 800⟩]
    (∀ p ∈ ps, 0 < p.offer) ∧ offerSum ps = 1550 ∧ 1549 < offerSum ps ∧ 0 < offerSum ps := by decide

theorem witness_SharesSumToTheAvailable :
    (∀ p ∈ workedParticipants, p.cls ≤ 3 ∧ 0 < p.offer) ∧
    (∃ x ∈ apportion 3145 workedParticipants, ∃ y ∈ apportion 3145 workedParticipants,
      x.1.cls < y.1.cls ∧ 0 < y.2) := by decide

/-- Sampling stopped; running with a reading at CURB_TEMP, and with one beyond the sensor's range. -/
theorem witness_SensorSampleMayOriginateACurb :
    State.reset.cu.sampleAt = none ∧
    ({ inMode .active with cu := { State.reset.cu with sampleAt := some 1000 } } : State).cu.sampleAt =
      some 1000 ∧ (110 : Int) ≤ Configuration.default.curbTemp ∧ ¬((151 : Int) ≤ 150) := by decide

theorem witness_CurbIsAppliedAtOnce :
    Hears (inMode .active) 9 ∧
    ({ inMode .active with cu := { State.reset.cu with curb := some ⟨60, 120000⟩ } } : State).cu.curb =
      some ⟨60, 120000⟩ := by decide

/-! ### Witnesses: the converter, the vehicle link and the session -/

/-- Each state of the converter, and each of its timers; a held stop; a step that moves the setpoint and one that does
not. -/
theorem witness_ConverterCommandsFollowTheirRules :
    ((1023 : Nat) < 1024 ∧ (withConverter .on).cc.state = .on ∧
      (withConverter .precharging).cc.state = .precharging ∧ (withConverter .off).cc.state ≠ .on ∧
      (withConverter .off).cc.state ≠ .precharging) ∧
    ({ withConverter .precharging with cc := { State.reset.cc with
      state := .precharging, prechargeAt := some 5000 } } : State).cc.prechargeAt = some 5000 ∧
    ({ withConverter .retryWait with cc := { State.reset.cc with
      state := .retryWait, retryAt := some 60000 } } : State).cc.retryAt = some 60000 ∧
    (let s : State := { withConverter .on with cc := { State.reset.cc with
        state := .on, stableAt := some 60000, lingerAt := some 30000, stopPending := true
        slewAt := some 100 } }
     s.cc.stableAt = some 60000 ∧ s.cc.lingerAt = some 30000 ∧ s.cc.state = .on ∧
      s.cc.stopPending = true ∧ s.cc.setpoint = 0 ∧ s.vl.session = .absent ∧ s.cc.slewAt = some 100) ∧
    (let s : State := { inSession .exporting with
        cc := { State.reset.cc with state := .on, setpoint := 31, slewAt := some 100 } }
     s.cc.slewAt = some 100 ∧ max 0 (s.cc.setpoint - 30) ≠ s.cc.setpoint) := by decide

/-- The linger clause of PRECHARGE_EXPIRY: a settled post in PRECHARGING whose start request no longer holds. -/
theorem witness_ConverterCommandsFollowTheirRules_linger :
    let u : State := { inMode .active with
      cc := { State.reset.cc with state := .precharging, prechargeAt := some 5000 } }
    let s : State := { u with ea := { State.reset.ea with gates := u.gateView } }
    s.cc.prechargeAt = some 5000 ∧ Settled s ∧ ConverterTimers s ∧ s.sp.mode ≠ .config := by
  exact ⟨rfl, ⟨⟨by decide, by decide, by decide, by decide, by decide, by decide, by decide, by decide, by decide,
    by decide, by decide, by decide, by decide⟩, by decide⟩, by decide, by decide⟩

theorem witness_PlugAndWakeBeginTheSession :
    State.reset.vl.session = .absent ∧ (inSession .ready).vl.session ≠ .absent ∧
    (inMode .dormant).sp.mode = .dormant ∧ (inMode .dormant).sp.restarting = none ∧
    (inMode .dormant).vl.session = .absent ∧ (inMode .active).sp.mode ≠ .dormant ∧
    ({ inSession .attached with vl := { (inSession .attached).vl with wakeAt := some 200 } } :
      State).vl.wakeAt = some 200 ∧
    ({ inSession .retryWait with vl := { (inSession .retryWait).vl with retryAt := some 60000 } } :
      State).vl.retryAt = some 60000 := by decide

/-- A POLL, an ENGAGE and the first refresh read that are due and allowed; a request being sent, and one whose second
and whose third attempt waits for a reply. -/
theorem witness_RequestsAreTakenAndRepeated :
    (inSession .ready).vl.inFlight = none ∧
    (let v : VehicleLink := { (inSession .ready).vl with due := ⟨false, true, none, false, some 2, true⟩ }
     dueInOrder v = [] ++ .engage :: [.refreshQuery 2, .poll] ∧ sentIn v .engage = true) ∧
    (let v : VehicleLink := { (inSession .engaging).vl with due := ⟨false, false, none, false, some 2, true⟩ }
     dueInOrder v = [.refreshQuery 2] ++ .poll :: [] ∧ sentIn v .poll = true ∧
       ∀ x ∈ [Request.refreshQuery 2], sentIn v x = false) ∧
    (let v : VehicleLink := { (inSession .attached).vl with due := ⟨true, false, some .up, true, none, false⟩ }
     dueInOrder v = [.release, .tune .up, .identifyQuery 0] ∧ ∀ x ∈ dueInOrder v, sentIn v x = false) ∧
    (awaiting .ready .poll).vl.inFlight ≠ none ∧
    (awaiting .ready .poll).vl.inFlight = some ⟨.poll, 7, 1, none⟩ ∧
    ({ inSession .ready with vl := { (inSession .ready).vl with inFlight := some ⟨.poll, 7, 2, some 200⟩ } } :
      State).vl.inFlight = some ⟨.poll, 7, 2, some 200⟩ := by decide

/-- A QUERY of item 6 and of item 7; the seven items held; a requery timer with nothing in flight. -/
theorem witness_IdentifyReadsItemsIntoTheRecord :
    Awaits (awaiting .identifying (.identifyQuery 6)) 7 (.identifyQuery 6) ∧
    Awaits (awaiting .identifying (.identifyQuery 7)) 7 (.identifyQuery 7) ∧
    ({ awaiting .identifying (.identifyQuery 7) with vl := { (awaiting .identifying (.identifyQuery 7)).vl with
      items := [some 214, some 2100, some 1800, some 620, some 780, some (-4), none] } } : State).vl.items =
      [some 214, some 2100, some 1800, some 620, some 780, some (-4), none] ∧
    ({ inSession .identifying with vl := { (inSession .identifying).vl with requeryAt := some 100 } } :
      State).vl.requeryAt = some 100 := by
  exact ⟨⟨_, rfl, rfl, rfl⟩, ⟨_, rfl, rfl, rfl⟩, rfl, rfl⟩

theorem witness_SessionFailuresWaitOrLatch :
    ({ inSession .identifying with vl := { (inSession .identifying).vl with identifyAt := some 5000 } } :
      State).vl.identifyAt = some 5000 ∧
    ({ inSession .tuning with vl := { (inSession .tuning).vl with tuningAt := some 10000, failures := 2 } } :
      State).vl.tuningAt = some 10000 ∧
    ({ inSession .exporting with vl := { (inSession .exporting).vl with
      inFlight := some ⟨.poll, 7, 3, some 200⟩ } } : State).vl.inFlight = some ⟨.poll, 7, 3, some 200⟩ := by decide

theorem witness_PollAndRefreshReadTheBus :
    ({ inSession .ready with vl := { (inSession .ready).vl with pollAt := some 500, refreshAt := some 60000 } } :
      State).vl.pollAt = some 500 ∧
    (let s : State := { awaiting .ready (.refreshQuery 2) with ea := { State.reset.ea with record := some someBus } }
     s.ea.record = some someBus ∧ s.vl.polling = true ∧ Awaits s 7 (.refreshQuery 2)) ∧
    Awaits (awaiting .ready (.refreshQuery 5)) 7 (.refreshQuery 5) ∧ Awaits (awaiting .ready .poll) 7 .poll := by
  exact ⟨rfl, ⟨rfl, rfl, _, rfl, rfl, rfl⟩, ⟨_, rfl, rfl, rfl⟩, ⟨_, rfl, rfl, rfl⟩⟩

/-- Tuning that steps, at D, below it and above it; a delay that ends; a retune that is due. -/
theorem witness_TuningAndRetuneStep :
    (let s : State := { awaiting .tuning (.tune .up) with vl := { (awaiting .tuning (.tune .up)).vl with
        phase := .stepping, stepAt := some 100, code := some .up } }
     Awaits s 7 (.tune .up) ∧ s.vl.phase = .stepping ∧ s.vl.desired = 60 ∧ s.vl.stepAt = some 100 ∧
       s.vl.inFlight = some ⟨.tune .up, 7, 1, none⟩) ∧
    (let s : State := { inSession .ready with vl := { (inSession .ready).vl with
        retuneAt := some 60000, retuneDue := true } }
     s.vl.retuneAt = some 60000 ∧ s.vl.retuneDue = true ∧ s.vl.session = .ready ∧ s.vl.due.engage = false ∧
       ∀ f, s.vl.inFlight = some f → f.request ≠ .engage) ∧
    (inSession .ready).vl.retuneDue = false := by
  exact ⟨⟨⟨_, rfl, rfl, rfl⟩, rfl, rfl, rfl, rfl⟩, ⟨rfl, rfl, rfl, rfl, fun _ h => by cases h⟩, rfl⟩

theorem witness_SettlingEndsInReady :
    (let s : State := { awaiting .tuning (.tune .hold) with vl := { (awaiting .tuning (.tune .hold)).vl with
        phase := .settling, settleAt := some 1000, busLevel := some 55, holdAnswered := true } }
     s.vl.settleAt = some 1000 ∧ s.vl.busLevel = some 55 ∧ s.vl.holdAnswered = true ∧
       Awaits s 7 (.tune .hold) ∧ s.vl.phase = .settling ∧ (55 : Nat) = min 63 55) ∧
    (let s : State := { awaiting .tuning (.tune .hold) with vl := { (awaiting .tuning (.tune .hold)).vl with
        phase := .settling } }
     s.vl.settleAt = none ∧ s.vl.holdAnswered = false ∧ (63 : Nat) = min 63 64) := by
  exact ⟨⟨rfl, rfl, rfl, ⟨_, rfl, rfl, rfl⟩, rfl, rfl⟩, rfl, rfl, rfl⟩

/-- An ENGAGE in flight in ENGAGING and, after a RESTART, in RELEASING; the two timers; an EXPORTING session with no
share, notified of its gates, with the setpoint at 0 and above it; a RELEASE in flight. -/
theorem witness_EngageAndReleaseMoveTheSession :
    Awaits (awaiting .engaging .engage) 7 .engage ∧ (awaiting .engaging .engage).vl.session = .engaging ∧
    Awaits (awaiting .releasing .engage) 7 .engage ∧
    (∀ setpoint, setpoint ≤ 1 →
      let v : State := { inSession .exporting with
        cc := { State.reset.cc with state := .on, setpoint := setpoint }
        vl := { (inSession .exporting).vl with engageHoldAt := some 10000, shareZeroAt := some 30000 } }
      let s : State := { v with ea := { v.ea with gates := v.gateView } }
      s.vl.engageHoldAt = some 10000 ∧ s.vl.shareZeroAt = some 30000 ∧ s.vl.session = .exporting ∧
        s.share = 0 ∧ s.ea.gates = s.gateView ∧ s.sp.mode = .active ∧ s.cc.state = .on ∧
        s.cc.setpoint = setpoint) ∧
    Awaits (awaiting .releasing .release) 7 .release ∧ (awaiting .releasing .release).vl.session = .releasing ∧
    Awaits (awaiting .identifying .release) 7 .release := by
  exact ⟨⟨_, rfl, rfl, rfl⟩, rfl, ⟨_, rfl, rfl, rfl⟩,
    fun _ _ => ⟨rfl, rfl, rfl, rfl, rfl, rfl, rfl, rfl⟩, ⟨_, rfl, rfl, rfl⟩, rfl, ⟨_, rfl, rfl, rfl⟩⟩

/-! ### Witnesses: what follows at once, and the invariants -/

/-- The energy on each side of the notice; the gates changed and unchanged; an open start, engage, release, plug and
wake; a session without a share; a held stop; a start request that ceases; a retune that is open; a park that is. -/
theorem witness_ReactionsFollowTheirRules :
    (let s : State := { inMode .active with ea := { State.reset.ea with side := .above } }
     s.ea.side = .above ∧ s.energy < s.sp.config.energyNotice) ∧
    (let s : State := { inMode .active with
        ea := { State.reset.ea with side := .below, record := some someBus, estimate := 150 } }
     s.ea.side = .below ∧ s.energy = s.sp.config.energyNotice) ∧
    State.reset.gateView = State.reset.ea.gates ∧ (inMode .active).gateView ≠ (inMode .active).ea.gates ∧
    (let s : State := { inSession .ready with
        ea := { State.reset.ea with record := some someBus, estimate := 850 }
        vl := { (inSession .ready).vl with allowance := 55 }
        ct := { State.reset.ct with records := [{ callIn 9 .pending with countdown := 10 }] } }
     s.startRequest = true ∧ s.cc.state = .off ∧ s.cc.fault = false) ∧
    (let s : State := { inSession .ready with
        ea := { State.reset.ea with record := some someBus, estimate := 850 }
        vl := { (inSession .ready).vl with allowance := 55 }
        ap := { State.reset.ap with result := 1 }
        cc := { State.reset.cc with state := .on } }
     s.vl.session = .ready ∧ s.cc.state = .on ∧ 0 < s.share ∧ s.cc.stopPending = false ∧
       s.vl.engageHoldAt = none ∧ s.vl.engageInFlight = false) ∧
    ((inSession .exporting).vl.session = .exporting ∧ (inSession .exporting).cc.setpoint = 0 ∧
      (inSession .exporting).cc.state ≠ .on ∧ (inSession .exporting).share = 0 ∧
      (inSession .exporting).vl.shareZeroAt = none ∧ (inSession .exporting).vl.shareZeroOut = false) ∧
    ((inSession .absent).vl.plug = true ∧ (inSession .absent).vl.session = .absent ∧
      (inSession .absent).sp.mode = .active) ∧
    (let s : State := { inMode .dormant with vl := { State.reset.vl with plug := true } }
     s.vl.plug = true ∧ s.sp.mode = .dormant ∧ s.sp.restarting = none) ∧
    (let s : State := { withConverter .on with
        cc := { State.reset.cc with state := .on, stopPending := true, startHeld := true } }
     s.cc.state = .on ∧ s.cc.stopPending = true ∧ s.cc.setpoint = 0 ∧ s.vl.session = .absent ∧
       s.startRequest = false ∧ s.cc.startHeld = true) ∧
    ((inSession .ready).vl.allowance < (inSession .ready).vl.desired ∧ (inSession .ready).vl.retuneAt = none) ∧
    ((inMode .parking).sp.mode = .parking ∧ (inMode .parking).enablePin = false ∧
      (inMode .parking).vl.session = .absent) := by decide

/-- A post in ACTIVE that was notified of its gates; it is settled, and a step leads on from it. -/
theorem witness_NothingFollowsAQuietState :
    let s : State := { inMode .active with
      ea := { State.reset.ea with gates := (inMode .active).gateView }, pending := [.park] }
    ((s.powerPath = true ∨ s.cc.setpoint = 0) ∧ s.ea.side = .noRecord ∧ s.gateView = s.ea.gates ∧
      (s.vl.session = .exporting ∧ s.share = 0 ↔
        s.vl.shareZeroAt.isSome = true ∨ s.vl.shareZeroOut = true) ∧
      s.stopReady = false ∧ s.releaseWanted = false ∧ s.startRequest = s.cc.startHeld ∧
      s.startRequest = false ∧
      s.vl.due.engage = (s.engageWanted && !s.vl.engageInFlight) ∧
      (s.vl.retuneAt.isSome = true ↔
        s.vl.session.retunable = true ∧ s.vl.allowance < s.vl.desired) ∧
      s.parkReady = false ∧ ¬(s.sp.mode = .dormant ∧ s.vl.plug = true ∧ s.sp.restarting = none) ∧
      s.vl.plug = false ∧ s.lp.queue = []) ∧
    ModeControl s ∧ (Session s ∧ ItemsInRange s ∧ Account s) ∧ CallTable s ∧ Settled s ∧
      ∃ t, step s = .next t ∧ t.sp.mode ≠ .config := by
  exact ⟨by decide, by decide, ⟨by
      simp [Session, inMode, State.reset, State.resetWith, VehicleLink.reset, State.linkRuns, State.joined,
        EnergyAccount.reset, DueRequests.nothing], by decide, by decide⟩, by decide,
    ⟨⟨by decide, by decide, by decide, by decide, by decide, by decide, by decide, by decide, by decide,
      by decide, by decide, by decide, by decide⟩, by decide⟩, _, rfl, by decide⟩

/-- An occurrence count at its limit, and below it. -/
theorem witness_EventsCountAndPinsFollow :
    EventSet.count (Vector.replicate 31 255) .cut ≤ 255 ∧ EventSet.count (Vector.replicate 31 0) .cut ≤ 255 := by
  decide

theorem witness_StepKeepsThePeerView :
    (let s := withEntries [⟨2, 0, 0, announcing 0 0 none 0 0 none, 0, false⟩,
      ⟨12, 0, 255, announcing 3 600 (some 9) 600 6000 (some 150), 0, false⟩]
     ModeControl s ∧ PeerTable s ∧ PeerFields s) ∧
    Carried { inMode .active with pending := [.standing 5 255 ⟨0, 0, 0, 0, 0, 0, 0, 65535, 0⟩] } ∧
    Isolation { inMode .active with pv := { State.reset.pv with isolated := true, causeEcho := true } } ∧
    ∃ t, step { inMode .active with pending := [.standing 5 1 ⟨0, 0, 0, 0, 0, 0, 0, 0, 0⟩] } = .next t := by
  exact ⟨by decide, by decide, by decide, _, rfl⟩

theorem witness_StepKeepsTheTransmitQueue :
    TransmitQueue { sendingLeave 8 .sending with lp := { (sendingLeave 8 .sending).lp with
      queue := List.replicate 7 .leave ++ [.standing] } } ∧ LineSilent (inMode .lockout) ∧
    LineCounts { inMode .active with lp := { State.reset.lp with
      stats := ⟨65535, 65535, 65535, 65535, 65535, 65535⟩, echoFailures := 3, seq := 255 } } := by decide

theorem witness_StepKeepsTheCallTable :
    (let s := withCalls [callIn 1 .active, { callIn 2 .pending with deferred := true }, callIn 3 .done,
      callIn 4 .cancelled]
     CallTable s ∧ DeferredWaits s ∧ ModeControl s ∧ StallJoined s ∧ CallFields s ∧ Carried s) ∧
    RepeatList { inMode .active with ct := { State.reset.ct with
      repeats := List.replicate 8 ⟨frameOf 9 .new .absent 0 0, [300, 600]⟩ } } := by decide

theorem witness_StepKeepsTheSetpointBounded :
    let s : State := { inSession .exporting with
      cc := { State.reset.cc with state := .on, setpoint := 600, stableAt := some 60000 } }
    ModeControl s ∧ ConverterTimers s ∧ Setpoint s := by decide

/-- A bus READY with its record, and one in IDENTIFYING with an item held and the next one asked for. -/
theorem witness_StepKeepsTheSessionAndTheAccount :
    (let s : State := { inSession .ready with
        ea := { State.reset.ea with record := some someBus, estimate := 850, reported := 850, side := .above }
        vl := { (inSession .ready).vl with allowance := 60 } }
     ModeControl s ∧ Session s ∧ ItemsInRange s ∧ Account s) ∧
    (let s : State := { inSession .identifying with vl := { (inSession .identifying).vl with
        items := [some 214], identifyAt := some 5000, inFlight := some ⟨.identifyQuery 1, 7, 1, none⟩ } }
     ModeControl s ∧ Session s ∧ ItemsInRange s ∧ Account s) := by
  refine ⟨⟨by decide, ?_, by decide, by decide⟩, ⟨by decide, ?_, by decide, by decide⟩⟩ <;>
    simp [Session, inSession, inMode, State.reset, State.resetWith, VehicleLink.reset, State.linkRuns, State.joined,
      asksInPlace]

theorem witness_StepKeepsModeAndConfiguration :
    ModeControl (inMode .hold) ∧ EventCounts (inMode .hold) ∧ (inMode .hold).sp.locked = true ∧
    ∀ straps rest, (inMode .hold).pending ≠ .hardwareReset straps :: rest := by
  exact ⟨by decide, by decide, rfl, fun _ _ h => by cases h⟩

theorem witness_FramesAreReadBack :
    (Instr.leave 255 255 255).WellFormed ∧ (lineBytes (.leave 255 255 255)).isSome = true ∧
    (Instr.item 255 255 (-32768)).WellFormed ∧ (replyBytes (.item 255 255 (-32768))).isSome = true ∧
    lineBytes (.leave 5 7 1) = some (withCheck [4#8, 5#8, 7#8, 1#8]) := by decide

end Sys2Proof.Tests
end

