-- ==== Sys2Proof/Proofs/ReserveFloor.lean ====
section
/-!
The reserve floor (R68). Upward division brackets its dividend within one divisor, and the floor of a held record is
such a quotient with RESERVE_MARGIN on top.
-/
namespace Sys2Proof.Machine

/-! ### Upward division -/

theorem le_mul_ceilDiv (n : Nat) {d : Nat} (hd : 0 < d) : n ≤ d * ceilDiv n d := by
  have below : n + (d - 1) < d * ((n + (d - 1)) / d + 1) := Nat.lt_mul_div_succ _ hd
  rw [Nat.mul_succ] at below
  unfold ceilDiv
  omega

theorem mul_ceilDiv_lt (n : Nat) {d : Nat} (hd : 0 < d) : d * ceilDiv n d < n + d := by
  have above : d * ceilDiv n d ≤ n + (d - 1) := Nat.mul_div_le _ d
  omega

/-! ### The cold adder and the floor -/

theorem coldAdder_of_ten_le {t : Int} (warm : 10 ≤ t) : coldAdder t = 0 := if_pos warm

theorem coldAdder_of_lt_ten {t : Int} (cold : t < 10) : (coldAdder t : Int) = min 40 (2 * (10 - t)) := by
  rw [coldAdder, if_neg (by omega)]
  omega

theorem reserveFloorOf_sub_margin (route : Nat) (t : Int) (margin : Nat) :
    reserveFloorOf route t margin - margin = ceilDiv (route * (100 + coldAdder t)) 100 := by
  rw [reserveFloorOf, Nat.add_sub_cancel]

theorem margin_le_reserveFloorOf (route : Nat) (t : Int) (margin : Nat) : margin ≤ reserveFloorOf route t margin :=
  Nat.le_add_left ..

theorem State.reserveFloor_of_record {s : State} {r : BusRecord} (held : s.ea.record = some r) :
    s.reserveFloor = reserveFloorOf r.route r.packTemp s.sp.config.reserveMargin := by
  simp only [State.reserveFloor, held]

/-- Settles O33: the adder is the record's cold adder, and the floor less its margin is the raised route energy
divided upward by 100. -/
theorem reserveFloorCoversTheRoute : Obligations.ReserveFloorCoversTheRoute := by
  intro s r held
  rw [State.reserveFloor_of_record held, reserveFloorOf_sub_margin]
  exact ⟨coldAdder r.packTemp, coldAdder_of_ten_le, coldAdder_of_lt_ten,
    le_mul_ceilDiv _ (by decide), mul_ceilDiv_lt _ (by decide), margin_le_reserveFloorOf ..⟩

end Sys2Proof.Machine
end

