-- ==== Sys2Proof/Proofs/TierSplit.lean ====
section
/-!
The split of a tier (R94). The rank order is an insertion sort; the whole parts of the quotients fall short of the
remainder by less than one unit a member; the units left over go to the first members.
-/
namespace Sys2Proof.Machine

/-! ### The rank order -/

theorem Participant.ranksBefore_iff {a b : Participant} :
    a.ranksBefore b = true ↔ b.energy < a.energy ∨ (a.energy = b.energy ∧ a.stall ≤ b.stall) := decide_eq_true_iff

theorem Participant.ranksBefore_total (a b : Participant) : a.ranksBefore b = true ∨ b.ranksBefore a = true := by
  simp only [ranksBefore_iff]; omega

theorem Participant.ranksBefore_trans (a b c : Participant) (ab : a.ranksBefore b = true)
    (bc : b.ranksBefore c = true) : a.ranksBefore c = true := by
  simp only [ranksBefore_iff] at *; omega

theorem insertRanked_eq_orderedInsert (p : Participant) (ps : List Participant) :
    insertRanked p ps = ps.orderedInsert (fun a b => a.ranksBefore b = true) p := by
  induction ps with
  | nil => rfl
  | cons q qs ih => simp only [insertRanked, List.orderedInsert_cons, ih]

/-- The rank order is Mathlib's insertion sort. -/
theorem rankOrder_eq_insertionSort (ps : List Participant) :
    rankOrder ps = ps.insertionSort (fun a b => a.ranksBefore b = true) := by
  induction ps with
  | nil => rfl
  | cons p ps ih => rw [rankOrder, ih, insertRanked_eq_orderedInsert, List.insertionSort_cons]

theorem rankOrder_perm (ps : List Participant) : (rankOrder ps).Perm ps := by
  rw [rankOrder_eq_insertionSort]
  exact List.perm_insertionSort _ ps

theorem rankOrder_ranked (ps : List Participant) :
    (rankOrder ps).Pairwise (fun a b => a.ranksBefore b = true) := by
  have total : Std.Total fun a b : Participant => a.ranksBefore b = true := ⟨Participant.ranksBefore_total⟩
  have trans : IsTrans Participant fun a b => a.ranksBefore b = true := ⟨Participant.ranksBefore_trans⟩
  rw [rankOrder_eq_insertionSort]
  exact List.pairwise_insertionSort _ ps

/-! ### Offer sums -/

theorem offerSum_append (ps qs : List Participant) : offerSum (ps ++ qs) = offerSum ps + offerSum qs := by
  simp only [offerSum, List.map_append, List.sum_append]

theorem offerSum_perm {ps qs : List Participant} (same : ps.Perm qs) : offerSum ps = offerSum qs :=
  (same.map _).sum_eq

/-! ### Units given out -/

theorem giveUnits_fst (n : Nat) (xs : List (Participant × Nat)) :
    (giveUnits n xs).map (·.1) = xs.map (·.1) := by
  induction n, xs using giveUnits.induct with
  | case1 => rfl
  | case2 => rfl
  | case3 n p k xs ih => simp only [giveUnits, List.map_cons, ih]

theorem giveUnits_sum {n : Nat} {xs : List (Participant × Nat)} (enough : n ≤ xs.length) :
    ((giveUnits n xs).map (·.2)).sum = n + (xs.map (·.2)).sum := by
  induction n, xs using giveUnits.induct with
  | case1 => simp only [giveUnits, Nat.zero_add]
  | case2 => simp at enough
  | case3 n p k xs ih =>
    simp only [giveUnits, List.map_cons, List.sum_cons, ih (Nat.le_of_succ_le_succ enough)]
    omega

theorem giveUnits_getElem (n : Nat) (xs : List (Participant × Nat)) (i : Nat) (h : i < (giveUnits n xs).length)
    (h' : i < xs.length) :
    (giveUnits n xs)[i] = (xs[i].1, xs[i].2 + if i < n then 1 else 0) := by
  induction n, xs using giveUnits.induct generalizing i with
  | case1 => rfl
  | case2 => simp at h'
  | case3 n p k xs ih =>
    cases i with
    | zero => rfl
    | succ i =>
      simp only [giveUnits, List.length_cons, Nat.add_lt_add_iff_right] at h h'
      simp only [giveUnits, List.getElem_cons_succ, ih i h h', Nat.succ_lt_succ_iff]

/-! ### The whole parts of the quotients -/

/-- The whole part of a member's quotient, in a tier of offer sum `total` (R94). -/
def wholePart (remainder total : Nat) (p : Participant) : Nat := remainder * p.offer / total

/-- The whole parts of all quotients and their remainders make up the quotients. -/
theorem mul_wholeParts_add_mods (remainder total : Nat) (ps : List Participant) :
    total * (ps.map (wholePart remainder total)).sum + (ps.map fun p => remainder * p.offer % total).sum =
      remainder * offerSum ps := by
  rw [offerSum, ← List.sum_map_mul_left, ← List.sum_map_mul_left, ← List.sum_map_add]
  simp only [wholePart, Nat.div_add_mod]

theorem sum_wholeParts_le {remainder : Nat} {ps : List Participant} (offered : 0 < offerSum ps) :
    (ps.map (wholePart remainder (offerSum ps))).sum ≤ remainder := by
  have parts := mul_wholeParts_add_mods remainder (offerSum ps) ps
  refine Nat.le_of_mul_le_mul_left ?_ offered
  rw [Nat.mul_comm _ remainder]
  omega

/-- Each whole part falls short of its quotient by less than one unit. -/
theorem lt_sum_wholeParts_add_length {remainder : Nat} {ps : List Participant} (offered : 0 < offerSum ps) :
    remainder < (ps.map (wholePart remainder (offerSum ps))).sum + ps.length := by
  have parts := mul_wholeParts_add_mods remainder (offerSum ps) ps
  have member : ps ≠ [] := by rintro rfl; exact Nat.lt_irrefl 0 offered
  have short : (ps.map fun p => remainder * p.offer % offerSum ps).sum < (ps.map fun _ => offerSum ps).sum :=
    List.sum_lt_sum_of_ne_nil member _ _ fun p _ => Nat.mod_lt _ offered
  rw [List.map_const', List.sum_replicate, smul_eq_mul] at short
  refine Nat.lt_of_mul_lt_mul_left (a := offerSum ps) ?_
  rw [Nat.mul_add, Nat.mul_comm _ remainder, Nat.mul_comm _ ps.length]
  omega

theorem wholePart_lt_offer {remainder total : Nat} {p : Participant} (offers : 0 < p.offer)
    (short : remainder < total) : wholePart remainder total p < p.offer :=
  Nat.div_lt_of_lt_mul (Nat.mul_lt_mul_of_pos_right short offers)

/-! ### The split of a tier -/

/-- The units that the whole parts leave over (R94). -/
def unitsLeft (remainder : Nat) (ps : List Participant) : Nat :=
  remainder - (ps.map (wholePart remainder (offerSum ps))).sum

theorem sum_rankOrder_wholeParts (remainder total : Nat) (ps : List Participant) :
    ((rankOrder ps).map (wholePart remainder total)).sum = (ps.map (wholePart remainder total)).sum :=
  ((rankOrder_perm ps).map _).sum_eq

theorem splitTier_eq (remainder : Nat) (ps : List Participant) :
    splitTier remainder ps = giveUnits (unitsLeft remainder ps)
      ((rankOrder ps).map fun p => (p, wholePart remainder (offerSum ps) p)) := by
  rw [unitsLeft, ← sum_rankOrder_wholeParts, splitTier, List.map_map]
  rfl

theorem unitsLeft_add_wholeParts {remainder : Nat} {ps : List Participant} (offered : 0 < offerSum ps) :
    unitsLeft remainder ps + (ps.map (wholePart remainder (offerSum ps))).sum = remainder :=
  Nat.sub_add_cancel (sum_wholeParts_le offered)

theorem unitsLeft_lt_length {remainder : Nat} {ps : List Participant} (offered : 0 < offerSum ps) :
    unitsLeft remainder ps < ps.length := by
  have := lt_sum_wholeParts_add_length (remainder := remainder) offered
  have := unitsLeft_add_wholeParts (remainder := remainder) offered
  omega

theorem splitTier_members (remainder : Nat) (ps : List Participant) :
    (splitTier remainder ps).map (·.1) = rankOrder ps := by
  rw [splitTier_eq, giveUnits_fst, List.map_map]
  exact List.map_id _

theorem splitTier_getElem (remainder : Nat) (ps : List Participant) (i : Nat)
    (h : i < (splitTier remainder ps).length) :
    (splitTier remainder ps)[i].2 = wholePart remainder (offerSum ps) (splitTier remainder ps)[i].1 +
      if i < unitsLeft remainder ps then 1 else 0 := by
  have inRange : i < ((rankOrder ps).map fun p => (p, wholePart remainder (offerSum ps) p)).length := by
    rwa [← List.length_map (·.1), splitTier_members, ← List.length_map] at h
  simp only [splitTier_eq, giveUnits_getElem _ _ i _ inRange, List.getElem_map]

theorem splitTier_sum {remainder : Nat} {ps : List Participant} (offered : 0 < offerSum ps) :
    ((splitTier remainder ps).map (·.2)).sum = remainder := by
  rw [splitTier_eq, giveUnits_sum, List.map_map]
  · exact (congrArg _ (sum_rankOrder_wholeParts ..)).trans (unitsLeft_add_wholeParts offered)
  · rw [List.length_map, (rankOrder_perm ps).length_eq]
    exact (unitsLeft_lt_length offered).le

theorem splitTier_le_offer {remainder : Nat} {ps : List Participant} (offers : ∀ p ∈ ps, 0 < p.offer)
    (short : remainder < offerSum ps) : ∀ x ∈ splitTier remainder ps, x.2 ≤ x.1.offer := by
  intro x mem
  obtain ⟨i, h, rfl⟩ := List.mem_iff_getElem.mp mem
  have member : (splitTier remainder ps)[i].1 ∈ ps :=
    (rankOrder_perm ps).subset (splitTier_members remainder ps ▸ List.mem_map_of_mem mem)
  have below := wholePart_lt_offer (offers _ member) short
  rw [splitTier_getElem]
  split <;> omega

/-- Settles O37: the rank order ranks the members, and the units that the whole parts leave over are those given. -/
theorem tierIsSplitInProportion : Obligations.TierIsSplitInProportion := by
  intro remainder ps offers short
  have offered : 0 < offerSum ps := Nat.zero_lt_of_lt short
  refine ⟨rankOrder ps, unitsLeft remainder ps, rankOrder_perm ps,
    (rankOrder_ranked ps).imp Participant.ranksBefore_iff.mp, splitTier_members remainder ps, ?_, ?_,
    splitTier_getElem remainder ps, splitTier_le_offer offers short, splitTier_sum offered⟩
  · rw [(rankOrder_perm ps).length_eq]
    exact unitsLeft_lt_length offered
  · exact (congrArg _ (sum_rankOrder_wholeParts ..)).trans (unitsLeft_add_wholeParts offered)

end Sys2Proof.Machine
end

