-- ==== Sys2Proof/Proofs/TierFill.lean ====
section
/-!
The fill of the tiers (R93, R95). Each tier gives all its members a share, within their offers, and takes the lesser of
the remainder and its offers; so does the list of tiers, and the tiers 0 to 3 hold every participant once.
-/
namespace Sys2Proof.Machine

/-! ### One tier -/

theorem tierShares_members (remainder : Nat) (ps : List Participant) :
    ((tierShares remainder ps).map (·.1)).Perm ps := by
  unfold tierShares
  split
  · rw [List.map_map]
    exact .of_eq (List.map_id _)
  · exact .trans (.of_eq (splitTier_members remainder ps)) (rankOrder_perm ps)

theorem tierShares_sum (remainder : Nat) (ps : List Participant) :
    ((tierShares remainder ps).map (·.2)).sum = min remainder (offerSum ps) := by
  unfold tierShares
  split
  case isTrue full =>
    rw [List.map_map, Nat.min_eq_right full]
    rfl
  case isFalse short =>
    rw [splitTier_sum (by omega), Nat.min_eq_left (by omega)]

theorem tierShares_le_offer {ps : List Participant} (offers : ∀ p ∈ ps, 0 < p.offer) (remainder : Nat) :
    ∀ x ∈ tierShares remainder ps, x.2 ≤ x.1.offer := by
  unfold tierShares
  split
  case isTrue => simp
  case isFalse short => exact splitTier_le_offer offers (by omega)

/-! ### The tiers in order -/

/-- The members of the named tiers, tier by tier. -/
def membersOf (ps : List Participant) (tiers : List Nat) : List Participant :=
  tiers.flatMap fun t => ps.filter (·.cls == t)

/-- Tiers named once hold each participant of their classes once. -/
theorem membersOf_perm (ps : List Participant) {tiers : List Nat} (once : tiers.Nodup) :
    (membersOf ps tiers).Perm (ps.filter fun p => decide (p.cls ∈ tiers)) := by
  induction tiers with
  | nil => simp [membersOf]
  | cons t ts ih =>
    obtain ⟨new, once⟩ := List.nodup_cons.mp once
    have first : ps.filter (·.cls == t) =
        (ps.filter fun p => decide (p.cls ∈ t :: ts)).filter (·.cls == t) := by
      rw [List.filter_filter]
      refine List.filter_congr fun p _ => ?_
      by_cases h : p.cls = t <;> simp [h]
    have rest : (ps.filter fun p => decide (p.cls ∈ ts)) =
        (ps.filter fun p => decide (p.cls ∈ t :: ts)).filter fun p => !(p.cls == t) := by
      rw [List.filter_filter]
      refine List.filter_congr fun p _ => ?_
      by_cases h : p.cls = t <;> simp [h, new]
    have members : membersOf ps (t :: ts) = ps.filter (·.cls == t) ++ membersOf ps ts := List.flatMap_cons
    have apart := (ih once).append_left (ps.filter (·.cls == t))
    rw [first, rest] at apart
    rw [members, first]
    exact apart.trans (List.filter_append_perm _ _)

theorem membersOf_all {ps : List Participant} (classes : ∀ p ∈ ps, p.cls ≤ 3) :
    (membersOf ps [0, 1, 2, 3]).Perm ps := by
  refine (membersOf_perm ps (by decide)).trans (.of_eq (List.filter_eq_self.mpr fun p mem => ?_))
  have := classes p mem
  simp only [List.mem_cons, List.not_mem_nil, or_false, decide_eq_true_eq]
  omega

theorem fillTiers_members (ps : List Participant) (remainder : Nat) (tiers : List Nat) :
    ((fillTiers ps remainder tiers).map (·.1)).Perm (membersOf ps tiers) := by
  induction tiers generalizing remainder with
  | nil => exact .nil
  | cons t ts ih =>
    rw [fillTiers, List.map_append]
    exact (tierShares_members ..).append (ih _)

theorem fillTiers_sum (ps : List Participant) (remainder : Nat) (tiers : List Nat) :
    ((fillTiers ps remainder tiers).map (·.2)).sum = min remainder (offerSum (membersOf ps tiers)) := by
  induction tiers generalizing remainder with
  | nil => exact (Nat.min_zero _).symm
  | cons t ts ih =>
    have members : membersOf ps (t :: ts) = ps.filter (·.cls == t) ++ membersOf ps ts := List.flatMap_cons
    rw [fillTiers, List.map_append, List.sum_append, tierShares_sum, ih, members, offerSum_append, tierLeaves]
    omega

theorem fillTiers_le_offer {ps : List Participant} (offers : ∀ p ∈ ps, 0 < p.offer) (remainder : Nat)
    (tiers : List Nat) : ∀ x ∈ fillTiers ps remainder tiers, x.2 ≤ x.1.offer := by
  induction tiers generalizing remainder with
  | nil => exact fun _ mem => absurd mem List.not_mem_nil
  | cons t ts ih =>
    intro x mem
    rcases List.mem_append.mp mem with tier | later
    · exact tierShares_le_offer (fun p h => offers p (List.mem_filter.mp h).1) _ x tier
    · exact ih _ x later

/-! ### The apportionment -/

theorem apportion_members {ps : List Participant} (classes : ∀ p ∈ ps, p.cls ≤ 3) (available : Nat) :
    ((apportion available ps).map (·.1)).Perm ps :=
  (fillTiers_members ..).trans (membersOf_all classes)

theorem apportion_sum {ps : List Participant} (classes : ∀ p ∈ ps, p.cls ≤ 3) (available : Nat) :
    ((apportion available ps).map (·.2)).sum = min available (offerSum ps) := by
  rw [apportion, fillTiers_sum, offerSum_perm (membersOf_all classes)]

theorem apportion_le_offer {ps : List Participant} (offers : ∀ p ∈ ps, 0 < p.offer) (available : Nat) :
    ∀ x ∈ apportion available ps, x.2 ≤ x.1.offer :=
  fillTiers_le_offer offers _ _

/-- The share found for a stall is that of the one participant of this stall. -/
theorem shareOf_mem {shares : List (Participant × Nat)} {p : Participant} (listed : p ∈ shares.map (·.1))
    (only : ∀ q ∈ shares.map (·.1), q.stall = p.stall → q = p) : (p, shareOf p.stall shares) ∈ shares := by
  obtain ⟨x, mem, rfl⟩ := List.mem_map.mp listed
  have found : (shares.find? (·.1.stall == x.1.stall)).isSome := List.find?_isSome.mpr ⟨x, mem, beq_self_eq_true _⟩
  obtain ⟨y, find⟩ := Option.isSome_iff_exists.mp found
  have share : shareOf x.1.stall shares = y.2 := by rw [shareOf, find]
  have member := List.mem_of_find?_eq_some find
  have same : y.1 = x.1 := only _ (List.mem_map_of_mem member) (beq_iff_eq.mp (List.find?_some find :))
  rw [share, ← same]
  exact member

end Sys2Proof.Machine
end

