-- ==== Sys2Proof/Proofs/Headroom.lean ====
section
/-!
The headroom (R86 to R89). Which temperature the computation takes and from where, how far it derates the rating, and
that the curb and the census only lower what is left.
-/
namespace Sys2Proof.Machine

open Sys2Proof.Safety

/-! ### Ages of entries -/

theorem PeerEntry.state_eq_fresh_iff {e : PeerEntry} {now : Nat} : e.state now = .fresh ↔ now - e.received < 3000 := by
  unfold PeerEntry.state PeerEntry.age entryStateOfAge
  split
  · simp [*]
  · split <;> simp [*]

theorem PeerEntry.state_eq_lost_iff {e : PeerEntry} {now : Nat} : e.state now = .lost ↔ 8000 ≤ now - e.received := by
  unfold PeerEntry.state PeerEntry.age entryStateOfAge
  split
  · simp; omega
  · split
    · simp; omega
    · simp; omega

theorem PeerEntry.present_eq (e : PeerEntry) (now : Nat) : e.present now = decide (now - e.received < 8000) := by
  have lost := e.state_eq_lost_iff (now := now)
  by_cases h : e.state now = .lost <;> simp [PeerEntry.present, h, ← Nat.not_le, ← lost]

/-! ### The temperature (R86) -/

/-- The temperature candidate of an entry: what it carries while it is FRESH. -/
def PeerEntry.candidate (e : PeerEntry) (now : Nat) : Option Int :=
  if e.state now = .fresh then e.announced.temperature else none

theorem PeerEntry.candidate_eq_some_iff {e : PeerEntry} {now : Nat} {u : Int} :
    e.candidate now = some u ↔ now - e.received < 3000 ∧ e.announced.temperature = some u := by
  rw [← state_eq_fresh_iff]
  unfold PeerEntry.candidate
  split <;> simp [*]

theorem hottestPeer_cons_of_none {now : Nat} {e : PeerEntry} (es : List PeerEntry) (cold : e.candidate now = none) :
    hottestPeer now (e :: es) = hottestPeer now es := by
  unfold PeerEntry.candidate at cold
  simp only [hottestPeer, cold]

theorem hottestPeer_cons_of_alone {now : Nat} {e : PeerEntry} {es : List PeerEntry} {t : Int}
    (carried : e.candidate now = some t) (rest : hottestPeer now es = none) :
    hottestPeer now (e :: es) = some (t, e.stall) := by
  unfold PeerEntry.candidate at carried
  simp only [hottestPeer, carried, rest]

theorem hottestPeer_cons_of_le {now : Nat} {e : PeerEntry} {es : List PeerEntry} {t u : Int} {k : Nat}
    (carried : e.candidate now = some t) (rest : hottestPeer now es = some (u, k)) (le : u ≤ t) :
    hottestPeer now (e :: es) = some (t, e.stall) := by
  unfold PeerEntry.candidate at carried
  simp only [hottestPeer, carried, rest, if_pos le]

theorem hottestPeer_cons_of_lt {now : Nat} {e : PeerEntry} {es : List PeerEntry} {t u : Int} {k : Nat}
    (carried : e.candidate now = some t) (rest : hottestPeer now es = some (u, k)) (lt : t < u) :
    hottestPeer now (e :: es) = some (u, k) := by
  unfold PeerEntry.candidate at carried
  simp only [hottestPeer, carried, rest, if_neg (Int.not_le.mpr lt)]

/-- The hottest temperature is some entry's. -/
theorem exists_candidate_of_hottestPeer {now : Nat} {es : List PeerEntry} {u : Int} {k : Nat}
    (hottest : hottestPeer now es = some (u, k)) : ∃ e ∈ es, e.candidate now = some u := by
  induction es generalizing u k with
  | nil => cases hottest
  | cons e es ih =>
    have later {v j} (rest : hottestPeer now es = some (v, j)) (same : v = u) :
        ∃ x ∈ e :: es, x.candidate now = some u := by
      obtain ⟨x, mem, carried⟩ := ih rest
      exact ⟨x, List.mem_cons_of_mem e mem, same ▸ carried⟩
    cases carried : e.candidate now with
    | none => exact later (hottestPeer_cons_of_none es carried ▸ hottest) rfl
    | some t =>
      rcases rest : hottestPeer now es with _ | ⟨v, j⟩
      · rw [hottestPeer_cons_of_alone carried rest] at hottest
        cases hottest
        exact ⟨e, List.mem_cons_self, carried⟩
      · rcases lt_or_ge t v with lt | le
        · rw [hottestPeer_cons_of_lt carried rest lt] at hottest
          cases hottest
          exact later rest rfl
        · rw [hottestPeer_cons_of_le carried rest le] at hottest
          cases hottest
          exact ⟨e, List.mem_cons_self, carried⟩

theorem hottestPeer_cons_of_max {now : Nat} {e : PeerEntry} {es : List PeerEntry} {t : Int}
    (carried : e.candidate now = some t) (most : ∀ x ∈ es, ∀ v, x.candidate now = some v → v ≤ t) :
    hottestPeer now (e :: es) = some (t, e.stall) := by
  rcases rest : hottestPeer now es with _ | ⟨v, j⟩
  · exact hottestPeer_cons_of_alone carried rest
  · obtain ⟨x, mem, other⟩ := exists_candidate_of_hottestPeer rest
    exact hottestPeer_cons_of_le carried rest (most x mem v other)

theorem hottestPeer_append_of_lt {now : Nat} {before es : List PeerEntry} {t : Int} {k : Nat}
    (hottest : hottestPeer now es = some (t, k)) (less : ∀ x ∈ before, ∀ v, x.candidate now = some v → v < t) :
    hottestPeer now (before ++ es) = some (t, k) := by
  induction before with
  | nil => exact hottest
  | cons x xs ih =>
    have rest := ih fun y mem => less y (List.mem_cons_of_mem x mem)
    cases carried : x.candidate now with
    | none => exact (hottestPeer_cons_of_none _ carried).trans rest
    | some v => exact hottestPeer_cons_of_lt carried rest (less x List.mem_cons_self v carried)

theorem State.temperatureChoice_own {s : State} {u : Int} (own : s.ownCandidate = some u)
    (most : ∀ e ∈ s.pv.entries, ∀ v, e.candidate s.now = some v → v ≤ u) :
    s.temperatureChoice = (u, .ownSensor) := by
  rcases hottest : hottestPeer s.now s.pv.entries with _ | ⟨v, k⟩
  · simp only [State.temperatureChoice, own, hottest]
  · obtain ⟨e, mem, carried⟩ := exists_candidate_of_hottestPeer hottest
    simp only [State.temperatureChoice, own, hottest, if_pos (most e mem v carried)]

/-- The first of the hottest entries is the source where it is hotter than the own sample. -/
theorem State.temperatureChoice_peer {s : State} {before after : List PeerEntry} {e : PeerEntry} {u : Int}
    (entries : s.pv.entries = before ++ e :: after) (carried : e.candidate s.now = some u)
    (less : ∀ x ∈ before, ∀ v, x.candidate s.now = some v → v < u)
    (most : ∀ x ∈ after, ∀ v, x.candidate s.now = some v → v ≤ u) (cooler : ∀ v, s.ownCandidate = some v → v < u) :
    s.temperatureChoice = (u, .peer e.stall) := by
  have hottest : hottestPeer s.now s.pv.entries = some (u, e.stall) :=
    entries ▸ hottestPeer_append_of_lt (hottestPeer_cons_of_max carried most) less
  cases own : s.ownCandidate with
  | none => simp only [State.temperatureChoice, own, hottest]
  | some v => simp only [State.temperatureChoice, own, hottest, if_neg (Int.not_le.mpr (cooler v own))]

theorem State.temperatureChoice_fallback {s : State} (own : s.ownCandidate = none)
    (cold : ∀ e ∈ s.pv.entries, ∀ v, e.candidate s.now ≠ some v) :
    s.temperatureChoice = ((s.sp.config.tempFallback : Int), .fallback) := by
  rcases hottest : hottestPeer s.now s.pv.entries with _ | ⟨v, k⟩
  · simp only [State.temperatureChoice, own, hottest]
  · obtain ⟨e, mem, carried⟩ := exists_candidate_of_hottestPeer hottest
    exact absurd carried (cold e mem v)

/-! ### The derating (R87) -/

theorem deratingOf_of_lt {c : Configuration} {theta : Int} (floor : c.derateFloor ≤ 100)
    (hot : (c.derateRef : Int) < theta) :
    (deratingOf c theta : Int) = min (c.derateSlope * (theta - c.derateRef)) (1000 - 10 * c.derateFloor) := by
  have excess : ((theta - c.derateRef).toNat : Int) = theta - c.derateRef := Int.toNat_of_nonneg (by omega)
  rw [deratingOf, if_pos hot, Nat.cast_min, Nat.cast_mul, excess, Nat.cast_sub (by omega)]
  rfl

theorem deratingOf_of_le {c : Configuration} {theta : Int} (cool : theta ≤ c.derateRef) : deratingOf c theta = 0 :=
  if_neg (Int.not_lt.mpr cool)

theorem deratingOf_le (c : Configuration) (theta : Int) : deratingOf c theta ≤ 1000 - 10 * c.derateFloor := by
  unfold deratingOf
  split
  · exact Nat.min_le_right ..
  · exact Nat.zero_le _

theorem deratingOf_of_flat {c : Configuration} (flat : c.derateFloor = 100 ∨ c.derateSlope = 0) (theta : Int) :
    deratingOf c theta = 0 := by
  unfold deratingOf
  rcases flat with full | level
  · simp [full]
  · simp [level]

theorem thermalHeadroom_zero (rating : Nat) : thermalHeadroom rating 0 = rating :=
  Nat.mul_div_cancel _ (by decide)

theorem thermalHeadroom_le (rating d : Nat) : thermalHeadroom rating d ≤ rating :=
  Nat.div_le_of_le_mul (Nat.mul_comm 1000 _ ▸ Nat.mul_le_mul_left rating (Nat.sub_le ..))

theorem floor_le_thermalHeadroom (rating : Nat) {d floor : Nat} (percent : floor ≤ 100)
    (capped : d ≤ 1000 - 10 * floor) : rating * floor / 100 ≤ thermalHeadroom rating d :=
  calc rating * floor / 100
      = 10 * (rating * floor) / (10 * 100) := (Nat.mul_div_mul_left _ _ (by decide)).symm
    _ = rating * (10 * floor) / 1000 := by rw [Nat.mul_left_comm]
    _ ≤ rating * (1000 - d) / 1000 := Nat.div_le_div_right (Nat.mul_le_mul_left _ (by omega))

/-! ### The curb and the census (R88, R89) -/

theorem curbedHeadroom_le (rating lTherm : Nat) (curb : Option Curb) : curbedHeadroom rating lTherm curb ≤ lTherm := by
  cases curb with
  | none => exact Nat.le_refl _
  | some c => exact Nat.min_le_left ..

theorem viewHeadroom_le (lEff : Nat) {census posts : Nat} (within : census ≤ posts) :
    viewHeadroom lEff census posts ≤ lEff :=
  Nat.div_le_of_le_mul (Nat.mul_comm posts _ ▸ Nat.mul_le_mul_left lEff within)

theorem State.census_eq (s : State) :
    s.census = 1 + s.pv.entries.countP fun e => decide (s.now - e.received < 8000) := by
  simp only [State.census, PeerEntry.present_eq]

/-- The own post and its peers stand at different stalls of the roster. -/
theorem State.census_le_posts {s : State} (table : PeerTable s) (first : 1 ≤ s.lp.stall)
    (last : s.lp.stall ≤ s.sp.config.posts) : s.census ≤ s.sp.config.posts := by
  obtain ⟨ascending, ranges, -, -⟩ := table
  have distinct : (s.lp.stall :: s.pv.entries.map (·.stall)).Nodup := by
    refine List.nodup_cons.mpr ⟨fun mem => ?_, ?_⟩
    · obtain ⟨e, mem, same⟩ := List.mem_map.mp mem
      obtain ⟨-, -, other, -⟩ := ranges e mem
      exact other same
    · exact List.pairwise_map.mpr (ascending.imp Nat.ne_of_lt)
  have inRoster : (s.lp.stall :: s.pv.entries.map (·.stall)).toFinset ⊆ Finset.Icc 1 s.sp.config.posts := by
    intro stall mem
    rw [List.mem_toFinset, List.mem_cons, List.mem_map] at mem
    rw [Finset.mem_Icc]
    obtain rfl | ⟨e, mem, rfl⟩ := mem
    · exact ⟨first, last⟩
    · obtain ⟨low, high, -⟩ := ranges e mem
      exact ⟨low, high⟩
  have room := Finset.card_le_card inRoster
  rw [List.toFinset_card_of_nodup distinct, Nat.card_Icc, List.length_cons, List.length_map] at room
  have present : s.pv.entries.countP (·.present s.now) ≤ s.pv.entries.length := List.countP_le_length
  rw [State.census]
  omega

/-! ### What a computation records of stages 1 to 4 -/

theorem computation_thetaMax (s : State) (t : Trigger) : (s.computation t).thetaMax = s.temperatureChoice.1 := by
  unfold State.computation; dsimp only; split <;> rfl

theorem computation_source (s : State) (t : Trigger) : (s.computation t).source = s.temperatureChoice.2 := by
  unfold State.computation; dsimp only; split <;> rfl

theorem computation_temperature {s : State} (t : Trigger) {theta : Int} {source : TempSource}
    (choice : s.temperatureChoice = (theta, source)) :
    (s.computation t).thetaMax = theta ∧ (s.computation t).source = source := by
  rw [computation_thetaMax, computation_source, choice]
  exact ⟨rfl, rfl⟩

theorem computation_derating (s : State) (t : Trigger) :
    (s.computation t).derating = deratingOf s.sp.config (s.computation t).thetaMax := by
  unfold State.computation; dsimp only; split <;> rfl

theorem computation_lTherm (s : State) (t : Trigger) :
    (s.computation t).lTherm = thermalHeadroom s.sp.config.xfmrRating (s.computation t).derating := by
  unfold State.computation; dsimp only; split <;> rfl

theorem computation_lEff (s : State) (t : Trigger) :
    (s.computation t).lEff = curbedHeadroom s.sp.config.xfmrRating (s.computation t).lTherm s.cu.curb := by
  unfold State.computation; dsimp only; split <;> rfl

theorem computation_census (s : State) (t : Trigger) : (s.computation t).census = s.census := by
  unfold State.computation; dsimp only; split <;> rfl

theorem computation_lView (s : State) (t : Trigger) : (s.computation t).lView =
    viewHeadroom (s.computation t).lEff (s.computation t).census s.sp.config.posts := by
  unfold State.computation; dsimp only; split <;> rfl

/-- Settles O35: the derating is `deratingOf` of the temperature taken, which its cap keeps within the floor. -/
theorem deratingFollowsTheTemperature : Obligations.DeratingFollowsTheTemperature := by
  intro s trigger inRange c ap
  obtain ⟨-, floorRange⟩ := read_inRange inRange .derateFloor
  have floor : c.derateFloor ≤ 100 := Int.ofNat_le.mp floorRange
  have derating : ap.derating = deratingOf c ap.thetaMax := computation_derating s trigger
  have lTherm : ap.lTherm = thermalHeadroom c.xfmrRating ap.derating := computation_lTherm s trigger
  refine ⟨fun hot => derating ▸ deratingOf_of_lt floor hot, fun cool => derating ▸ deratingOf_of_le cool, lTherm,
    ?_, lTherm ▸ thermalHeadroom_le .., fun flat => ?_⟩
  · rw [lTherm]
    exact floor_le_thermalHeadroom _ floor (derating ▸ deratingOf_le c _)
  · rw [lTherm, derating, deratingOf_of_flat flat, thermalHeadroom_zero]

end Sys2Proof.Machine
end

