-- ==== Sys2Proof/Proofs/ShareComputation.lean ====
section
/-!
The share computation (R90 to R96, R57). Its participants are the own post and peers at other stalls, so that the share
found for the own stall is the own post's; what it records of the goal, the fixed load, the split and the result.
-/
namespace Sys2Proof.Machine

open Sys2Proof.Safety

/-! ### Participants and fixed load (R91, R92) -/

theorem PeerEntry.participates_eq (e : PeerEntry) (now callId : Nat) : e.participates now callId =
    decide (now - e.received < 3000 ∧ 0 < e.announced.offer ∧ e.announced.served = some callId) := by
  rw [Bool.eq_iff_iff, decide_eq_true_iff, ← state_eq_fresh_iff]
  simp only [PeerEntry.participates, Bool.and_eq_true, beq_iff_eq, decide_eq_true_eq, and_assoc]

theorem PeerEntry.fixedPart_eq (e : PeerEntry) (now callId : Nat) : e.fixedPart now callId =
    if 8000 ≤ now - e.received ∨ e.participates now callId = true then 0 else e.announced.actual := by
  simp only [← state_eq_lost_iff]
  unfold PeerEntry.fixedPart
  cases age : e.state now with
  | lost => simp
  | stale => simp [PeerEntry.participates, age]
  | fresh => simp

theorem fixedLoadOf_eq (now callId : Nat) (es : List PeerEntry) : fixedLoadOf now callId es = (es.map fun e =>
    if 8000 ≤ now - e.received ∨ e.participates now callId = true then 0 else e.announced.actual).sum :=
  congrArg List.sum (List.map_congr_left fun e _ => e.fixedPart_eq now callId)

theorem State.cls_le (s : State) : s.cls ≤ 3 := by
  unfold State.cls
  split
  · exact Nat.le_refl 3
  · exact Nat.min_le_left ..

theorem State.mem_participants {s : State} {callId : Nat} {p : Participant} : p ∈ s.participants callId ↔
    (0 < s.offer ∧ p = s.ownParticipant) ∨
      ∃ e ∈ s.pv.entries, e.participates s.now callId = true ∧ e.participant = p := by
  rw [State.participants, List.mem_append, List.mem_map]
  refine or_congr ?_ (by simp only [List.mem_filter, and_assoc])
  split <;> simp [*]

theorem State.participants_offer_pos (s : State) (callId : Nat) : ∀ p ∈ s.participants callId, 0 < p.offer := by
  intro p mem
  obtain ⟨offers, rfl⟩ | ⟨e, -, takesPart, rfl⟩ := State.mem_participants.mp mem
  · exact offers
  · rw [PeerEntry.participates_eq, decide_eq_true_iff] at takesPart
    exact takesPart.2.1

theorem State.participants_cls_le {s : State} (table : PeerTable s) (callId : Nat) :
    ∀ p ∈ s.participants callId, p.cls ≤ 3 := by
  obtain ⟨-, ranges, -, -⟩ := table
  intro p member
  obtain ⟨-, rfl⟩ | ⟨e, mem, -, rfl⟩ := State.mem_participants.mp member
  · exact s.cls_le
  · obtain ⟨-, -, -, -, cls, -⟩ := ranges e mem
    exact cls

/-- Only the own post takes part at the own stall (R1). -/
theorem State.participants_own {s : State} (table : PeerTable s) (callId : Nat) :
    ∀ p ∈ s.participants callId, p.stall = s.lp.stall → p = s.ownParticipant := by
  obtain ⟨-, ranges, -, -⟩ := table
  intro p member same
  obtain ⟨-, rfl⟩ | ⟨e, mem, -, rfl⟩ := State.mem_participants.mp member
  · rfl
  · obtain ⟨-, -, other, -⟩ := ranges e mem
    exact absurd same other

theorem State.ownShare_mem {s : State} (table : PeerTable s) (offers : 0 < s.offer) (available callId : Nat) :
    (s.ownParticipant, shareOf s.lp.stall (apportion available (s.participants callId))) ∈
      apportion available (s.participants callId) := by
  have members := apportion_members (s.participants_cls_le table callId) available
  have listed : s.ownParticipant ∈ s.participants callId := State.mem_participants.mpr (.inl ⟨offers, rfl⟩)
  exact shareOf_mem (members.mem_iff.mpr listed) fun q mem same =>
    s.participants_own table callId q (members.mem_iff.mp mem) same

/-! ### What a computation records of stages 5 to 9 -/

theorem computation_of_no_call {s : State} (noCall : s.call = none) (t : Trigger) :
    let ap := s.computation t
    ap.call = none ∧ ap.goal = 0 ∧ ap.fixedLoad = 0 ∧ ap.available = 0 ∧ ap.participants = 0 ∧ ap.tier = none ∧
      ap.result = 0 ∧ ap.clip = .noCause := by
  simp [State.computation, noCall]

theorem computation_goal {s : State} {r : CallRecord} (call : s.call = some r) (t : Trigger) :
    (s.computation t).goal = min r.goal (s.computation t).lView := by
  simp only [State.computation, call]

theorem computation_fixedLoad {s : State} {r : CallRecord} (call : s.call = some r) (t : Trigger) :
    (s.computation t).fixedLoad = fixedLoadOf s.now r.callId s.pv.entries := by
  simp only [State.computation, call]

theorem computation_available (s : State) (t : Trigger) :
    (s.computation t).available = (s.computation t).goal - (s.computation t).fixedLoad := by
  unfold State.computation; dsimp only; split <;> rfl

theorem computation_participants {s : State} {r : CallRecord} (call : s.call = some r) (t : Trigger) :
    (s.computation t).participants = (s.participants r.callId).length := by
  simp only [State.computation, call]

theorem computation_tier {s : State} {r : CallRecord} (call : s.call = some r) (t : Trigger) :
    (s.computation t).tier = if 0 < s.offer then some s.cls else none := by
  simp only [State.computation, call]

theorem computation_result {s : State} {r : CallRecord} (call : s.call = some r) (t : Trigger) :
    (s.computation t).result = if 0 < s.offer then
      shareOf s.lp.stall (apportion (s.computation t).available (s.participants r.callId)) else 0 := by
  simp only [State.computation, call]

theorem computation_clip {s : State} {r : CallRecord} (call : s.call = some r) (t : Trigger) :
    (s.computation t).clip = s.clipOf (s.computation t).result := by
  simp only [State.computation, call]

theorem computation_goal_le_lView (s : State) (t : Trigger) : (s.computation t).goal ≤ (s.computation t).lView := by
  cases call : s.call with
  | none =>
    obtain ⟨-, goal, -⟩ := computation_of_no_call call t
    exact goal ▸ Nat.zero_le _
  | some r => exact computation_goal call t ▸ Nat.min_le_right ..

/-- R96 for a post that takes part with a result within its offer. -/
theorem State.clipOf_of_le {s : State} {result : Nat} (offers : 0 < s.offer) (within : result ≤ s.offer) :
    s.clipOf result = if result < s.offer then .headroom else s.settingTerm.clip := by
  rw [State.clipOf, if_neg (by omega)]
  rcases Nat.lt_or_eq_of_le within with below | equal
  · rw [if_neg (by omega), if_pos below]
  · rw [if_pos equal, if_neg (by omega)]

theorem State.clipOf_of_no_offer {s : State} (noOffer : s.offer = 0) (result : Nat) : s.clipOf result = .noCause :=
  if_pos noOffer

/-- The flag is set in the records that are ACTIVE or ENDING (R57). -/
theorem markServing_eq (rs : List CallRecord) : markServing rs =
    rs.map fun r => if r.state = .active ∨ r.state = .ending then { r with serving := true } else r := by
  refine List.map_congr_left fun r _ => if_congr ?_ rfl rfl
  simp only [CallRecord.inForce, Bool.or_eq_true, beq_iff_eq]

/-! ### The chain -/

/-- The clauses of a post that takes part: its tier, its share of the split and the clip cause (R92, R96). -/
theorem computation_of_offer {s : State} {r : CallRecord} (table : PeerTable s) (call : s.call = some r)
    (offers : 0 < s.offer) (t : Trigger) :
    let ap := s.computation t
    ap.tier = some s.cls ∧ (s.ownParticipant, ap.result) ∈ apportion ap.available (s.participants r.callId) ∧
      ap.result ≤ s.offer ∧ ap.clip = if ap.result < s.offer then .headroom else s.settingTerm.clip := by
  intro ap
  have share : (s.ownParticipant, ap.result) ∈ apportion ap.available (s.participants r.callId) := by
    rw [computation_result call t, if_pos offers]
    exact s.ownShare_mem table offers _ _
  have within : ap.result ≤ s.offer := apportion_le_offer (s.participants_offer_pos r.callId) _ _ share
  exact ⟨(computation_tier call t).trans (if_pos offers), share, within,
    (computation_clip call t).trans (State.clipOf_of_le offers within)⟩

/-- The clauses of a post that takes no part (R96). -/
theorem computation_of_no_offer {s : State} {r : CallRecord} (call : s.call = some r) (noOffer : s.offer = 0)
    (t : Trigger) :
    (s.computation t).tier = none ∧ (s.computation t).result = 0 ∧ (s.computation t).clip = .noCause := by
  have out : ¬0 < s.offer := by omega
  exact ⟨(computation_tier call t).trans (if_neg out), (computation_result call t).trans (if_neg out),
    (computation_clip call t).trans (State.clipOf_of_no_offer noOffer _)⟩

theorem computation_lEff_le (s : State) (t : Trigger) : (s.computation t).lEff ≤ s.sp.config.xfmrRating := by
  rw [computation_lEff, computation_lTherm]
  exact (curbedHeadroom_le ..).trans (thermalHeadroom_le ..)

/-- Settles O36: each clause is the equation of its stage; the own share is the own post's because no peer stands at the
own stall, and the shares sum as the fill of the tiers does. -/
theorem headroomChainNarrows : Obligations.HeadroomChainNarrows := by
  refine ⟨fun s trigger _ table first last => ?_, fun s trigger => by rw [compute_eq, markServing_eq]⟩
  intro c ap own carries
  have candidates : carries = fun e u => e.candidate s.now = some u :=
    funext₂ fun _ _ => propext PeerEntry.candidate_eq_some_iff.symm
  clear_value carries
  subst candidates
  have census : ap.census = s.census := computation_census s trigger
  have roster : ap.census ≤ c.posts := census ▸ s.census_le_posts table first last
  refine ⟨fun u sample most => computation_temperature trigger (State.temperatureChoice_own sample most),
    fun before e after u entries carried less most cooler =>
      computation_temperature trigger (State.temperatureChoice_peer entries carried less most cooler),
    fun noSample cold => computation_temperature trigger (State.temperatureChoice_fallback noSample cold),
    fun curb inForce => ?curbed, fun noCurb => ?uncurbed, census.trans s.census_eq, roster,
    computation_lView s trigger, fun noCall => computation_of_no_call noCall trigger, fun r call => ?_,
    computation_trigger s trigger, computation_stepAt s trigger, computation_available s trigger ▸ Nat.sub_le ..,
    computation_goal_le_lView s trigger, computation_lView s trigger ▸ viewHeadroom_le _ roster,
    computation_lEff_le s trigger⟩
  case curbed => exact (computation_lEff s trigger).trans (by rw [inForce]; rfl)
  case uncurbed => exact (computation_lEff s trigger).trans (by rw [noCurb]; rfl)
  intro takesPart self ps
  have participates : takesPart = PeerEntry.participates s.now r.callId :=
    funext fun e => (e.participates_eq s.now r.callId).symm
  clear_value takesPart
  subst participates
  refine ⟨(computation_call s trigger).trans (congrArg _ call), computation_goal call trigger,
    computation_available s trigger, (computation_fixedLoad call trigger).trans (fixedLoadOf_eq ..),
    computation_participants call trigger, fun offers => ?_,
    fun noOffer => computation_of_no_offer call noOffer trigger,
    apportion_sum (s.participants_cls_le table r.callId) _⟩
  obtain ⟨tier, share, within, clip⟩ := computation_of_offer table call offers trigger
  refine ⟨tier, share, within, clip.trans (if_congr Iff.rfl rfl ?_)⟩
  cases s.settingTerm <;> rfl

end Sys2Proof.Machine
end

