-- ==== Sys2Proof/Proofs/StepRule.lean ====
section
/-!
What a step can do, said once: every command answers a next state, and a property that every command keeps, and that the
passing of a millisecond, the levels on the pins and the taking of a command from the queue keep, is kept by every step.
The operations that Laws/Blocks leaves out get their frames here.
-/
namespace Sys2Proof.Safety

open Sys2Proof Sys2Proof.Machine

/-! ### Answering a next state -/

/-- The outcome is a next state with the property. -/
def Answers (o : Host.Outcome State Fault Refusal) (P : State → Prop) : Prop := ∃ t, o = .next t ∧ P t

@[simp] theorem answers_next {t : State} {P : State → Prop} : Answers (.next t) P ↔ P t :=
  ⟨fun ⟨_, e, h⟩ => by cases e; exact h, fun h => ⟨t, rfl, h⟩⟩

theorem Answers.of_next {o : Host.Outcome State Fault Refusal} {P : State → Prop} {t : State} (a : Answers o P)
    (e : o = .next t) : P t := by
  subst e; exact answers_next.mp a

theorem Answers.imp {o : Host.Outcome State Fault Refusal} {P Q : State → Prop} (a : Answers o P)
    (h : ∀ t, P t → Q t) : Answers o Q := by
  obtain ⟨t, e, p⟩ := a
  exact ⟨t, e, h t p⟩

theorem Answers.imp' {o : Host.Outcome State Fault Refusal} {P Q : State → Prop} (a : Answers o P)
    (h : ∀ t, o = .next t → P t → Q t) : Answers o Q := by
  obtain ⟨t, e, p⟩ := a
  exact ⟨t, e, h t e p⟩

/-! ### The intake of a call -/

/-- What the intake makes of a state (R42 to R47): nothing, a discarded call, or a new table with its events, after which
a creation or a revision may wake the post (R174). -/
theorem intake_cases (s : State) (d : CallFrame) :
    (s.intake d).1 = s ∨ (s.intake d).1 = s.raise .callDiscarded ∨
      ∃ (k : EventKind) (b : Bool) (n : Nat) (rs : List CallRecord),
        (s.intake d).1 = ((s.raiseIf b k).raiseTimes .callState n).setCalls rs ∨
          ∃ r, (s.intake d).1 = (((s.raiseIf b k).raiseTimes .callState n).setCalls rs).callNotice r := by
  unfold State.intake
  split
  · unfold State.createCall
    split
    · exact .inl rfl
    · split
      · exact .inr (.inl rfl)
      · exact .inr (.inr ⟨_, _, _, _, .inr ⟨_, rfl⟩⟩)
  · split
    · exact .inr (.inr ⟨.callRevised, true, _, _, .inr ⟨_, rfl⟩⟩)
    · split
      · exact .inr (.inr ⟨.callRevised, false, _, _, .inl rfl⟩)
      · exact .inl rfl

@[simp] theorem intake_frame (s : State) (d : CallFrame) :
    (s.intake d).1.now = s.now ∧ (s.intake d).1.draws = s.draws ∧ (s.intake d).1.lp = s.lp ∧
      (s.intake d).1.pv = s.pv ∧ (s.intake d).1.ea = s.ea ∧ (s.intake d).1.mt = s.mt ∧
      (s.intake d).1.cu = s.cu ∧ (s.intake d).1.cc = s.cc ∧ (s.intake d).1.sp.config = s.sp.config ∧
      (s.intake d).1.sp.clamped = s.sp.clamped ∧ (s.intake d).1.sp.pendingKey = s.sp.pendingKey ∧
      (s.intake d).1.sp.locked = s.sp.locked ∧ (s.intake d).1.sp.restarting = s.sp.restarting ∧
      (s.intake d).1.sp.pointer = s.sp.pointer ∧ (s.intake d).1.sp.response = s.sp.response ∧
      (s.intake d).1.pending = s.pending ∧ (s.intake d).1.inputs = s.inputs := by
  rcases intake_cases s d with e | e | ⟨k, b, n, rs, e | ⟨r, e⟩⟩ <;> rw [e] <;> simp

/-! ### The restart and the start -/

/-- The completion of a restart is the state that R178 describes, with the intervals that it draws. -/
theorem completeRestart_eq_restartedInto (s : State) (o : PostMode) (d : Bool) :
    s.completeRestart o d = restartedInto s (restartMode o d) (s.drawn 10000 1000)
      (s.countDraw.drawn 1000 100) := by
  have joins : restartMode o d ≠ .config := by
    unfold restartMode
    cases o <;> cases d <;> decide
  unfold State.completeRestart
  dsimp only
  rw [setMode_of_none _ _ (by rfl)]
  by_cases locks : restartMode o d = .lockout
  · rw [if_pos locks, locks]
    rfl
  · rw [if_neg locks, startStanding_empty _ rfl joins locks]
    simp only [restartedInto, if_neg locks]
    rfl

end Sys2Proof.Safety
end

