-- ==== Sys2Proof/Proofs/Frames.lean ====
section
/-!
What each command leaves unchanged, said once for all commands (`exec_spares`). A command of one block leaves the others
as they are, but for what may come about at once (`Moves`): a waiting frame taken, a serving flag set, a park completed
or a post woken by its plug. The statements on what every step keeps look only at the commands that are left.
-/
namespace Sys2Proof.Safety

open Sys2Proof Sys2Proof.Machine

/-! ### What may come about at once, block by block -/

/-- The line as the taking of a waiting frame may leave it (R26). -/
def LineMoves (l l' : LinePort) : Prop :=
  l' = l ∨ (l.inFlight = none ∧ ∃ f q body, l.queue = f :: q ∧
    l' = { l with
      queue := q, inFlight := some ⟨l.seq, body, 1, .sending⟩, seq := (l.seq + 1) % 256, lineIdle := false })

/-- The call records as a computation may leave them (R57). -/
def Served (rs rs' : List CallRecord) : Prop := rs' = rs ∨ rs' = markServing rs

/-- The mode as a park's completion and a plug high may leave it (R172, R174). -/
def ModeMoves (m : PostMode) (waits : Option Restarting) (m' : PostMode) : Prop :=
  m' = m ∨ (waits = none ∧ (m = .parking ∨ m = .dormant) ∧ (m' = .hold ∨ m' = .dormant ∨ m' = .active))

@[simp] theorem LineMoves.refl (l : LinePort) : LineMoves l l := .inl rfl
@[simp] theorem Served.refl (rs : List CallRecord) : Served rs rs := .inl rfl
@[simp] theorem ModeMoves.refl (m : PostMode) (r : Option Restarting) : ModeMoves m r m := .inl rfl

theorem Served.trans {rs rs' rs'' : List CallRecord} (h : Served rs rs') (g : Served rs' rs'') : Served rs rs'' := by
  rcases h with rfl | rfl <;> rcases g with rfl | rfl
  · exact .inl rfl
  · exact .inr rfl
  · exact .inr rfl
  · exact .inr (markServing_twice rs)

/-- The line port is its own part that the reactions leave, with the part that they may move. -/
theorem LineMoves.of_moves {s t : State} (h : Moves s t) (rest : blank t = blank s) : LineMoves s.lp t.lp := by
  rcases h.line with same | ⟨none, _, f, q, queue, queue', seq, idle, body, flight⟩
  · exact .inl same
  · refine .inr ⟨none, f, q, body, queue, ?_⟩
    have stall := blank_lp_stall rest
    have failures := blank_lp_echoFailures rest
    have timer := blank_lp_standingAt rest
    have stats := blank_lp_stats rest
    generalize t.lp = l at *
    cases l
    simp_all

theorem LineMoves.trans {l l' l'' : LinePort} (h : LineMoves l l') (g : LineMoves l' l'') : LineMoves l l'' := by
  rcases h with rfl | ⟨none, f, q, body, queue, rfl⟩
  · exact g
  · rcases g with rfl | ⟨none', _⟩
    · exact .inr ⟨none, f, q, body, queue, rfl⟩
    · cases none'

@[simp] theorem LineMoves.finish {l : LinePort} {s : State} (h : LineMoves l s.lp) : LineMoves l s.finish.lp :=
  h.trans (.of_moves (finish_moves s) s.finish_frame)

@[simp] theorem LineMoves.takeFrame {l : LinePort} {s : State} (h : LineMoves l s.lp) : LineMoves l s.takeFrame.lp :=
  h.trans (.of_moves (takeFrame_moves s) s.takeFrame_frame)

@[simp] theorem Served.finish {rs : List CallRecord} {s : State} (h : Served rs s.ct.records) :
    Served rs s.finish.ct.records :=
  h.trans (finish_moves s).records

@[simp] theorem Served.takeFrame {rs : List CallRecord} {s : State} (h : Served rs s.ct.records) :
    Served rs s.takeFrame.ct.records :=
  h.trans (takeFrame_moves s).records

@[simp] theorem Served.compute {rs : List CallRecord} {s : State} (k : Trigger) (h : Served rs s.ct.records) :
    Served rs (s.compute k).ct.records :=
  h.trans (compute_records s k)

theorem ModeMoves.trans {m m' m'' : PostMode} {r : Option Restarting} (h : ModeMoves m r m') (g : ModeMoves m' r m'') :
    ModeMoves m r m'' := by
  rcases h with rfl | ⟨alone, leaves, _⟩
  · exact g
  · rcases g with rfl | ⟨_, _, enters⟩
    · exact .inr ⟨alone, leaves, by assumption⟩
    · exact .inr ⟨alone, leaves, enters⟩

theorem ModeMoves.of_moves {s t : State} (h : Moves s t) : ModeMoves s.sp.mode s.sp.restarting t.sp.mode := by
  rcases h.mode with same | ⟨alone, ⟨parks, hold | ⟨dormant, _⟩⟩ | ⟨dormant, _, active⟩⟩
  · exact .inl same
  · exact .inr ⟨alone, .inl parks, .inl hold⟩
  · exact .inr ⟨alone, .inl parks, .inr (.inl dormant)⟩
  · exact .inr ⟨alone, .inr dormant, .inr (.inr active)⟩

@[simp] theorem ModeMoves.finish {m : PostMode} {r : Option Restarting} {s : State} (h : ModeMoves m r s.sp.mode)
    (hr : s.sp.restarting = r) : ModeMoves m r s.finish.sp.mode :=
  h.trans (hr ▸ .of_moves (finish_moves s))

@[simp] theorem State.takeFrame_sp (s : State) : s.takeFrame.sp = s.sp := by
  unfold State.takeFrame
  repeat' split
  all_goals rfl

@[simp] theorem State.takeFrame_cc (s : State) : s.takeFrame.cc = s.cc := by
  unfold State.takeFrame
  repeat' split
  all_goals rfl

@[simp] theorem State.takeFrame_vl (s : State) : s.takeFrame.vl = s.vl := by
  unfold State.takeFrame
  repeat' split
  all_goals rfl

@[simp] theorem State.takeFrame_ct (s : State) : s.takeFrame.ct = s.ct := by
  unfold State.takeFrame
  repeat' split
  all_goals rfl

@[simp] theorem State.takeFrame_ea (s : State) : s.takeFrame.ea = s.ea := by
  unfold State.takeFrame
  repeat' split
  all_goals rfl

@[simp] theorem State.takeFrame_ap (s : State) : s.takeFrame.ap = s.ap := by
  unfold State.takeFrame
  repeat' split
  all_goals rfl

/-! ### The stall, which no frame changes -/

@[simp] theorem enqueue_stall (s : State) (f : QueuedFrame) : (s.enqueue f).lp.stall = s.lp.stall := by
  unfold State.enqueue
  split <;> simp [enqueueNow_eq]

@[simp] theorem meetDuplicate_stall (s : State) : s.meetDuplicate.lp.stall = s.lp.stall := by
  unfold State.meetDuplicate
  dsimp only
  split
  · rfl
  · unfold State.enterLockout
    dsimp only
    split <;> simp

@[simp] theorem startStanding_stall (s : State) : s.startStanding.lp.stall = s.lp.stall := by
  unfold State.startStanding State.enqueueStanding
  dsimp only
  split <;> simp [enqueueNow_eq]

@[simp] theorem enqueueAll_stall (s : State) (ds : List CallFrame) : (s.enqueueAll ds).lp.stall = s.lp.stall := by
  induction ds generalizing s with
  | nil => rfl
  | cons d ds ih => exact (ih _).trans (enqueue_stall s _)

@[simp] theorem compute_repeats (s : State) (k : Trigger) : (s.compute k).ct.repeats = s.ct.repeats := by
  rw [compute_eq]

/-! ### A curb and a sensor sample -/

@[simp] theorem Served.curbComputation {rs : List CallRecord} {s : State} (h : Served rs s.ct.records) :
    Served rs s.curbComputation.ct.records := by
  unfold State.curbComputation
  dsimp only
  split <;> simp [h]

@[simp] theorem Served.applyCurb {rs : List CallRecord} {s : State} {level hold : Nat} (h : Served rs s.ct.records) :
    Served rs (s.applyCurb level hold).ct.records := by
  unfold State.applyCurb
  exact .curbComputation h

@[simp] theorem Served.takeSample {rs : List CallRecord} {s : State} {t : Int} (h : Served rs s.ct.records) :
    Served rs (s.takeSample t).ct.records := by
  unfold State.takeSample State.originate
  dsimp only
  split <;> simp [h]

@[simp] theorem curbComputation_repeats (s : State) : s.curbComputation.ct.repeats = s.ct.repeats := by
  unfold State.curbComputation
  dsimp only
  split <;> simp [compute_eq]

@[simp] theorem applyCurb_repeats (s : State) (level hold : Nat) : (s.applyCurb level hold).ct.repeats = s.ct.repeats :=
  curbComputation_repeats _

@[simp] theorem startEchoTimer_ct (s : State) :
    s.startEchoTimer.ct = { s.ct with echoAt := some (s.now + s.drawn 10000 1000) } := rfl

@[simp] theorem takeSample_repeats (s : State) (t : Int) : (s.takeSample t).ct.repeats = s.ct.repeats := by
  unfold State.takeSample State.originate State.applyCurb
  dsimp only
  split <;> simp

@[simp] theorem setCalls_repeats (s : State) (rs : List CallRecord) : (s.setCalls rs).ct.repeats = s.ct.repeats := by
  unfold State.setCalls
  dsimp only
  split <;> simp [compute_eq]

@[simp] theorem setCalls_served (s : State) (rs : List CallRecord) : Served rs (s.setCalls rs).ct.records := by
  unfold State.setCalls
  dsimp only
  split <;> simp -implicitDefEqProofs

@[simp] theorem intake_repeats (s : State) (d : CallFrame) : (s.intake d).1.ct.repeats = s.ct.repeats := by
  rcases intake_cases s d with e | e | ⟨k, b, n, rs, e | ⟨r, e⟩⟩ <;> rw [e] <;> simp

@[simp] theorem enqueueAll_frame (s : State) (ds : List CallFrame) :
    (s.enqueueAll ds).now = s.now ∧ (s.enqueueAll ds).draws = s.draws ∧ (s.enqueueAll ds).pv = s.pv ∧
      (s.enqueueAll ds).ct = s.ct ∧ (s.enqueueAll ds).ea = s.ea ∧ (s.enqueueAll ds).mt = s.mt ∧
      (s.enqueueAll ds).ap = s.ap ∧ (s.enqueueAll ds).cu = s.cu ∧ (s.enqueueAll ds).cc = s.cc ∧
      (s.enqueueAll ds).vl = s.vl ∧ (s.enqueueAll ds).sp.mode = s.sp.mode ∧
      (s.enqueueAll ds).sp.config = s.sp.config ∧ (s.enqueueAll ds).sp.clamped = s.sp.clamped ∧
      (s.enqueueAll ds).sp.pendingKey = s.sp.pendingKey ∧ (s.enqueueAll ds).sp.locked = s.sp.locked ∧
      (s.enqueueAll ds).sp.restarting = s.sp.restarting ∧ (s.enqueueAll ds).sp.pointer = s.sp.pointer ∧
      (s.enqueueAll ds).sp.response = s.sp.response ∧ (s.enqueueAll ds).pending = s.pending ∧
      (s.enqueueAll ds).inputs = s.inputs := by
  induction ds generalizing s with
  | nil => simp [State.enqueueAll]
  | cons d ds ih =>
    have := ih (s.enqueue (.dispatch d))
    simp_all [State.enqueueAll]

end Sys2Proof.Safety
end

