-- ==== Sys2Proof/Proofs/Counts.lean ====
section
/-!
The occurrence counts keep to their limit (R181): raising a kind keeps it, and every shared operation raises kinds and
does nothing else to the counts.
-/
namespace Sys2Proof.Safety

open Sys2Proof Sys2Proof.Machine

/-- No occurrence count of an event set exceeds 255. -/
def Bounded (e : EventSet) : Prop := ∀ n ∈ e.toList, n ≤ 255

variable {s : State}

theorem Bounded.raise {k : EventKind} (h : Bounded s.sp.events) : Bounded (s.raise k).sp.events :=
  EventSet.raise_bounded _ k h

theorem Bounded.raiseTimes {k : EventKind} {n : Nat} (h : Bounded s.sp.events) :
    Bounded (s.raiseTimes k n).sp.events := by
  rw [State.raiseTimes_eq]
  exact EventSet.raiseTimes_bounded _ k n h

theorem Bounded.setTimes {e : EventSet} {k : EventKind} {n : Nat} (h : Bounded e) : Bounded (e.raiseTimes k n) :=
  EventSet.raiseTimes_bounded _ k n h

theorem Bounded.raiseIf {b : Bool} {k : EventKind} (h : Bounded s.sp.events) : Bounded (s.raiseIf b k).sp.events := by
  rw [State.raiseIf_eq]
  exact EventSet.raiseTimes_bounded _ k _ h

theorem Bounded.setSp {x : Supervisor} (h : Bounded s.sp.events) (same : x.events = s.sp.events := by rfl) :
    Bounded (s.setSp x).sp.events := by
  rw [State.setSp_sp, same]
  exact h

theorem Bounded.of_sp {s t : State} (h : Bounded s.sp.events) (same : t.sp.events = s.sp.events) : Bounded t.sp.events :=
  same ▸ h

theorem count_le_of_bounded {e : EventSet} (h : Bounded e) (k : EventKind) : e.count k ≤ 255 :=
  h _ (by unfold EventSet.count; simp)

/-- Each of the 31 positions of the event set is the code of a kind. -/
theorem code_surjective (i : Fin 31) : ∃ k : EventKind, k.code = i := by
  fin_cases i
  exacts [⟨.peerNew, rfl⟩, ⟨.peerLost, rfl⟩, ⟨.rosterMismatch, rfl⟩, ⟨.isolationOn, rfl⟩, ⟨.isolationOff, rfl⟩,
    ⟨.duplicateStall, rfl⟩, ⟨.frameDropped, rfl⟩, ⟨.callNew, rfl⟩, ⟨.callRevised, rfl⟩, ⟨.callState, rfl⟩,
    ⟨.callDiscarded, rfl⟩, ⟨.callWake, rfl⟩, ⟨.curbSent, rfl⟩, ⟨.curbReceived, rfl⟩, ⟨.cut, rfl⟩,
    ⟨.sensorFault, rfl⟩, ⟨.vehicleAttached, rfl⟩, ⟨.vehicleDetached, rfl⟩, ⟨.vehicleReady, rfl⟩,
    ⟨.tuneFailed, rfl⟩, ⟨.rangeClamp, rfl⟩, ⟨.linkLost, rfl⟩, ⟨.vehicleFault, rfl⟩, ⟨.stopRequest, rfl⟩,
    ⟨.ceilingLowered, rfl⟩, ⟨.convStartFail, rfl⟩, ⟨.convTrip, rfl⟩, ⟨.convFault, rfl⟩, ⟨.energyLow, rfl⟩,
    ⟨.energyRestored, rfl⟩, ⟨.meterSaturated, rfl⟩]

theorem bounded_of_count_le {e : EventSet} (h : ∀ k, e.count k ≤ 255) : Bounded e := by
  intro n mem
  obtain ⟨i, lt, rfl⟩ := List.mem_iff_getElem.mp mem
  obtain ⟨k, hk⟩ := code_surjective ⟨i, by simpa using lt⟩
  simpa [EventSet.count, hk] using h k

theorem Bounded.finish (h : Bounded s.sp.events) : Bounded s.finish.sp.events :=
  bounded_of_count_le fun k => ((finish_moves s).counts k (count_le_of_bounded h k)).2

theorem Bounded.enqueue {f : QueuedFrame} (h : Bounded s.sp.events) : Bounded (s.enqueue f).sp.events := by
  unfold State.enqueue
  split
  · exact .raiseIf h
  · exact h

theorem Bounded.enqueueAll {ds : List CallFrame} (h : Bounded s.sp.events) : Bounded (s.enqueueAll ds).sp.events := by
  induction ds generalizing s with
  | nil => exact h
  | cons d ds ih => exact ih h.enqueue

theorem Bounded.startStanding (h : Bounded s.sp.events) : Bounded s.startStanding.sp.events := by
  unfold State.startStanding State.enqueueStanding
  dsimp only
  split
  · exact .raiseIf h
  · exact h

theorem Bounded.isolate {b : Bool} (h : Bounded s.sp.events) : Bounded (s.isolate b).sp.events := .raiseIf h

theorem Bounded.clearIsolation (h : Bounded s.sp.events) : Bounded s.clearIsolation.sp.events := .raise h

theorem Bounded.acceptStanding {stall seq : Nat} {a : Announced} (h : Bounded s.sp.events) :
    Bounded (s.acceptStanding stall seq a).sp.events := .raiseIf h

theorem Bounded.ownEchoed (h : Bounded s.sp.events) : Bounded s.ownEchoed.sp.events := by
  unfold State.ownEchoed
  dsimp only
  repeat' split
  all_goals first | exact .clearIsolation h | exact h

theorem Bounded.givenUp (h : Bounded s.sp.events) : Bounded s.givenUp.sp.events := by
  unfold State.givenUp State.ownNotEchoed
  dsimp only
  have raised := Bounded.raise (k := .frameDropped) h
  split
  · exact .isolate raised
  · exact raised

theorem Bounded.meetDuplicate (h : Bounded s.sp.events) : Bounded s.meetDuplicate.sp.events := by
  unfold State.meetDuplicate
  dsimp only
  have raised := Bounded.raise (k := .duplicateStall) h
  split
  · exact raised
  · rw [State.enterLockout_sp_events]
    exact raised

theorem Bounded.completeRestart {o : PostMode} {d : Bool} (h : Bounded s.sp.events) :
    Bounded (s.completeRestart o d).sp.events := by
  rw [completeRestart_eq_restartedInto]
  exact h

theorem Bounded.leaveEchoed {b : FrameBody} (h : Bounded s.sp.events) : Bounded (s.leaveEchoed b).sp.events := by
  unfold State.leaveEchoed
  split
  · exact h.completeRestart
  · exact h

theorem Bounded.setCalls {rs : List CallRecord} (h : Bounded s.sp.events) : Bounded (s.setCalls rs).sp.events := by
  rw [State.setCalls_sp]
  exact h

theorem Bounded.callNotice {r : CallRecord} (h : Bounded s.sp.events) : Bounded (s.callNotice r).sp.events := by
  unfold State.callNotice
  split
  · exact .raise (by rw [State.setMode_sp_events]; exact h)
  · exact h

theorem Bounded.intake {d : CallFrame} (h : Bounded s.sp.events) : Bounded (s.intake d).1.sp.events := by
  rcases intake_cases s d with e | e | ⟨k, b, n, rs, e | ⟨r, e⟩⟩ <;> rw [e]
  · exact h
  · exact .raise h
  · exact .setCalls (.raiseTimes (.raiseIf h))
  · exact .callNotice (.setCalls (.raiseTimes (.raiseIf h)))

theorem Bounded.takeCall {d : CallFrame} (h : Bounded s.sp.events) : Bounded (s.takeCall d).1.sp.events := by
  unfold State.takeCall
  dsimp only
  split
  · exact h.intake
  · exact .enqueue h.intake

theorem Bounded.applyCurb {level hold : Nat} (h : Bounded s.sp.events) : Bounded (s.applyCurb level hold).sp.events := by
  unfold State.applyCurb State.curbComputation
  dsimp only
  have same := h.of_sp (t := (State.setCu s { s.cu with
    curb := some (curbApplied s.cu.curb s.now level hold) }).compute .curb) (by simp)
  split
  · exact .raise same
  · exact same

theorem Bounded.takeSample {x : Int} (h : Bounded s.sp.events) : Bounded (s.takeSample x).sp.events := by
  have judged : Bounded (s.judgeReading x).sp.events := by
    unfold State.judgeReading
    split
    · exact h
    · exact .raiseIf h
  unfold State.takeSample State.originate
  dsimp only
  split
  · exact .applyCurb (.raise judged.enqueue)
  · exact judged

theorem Bounded.start (h : Bounded s.sp.events) : Bounded s.start.sp.events := by
  unfold State.start
  dsimp only
  have started : Bounded (State.startStanding (State.startEchoTimer (State.startTimers ((s.setSp { s.sp with
      mode := .active, locked := true }).setVl { s.vl with desired := desiredLevel s.sp.config })))).sp.events :=
    .startStanding h
  split
  · exact .takeSample started
  · exact started

theorem Bounded.beginRestart (h : Bounded s.sp.events) : Bounded s.beginRestart.sp.events := by
  unfold State.beginRestart
  rw [State.releaseForRestart_sp]
  exact .enqueue (h.of_sp (by simp))

theorem Bounded.parkTest (h : Bounded s.sp.events) : Bounded s.parkTest.sp.events := by
  unfold State.parkTest
  split
  · rw [State.setMode_sp_events]
    exact h
  · exact h

theorem Bounded.convFails {k : EventKind} (h : Bounded s.sp.events) : Bounded (s.convFails k).sp.events :=
  .raiseIf (.raise h)

theorem Bounded.failSession {cause : LastFailure} {wait : Nat} (h : Bounded s.sp.events) :
    Bounded (s.failSession cause wait).sp.events := .raiseIf h

theorem Bounded.identifyFails {cause : LastFailure} (h : Bounded s.sp.events) :
    Bounded (s.identifyFails cause).sp.events := .failSession (s := s.setVl _) h

theorem Bounded.linkLost (h : Bounded s.sp.events) : Bounded s.linkLost.sp.events :=
  .failSession (s := (s.raise .linkLost).setVl _) (.raise h)

theorem Bounded.identifyItem {k : Nat} {v : Int} (h : Bounded s.sp.events) : Bounded (s.identifyItem k v).sp.events := by
  unfold State.identifyItem State.identifyCompletes
  dsimp only
  repeat' split
  all_goals first | exact .failSession (s := s.setVl _) h | simpa using h

theorem Bounded.settleEnds (h : Bounded s.sp.events) : Bounded s.settleEnds.sp.events :=
  .raiseIf (.raiseIf h)

theorem Bounded.holdReply {status : TuneStatus} {level : Nat} (h : Bounded s.sp.events) :
    Bounded (s.holdReply status level).sp.events := by
  unfold State.holdReply
  dsimp only
  split
  · exact .settleEnds (s := s.setVl _) h
  · exact h

theorem Bounded.meetCeiling {c : Nat} (h : Bounded s.sp.events) : Bounded (s.meetCeiling c).sp.events := .raiseIf h

theorem Bounded.meetStop {b : Bool} (h : Bounded s.sp.events) : Bounded (s.meetStop b).sp.events := by
  unfold State.meetStop
  repeat' split
  all_goals first | exact h | exact .raise h

theorem Bounded.zero : Bounded (Vector.replicate 31 0) := by
  intro n mem
  simp at mem
  omega

end Sys2Proof.Safety
end

