-- ==== Sys2Proof/Proofs/Spares.lean ====
section
/-!
The commands by the blocks that they write, and what each leaves as it is (`exec_spares`).
-/
namespace Sys2Proof.Safety

open Sys2Proof Sys2Proof.Machine

/-! ### Which commands write a block -/

/-- The commands that complete a restart, begin its wait, or start or reset the part: they write every block. -/
def writesAll : Instr → Bool
  | .hardwareReset _ | .join | .restart | .restartWaitExpiry | .echoSuccess _ => true
  | _ => false

/-- The frames heard on the line that carry a stall. -/
def hearsStall : Instr → Bool
  | .standing .. | .leave .. | .dispatch .. | .curb .. | .duplicateStall _ => true
  | _ => false

/-- The commands that write the peer view. -/
def writesPeers : Instr → Bool
  | .standing .. | .leave .. | .dispatch .. | .curb .. | .sweep | .lastHeardExpiry | .rejoinHoldExpiry | .collision _ => true
  | c => writesAll c

/-- The commands that write the line port. -/
def writesLine : Instr → Bool
  | .call _ | .badFrame | .standingTimer | .lineIdle | .collision _ | .backoffEnd _ | .echoTimer | .repeatCopyDue
  | .sensorSample _ => true
  | c => writesAll c || hearsStall c

/-- The commands that write the call records. -/
def writesCalls : Instr → Bool
  | .call _ | .dispatch .. | .callTimer | .startCountdownExpiry _ | .remainingActiveExpiry _ | .deferredExpiry _
  | .retentionExpiry _ | .apportionStep | .meterSample => true
  | c => writesAll c

/-- The commands that write the repeat list. -/
def writesRepeats : Instr → Bool
  | .call _ | .repeatCopyDue => true
  | c => writesAll c

/-- The commands that write the mode, but for what the reactions make of it. -/
def writesMode : Instr → Bool
  | .call _ | .park | .wake | .parkComplete => true
  | c => writesAll c || hearsStall c

/-- The commands that write the configuration, its lock or the pending key. -/
def writesConfig : Instr → Bool
  | .hardwareReset _ | .select _ | .value _ | .join => true
  | _ => false

/-- What a command leaves as it is. -/
structure Spares (c : Instr) (s t : State) : Prop where
  pending : t.pending = s.pending
  inputs : t.inputs = s.inputs
  clock : (∀ straps, c ≠ .hardwareReset straps) → s.now ≤ t.now
  stall : (∀ straps, c ≠ .hardwareReset straps) → t.lp.stall = s.lp.stall
  peers : writesPeers c = false → t.pv = s.pv
  line : writesLine c = false → LineMoves s.lp t.lp
  calls : writesCalls c = false → Served s.ct.records t.ct.records
  repeats : writesRepeats c = false → t.ct.repeats = s.ct.repeats
  mode : writesMode c = false → ModeMoves s.sp.mode s.sp.restarting t.sp.mode
  config : writesConfig c = false →
    t.sp.config = s.sp.config ∧ t.sp.locked = s.sp.locked ∧ t.sp.pendingKey = s.sp.pendingKey
  waits : writesAll c = false → hearsStall c = false → t.sp.restarting = s.sp.restarting
  events : Bounded s.sp.events → Bounded t.sp.events
  meter : c ≠ .meterSample → writesAll c = false → t.mt = s.mt
  energy : c ≠ .join → (∀ straps, c ≠ .hardwareReset straps) → c ≠ .meterSample →
    t.mt.total = s.mt.total ∧ t.mt.residue = s.mt.residue

@[simp] theorem takeCall_frame (s : State) (d : CallFrame) :
    (s.takeCall d).1.now = s.now ∧ (s.takeCall d).1.pv = s.pv ∧ (s.takeCall d).1.ea = s.ea ∧
      (s.takeCall d).1.mt = s.mt ∧ (s.takeCall d).1.cu = s.cu ∧ (s.takeCall d).1.cc = s.cc ∧
      (s.takeCall d).1.lp.stall = s.lp.stall ∧
      (s.takeCall d).1.sp.config = s.sp.config ∧ (s.takeCall d).1.sp.pendingKey = s.sp.pendingKey ∧
      (s.takeCall d).1.sp.locked = s.sp.locked ∧ (s.takeCall d).1.sp.restarting = s.sp.restarting ∧
      (s.takeCall d).1.pending = s.pending ∧ (s.takeCall d).1.inputs = s.inputs := by
  unfold State.takeCall State.sendCall State.enqueue
  dsimp only
  repeat' split
  all_goals simp [enqueueNow_eq]

@[simp] theorem refuse_eq (s : State) (r : ResultCode) : s.refuse r = s.respond r .empty := rfl

/-- The wait of a restart as one update, with the LEAVE handed in (R177). -/
@[simp] theorem beginRestart_frame (s : State) :
    s.beginRestart.now = s.now ∧ s.beginRestart.pv = s.pv ∧ s.beginRestart.ct = s.ct ∧ s.beginRestart.mt = s.mt ∧
      s.beginRestart.lp.stall = s.lp.stall ∧ s.beginRestart.sp.mode = s.sp.mode ∧
      s.beginRestart.sp.config = s.sp.config ∧ s.beginRestart.sp.locked = s.sp.locked ∧
      s.beginRestart.sp.pendingKey = s.sp.pendingKey ∧
      s.beginRestart.sp.restarting = some ⟨s.sp.mode, false, s.now + 200⟩ ∧
      s.beginRestart.pending = s.pending ∧ s.beginRestart.inputs = s.inputs := by
  unfold State.beginRestart State.enqueue
  dsimp only
  split <;> simp [enqueueNow_eq]

@[simp] theorem takeSample_stall (s : State) (t : Int) : (s.takeSample t).lp.stall = s.lp.stall := by
  unfold State.takeSample State.originate State.enqueue
  dsimp only
  repeat' split
  all_goals simp [enqueueNow_eq]

@[simp] theorem start_frame (s : State) :
    s.start.now = s.now ∧ s.start.lp.stall = s.lp.stall ∧ s.start.sp.mode = .active ∧ s.start.sp.locked = true ∧
      s.start.sp.config = s.sp.config ∧ s.start.sp.pendingKey = s.sp.pendingKey ∧
      s.start.sp.restarting = s.sp.restarting ∧ s.start.pending = s.pending ∧ s.start.inputs = s.inputs := by
  unfold State.start
  dsimp only
  split <;> simp

@[simp] theorem leaveEchoed_frame (s : State) (b : FrameBody) :
    (s.leaveEchoed b).now = s.now ∧ (s.leaveEchoed b).lp.stall = s.lp.stall ∧ (s.leaveEchoed b).mt = s.mt ∧
      (s.leaveEchoed b).sp.config = s.sp.config ∧ (s.leaveEchoed b).sp.locked = s.sp.locked ∧
      (s.leaveEchoed b).sp.pendingKey = s.sp.pendingKey ∧ (s.leaveEchoed b).pending = s.pending ∧
      (s.leaveEchoed b).inputs = s.inputs := by
  unfold State.leaveEchoed
  split <;> simp [completeRestart_eq_restartedInto, restartedInto]

@[simp] theorem givenUp_stall (s : State) : s.givenUp.lp.stall = s.lp.stall := by
  simp [State.givenUp]

@[simp] theorem parkTest_frame (s : State) :
    s.parkTest.now = s.now ∧ s.parkTest.lp = s.lp ∧ s.parkTest.pv = s.pv ∧ s.parkTest.ct = s.ct ∧
      s.parkTest.mt = s.mt ∧ s.parkTest.sp.config = s.sp.config ∧ s.parkTest.sp.locked = s.sp.locked ∧
      s.parkTest.sp.pendingKey = s.sp.pendingKey ∧ s.parkTest.sp.restarting = s.sp.restarting ∧
      s.parkTest.pending = s.pending ∧ s.parkTest.inputs = s.inputs := by
  unfold State.parkTest
  split <;> simp

theorem Spares.refl (c : Instr) (s : State) : Spares c s s := by
  constructor <;> simp

/-- The three values of a POLLED leave what one reaction to each leaves. -/
theorem polled_spares (c : Instr) (s : State) (pack : Int) (level : Nat) (stop : Bool) :
    Spares c s (((s.endRequest.replacePack pack).finish.meetCeiling level).finish.meetStop stop).finish := by
  have line : LineMoves s.lp ((s.endRequest.replacePack pack).finish.meetCeiling level).finish.lp := by simp
  have calls : Served s.ct.records ((s.endRequest.replacePack pack).finish.meetCeiling level).finish.ct.records := by
    simp
  have mode : ModeMoves s.sp.mode s.sp.restarting
      ((s.endRequest.replacePack pack).finish.meetCeiling level).finish.sp.mode := by simp
  constructor
  case events => exact fun h => .finish (.meetStop (.finish (.meetCeiling (.finish (by simpa using h)))))
  all_goals simp -implicitDefEqProofs [line, calls, mode]

/-! ### The families of commands -/

/-- The commands of the supervisor port and of Mode Control (chapter 10). -/
def ofSupervisor : Instr → Bool
  | .hardwareReset _ | .select _ | .value _ | .join | .call _ | .park | .wake | .restart | .status | .point .. |
  .read | .unknownCommand .. | .parkComplete | .restartWaitExpiry => true
  | _ => false

/-- The frames heard, and the timers of the Peer View (chapter 1). -/
def ofPeers : Instr → Bool
  | .standing .. | .leave .. | .dispatch .. | .curb .. | .badFrame | .duplicateStall _ | .sweep |
  .lastHeardExpiry | .rejoinHoldExpiry => true
  | _ => false

/-- The commands of the own frames on the line (chapter 2). -/
def ofLine : Instr → Bool
  | .standingTimer | .lineIdle | .echoSuccess _ | .collision _ | .backoffEnd _ | .echoTimer | .repeatCopyDue => true
  | _ => false

/-- The timers of the calls, of the meters and of the curbs (chapters 3 to 6). -/
def ofCalls : Instr → Bool
  | .callTimer | .startCountdownExpiry _ | .remainingActiveExpiry _ | .deferredExpiry _ | .retentionExpiry _ |
  .apportionStep | .meterSample | .departureMinute | .sensorSample _ | .curbExpiry => true
  | _ => false

/-- The commands of Converter Control (chapter 7). -/
def ofConverter : Instr → Bool
  | .measStb _ | .faultHigh | .prechargeExpiry _ | .stableExpiry | .retryExpiry | .lingerExpiry | .stopComplete |
  .slewStep => true
  | _ => false

/-- The commands of the Vehicle Link (chapter 8). -/
def ofLink : Instr → Bool
  | .plugHigh | .plugLow | .wakeExpiry | .pilotRequestTaken | .requestSent | .replyTimerExpiry |
  .pilotFrameDisregarded | .item .. | .notReady .. | .unsupported .. | .identifyExpiry | .requeryExpiry |
  .sessionRetryExpiry | .pollExpiry | .refreshExpiry => true
  | _ => false

/-- The commands of chapter 9. -/
def ofSession : Instr → Bool
  | .tuned .. | .tuningExpiry | .stepDelayExpiry | .settleExpiry | .retuneExpiry | .retuneBegin | .engaged _ |
  .declined _ | .engageHoldExpiry | .shareZeroExpiry | .released _ | .polled .. => true
  | _ => false

theorem families (c : Instr) : ofSupervisor c = true ∨ ofPeers c = true ∨ ofLine c = true ∨ ofCalls c = true ∨
    ofConverter c = true ∨ ofLink c = true ∨ ofSession c = true := by
  cases c <;> simp [ofSupervisor, ofPeers, ofLine, ofCalls, ofConverter, ofLink, ofSession]

/-! ### What each family leaves as it is -/

theorem supervisor_spares (c : Instr) (s : State) (family : ofSupervisor c = true) : Answers (exec c s) (Spares c s) := by
  cases c <;> first | exact absurd family Bool.false_ne_true | simp only [exec, execHardwareReset, execSelect,
    execValue, execJoin, execCall, execPark, execWake, execRestart, execStatus, execPoint, execRead,
    execUnknownCommand, execParkComplete, execRestartWaitExpiry]
  all_goals
    repeat' split
    all_goals
      rw [answers_next]
      constructor
      case events =>
        intro h
        repeat' first
          | with_reducible exact h
          | with_reducible apply Bounded.finish | with_reducible apply Bounded.raise
          | with_reducible apply Bounded.raiseTimes | with_reducible apply Bounded.raiseIf
          | with_reducible apply Bounded.completeRestart
          | with_reducible apply Bounded.takeCall | with_reducible apply Bounded.start
          | with_reducible apply Bounded.beginRestart | with_reducible apply Bounded.parkTest
          | simp [Supervisor.writeKey]
          | exact .zero
      all_goals simp -implicitDefEqProofs [writesAll, hearsStall, writesPeers, writesLine, writesCalls,
        writesRepeats, writesMode, writesConfig,
        Supervisor.writeKey, completeRestart_eq_restartedInto, restartedInto]

theorem peers_spares (c : Instr) (s : State) (family : ofPeers c = true) : Answers (exec c s) (Spares c s) := by
  cases c <;> first | exact absurd family Bool.false_ne_true | simp only [exec, execStanding, execLeave, execDispatch,
    execCurb, execBadFrame, execDuplicateStall, execSweep, execLastHeardExpiry, execRejoinHoldExpiry]
  all_goals
    repeat' split
    all_goals
      rw [answers_next]
      constructor
      case events =>
        intro h
        repeat' first
          | with_reducible exact h
          | with_reducible apply Bounded.finish | with_reducible apply Bounded.raise
          | with_reducible apply Bounded.raiseTimes | with_reducible apply Bounded.raiseIf
          | with_reducible apply Bounded.meetDuplicate
          | with_reducible apply Bounded.clearIsolation | with_reducible apply Bounded.acceptStanding
          | with_reducible apply Bounded.intake | with_reducible apply Bounded.applyCurb
          | with_reducible apply Bounded.isolate
          | simp
      all_goals simp -implicitDefEqProofs [writesAll, hearsStall, writesPeers, writesLine, writesCalls,
        writesRepeats, writesMode, writesConfig, State.countReceived]

theorem line_spares (c : Instr) (s : State) (family : ofLine c = true) : Answers (exec c s) (Spares c s) := by
  cases c <;> first | exact absurd family Bool.false_ne_true | simp only [exec, execStandingTimer, execLineIdle,
    execEchoSuccess, execCollision, execBackoffEnd, execEchoTimer, execRepeatCopyDue]
  all_goals
    repeat' split
    all_goals
      rw [answers_next]
      constructor
      case events =>
        intro h
        repeat' first
          | with_reducible exact h
          | with_reducible apply Bounded.finish | with_reducible apply Bounded.raise
          | with_reducible apply Bounded.raiseTimes | with_reducible apply Bounded.raiseIf
          | with_reducible apply Bounded.enqueue
          | with_reducible apply Bounded.enqueueAll | with_reducible apply Bounded.startStanding
          | with_reducible apply Bounded.ownEchoed | with_reducible apply Bounded.leaveEchoed
          | with_reducible apply Bounded.givenUp
          | simp
      all_goals simp -implicitDefEqProofs [writesAll, hearsStall, writesPeers, writesLine, writesCalls,
        writesRepeats, writesMode, writesConfig, State.setLine, State.collided, State.beginAttempt]

theorem calls_spares (c : Instr) (s : State) (family : ofCalls c = true) : Answers (exec c s) (Spares c s) := by
  cases c <;> first | exact absurd family Bool.false_ne_true | simp only [exec, execCallTimer,
    execStartCountdownExpiry, execRemainingActiveExpiry, execDeferredExpiry, execRetentionExpiry, execApportionStep,
    execMeterSample, execDepartureMinute, execSensorSample, execCurbExpiry]
  all_goals
    repeat' split
    all_goals
      rw [answers_next]
      constructor
      case events =>
        intro h
        repeat' first
          | with_reducible exact h
          | with_reducible apply Bounded.finish | with_reducible apply Bounded.raise
          | with_reducible apply Bounded.raiseTimes | with_reducible apply Bounded.raiseIf
          | with_reducible apply Bounded.setTimes | with_reducible apply Bounded.setCalls
          | with_reducible apply Bounded.takeSample
          | simp
      all_goals simp -implicitDefEqProofs [writesAll, hearsStall, writesPeers, writesLine, writesCalls,
        writesRepeats, writesMode, writesConfig]

theorem converter_spares (c : Instr) (s : State) (family : ofConverter c = true) : Answers (exec c s) (Spares c s) := by
  cases c <;> first | exact absurd family Bool.false_ne_true | simp only [exec, execMeasStb, execFaultHigh,
    execPrechargeExpiry, execStableExpiry, execRetryExpiry, execLingerExpiry, execStopComplete, execSlewStep]
  all_goals
    repeat' split
    all_goals
      rw [answers_next]
      constructor
      case events =>
        intro h
        repeat' first
          | with_reducible exact h
          | with_reducible apply Bounded.finish | with_reducible apply Bounded.raise
          | with_reducible apply Bounded.raiseTimes | with_reducible apply Bounded.raiseIf
          | with_reducible apply Bounded.convFails
          | simp
      all_goals simp -implicitDefEqProofs [writesAll, hearsStall, writesPeers, writesLine, writesCalls,
        writesRepeats, writesMode, writesConfig]

theorem link_spares (c : Instr) (s : State) (family : ofLink c = true) : Answers (exec c s) (Spares c s) := by
  cases c <;> first | exact absurd family Bool.false_ne_true | simp only [exec, execPlugHigh, execPlugLow,
    execWakeExpiry, execPilotRequestTaken, execRequestSent, execReplyTimerExpiry, execPilotFrameDisregarded, execItem,
    execNotReady, execUnsupported, execIdentifyExpiry, execRequeryExpiry, execSessionRetryExpiry, execPollExpiry,
    execRefreshExpiry]
  all_goals
    repeat' split
    all_goals
      rw [answers_next]
      constructor
      case events =>
        intro h
        repeat' first
          | with_reducible exact h
          | with_reducible apply Bounded.finish | with_reducible apply Bounded.raise
          | with_reducible apply Bounded.raiseTimes | with_reducible apply Bounded.raiseIf
          | with_reducible apply Bounded.identifyItem
          | with_reducible apply Bounded.linkLost | with_reducible apply Bounded.identifyFails
          | simp
      all_goals simp -implicitDefEqProofs [writesAll, hearsStall, writesPeers, writesLine, writesCalls,
        writesRepeats, writesMode, writesConfig]

theorem session_spares (c : Instr) (s : State) (family : ofSession c = true) : Answers (exec c s) (Spares c s) := by
  cases c <;> first | exact absurd family Bool.false_ne_true | simp only [exec, execTuned, execTuningExpiry,
    execStepDelayExpiry, execSettleExpiry, execRetuneExpiry, execRetuneBegin, execEngaged, execDeclined,
    execEngageHoldExpiry, execShareZeroExpiry, execReleased, execPolled]
  case polled =>
    split
    · exact answers_next.mpr (polled_spares ..)
    · exact answers_next.mpr (.refl ..)
  all_goals
    repeat' split
    all_goals
      rw [answers_next]
      constructor
      case events =>
        intro h
        repeat' first
          | with_reducible exact h
          | with_reducible apply Bounded.finish | with_reducible apply Bounded.raise
          | with_reducible apply Bounded.raiseTimes | with_reducible apply Bounded.raiseIf
          | with_reducible apply Bounded.failSession
          | with_reducible apply Bounded.settleEnds | with_reducible apply Bounded.holdReply
          | with_reducible apply Bounded.meetCeiling | with_reducible apply Bounded.meetStop
          | simp
      all_goals simp -implicitDefEqProofs [writesAll, hearsStall, writesPeers, writesLine, writesCalls,
        writesRepeats, writesMode, writesConfig]

/-- What each command leaves as it is. -/
theorem exec_spares (c : Instr) (s : State) : Answers (exec c s) (Spares c s) := by
  rcases families c with f | f | f | f | f | f | f
  · exact supervisor_spares c s f
  · exact peers_spares c s f
  · exact line_spares c s f
  · exact calls_spares c s f
  · exact converter_spares c s f
  · exact link_spares c s f
  · exact session_spares c s f

end Sys2Proof.Safety
end

