-- ==== Sys2Proof/Proofs/Steps.lean ====
section
/-!
The rule for what every step keeps (`step_keeps`): a property that the commands keep, and that neither the clock, nor the
levels on the pins, nor the queue can break, is kept by every step, the idle one too. First uses: the queue (O2), the
mode and the configuration (O58), the total meter (O32).
-/
namespace Sys2Proof.Safety

open Sys2Proof Sys2Proof.Machine

/-! ### The commands that the part runs on its own -/

/-- The commands that the idle step runs: its timers, the edges on its pins, the request and the retune that are open. -/
def runsAlone : Instr → Bool
  | .hardwareReset _ | .select _ | .value _ | .join | .call _ | .park | .wake | .restart | .status | .point ..
  | .read | .unknownCommand .. | .badFrame | .echoSuccess _ | .collision _ | .startCountdownExpiry _
  | .remainingActiveExpiry _ | .deferredExpiry _ | .retentionExpiry _ | .stopComplete | .requestSent
  | .pilotFrameDisregarded | .item .. | .notReady .. | .unsupported .. | .tuned .. | .engaged _ | .declined _
  | .released _ | .polled .. | .parkComplete => false
  | c => !hearsStall c

/-- The test of an idle step calls for no command of another's. -/
def CallsAlone (test : State → Option Instr) : Prop := ∀ s c, test s = some c → runsAlone c = true

theorem callsAlone_due (t : State → Timer) (c : State → Instr) (alone : ∀ s, runsAlone (c s) = true) :
    CallsAlone fun s => s.dueCommand (t s) (c s) := by
  intro s c' h
  unfold State.dueCommand at h
  dsimp only at h
  split at h
  · exact Option.some.inj h ▸ alone s
  · cases h

theorem timerOrder_callsAlone : ∀ test ∈ timerOrder, CallsAlone test := by
  unfold timerOrder
  refine List.forall_mem_append.2 ⟨List.forall_mem_append.2 ⟨?_, fun test copies => ?_⟩, ?_⟩
  case refine_2 => exact List.eq_of_mem_replicate copies ▸ callsAlone_due _ _ fun _ => rfl
  all_goals
    repeat' refine List.forall_mem_cons.2 ⟨callsAlone_due _ _ fun _ => rfl, ?_⟩
    exact List.forall_mem_nil _

theorem inputTests_callsAlone (l : InputLevels) : ∀ test ∈ inputTests l, CallsAlone test := by
  have edge (p : State → Bool) (c : Instr) (alone : runsAlone c = true) :
      CallsAlone fun s => if p s then some c else none := by
    intro s c' h
    dsimp only at h
    split at h
    · exact Option.some.inj h ▸ alone
    · cases h
  unfold inputTests
  refine List.forall_mem_cons.2 ⟨fun s c h => ?_, ?_⟩
  · obtain ⟨v, _, rfl⟩ := Option.map_eq_some_iff.mp h
    rfl
  · repeat' refine List.forall_mem_cons.2 ⟨edge _ _ rfl, ?_⟩
    exact List.forall_mem_nil _

/-! ### The rule -/

/-- A property that the commands of a kind keep, and that nothing else in a step can break. -/
structure KeptBy (ok : Instr → Prop) (P : State → Prop) : Prop where
  command : ∀ c s, ok c → P s → Answers (exec c s) P
  clock : ∀ (s : State) n, s.now ≤ n → P s → P (s.setNow n)
  levels : ∀ (s : State) l ls, P s → P ((s.setInputs ls).presentLevels l)
  alone : ∀ c, runsAlone c = true → ok c

variable {ok : Instr → Prop} {P : State → Prop}

theorem KeptBy.run (k : KeptBy ok P) {s : State} (h : P s) {c : Instr} (allowed : ok c) : P (s.run c) := by
  obtain ⟨t, e, p⟩ := k.command c s allowed h
  unfold State.run
  rw [e]
  exact p

theorem KeptBy.runTests (k : KeptBy ok P) {s : State} (h : P s) {tests : List (State → Option Instr)}
    (alone : ∀ test ∈ tests, CallsAlone test) : P (s.runTests tests) := by
  unfold State.runTests
  induction tests generalizing s with
  | nil => exact h
  | cons test tests ih =>
    obtain ⟨first, rest⟩ := List.forall_mem_cons.mp alone
    refine ih ?_ rest
    unfold State.runTest
    split
    · next c called => exact k.run h (k.alone c (first s c called))
    · exact h

theorem KeptBy.tick (k : KeptBy ok P) {s : State} (h : P s) : P s.tick := by
  unfold State.tick State.meetInputs
  have later := k.clock s _ (Nat.le_succ s.now) h
  refine k.runTests ?_ timerOrder_callsAlone
  split
  · exact later
  · exact k.runTests (k.levels _ _ _ later) (inputTests_callsAlone _)

theorem KeptBy.idle (k : KeptBy ok P) {s : State} (h : P s) : P s.idle := by
  unfold State.idle
  split
  · exact k.run h (k.alone _ rfl)
  · split
    · exact k.run h (k.alone _ rfl)
    · exact k.tick h

/-- What the commands keep, every step keeps; the command at the front of the queue is one of the kind. -/
theorem step_keeps (k : KeptBy ok P) {s t : State} (front : ∀ c ∈ s.pending, ok c) (h : P s) (e : step s = .next t)
    (queue : ∀ (s : State) rest, P s → P (s.setPending rest) := by exact fun _ _ h => h) : P t := by
  unfold step at e
  split at e
  · cases e
    exact k.idle h
  · next c rest waits =>
      exact (k.command c _ (front c (by simp [waits])) (queue s rest h)).of_next e

/-- The rule for a property that every command keeps. -/
theorem step_keeps_always (k : KeptBy (fun _ => True) P) {s t : State} (h : P s) (e : step s = .next t)
    (queue : ∀ (s : State) rest, P s → P (s.setPending rest) := by exact fun _ _ h => h) : P t :=
  step_keeps k (fun _ _ => trivial) h e queue

/-! ### The queue, the inputs and the clock (O1, O2) -/

/-- Settles O1. -/
theorem stepTakesTheFrontCommand : Obligations.StepTakesTheFrontCommand := by
  intro s c rest queue
  unfold step
  rw [queue]
  rfl

/-- Settles O2: each command leaves the queue as it is (`exec_spares`), and so does the idle step, in which no time goes
back. -/
theorem commandsLeaveTheQueue : Obligations.CommandsLeaveTheQueue := by
  refine ⟨fun c s => ?_, fun s empty => ⟨s.idle, by unfold step; rw [empty], ?_⟩⟩
  · obtain ⟨t, e, spares⟩ := exec_spares c s
    exact ⟨t, e, spares.pending, spares.inputs, spares.clock⟩
  · have kept : KeptBy (fun c => ∀ straps, c ≠ .hardwareReset straps) fun t => t.pending = [] ∧ s.now ≤ t.now :=
      { command := fun c t other h => (exec_spares c t).imp fun u spares =>
          ⟨spares.pending.trans h.1, h.2.trans (spares.clock other)⟩
        clock := fun t n later h => ⟨h.1, h.2.trans later⟩
        levels := fun _ _ _ h => h
        alone := fun c alone straps => by rintro rfl; cases alone }
    exact kept.idle ⟨empty, le_rfl⟩

end Sys2Proof.Safety
end

