-- ==== Sys2Proof/Proofs/Mode.lean ====
section
/-!
The mode, the lock, a restart's wait and the configuration (R168 to R170, R177), and the occurrence counts (R181): no
command but those of the supervisor port and the frames heard writes any of them, so only these are looked at.
-/
namespace Sys2Proof.Safety

open Sys2Proof Sys2Proof.Machine

/-! ### What keeps the mode consistent -/

/-- The mode may move as a reaction moves it: it neither enters nor leaves CONFIG, nor does it enter LOCKOUT. -/
theorem ModeControl.of_modeMoves {s t : State} (h : ModeControl s)
    (mode : ModeMoves s.sp.mode s.sp.restarting t.sp.mode) (locked : t.sp.locked = s.sp.locked)
    (key : t.sp.pendingKey = s.sp.pendingKey) (waits : t.sp.restarting = s.sp.restarting)
    (config : t.sp.config = s.sp.config) : ModeControl t := by
  obtain ⟨lock, pending, restart, ranges⟩ := h
  unfold ModeControl
  rw [locked, key, waits, config]
  rcases mode with same | ⟨alone, leaves, enters⟩
  · exact same ▸ ⟨lock, pending, restart, ranges⟩
  · have joined : s.sp.mode ≠ .config := by rcases leaves with e | e <;> rw [e] <;> decide
    have joined' : t.sp.mode ≠ .config := by rcases enters with e | e | e <;> rw [e] <;> decide
    exact ⟨by simp [lock, joined, joined'], fun p => absurd (pending p) joined, by simp [alone], ranges⟩

theorem ModeControl.finish {s : State} (h : ModeControl s) : ModeControl s.finish :=
  h.of_modeMoves (by simp) (by simp) (by simp) (by simp) (by simp)

theorem ModeControl.respond {s : State} (h : ModeControl s) (r : ResultCode) (d : ResponseData) :
    ModeControl (s.respond r d) := h

/-- A joined part may change to any other mode of a joined part, LOCKOUT only with no restart waiting. -/
theorem ModeControl.of_joined {s t : State} (h : ModeControl s) (joined : s.sp.mode ≠ .config)
    (joined' : t.sp.mode ≠ .config) (locked : t.sp.locked = s.sp.locked) (key : t.sp.pendingKey = s.sp.pendingKey)
    (config : t.sp.config = s.sp.config) (waits : t.sp.restarting.isSome = true → t.sp.mode ≠ .lockout) :
    ModeControl t := by
  obtain ⟨lock, pending, restart, ranges⟩ := h
  unfold ModeControl
  rw [locked, key, config]
  exact ⟨by simp [lock, joined, joined'], fun p => absurd (pending p) joined, fun p => ⟨joined', waits p⟩, ranges⟩

/-- A key written keeps to its range, and the others stay (R169). -/
theorem ConfigInRange.write {c : Configuration} (h : ConfigInRange c) (k : ConfigKey) (v : Int) :
    ConfigInRange (c.write k (k.stored v)) := by
  intro j mem
  by_cases same : j = k
  · subst same
    rw [Configuration.read_write_self]
    have ordered : j.range.1 ≤ j.range.2 := by cases j <;> decide
    have stored : j.range.1 ≤ j.stored v ∧ j.stored v ≤ j.range.2 := by
      rw [ConfigKey.stored_eq]
      split
      · next e =>
          subst e
          have := Int.emod_nonneg v (show (2147483648 : Int) ≠ 0 by decide)
          have := Int.emod_lt_of_pos v (show (0 : Int) < 2147483648 by decide)
          simp only [ConfigKey.range]
          omega
      · exact clampInt_range _ _ v ordered
    unfold ConfigKey.accepts
    simpa using stored
  · rw [Configuration.read_write_ne _ _ _ _ same]
    exact h j mem

/-! ### The commands that write the mode -/

theorem intake_mode (s : State) (d : CallFrame) : (s.intake d).1.sp.mode = s.sp.mode ∨
    (s.sp.mode = .hold ∧ s.sp.restarting = none ∧ (s.intake d).1.sp.mode = .active) := by
  rcases intake_cases s d with e | e | ⟨k, b, n, rs, e | ⟨r, e⟩⟩ <;> rw [e]
  · exact .inl rfl
  · exact .inl rfl
  · simp
  · unfold State.callNotice
    split
    · next wakes => exact .inr ⟨by simpa using wakes.1, by simpa using wakes.2.1, by simp⟩
    · simp

theorem receives_joined {s : State} (h : s.receives = true) : s.sp.mode ≠ .config := by
  unfold State.receives State.joined at h
  simp at h
  exact h.1

theorem ModeControl.meetDuplicate {s : State} (h : ModeControl s) (joined : s.sp.mode ≠ .config) :
    ModeControl s.meetDuplicate := by
  unfold State.meetDuplicate
  dsimp only
  split
  · next r waits =>
      exact h.of_joined joined joined rfl rfl rfl fun _ => (h.2.2.1 (by simpa using waits ▸ rfl)).2
  · next alone =>
      have alone : s.sp.restarting = none := alone
      unfold State.enterLockout
      split
      · exact h
      · exact h.of_joined joined (by simp) (by simp) (by simp) (by simp) (by simp [alone])

theorem ModeControl.intake {s : State} (h : ModeControl s) (d : CallFrame) : ModeControl (s.intake d).1 := by
  rcases intake_mode s d with same | ⟨held, alone, active⟩
  · exact h.of_modeMoves (.inl same) (by simp) (by simp) (by simp) (by simp)
  · exact h.of_joined (by simp [held]) (by simp [active]) (by simp) (by simp) (by simp) (by simp [alone])

theorem restartMode_ne_config (o : PostMode) (d : Bool) : restartMode o d ≠ .config := by
  unfold restartMode
  cases o <;> cases d <;> decide

theorem ModeControl.completeRestart {s : State} (h : ModeControl s) (joined : s.sp.mode ≠ .config) (o : PostMode)
    (d : Bool) : ModeControl (s.completeRestart o d) :=
  h.of_joined joined (by simpa [completeRestart_eq_restartedInto, restartedInto] using restartMode_ne_config o d)
    (by simp [completeRestart_eq_restartedInto, restartedInto])
    (by simp [completeRestart_eq_restartedInto, restartedInto])
    (by simp [completeRestart_eq_restartedInto, restartedInto])
    (by simp [completeRestart_eq_restartedInto, restartedInto])

/-- What the rows 2 to 5 of R176 let through. -/
theorem refusal_eq_none_iff {s : State} {a : Admission} : s.refusal a = none ↔
    s.sp.restarting = none ∧ (s.sp.pendingKey = none ∨ a.passesKey = true) ∧
      (a.needsJoin = true → s.sp.mode ≠ .config) ∧ (a.writes = true → s.sp.locked = false) := by
  unfold State.refusal State.joined
  by_cases config : s.sp.mode = .config <;> cases s.sp.restarting <;> cases s.sp.pendingKey <;> cases a.passesKey <;>
    cases a.needsJoin <;> cases a.writes <;> cases s.sp.locked <;> simp [config]

theorem ModeControl.takeCall {s : State} {d : CallFrame} (h : ModeControl (s.intake d).1) : ModeControl (s.takeCall d).1 := by
  unfold State.takeCall State.sendCall
  dsimp only
  split
  · exact h
  · exact h.of_modeMoves (by simp) (by simp) (by simp) (by simp) (by simp)

theorem ModeControl.leaveEchoed {s : State} (h : ModeControl s) (body : FrameBody) : ModeControl (s.leaveEchoed body) := by
  unfold State.leaveEchoed
  split
  · next r waits => exact h.completeRestart (h.2.2.1 (by simp [waits])).1 _ _
  · exact h

theorem defaultInRange : ConfigInRange Configuration.default := by decide

theorem exec_modeControl (c : Instr) (s : State) (h : ModeControl s) : Answers (exec c s) ModeControl := by
  by_cases quiet : writesMode c = false ∧ writesConfig c = false ∧ writesAll c = false ∧ hearsStall c = false
  · obtain ⟨mode, config, all, heard⟩ := quiet
    refine (exec_spares c s).imp fun t spares => ?_
    obtain ⟨same, locked, key⟩ := spares.config config
    exact h.of_modeMoves (spares.mode mode) locked key (spares.waits all heard) same
  have ⟨lock, pending, restart, ranges⟩ := h
  have hears {stall seq : Nat} : ModeControl (s.countReceived.heard stall seq) := h
  cases c
  case hardwareReset straps =>
    simp only [exec, execHardwareReset, answers_next]
    refine ⟨?_, ?_, ?_, defaultInRange⟩ <;> simp [State.resetWith, Supervisor.reset]
  case select key =>
    simp only [exec, execSelect]
    repeat' split
    all_goals rw [answers_next]
    · exact h
    · exact h
    · next admitted _ k _ =>
        have unlocked := (refusal_eq_none_iff.mp admitted).2.2.2 rfl
        exact ⟨lock, fun _ => by simpa [unlocked] using lock.symm, restart, ranges⟩
  case value v =>
    simp only [exec, execValue]
    repeat' split
    all_goals rw [answers_next]
    · exact h
    · exact h
    all_goals exact ⟨lock, by simp [Supervisor.writeKey], restart, ranges.write _ v⟩
  case join =>
    simp only [exec, execJoin]
    repeat' split
    all_goals rw [answers_next]
    · exact h
    · exact h
    · exact h
    · next admitted _ _ =>
        obtain ⟨alone, key, _, _⟩ := refusal_eq_none_iff.mp admitted
        have started : ModeControl s.start := by
          have none : s.sp.pendingKey = none := Or.resolve_right key Bool.false_ne_true
          refine ⟨?_, ?_, ?_, ?_⟩ <;> simp [alone, none]
          exact ranges
        exact started.finish.respond _ _
  case call args =>
    simp only [exec, execCall]
    repeat' split
    all_goals rw [answers_next]
    · exact h
    · exact h
    · exact h
    all_goals exact (h.intake _).takeCall.finish.respond _ _
  case park =>
    simp only [exec, execPark]
    repeat' split
    all_goals rw [answers_next]
    · exact h
    · next active =>
        exact (h.of_joined (t := (s.setMode .parking).requestStop) (by simp [active]) (by simp) (by simp) (by simp)
          (by simp) (by simp)).finish.respond _ _
    · exact h
  case wake =>
    simp only [exec, execWake]
    repeat' split
    all_goals rw [answers_next]
    · exact h
    · next admitted _ =>
        have joined := (refusal_eq_none_iff.mp admitted).2.2.1 rfl
        exact (h.of_joined (t := s.setMode .active) joined (by simp) (by simp) (by simp) (by simp) (by simp)).finish.respond _ _
    · exact h
  case restart =>
    simp only [exec, execRestart]
    repeat' split
    all_goals rw [answers_next]
    · exact h
    · next admitted _ =>
        have joined := (refusal_eq_none_iff.mp admitted).2.2.1 rfl
        have released : ModeControl s.releaseForRestart :=
          h.of_modeMoves (by simp) (by simp) (by simp) (by simp) (by simp)
        exact (released.completeRestart (by simpa using joined) _ _).finish.respond _ _
    · next admitted unlocked =>
        have joined := (refusal_eq_none_iff.mp admitted).2.2.1 rfl
        exact (h.of_joined (t := s.beginRestart) joined (by simpa using joined) (by simp) (by simp) (by simp)
          (by simpa using unlocked)).finish.respond _ _
  case parkComplete =>
    simp only [exec, execParkComplete]
    split
    all_goals rw [answers_next]
    · exact (h.of_modeMoves (t := s.parkTest) (.of_moves (parkTest_moves s)) (by simp) (by simp) (by simp)
        (by simp)).finish
    · exact h
  case restartWaitExpiry =>
    simp only [exec, execRestartWaitExpiry]
    split
    all_goals rw [answers_next]
    · exact h
    · next r waits =>
        have reached : ModeControl (s.reach r.waitAt) := h
        exact (reached.completeRestart (restart (by simp [waits])).1 _ _).finish
  case echoSuccess idle =>
    simp only [exec, execEchoSuccess]
    repeat' split
    all_goals rw [answers_next]
    · exact h
    · refine (ModeControl.leaveEchoed ?_ _).finish
      exact h.of_modeMoves (by simp) (by simp) (by simp) (by simp) (by simp)
    · exact h
  case duplicateStall kind =>
    simp only [exec, execDuplicateStall]
    split
    all_goals rw [answers_next]
    · next heard => exact (h.meetDuplicate (receives_joined heard)).finish
    · exact h
  case standing stall seq frame =>
    simp only [exec, execStanding]
    repeat' split
    all_goals rw [answers_next]
    · exact h
    · next heard _ => exact (h.meetDuplicate (receives_joined (by simpa using heard))).finish
    · exact hears
    · refine ModeControl.finish ?_
      exact h.of_modeMoves (by simp) (by simp) (by simp) (by simp) (by simp)
    · exact h.of_modeMoves (by simp) (by simp) (by simp) (by simp) (by simp)
  case leave stall seq reason =>
    simp only [exec, execLeave]
    repeat' split
    all_goals rw [answers_next]
    · exact h
    · next heard _ => exact (h.meetDuplicate (receives_joined (by simpa using heard))).finish
    · exact hears
    · exact h.of_modeMoves (by simp) (by simp) (by simp) (by simp) (by simp)
  case dispatch stall seq frame =>
    simp only [exec, execDispatch]
    repeat' split
    all_goals rw [answers_next]
    · exact h
    · next heard _ => exact (h.meetDuplicate (receives_joined (by simpa using heard))).finish
    · exact hears
    · exact (ModeControl.intake hears _).finish
  case curb stall seq frame =>
    simp only [exec, execCurb]
    repeat' split
    all_goals rw [answers_next]
    · exact h
    · next heard _ => exact (h.meetDuplicate (receives_joined (by simpa using heard))).finish
    · refine ModeControl.finish ?_
      exact h.of_modeMoves (by simp) (by simp) (by simp) (by simp) (by simp)
  all_goals exact absurd ⟨rfl, rfl, rfl, rfl⟩ quiet

/-! ### What every step keeps (O58) -/

theorem modeControl_kept : KeptBy (fun _ => True) ModeControl where
  command c s _ h := exec_modeControl c s h
  clock _ _ _ h := h
  levels _ _ _ h := h
  alone _ _ := trivial

theorem eventCounts_kept : KeptBy (fun _ => True) EventCounts where
  command c s _ h := (exec_spares c s).imp fun _ spares => spares.events h
  clock _ _ _ h := h
  levels _ _ _ h := h
  alone _ _ := trivial

/-- The keys, the lock and the stall of a part that is locked (R170). -/
def LockedWith (config : Configuration) (stall : Nat) (s : State) : Prop :=
  s.sp.locked = true ∧ s.sp.config = config ∧ s.lp.stall = stall

/-- A locked part refuses the commands that write configuration (R176). -/
theorem exec_locked {c : Instr} {s : State} {config : Configuration} {stall : Nat} (h : LockedWith config stall s)
    (other : ∀ straps, c ≠ .hardwareReset straps) : Answers (exec c s) (LockedWith config stall) := by
  refine (exec_spares c s).imp' fun t e spares => ?_
  obtain ⟨locked, same, own⟩ := h
  by_cases writes : writesConfig c = false
  · obtain ⟨config', locked', _⟩ := spares.config writes
    exact ⟨locked'.trans locked, config'.trans same, (spares.stall other).trans own⟩
  · have refused {a : Admission} (row : supervisorRow c = some a) (w : a.writes = true) :
        LockedWith config stall t := by
      cases r : s.refusal a with
      | none => exact absurd ((refusal_eq_none_iff.mp r).2.2.2 w) (by simp [locked])
      | some code =>
        rw [exec_refused row r] at e
        cases e
        exact ⟨locked, same, own⟩
    cases c
    case hardwareReset straps => exact absurd rfl (other straps)
    case select => exact refused rfl rfl
    case value => exact refused rfl rfl
    case join => exact refused rfl rfl
    all_goals exact absurd rfl writes

theorem lockedWith_kept (config : Configuration) (stall : Nat) :
    KeptBy (fun c => ∀ straps, c ≠ .hardwareReset straps) (LockedWith config stall) where
  command _ _ other h := exec_locked h other
  clock _ _ _ h := h
  levels _ _ _ h := h
  alone c alone straps := by rintro rfl; cases alone

/-- Settles O58: every command keeps the mode consistent, raising keeps the counts bounded, and a locked part refuses the
commands that write configuration. -/
theorem stepKeepsModeAndConfiguration : Obligations.StepKeepsModeAndConfiguration := by
  refine ⟨fun s t h e => step_keeps_always modeControl_kept h e, fun s t h e => step_keeps_always eventCounts_kept h e,
    fun s t locked e other => ?_⟩
  have kept : LockedWith s.sp.config s.lp.stall s := ⟨locked, rfl, rfl⟩
  unfold step at e
  split at e
  · cases e
    exact (lockedWith_kept _ _).idle kept
  · next c rest queue =>
      exact (exec_locked (s := s.setPending rest) kept fun straps same => other straps rest (same ▸ queue)).of_next e

end Sys2Proof.Safety
end

