-- ==== Sys2Proof/Proofs/TotalMeter.lean ====
section
/-!
The total meter (R78): a meter sample adds to it up to its limit, a hardware reset and no other command clears it.
-/
namespace Sys2Proof.Safety

open Sys2Proof Sys2Proof.Machine

/-- A number of joules never lessens the total, and leaves it within its limit. -/
theorem totalAdd_grows {wh : Nat} (residue joules : Nat) (limit : wh ≤ totalLimit) :
    wh ≤ (totalAdd wh residue joules).1 ∧ (totalAdd wh residue joules).1 ≤ totalLimit := by
  unfold totalAdd meterAdd
  split <;> simp only [] <;> omega

theorem totalAdd_residue {wh residue joules : Nat} (below : residue < 3600) :
    (totalAdd wh residue joules).2 < 3600 := by
  unfold totalAdd meterAdd
  split
  · exact below
  · exact Nat.mod_lt _ (by decide)

/-- The total meter has taken the sample that the state holds (R77). -/
def Metered (s t : State) : Prop :=
  t.mt.total = (totalAdd s.mt.total s.mt.residue (sampleJoules s.cc.measured)).1 ∧
    t.mt.residue = (totalAdd s.mt.total s.mt.residue (sampleJoules s.cc.measured)).2

/-- A meter sample changes the total by its joules, and no other way (R77, R78). -/
theorem meterSample_meter (s : State) : Answers (exec .meterSample s) fun t => t.mt = s.mt ∨
    Metered s t := by
  simp only [exec, execMeterSample]
  repeat' split
  all_goals simp [Metered]

/-- The blocks as JOIN starts them, before the first sensor sample (R170). -/
def startedBlocks (s : State) : State :=
  let begun := ((s.setSp { s.sp with mode := .active, locked := true }).setVl
    { s.vl with desired := desiredLevel s.sp.config }).startTimers.startEchoTimer.startStanding
  begun.setEa { begun.ea with gates := begun.gateView }

@[simp] theorem startedBlocks_tsense (s : State) : (startedBlocks s).cu.tsense = s.cu.tsense := by
  simp [startedBlocks, State.startTimers]

@[simp] theorem startedBlocks_config (s : State) : (startedBlocks s).sp.config = s.sp.config := by
  simp [startedBlocks]

theorem start_eq (s : State) :
    s.start = if s.sp.config.sensorFitted then (startedBlocks s).takeSample s.cu.tsense else startedBlocks s := by
  rw [← startedBlocks_tsense s, ← startedBlocks_config s]
  rfl

/-- JOIN starts the meter's timer, and leaves what it has counted (R77). -/
theorem start_energy (s : State) : s.start.mt.total = s.mt.total ∧ s.start.mt.residue = s.mt.residue := by
  rw [start_eq]
  split <;> simp [startedBlocks, State.startTimers]

theorem join_energy (s : State) : Answers (exec .join s) fun t =>
    t.mt.total = s.mt.total ∧ t.mt.residue = s.mt.residue := by
  simp only [exec, execJoin]
  repeat' split
  all_goals simp [start_energy]

/-- What the commands make of the total: none but a hardware reset lessens it. -/
theorem exec_total {c : Instr} {s : State} (other : ∀ straps, c ≠ .hardwareReset straps) :
    Answers (exec c s) fun t => (t.mt.total = s.mt.total ∧ t.mt.residue = s.mt.residue) ∨
      Metered s t := by
  by_cases sample : c = .meterSample
  · subst sample
    exact (meterSample_meter s).imp fun t => Or.imp_left fun same => by simp [same]
  · by_cases join : c = .join
    · subst join
      exact (join_energy s).imp fun t => .inl
    · exact (exec_spares c s).imp fun t spares => .inl (spares.energy join other sample)

theorem exec_total_grows {c : Instr} {s : State} (other : ∀ straps, c ≠ .hardwareReset straps)
    (limit : s.mt.total ≤ totalLimit) :
    Answers (exec c s) fun t => s.mt.total ≤ t.mt.total ∧ t.mt.total ≤ totalLimit := by
  refine (exec_total other).imp fun t moved => ?_
  rcases moved with ⟨same, _⟩ | ⟨total, _⟩
  · rw [same]
    exact ⟨le_rfl, limit⟩
  · rw [total]
    exact totalAdd_grows _ _ limit

theorem totalGrows_kept (wh : Nat) : KeptBy (fun c => ∀ straps, c ≠ .hardwareReset straps)
    fun t => wh ≤ t.mt.total ∧ t.mt.total ≤ totalLimit where
  command _ _ other h := (exec_total_grows other h.2).imp fun _ grown => ⟨h.1.trans grown.1, grown.2⟩
  clock _ _ _ h := h
  levels _ _ _ h := h
  alone c alone straps := by rintro rfl; cases alone

theorem totalMeter_kept : KeptBy (fun _ => True) TotalMeter where
  command c s _ h := by
    by_cases reset : ∀ straps, c ≠ .hardwareReset straps
    · refine (exec_total reset).imp fun t moved => ?_
      rcases moved with ⟨total, residue⟩ | ⟨total, residue⟩
      · exact ⟨total ▸ h.1, residue ▸ h.2⟩
      · exact ⟨total ▸ (totalAdd_grows _ _ h.1).2, residue ▸ totalAdd_residue h.2⟩
    · push Not at reset
      obtain ⟨straps, rfl⟩ := reset
      rw [exec, execHardwareReset, answers_next]
      exact (by decide : TotalMeter (State.resetWith 0))
  clock _ _ _ h := h
  levels _ _ _ h := h
  alone _ _ := trivial

/-- Settles O32: only a meter sample changes the total, and it adds up to the limit. -/
theorem totalMeterNeverFalls : Obligations.TotalMeterNeverFalls := by
  refine ⟨fun c s t other limit e => (exec_total_grows other limit).of_next e, fun s t limit empty e => ?_,
    fun s t h e => step_keeps_always totalMeter_kept h e⟩
  unfold step at e
  rw [empty] at e
  cases e
  exact (totalGrows_kept s.mt.total).idle ⟨le_rfl, limit⟩

end Sys2Proof.Safety
end

