-- ==== Sys2Proof/Proofs/PeerTable.lean ====
section
/-!
The Peer View (R1 to R19): what a command can make of the peer table is one of six moves (`EntriesMove`), and each keeps
the order and the ranges of the entries; the isolation flags change together (R12 to R16).
-/
namespace Sys2Proof.Safety

open Sys2Proof Sys2Proof.Machine

/-! ### What a command can make of the peer table -/

/-- The stall and the sequence that a frame from another post carries. -/
def frameHead : Instr → Option (Nat × Nat)
  | .standing stall seq _ => some (stall, seq)
  | .leave stall seq _ => some (stall, seq)
  | .dispatch stall seq _ => some (stall, seq)
  | .curb stall seq _ => some (stall, seq)
  | _ => none

/-- The table with one stall's sequence tracked (R6). -/
def trackedEntries (es : List PeerEntry) (stall seq : Nat) : List PeerEntry :=
  es.map fun e => if e.stall = stall then e.track seq else e

/-- What a command can make of the peer table. -/
inductive EntriesMove (c : Instr) (s : State) : List PeerEntry → Prop
  | same : EntriesMove c s s.pv.entries
  | cleared : EntriesMove c s []
  | swept (now : Nat) : EntriesMove c s (sweptEntries s.pv.entries now)
  | heard {stall seq : Nat} : Hears s stall → frameHead c = some (stall, seq) →
      EntriesMove c s (trackedEntries s.pv.entries stall seq)
  | left {stall seq : Nat} : Hears s stall → frameHead c = some (stall, seq) →
      EntriesMove c s ((trackedEntries s.pv.entries stall seq).filter (·.stall != stall))
  | accepted {stall seq : Nat} {f : StandingWire} : Hears s stall → s.inRoster stall = true → c = .standing stall seq f →
      EntriesMove c s (acceptedEntries (trackedEntries s.pv.entries stall seq) s.now stall seq f.corrected)

@[simp] theorem heard_entries (s : State) (stall seq : Nat) :
    (s.heard stall seq).pv.entries = trackedEntries s.pv.entries stall seq := rfl

@[simp] theorem countReceived_pv (s : State) : s.countReceived.pv = s.pv := rfl

@[simp] theorem heard_inRoster (s : State) (stall seq k : Nat) :
    (s.countReceived.heard stall seq).inRoster k = s.inRoster k := rfl

@[simp] theorem acceptStanding_entries (s : State) (stall seq : Nat) (a : Announced) :
    (s.acceptStanding stall seq a).pv.entries = acceptedEntries s.pv.entries s.now stall seq a := by
  simp [State.acceptStanding]

@[simp] theorem isolate_entries (s : State) (b : Bool) : (s.isolate b).pv.entries = s.pv.entries := by
  simp [State.isolate]

@[simp] theorem clearIsolation_entries (s : State) : s.clearIsolation.pv.entries = s.pv.entries := rfl

@[simp] theorem ownEchoed_entries (s : State) : s.ownEchoed.pv.entries = s.pv.entries := by
  unfold State.ownEchoed
  dsimp only
  repeat' split
  all_goals rfl

@[simp] theorem givenUp_entries (s : State) : s.givenUp.pv.entries = s.pv.entries := by
  unfold State.givenUp State.ownNotEchoed
  dsimp only
  split <;> simp

theorem leaveEchoed_entries (s : State) (b : FrameBody) :
    (s.leaveEchoed b).pv.entries = s.pv.entries ∨ (s.leaveEchoed b).pv.entries = [] := by
  unfold State.leaveEchoed
  split
  · simp [completeRestart_eq_restartedInto, restartedInto]
  · exact .inl rfl

@[simp] theorem start_entries (s : State) : s.start.pv.entries = s.pv.entries := by
  rw [start_eq]
  split <;> simp [startedBlocks, State.startTimers]

theorem EntriesMove.of_eq {c : Instr} {s t : State} (e : t.pv.entries = s.pv.entries) : EntriesMove c s t.pv.entries :=
  e ▸ .same

theorem hears_of {s : State} {stall : Nat} (received : ¬(!s.receives) = true) (other : ¬stall = s.lp.stall) :
    Hears s stall := ⟨by simpa using received, other⟩

/-- What each command makes of the peer table. -/
theorem exec_entries (c : Instr) (s : State) : Answers (exec c s) fun t => EntriesMove c s t.pv.entries := by
  by_cases writes : writesPeers c = false
  · exact (exec_spares c s).imp fun t spares => .of_eq (by rw [spares.peers writes])
  cases c
  case standing stall seq f =>
    simp only [exec, execStanding]
    repeat' split
    all_goals rw [answers_next]
    · exact .same
    · exact .of_eq (by simp)
    · next received other _ => exact .heard (hears_of received other) rfl
    · next received other listed _ =>
        simpa using EntriesMove.accepted (f := f) (seq := seq) (hears_of received other) (by simpa using listed) rfl
    · next received other listed _ =>
        simpa using EntriesMove.accepted (f := f) (seq := seq) (hears_of received other) (by simpa using listed) rfl
  case leave stall seq reason =>
    simp only [exec, execLeave]
    repeat' split
    all_goals rw [answers_next]
    · exact .same
    · exact .of_eq (by simp)
    · next received other _ => exact .heard (hears_of received other) rfl
    · next received other _ => exact .left (hears_of received other) rfl
  case dispatch stall seq f =>
    simp only [exec, execDispatch]
    repeat' split
    all_goals rw [answers_next]
    · exact .same
    · exact .of_eq (by simp)
    · next received other _ _ => exact .heard (hears_of received other) rfl
    · next received other _ _ _ => simpa using EntriesMove.heard (hears_of received other) rfl
  case curb stall seq f =>
    simp only [exec, execCurb]
    repeat' split
    all_goals rw [answers_next]
    · exact .same
    · exact .of_eq (by simp)
    · next received other => simpa using EntriesMove.heard (hears_of received other) rfl
  case sweep =>
    simp only [exec, execSweep]
    split
    all_goals rw [answers_next]
    · exact .same
    · simpa using EntriesMove.swept _
  case echoSuccess idle =>
    simp only [exec, execEchoSuccess]
    repeat' split
    all_goals rw [answers_next]
    · exact .same
    · next f _ _ =>
      rw [State.finish_pv]
      rcases leaveEchoed_entries (State.ownEchoed _) f.body with e | e <;> rw [e]
      · rw [ownEchoed_entries]
        exact .same
      · exact .cleared
    · exact .same
  case hardwareReset => exact answers_next.mpr .cleared
  case restart =>
    simp only [exec, execRestart]
    repeat' split
    all_goals rw [answers_next]
    · exact .same
    · simpa [completeRestart_eq_restartedInto, restartedInto] using EntriesMove.cleared
    · exact .of_eq (by simp)
  case restartWaitExpiry =>
    simp only [exec, execRestartWaitExpiry]
    repeat' split
    all_goals rw [answers_next]
    · exact .same
    · simpa [completeRestart_eq_restartedInto, restartedInto] using EntriesMove.cleared
  case join =>
    simp only [exec, execJoin]
    repeat' split
    all_goals
      rw [answers_next]
      exact .of_eq (by simp)
  case collision idle =>
    simp only [exec, execCollision]
    repeat' split
    all_goals
      rw [answers_next]
      exact .of_eq (by simp [State.collided])
  case lastHeardExpiry =>
    simp only [exec, execLastHeardExpiry]
    split
    all_goals
      rw [answers_next]
      exact .of_eq (by simp)
  case rejoinHoldExpiry =>
    simp only [exec, execRejoinHoldExpiry]
    split
    all_goals
      rw [answers_next]
      exact .of_eq (by simp)
  all_goals exact absurd rfl writes

/-! ### What each move keeps of every entry -/

theorem placeEntry_perm (e : PeerEntry) (es : List PeerEntry) : (placeEntry e es).Perm (e :: es) := by
  induction es with
  | nil => exact .refl _
  | cons x xs ih =>
    unfold placeEntry
    split
    · exact .refl _
    · exact (ih.cons x).trans (.swap ..)

/-- A property of the entries that tracking, a sweep's mark and the fields of a STANDING keep is kept by every move. -/
theorem EntriesMove.keeps {c : Instr} {s : State} {es : List PeerEntry} {P : PeerEntry → Prop}
    (m : EntriesMove c s es) (before : ∀ e ∈ s.pv.entries, P e)
    (track : ∀ e stall seq, frameHead c = some (stall, seq) → P e → P (e.track seq))
    (mark : ∀ e : PeerEntry, P e → P { e with lostMark := true })
    (replace : ∀ e stall seq f, c = .standing stall seq f → e.stall = stall → P e →
      P { e with announced := f.corrected, received := s.now, lostMark := false })
    (create : ∀ stall seq f, c = .standing stall seq f → Hears s stall → s.inRoster stall = true →
      P ⟨stall, seq, 0, f.corrected, s.now, false⟩) :
    ∀ e ∈ es, P e := by
  have tracked {stall seq} (head : frameHead c = some (stall, seq)) :
      ∀ e ∈ trackedEntries s.pv.entries stall seq, P e := by
    refine List.forall_mem_map.mpr fun e mem => ?_
    split
    · exact track e _ seq head (before e mem)
    · exact before e mem
  cases m with
  | same => exact before
  | cleared => simp
  | swept now =>
    refine List.forall_mem_map.mpr fun e mem => ?_
    have held := before e (List.mem_of_mem_filter mem)
    split
    · exact mark e held
    · exact held
  | heard _ head => exact tracked head
  | left _ head => exact fun e mem => tracked head e (List.mem_of_mem_filter mem)
  | @accepted stall seq f hears listed same =>
    have head : frameHead c = some (stall, seq) := by rw [same]; rfl
    unfold acceptedEntries
    split
    · refine List.forall_mem_map.mpr fun e mem => ?_
      split
      · next own => exact replace e stall seq f same own (tracked head e mem)
      · exact tracked head e mem
    · intro e mem
      rcases List.mem_cons.mp ((placeEntry_perm _ _).mem_iff.mp mem) with rfl | mem
      · exact create stall seq f same hears listed
      · exact tracked head e mem

/-- The table is strictly ascending by stall. -/
def Ascending (es : List PeerEntry) : Prop := es.Pairwise fun a b => a.stall < b.stall

theorem Ascending.map {es : List PeerEntry} (h : Ascending es) {g : PeerEntry → PeerEntry} (same : ∀ e, (g e).stall = e.stall) :
    Ascending (es.map g) :=
  List.pairwise_map.mpr (h.imp fun lt => by rwa [same, same])

theorem Ascending.placeEntry {es : List PeerEntry} (h : Ascending es) {e : PeerEntry} (new : ∀ x ∈ es, x.stall ≠ e.stall) :
    Ascending (placeEntry e es) := by
  induction es with
  | nil => exact List.pairwise_singleton ..
  | cons x xs ih =>
    obtain ⟨first, rest⟩ := List.pairwise_cons.mp h
    unfold Machine.placeEntry
    split
    · next lt =>
      refine List.pairwise_cons.mpr ⟨fun y mem => ?_, h⟩
      rcases List.mem_cons.mp mem with rfl | mem
      · exact lt
      · exact lt.trans (first y mem)
    · next ge =>
      refine List.pairwise_cons.mpr ⟨fun y mem => ?_, ih rest fun y mem => new y (List.mem_cons_of_mem _ mem)⟩
      rcases List.mem_cons.mp ((placeEntry_perm _ _).mem_iff.mp mem) with rfl | mem
      · have := new x List.mem_cons_self
        omega
      · exact first y mem

theorem Ascending.tracked {es : List PeerEntry} (h : Ascending es) (stall seq : Nat) :
    Ascending (trackedEntries es stall seq) :=
  h.map fun e => by split <;> rfl

theorem EntriesMove.ascending {c : Instr} {s : State} {es : List PeerEntry} (m : EntriesMove c s es)
    (h : Ascending s.pv.entries) : Ascending es := by
  cases m with
  | same => exact h
  | cleared => exact List.Pairwise.nil
  | swept now => exact Ascending.map (h.filter _) fun e => by split <;> rfl
  | heard => exact h.tracked _ _
  | left => exact (h.tracked _ _).filter _
  | @accepted stall seq f =>
    unfold acceptedEntries
    split
    · exact (h.tracked _ _).map fun e => by split <;> rfl
    · next unknown =>
      refine (h.tracked _ _).placeEntry fun x mem own => unknown ?_
      exact List.any_eq_true.mpr ⟨x, mem, by simpa using own⟩

/-! ### The table and its ranges (R1, R18) -/

theorem standing_corrected_ranges (f : StandingWire) :
    f.corrected.cls ≤ 3 ∧ f.corrected.offer ≤ 600 ∧ f.corrected.share ≤ 600 ∧ f.corrected.actual ≤ 600 ∧
      f.corrected.energy ≤ 6000 ∧ f.corrected.served ≠ some 0 ∧
      ∀ t ∈ f.corrected.temperature, -40 ≤ t ∧ t ≤ 150 := by
  refine ⟨min_le_left .., min_le_left .., min_le_left .., min_le_left .., min_le_left .., ?_, fun t mem => ?_⟩
  · unfold StandingWire.corrected
    dsimp only
    split <;> simp_all
  · unfold StandingWire.corrected at mem
    dsimp only at mem
    split at mem
    · next valid =>
      obtain rfl := Option.some.inj mem
      exact valid.2
    · cases mem

theorem EntriesMove.inRange {c : Instr} {s : State} {es : List PeerEntry} (m : EntriesMove c s es)
    (h : ∀ e ∈ s.pv.entries, EntryInRange s.sp.config.posts s.lp.stall e) :
    ∀ e ∈ es, EntryInRange s.sp.config.posts s.lp.stall e := by
  refine m.keeps h ?_ (fun _ held => held) ?_ ?_
  · rintro e stall seq - ⟨low, high, other, _, rest⟩
    exact ⟨low, high, other, min_le_left .., rest⟩
  · rintro e stall seq f - - ⟨low, high, other, gap, _⟩
    exact ⟨low, high, other, gap, standing_corrected_ranges f⟩
  · intro stall seq f _ hears listed
    have listed : 1 ≤ stall ∧ stall ≤ s.sp.config.posts := by simpa [State.inRoster] using listed
    exact ⟨listed.1, listed.2, hears.2, Nat.zero_le _, standing_corrected_ranges f⟩

/-- In CONFIG no frame is received, so that an empty table stays so (R37). -/
theorem EntriesMove.empty {c : Instr} {s : State} {es : List PeerEntry} (m : EntriesMove c s es)
    (h : s.pv.entries = []) (config : s.sp.mode = .config) : es = [] := by
  cases m with
  | same => exact h
  | cleared => rfl
  | swept now => simp [sweptEntries, h]
  | heard hears => exact absurd config (receives_joined hears.1)
  | left hears => exact absurd config (receives_joined hears.1)
  | accepted hears => exact absurd config (receives_joined hears.1)

theorem exec_peerTable (c : Instr) (s : State) (h : ModeControl s ∧ PeerTable s) :
    Answers (exec c s) fun t => ModeControl t ∧ PeerTable t := by
  obtain ⟨mode, ascending, ranges, empty, unlocked⟩ := h
  by_cases reset : ∀ straps, c ≠ .hardwareReset straps
  swap
  · push Not at reset
    obtain ⟨straps, rfl⟩ := reset
    refine (exec_modeControl _ s mode).imp' fun t e mode' => ⟨mode', ?_⟩
    cases e
    exact ⟨List.Pairwise.nil, fun _ mem => absurd mem List.not_mem_nil, fun _ => rfl, fun _ => rfl⟩
  obtain ⟨t, e, moved⟩ := exec_entries c s
  obtain mode' := (exec_modeControl c s mode).of_next e
  obtain spares := (exec_spares c s).of_next e
  refine ⟨t, e, mode', moved.ascending ascending, ?_, fun config => ?_, fun open' => ?_⟩
  · by_cases joined : s.sp.mode = .config
    · rw [moved.empty (empty joined) joined]
      simp
    · have locked : s.sp.locked = true := by
        by_contra open'
        exact joined (unlocked (by simpa using open'))
      obtain ⟨_, config, own⟩ := (exec_locked (config := s.sp.config) (stall := s.lp.stall) ⟨locked, rfl, rfl⟩ reset).of_next e
      rw [config, own]
      exact moved.inRange ranges
  · by_cases joined : s.sp.mode = .config
    · exact moved.empty (empty joined) joined
    · have locked : s.sp.locked = true := mode.1.mpr joined
      obtain ⟨locked', _⟩ := (exec_locked (config := s.sp.config) (stall := s.lp.stall) ⟨locked, rfl, rfl⟩ reset).of_next e
      exact absurd config (mode'.1.mp locked')
  · by_contra joined
    exact absurd (mode'.1.mpr joined) (by simp [open'])

theorem peerTable_kept : KeptBy (fun _ => True) fun s => ModeControl s ∧ PeerTable s where
  command c s _ h := exec_peerTable c s h
  clock _ _ _ h := h
  levels _ _ _ h := h
  alone _ _ := trivial

/-! ### The widths of the wire fields (R1) -/

/-- The command is one that a port can carry, or the part runs it on its own. -/
def OfPort (c : Instr) : Prop := runsAlone c = true ∨ c.WellFormed

theorem OfPort.frameHead {c : Instr} (h : OfPort c) {stall seq : Nat} (head : frameHead c = some (stall, seq)) :
    seq ≤ 255 := by
  cases c <;> cases head <;> rcases h with h | h <;> simp_all [runsAlone, hearsStall, Instr.WellFormed, Instr.wellFormed] <;> omega

theorem modeOfCode_announced (n : Nat) : modeOfCode n = .active ∨ modeOfCode n = .parking ∨ modeOfCode n = .hold ∨
    modeOfCode n = .dormant := by
  unfold modeOfCode
  split <;> simp

theorem standing_corrected_fields {stall seq : Nat} {f : StandingWire} (h : OfPort (.standing stall seq f)) :
    (∀ k ∈ f.corrected.served, k ≤ 65535) ∧
      (f.corrected.mode = .active ∨ f.corrected.mode = .parking ∨ f.corrected.mode = .hold ∨ f.corrected.mode = .dormant) := by
  have fits : f.served < 65536 := by
    rcases h with h | h
    · cases h
    · simp only [Instr.WellFormed, Instr.wellFormed, decide_eq_true_eq] at h
      obtain ⟨_, _, _, _, _, _, _, _, _, fits, _⟩ := h
      exact fits
  refine ⟨fun k mem => ?_, modeOfCode_announced _⟩
  unfold StandingWire.corrected at mem
  dsimp only at mem
  split at mem
  · cases mem
  · obtain rfl := Option.some.inj mem
    omega

theorem peerFields_kept : KeptBy OfPort PeerFields where
  command c s ok h := by
    refine (exec_entries c s).imp fun t moved => moved.keeps h ?_ (fun _ held => held) ?_ ?_
    · rintro e stall seq head ⟨_, rest⟩
      exact ⟨ok.frameHead head, rest⟩
    · rintro e stall seq f rfl - ⟨seq', _⟩
      exact ⟨seq', standing_corrected_fields ok⟩
    · rintro stall seq f rfl - -
      exact ⟨ok.frameHead rfl, standing_corrected_fields ok⟩
  clock _ _ _ h := h
  levels _ _ _ h := h
  alone _ alone := .inl alone

/-- The waiting commands stay those that their ports can carry: a step takes the first of them. -/
theorem step_carried {s t : State} (h : Carried s) (e : step s = .next t) : Carried t := by
  unfold step at e
  split at e
  · next empty =>
    cases e
    have kept : KeptBy (fun _ => True) fun t => t.pending = [] :=
      { command := fun c u _ none => (exec_spares c u).imp fun v spares => spares.pending.trans none
        clock := fun _ _ _ h => h
        levels := fun _ _ _ h => h
        alone := fun _ _ => trivial }
    simp [Carried, kept.idle empty]
  · next c rest queue =>
    obtain spares := (exec_spares c (s.setPending rest)).of_next e
    intro i mem
    rw [spares.pending] at mem
    exact h i (queue ▸ List.mem_cons_of_mem _ mem)

theorem Carried.ofPort {s : State} (h : Carried s) : ∀ c ∈ s.pending, OfPort c := fun c mem => .inr (h c mem)

/-! ### The isolation flags (R12 to R16) -/

/-- The flags, the causes and the rejoin hold of a peer view are consistent (R12). -/
def FlagsAgree (p : PeerView) : Prop :=
  ¬(p.isolated = true ∧ p.rejoining = true) ∧ (p.isolated = true ↔ (p.causeSilence = true ∨ p.causeEcho = true)) ∧
    (p.rejoining = true ↔ p.rejoinAt.isSome = true)

theorem FlagsAgree.isolate {s : State} (h : FlagsAgree s.pv) (silence : Bool) : FlagsAgree (s.isolate silence).pv := by
  obtain ⟨alone, causes, hold⟩ := h
  have flags : (s.isolate silence).pv.isolated = true ∧
      (s.isolate silence).pv.rejoining = (s.pv.isolated && s.pv.rejoining) ∧
      (s.isolate silence).pv.causeSilence = (s.pv.causeSilence || silence) ∧
      (s.isolate silence).pv.causeEcho = (s.pv.causeEcho || !silence) ∧
      (s.isolate silence).pv.rejoinAt = if s.pv.isolated then s.pv.rejoinAt else none := by
    simp [State.isolate]
  obtain ⟨isolated', rejoining', silence', echo', rejoinAt'⟩ := flags
  unfold FlagsAgree
  rw [isolated', rejoining', silence', echo', rejoinAt']
  cases was : s.pv.isolated
  · cases silence <;> simp
  · rw [was] at alone
    cases silence <;> simp_all

theorem FlagsAgree.clearIsolation (s : State) : FlagsAgree s.clearIsolation.pv := by
  simp [FlagsAgree, State.clearIsolation]

theorem FlagsAgree.ownEchoed {s : State} (h : FlagsAgree s.pv) : FlagsAgree s.ownEchoed.pv := by
  unfold State.ownEchoed
  dsimp only
  repeat' split
  · exact .clearIsolation _
  · exact h
  · exact h

theorem FlagsAgree.givenUp {s : State} (h : FlagsAgree s.pv) : FlagsAgree s.givenUp.pv := by
  unfold State.givenUp State.ownNotEchoed
  dsimp only
  split
  · exact FlagsAgree.isolate (by exact h) _
  · exact h

theorem FlagsAgree.restarted (s : State) (o : PostMode) (d : Bool) : FlagsAgree (s.completeRestart o d).pv := by
  simp [FlagsAgree, completeRestart_eq_restartedInto, restartedInto]

theorem FlagsAgree.of_pv {s t : State} (h : FlagsAgree s.pv) (same : t.pv = s.pv) : FlagsAgree t.pv := same ▸ h

theorem exec_isolation (c : Instr) (s : State) (h : Isolation s) : Answers (exec c s) Isolation := by
  by_cases writes : writesPeers c = false
  · refine (exec_spares c s).imp fun t spares => ?_
    exact FlagsAgree.of_pv h (spares.peers writes)
  change Answers (exec c s) fun t => FlagsAgree t.pv
  have heard (stall seq : Nat) : FlagsAgree (s.countReceived.heard stall seq).pv := h
  cases c
  case standing stall seq f =>
    simp only [exec, execStanding]
    repeat' split
    all_goals rw [answers_next]
    · exact h
    · exact .of_pv h (by simp)
    · exact heard stall seq
    · simpa using FlagsAgree.clearIsolation _
    · unfold State.acceptStanding
      rw [State.raiseIf_pv]
      exact heard stall seq
  case leave stall seq reason =>
    simp only [exec, execLeave]
    repeat' split
    all_goals rw [answers_next]
    · exact h
    · exact .of_pv h (by simp)
    · exact heard stall seq
    · exact heard stall seq
  case dispatch stall seq f =>
    simp only [exec, execDispatch]
    repeat' split
    all_goals rw [answers_next]
    · exact h
    · exact .of_pv h (by simp)
    · exact heard stall seq
    · exact FlagsAgree.of_pv (heard stall seq) (by simp)
  case curb stall seq f =>
    simp only [exec, execCurb]
    repeat' split
    all_goals rw [answers_next]
    · exact h
    · exact .of_pv h (by simp)
    · exact FlagsAgree.of_pv (heard stall seq) (by simp)
  case sweep =>
    simp only [exec, execSweep]
    split
    all_goals rw [answers_next]
    · exact h
    · rw [State.raiseTimes_pv]
      exact h
  case echoSuccess idle =>
    simp only [exec, execEchoSuccess]
    repeat' split
    all_goals rw [answers_next]
    · exact h
    · rw [State.finish_pv]
      unfold State.leaveEchoed
      split
      · exact .restarted ..
      · exact FlagsAgree.ownEchoed (by exact h)
    · exact h
  case collision idle =>
    simp only [exec, execCollision]
    repeat' split
    all_goals rw [answers_next]
    · exact h
    · exact h
    · rw [State.finish_pv]
      exact FlagsAgree.givenUp (by exact h)
    · exact h
  case lastHeardExpiry =>
    simp only [exec, execLastHeardExpiry]
    split
    all_goals rw [answers_next]
    · exact h
    · rw [State.finish_pv]
      exact FlagsAgree.isolate (by exact h) _
  case rejoinHoldExpiry =>
    simp only [exec, execRejoinHoldExpiry]
    split
    all_goals rw [answers_next]
    · exact h
    · obtain ⟨_, causes, _⟩ := h
      simp [FlagsAgree, causes]
  case hardwareReset straps =>
    rw [exec, execHardwareReset, answers_next]
    exact (by simp [FlagsAgree, PeerView.reset] : FlagsAgree PeerView.reset)
  case restart =>
    simp only [exec, execRestart]
    repeat' split
    all_goals rw [answers_next]
    · exact h
    · exact .of_pv (.restarted s.releaseForRestart .lockout false) (by simp)
    · exact .of_pv h (by simp)
  case restartWaitExpiry =>
    simp only [exec, execRestartWaitExpiry]
    repeat' split
    all_goals rw [answers_next]
    · exact h
    · rw [State.finish_pv]
      exact .restarted ..
  case join =>
    simp only [exec, execJoin]
    repeat' split
    all_goals rw [answers_next]
    · exact h
    · exact h
    · exact h
    · rw [State.respond_pv, State.finish_pv, start_eq]
      split <;> (simp [startedBlocks, State.startTimers]; exact h)
  all_goals exact absurd rfl writes

theorem isolation_kept : KeptBy (fun _ => True) Isolation where
  command c s _ h := exec_isolation c s h
  clock _ _ _ h := h
  levels _ _ _ h := h
  alone _ _ := trivial

/-- Settles O53: each move of the peer table keeps its order and ranges, and the flags change together. -/
theorem stepKeepsThePeerView : Obligations.StepKeepsThePeerView :=
  ⟨fun _ _ h e => step_keeps_always peerTable_kept h e, fun _ _ h e => step_keeps_always isolation_kept h e,
    fun _ _ carried h e => ⟨step_carried carried e, step_keeps peerFields_kept carried.ofPort h e⟩⟩

end Sys2Proof.Safety
end

