-- ==== Sys2Proof/Proofs/LineSteps.lean ====
section
/-!
The Line Port (R22 to R38): what any command does to the mode and the line port is a sequence of elementary changes
(`LineStep`), and each of the invariants of the line port is kept by each of these.
-/
namespace Sys2Proof.Safety

open Sys2Proof Sys2Proof.Machine

/-! ### The elementary changes -/

/-- The Line Port takes frames for sending in the mode (R35, R37). -/
def Transmits (m : PostMode) : Prop := m ≠ .config ∧ m ≠ .lockout

theorem transmits_iff {s : State} : Transmits s.sp.mode ↔ s.transmitEnabled = true := by
  simp [Transmits, State.transmitEnabled, State.joined]

/-- No statistic passes its limit where none has passed it before (R38). -/
def StatsKept (a b : LineStats) : Prop :=
  (a.sent ≤ 65535 → b.sent ≤ 65535) ∧ (a.received ≤ 65535 → b.received ≤ 65535) ∧ (a.bad ≤ 65535 → b.bad ≤ 65535) ∧
    (a.collisions ≤ 65535 → b.collisions ≤ 65535) ∧ (a.attemptDrops ≤ 65535 → b.attemptDrops ≤ 65535) ∧
    (a.queueDrops ≤ 65535 → b.queueDrops ≤ 65535)

/-- The line port with a frame handed in (R23). -/
def LinePort.handed (l : LinePort) (f : QueuedFrame) : LinePort :=
  { l with
    queue := enqueued f l.queue
    stats := { l.stats with queueDrops := if drops l.queue then satSucc 65535 l.stats.queueDrops else l.stats.queueDrops } }

/-- The elementary changes of the mode and the line port. -/
inductive LineStep : PostMode × LinePort → PostMode × LinePort → Prop
  | taken {m l l'} : LineMoves l l' → LineStep (m, l) (m, l')
  | mode {m m' l} : Transmits m' → LineStep (m, l) (m', l)
  | handed {m l f} : Transmits m → (f = .standing → l.queue.any (·.isStanding) = false) →
      LineStep (m, l) (m, LinePort.handed l f)
  | counted {m l stats} : StatsKept l.stats stats → LineStep (m, l) (m, { l with stats := stats })
  | level {m l idle} : LineStep (m, l) (m, { l with lineIdle := idle })
  | timer {m l t} : Transmits m ∨ l.standingAt ≠ none → LineStep (m, l) (m, { l with standingAt := t })
  | flight {m l f f'} : l.inFlight = some f → f'.attempt = f.attempt ∨ (f.attempt < 8 ∧ f'.attempt = f.attempt + 1) →
      LineStep (m, l) (m, { l with inFlight := some f' })
  | ended {m l n} : n ≤ 3 → LineStep (m, l) (m, { l with inFlight := none, echoFailures := n })
  | silenced {m m' l} : LineStep (m, l) (m', { l with inFlight := none, queue := [], standingAt := none })
  | reset {m l straps idle} : LineStep (m, l) (.config, { LinePort.reset straps with lineIdle := idle })

/-- A command's changes of the mode and the line port are elementary ones. -/
def LineSteps (s t : State) : Prop :=
  Relation.ReflTransGen LineStep (s.sp.mode, s.lp) (t.sp.mode, t.lp)

theorem LineSteps.refl (s : State) : LineSteps s s := Relation.ReflTransGen.refl

variable {s t u : State}

theorem LineSteps.of_same (h : LineSteps s t) (mode : u.sp.mode = t.sp.mode) (lp : u.lp = t.lp) : LineSteps s u := by
  unfold LineSteps
  rw [mode, lp]
  exact h

theorem LineSteps.step (h : LineSteps s t) {l : LinePort} (change : LineStep (t.sp.mode, t.lp) (t.sp.mode, l))
    (mode : u.sp.mode = t.sp.mode) (lp : u.lp = l) : LineSteps s u := by
  unfold LineSteps
  rw [mode, lp]
  exact h.tail change

theorem LineSteps.setMode (h : LineSteps s t) {m : PostMode} (transmits : Transmits m) : LineSteps s (t.setMode m) := by
  unfold LineSteps
  rw [State.setMode_sp_mode, State.setMode_lp]
  exact h.tail (.mode transmits)

theorem LineSteps.of_modeMoves (h : LineSteps s t) (mode : ModeMoves t.sp.mode t.sp.restarting u.sp.mode)
    (line : LineMoves t.lp u.lp) : LineSteps s u := by
  refine Relation.ReflTransGen.tail (b := (u.sp.mode, t.lp)) ?_ (.taken line)
  rcases mode with same | ⟨_, _, enters⟩
  · rw [same]
    exact h
  · exact h.tail (.mode (by rcases enters with e | e | e <;> rw [e] <;> exact ⟨by decide, by decide⟩))

theorem LineSteps.finish (h : LineSteps s t) : LineSteps s t.finish := h.of_modeMoves (by simp) (by simp)

theorem LineSteps.respond (h : LineSteps s t) (r : ResultCode) (d : ResponseData) : LineSteps s (t.respond r d) := h

theorem LineSteps.takeFrame (h : LineSteps s t) : LineSteps s t.takeFrame := h.of_modeMoves (by simp) (by simp)

theorem LineSteps.enqueueNow (h : LineSteps s t) {f : QueuedFrame} (transmits : t.transmitEnabled = true)
    (one : f = .standing → t.lp.queue.any (·.isStanding) = false) : LineSteps s (t.enqueueNow f) :=
  h.step (.handed (transmits_iff.mpr transmits) one) (by rw [enqueueNow_eq]) (by rw [enqueueNow_eq]; rfl)

theorem LineSteps.enqueue (h : LineSteps s t) {f : QueuedFrame} (other : f ≠ .standing) : LineSteps s (t.enqueue f) := by
  unfold State.enqueue
  split
  · next transmits => exact h.enqueueNow transmits fun e => absurd e other
  · exact h

theorem LineSteps.enqueueAll (h : LineSteps s t) {ds : List CallFrame} : LineSteps s (t.enqueueAll ds) := by
  induction ds generalizing t with
  | nil => exact h
  | cons d ds ih => exact ih (h.enqueue (by simp))

theorem LineSteps.startStanding (h : LineSteps s t) (runs : Transmits t.sp.mode ∨ t.lp.standingAt ≠ none) :
    LineSteps s t.startStanding := by
  have timed : LineSteps s (t.countDraw.setLp { t.lp with standingAt := some (t.now + t.drawn 1000 100) }) :=
    h.step (.timer runs) rfl rfl
  unfold State.startStanding State.enqueueStanding
  dsimp only
  split
  · next open' =>
    simp only [Bool.and_eq_true, Bool.not_eq_eq_eq_not, Bool.not_true] at open'
    exact timed.enqueueNow open'.1 fun _ => open'.2
  · exact timed

/-- The line port falls silent where the post enters LOCKOUT (R35). -/
theorem LineSteps.enterLockout (h : LineSteps s t) : LineSteps s t.enterLockout := by
  by_cases locked : t.sp.mode = .lockout
  · unfold State.enterLockout
    rw [if_pos locked]
    exact h
  · rw [enterLockout_eq t locked]
    exact h.tail .silenced

theorem satSucc_kept {limit n : Nat} (_ : n ≤ limit) : satSucc limit n ≤ limit := satSucc_le limit n

theorem LineSteps.counted (h : LineSteps s t) {stats : LineStats} (kept : StatsKept t.lp.stats stats) :
    LineSteps s (t.setLp { t.lp with stats := stats }) := h.step (.counted kept) rfl rfl

theorem LineSteps.countReceived (h : LineSteps s t) : LineSteps s t.countReceived :=
  h.counted ⟨id, satSucc_kept, id, id, id, id⟩

theorem LineSteps.meetDuplicate (h : LineSteps s t) : LineSteps s t.meetDuplicate := by
  have received : LineSteps s (t.countReceived.raise .duplicateStall) := h.countReceived.of_same rfl rfl
  unfold State.meetDuplicate
  dsimp only
  split
  · exact received.of_same rfl rfl
  · exact received.enterLockout

theorem LineSteps.setLine (h : LineSteps s t) (idle : Bool) : LineSteps s (t.setLine idle) := h.step .level rfl rfl

theorem LineSteps.flight (h : LineSteps s t) {f f' : InFlight} (flight : t.lp.inFlight = some f)
    (attempt : f'.attempt = f.attempt ∨ (f.attempt < 8 ∧ f'.attempt = f.attempt + 1)) :
    LineSteps s (t.setLp { t.lp with inFlight := some f' }) :=
  h.step (.flight flight attempt) rfl rfl

theorem LineSteps.beginAttempt (h : LineSteps s t) {f : InFlight} (flight : t.lp.inFlight = some f) :
    LineSteps s (t.beginAttempt f) :=
  (h.flight (f' := { f with body := t.bodyAtRetry f.body, phase := .sending }) flight (.inl rfl)).setLine false

theorem LineSteps.completeRestart (h : LineSteps s t) (o : PostMode) (d : Bool) : LineSteps s (t.completeRestart o d) := by
  rw [completeRestart_eq_restartedInto]
  have silent : Relation.ReflTransGen LineStep (s.sp.mode, s.lp) (restartMode o d,
      { t.lp with inFlight := none, queue := [], standingAt := none, echoFailures := 0 }) :=
    (Relation.ReflTransGen.tail h .silenced).tail (.ended (Nat.zero_le 3))
  unfold restartedInto LineSteps
  by_cases locks : restartMode o d = .lockout
  · simp only [locks, if_true]
    simpa [locks] using silent
  · simp only [locks, if_false]
    have transmits : Transmits (restartMode o d) := ⟨restartMode_ne_config o d, locks⟩
    exact (silent.tail (.timer (.inl transmits))).tail (.handed (f := .standing) transmits fun _ => rfl)

theorem LineSteps.leaveEchoed (h : LineSteps s t) (body : FrameBody) : LineSteps s (t.leaveEchoed body) := by
  unfold State.leaveEchoed
  split
  · exact h.completeRestart _ _
  · exact h

theorem LineSteps.intake (h : LineSteps s t) (d : CallFrame) : LineSteps s (t.intake d).1 := by
  rcases intake_mode t d with same | ⟨_, _, active⟩
  · exact h.of_same same (by simp)
  · unfold LineSteps
    rw [active, (intake_frame t d).2.2.1]
    exact h.tail (.mode ⟨by decide, by decide⟩)

theorem LineSteps.takeCall (h : LineSteps s t) (d : CallFrame) : LineSteps s (t.takeCall d).1 := by
  unfold State.takeCall State.sendCall
  dsimp only
  split
  · exact h.intake d
  · have held : LineSteps s ((t.intake d).1.setCt { (t.intake d).1.ct with
        repeats := withRepeats (t.intake d).1.ct.repeats d (t.intake d).1.now }) := (h.intake d).of_same rfl rfl
    exact held.enqueue (by simp)

theorem LineSteps.takeSample (h : LineSteps s t) (x : Int) : LineSteps s (t.takeSample x) := by
  have judged : LineSteps s (t.judgeReading x) := h.of_same (by simp) (by simp)
  unfold State.takeSample State.originate
  dsimp only
  split
  · exact (judged.enqueue (f := .curb ⟨t.sp.config.curbLevel, t.sp.config.curbHold, x⟩) (by simp)).of_same
      (by simp) (by simp)
  · exact judged

theorem LineSteps.start (h : LineSteps s t) : LineSteps s t.start := by
  have active : LineSteps s (t.setSp { t.sp with mode := .active, locked := true }) := by
    unfold LineSteps
    exact Relation.ReflTransGen.tail h (.mode (m' := .active) ⟨by decide, by decide⟩)
  have timed : LineSteps s (((t.setSp { t.sp with mode := .active, locked := true }).setVl
      { t.vl with desired := desiredLevel t.sp.config }).startTimers.startEchoTimer) :=
    active.of_same (by simp) (by simp)
  have started : LineSteps s (startedBlocks t) :=
    (timed.startStanding (.inl ⟨by simp, by simp⟩)).of_same rfl rfl
  rw [start_eq]
  split
  · exact started.takeSample _
  · exact started

theorem LineSteps.beginRestart (h : LineSteps s t) : LineSteps s t.beginRestart := by
  have off : LineSteps s ((t.setSp { t.sp with restarting := some ⟨t.sp.mode, false, t.now + 200⟩ }).stepDown 0).dropEnable :=
    h.of_same (by simp) (by simp)
  exact (off.enqueue (f := .leave) (by simp)).of_same (by simp [State.beginRestart]) (by simp [State.beginRestart])

theorem LineSteps.givenUp (h : LineSteps s t) : LineSteps s t.givenUp := by
  have ended : LineSteps s (t.setLp { t.lp with
      inFlight := none, echoFailures := satSucc 3 t.lp.echoFailures }) :=
    h.step (.ended (by unfold satSucc; split <;> omega)) rfl rfl
  have counted : LineSteps s (t.setLp { t.lp with
      inFlight := none, echoFailures := satSucc 3 t.lp.echoFailures,
      stats := { t.lp.stats with attemptDrops := satSucc 65535 t.lp.stats.attemptDrops } }) :=
    ended.counted ⟨id, id, id, id, satSucc_kept, id⟩
  exact counted.of_same (by simp [State.givenUp]) (by simp [State.givenUp])

/-! ### What each command does to the line port -/

theorem supervisor_line (c : Instr) (s : State) (family : ofSupervisor c = true) (writes : ¬(writesLine c = false ∧ writesMode c = false)) :
    Answers (exec c s) (LineSteps s) := by
  have same : LineSteps s s := .refl s
  cases c
  case hardwareReset straps =>
    rw [exec, execHardwareReset, answers_next]
    exact Relation.ReflTransGen.single .reset
  case join =>
    simp only [exec, execJoin]
    repeat' split
    all_goals rw [answers_next]
    · exact same
    · exact same
    · exact same
    · exact same.start.finish.respond _ _
  case call args =>
    simp only [exec, execCall]
    repeat' split
    all_goals rw [answers_next]
    · exact same
    · exact same
    · exact same
    all_goals exact (same.takeCall _).finish.respond _ _
  case park =>
    simp only [exec, execPark]
    repeat' split
    all_goals rw [answers_next]
    · exact same
    · exact LineSteps.respond (.finish ((same.setMode (m := .parking) ⟨by decide, by decide⟩).of_same (by simp) (by simp))) _ _
    · exact same
  case wake =>
    simp only [exec, execWake]
    repeat' split
    all_goals rw [answers_next]
    · exact same
    · exact LineSteps.respond (.finish (same.setMode (m := .active) ⟨by decide, by decide⟩)) _ _
    · exact same
  case restart =>
    simp only [exec, execRestart]
    repeat' split
    all_goals rw [answers_next]
    · exact same
    · exact (LineSteps.completeRestart (same.of_same (by simp) (by simp)) _ _).finish.respond _ _
    · exact same.beginRestart.finish.respond _ _
  case parkComplete =>
    simp only [exec, execParkComplete]
    split
    all_goals rw [answers_next]
    · next ready =>
      rw [State.parkTest, if_pos ready]
      refine LineSteps.finish (same.setMode ?_)
      split <;> exact ⟨by decide, by decide⟩
    · exact same
  case restartWaitExpiry =>
    simp only [exec, execRestartWaitExpiry]
    split
    all_goals rw [answers_next]
    · exact same
    · exact LineSteps.finish (LineSteps.completeRestart (t := s.reach _) (same.of_same rfl rfl) _ _)
  all_goals first | exact absurd family Bool.false_ne_true | exact absurd ⟨rfl, rfl⟩ writes

theorem peers_line (c : Instr) (s : State) (family : ofPeers c = true) (writes : ¬(writesLine c = false ∧ writesMode c = false)) :
    Answers (exec c s) (LineSteps s) := by
  have same : LineSteps s s := .refl s
  cases c
  case standing stall seq f =>
    simp only [exec, execStanding]
    repeat' split
    all_goals rw [answers_next]
    · exact same
    · exact same.meetDuplicate.finish
    · exact same.countReceived.of_same rfl rfl
    · exact (same.countReceived.of_same (by simp) (by simp)).finish
    · exact same.countReceived.of_same (by simp) (by simp)
  case leave stall seq reason =>
    simp only [exec, execLeave]
    repeat' split
    all_goals rw [answers_next]
    · exact same
    · exact same.meetDuplicate.finish
    · exact same.countReceived.of_same rfl rfl
    · exact same.countReceived.of_same rfl rfl
  case dispatch stall seq f =>
    simp only [exec, execDispatch]
    repeat' split
    all_goals rw [answers_next]
    · exact same
    · exact same.meetDuplicate.finish
    · exact same.countReceived.of_same rfl rfl
    · have heard : LineSteps s (s.countReceived.heard stall seq) := same.countReceived.of_same rfl rfl
      exact (heard.intake _).finish
  case curb stall seq f =>
    simp only [exec, execCurb]
    repeat' split
    all_goals rw [answers_next]
    · exact same
    · exact same.meetDuplicate.finish
    · exact (same.countReceived.of_same (by simp) (by simp)).finish
  case badFrame =>
    simp only [exec, execBadFrame]
    split
    all_goals rw [answers_next]
    · exact same.counted ⟨id, id, satSucc_kept, id, id, id⟩
    · exact same
  case duplicateStall kind =>
    simp only [exec, execDuplicateStall]
    split
    all_goals rw [answers_next]
    · exact same.meetDuplicate.finish
    · exact same
  all_goals first | exact absurd family Bool.false_ne_true | exact absurd ⟨rfl, rfl⟩ writes

theorem line_line (c : Instr) (s : State) (family : ofLine c = true) :
    Answers (exec c s) (LineSteps s) := by
  have same : LineSteps s s := .refl s
  cases c
  case standingTimer =>
    simp only [exec, execStandingTimer]
    split
    all_goals rw [answers_next]
    · exact same
    · next runs => exact LineSteps.takeFrame (LineSteps.startStanding (same.of_same rfl rfl) (.inr (by simp [runs])))
  case lineIdle =>
    simp only [exec, execLineIdle]
    repeat' split
    all_goals rw [answers_next]
    · exact (same.setLine true).takeFrame
    · exact same
    · next flight _ _ _ => exact (same.setLine true).flight flight (.inl rfl)
    · exact same.setLine true
    · next flight _ _ => exact (same.setLine true).beginAttempt flight
  case echoSuccess idle =>
    simp only [exec, execEchoSuccess]
    repeat' split
    all_goals rw [answers_next]
    · exact same
    · refine (LineSteps.leaveEchoed ?_ _).finish
      have ended : LineSteps s (s.setLp { s.lp with inFlight := none, echoFailures := 0 }) :=
        same.step (.ended (Nat.zero_le 3)) rfl rfl
      exact ((ended.counted (stats := { s.lp.stats with sent := satSucc 65535 s.lp.stats.sent })
        ⟨satSucc_kept, id, id, id, id, id⟩).setLine idle).of_same (by simp) (by simp; rfl)
    · exact same
  case collision idle =>
    have collides : LineSteps s ((s.setLp { s.lp with
        stats := { s.lp.stats with collisions := satSucc 65535 s.lp.stats.collisions } }).setLine idle) :=
      (same.counted (stats := { s.lp.stats with collisions := satSucc 65535 s.lp.stats.collisions })
        ⟨id, id, id, satSucc_kept, id, id⟩).setLine idle
    simp only [exec, execCollision]
    repeat' split
    all_goals rw [answers_next]
    · exact same
    · next flight _ again => exact LineSteps.flight (collides.of_same rfl rfl) flight (.inr ⟨again, rfl⟩)
    · exact LineSteps.finish (LineSteps.givenUp (collides.of_same rfl rfl))
    · exact same
  case backoffEnd idle =>
    simp only [exec, execBackoffEnd]
    repeat' split
    all_goals rw [answers_next]
    · exact same
    · next flight _ _ _ _ => exact LineSteps.beginAttempt (LineSteps.setLine (same.of_same rfl rfl) idle) flight
    · next flight _ _ _ _ =>
        exact LineSteps.flight (LineSteps.setLine (same.of_same rfl rfl) idle) flight (.inl rfl)
    · exact same
  case echoTimer =>
    simp only [exec, execEchoTimer]
    split
    all_goals rw [answers_next]
    · exact same
    · next t _ =>
      have reached : LineSteps s (s.reach t) := same.of_same rfl rfl
      exact LineSteps.takeFrame (reached.enqueueAll.of_same rfl rfl)
  case repeatCopyDue =>
    simp only [exec, execRepeatCopyDue]
    repeat' split
    all_goals rw [answers_next]
    · exact same
    · exact same.of_same rfl rfl
    · refine LineSteps.takeFrame (LineSteps.enqueue ?_ (by simp))
      exact same.of_same rfl rfl
  all_goals exact absurd family Bool.false_ne_true

theorem calls_line (c : Instr) (s : State) (family : ofCalls c = true) (writes : ¬(writesLine c = false ∧ writesMode c = false)) :
    Answers (exec c s) (LineSteps s) := by
  have same : LineSteps s s := .refl s
  cases c
  case sensorSample x =>
    simp only [exec, execSensorSample]
    repeat' split
    all_goals rw [answers_next]
    · exact same.of_same rfl rfl
    · refine LineSteps.finish (LineSteps.takeSample ?_ _)
      exact same.of_same rfl rfl
    · refine LineSteps.takeSample ?_ _
      exact same.of_same rfl rfl
  all_goals first | exact absurd family Bool.false_ne_true | exact absurd ⟨rfl, rfl⟩ writes

theorem exec_line (c : Instr) (s : State) : Answers (exec c s) (LineSteps s) := by
  by_cases quiet : writesLine c = false ∧ writesMode c = false
  · exact (exec_spares c s).imp fun t spares => (LineSteps.refl s).of_modeMoves (spares.mode quiet.2) (spares.line quiet.1)
  · rcases families c with f | f | f | f | f | f | f
    · exact supervisor_line c s f quiet
    · exact peers_line c s f quiet
    · exact line_line c s f
    · exact calls_line c s f quiet
    all_goals
      cases c
      all_goals first | exact absurd f Bool.false_ne_true | exact absurd ⟨rfl, rfl⟩ quiet

end Sys2Proof.Safety
end

