-- ==== Sys2Proof/Proofs/TransmitQueue.lean ====
section
/-!
The invariants of the line port (R22, R30, R31, R35, R37, R38): each elementary change keeps the queue in its order and
bounds, the silence of CONFIG and LOCKOUT, and the counts within their limits.
-/
namespace Sys2Proof.Safety

open Sys2Proof Sys2Proof.Machine

/-! ### The queue's operations (R22, R23) -/

/-- The queue is in class order. -/
def InClassOrder (q : List QueuedFrame) : Prop := q.Pairwise fun a b => b.rank ≤ a.rank

theorem placeFrame_perm (f : QueuedFrame) (q : List QueuedFrame) : (placeFrame f q).Perm (f :: q) := by
  induction q with
  | nil => exact .refl _
  | cons g gs ih =>
    unfold placeFrame
    split
    · exact (ih.cons g).trans (.swap ..)
    · exact .refl _

theorem InClassOrder.placeFrame {f : QueuedFrame} {q : List QueuedFrame} (h : InClassOrder q) :
    InClassOrder (placeFrame f q) := by
  induction q with
  | nil => exact List.pairwise_singleton ..
  | cons g gs ih =>
    obtain ⟨first, rest⟩ := List.pairwise_cons.mp h
    unfold Machine.placeFrame
    split
    · next below =>
      refine List.pairwise_cons.mpr ⟨fun x mem => ?_, ih rest⟩
      rcases List.mem_cons.mp ((placeFrame_perm _ _).mem_iff.mp mem) with rfl | mem
      · exact below
      · exact first x mem
    · next above =>
      refine List.pairwise_cons.mpr ⟨fun x mem => ?_, h⟩
      rcases List.mem_cons.mp mem with rfl | mem
      · omega
      · have := first x mem
        omega

theorem evictOldest_eq_eraseP (r : Nat) (q : List QueuedFrame) : evictOldest r q = q.eraseP fun g => g.rank == r := by
  induction q with
  | nil => rfl
  | cons g gs ih =>
    unfold evictOldest
    by_cases same : g.rank = r <;> simp [same, ih]

/-- A full queue with its oldest frame of the lowest class evicted has one frame less. -/
theorem length_evictOldest {q : List QueuedFrame} (h : InClassOrder q) (some' : q ≠ []) :
    (evictOldest (lowestRank q) q).length = q.length - 1 := by
  obtain ⟨_, g, mem, rank⟩ := lowestRank_of_ordered q h some'
  rw [evictOldest_eq_eraseP]
  exact List.length_eraseP_of_mem mem (by simpa using rank)

theorem countP_placeFrame (f : QueuedFrame) (q : List QueuedFrame) :
    (placeFrame f q).countP (·.isStanding) = q.countP (·.isStanding) + if f.isStanding then 1 else 0 := by
  rw [(placeFrame_perm f q).countP_eq, List.countP_cons]

/-- The queue holds at most eight frames in class order, with at most one STANDING (R22). -/
def QueueInOrder (q : List QueuedFrame) : Prop :=
  q.length ≤ 8 ∧ InClassOrder q ∧ q.countP (·.isStanding) ≤ 1

theorem QueueInOrder.enqueued {f : QueuedFrame} {q : List QueuedFrame} (h : QueueInOrder q)
    (one : f = .standing → q.any (·.isStanding) = false) : QueueInOrder (enqueued f q) := by
  obtain ⟨length, order, standings⟩ := h
  have count {p : List QueuedFrame} (sub : p.Sublist q) : (placeFrame f p).countP (·.isStanding) ≤ 1 := by
    rw [countP_placeFrame]
    have := sub.countP_le (p := (·.isStanding))
    by_cases standing : f = .standing
    · have none : q.countP (·.isStanding) = 0 := by
        have := one standing
        simpa [List.countP_eq_zero] using this
      split <;> omega
    · have other : f.isStanding = false := by
        cases f <;> simp_all [QueuedFrame.isStanding, QueuedFrame.rank]
      simp only [other, Bool.false_eq_true, if_false]
      omega
  unfold Machine.enqueued
  split
  · exact ⟨by rw [(placeFrame_perm f q).length_eq]; simp; omega, order.placeFrame, count (List.Sublist.refl q)⟩
  · next full =>
    split
    · have evicts := length_evictOldest order (by rintro rfl; simp at full)
      have sub : (evictOldest (lowestRank q) q).Sublist q := by
        rw [evictOldest_eq_eraseP]
        exact List.eraseP_sublist
      refine ⟨?_, InClassOrder.placeFrame (order.sublist sub), count sub⟩
      rw [(placeFrame_perm _ _).length_eq, List.length_cons, evicts]
      omega
    · exact ⟨length, order, standings⟩

/-! ### The invariants, change by change -/

/-- The queue and the attempt of the frame in flight (R22, R30). -/
def QueueBounds (l : LinePort) : Prop :=
  QueueInOrder l.queue ∧ ∀ f ∈ l.inFlight, 1 ≤ f.attempt ∧ f.attempt ≤ 8

/-- Nothing to send in CONFIG and LOCKOUT (R35, R37). -/
def SilentIn (m : PostMode) (l : LinePort) : Prop :=
  ¬Transmits m → l.queue = [] ∧ l.inFlight = none ∧ l.standingAt = none

/-- The counts of the line port keep to their limits (R31, R38). -/
def CountsBounded (l : LinePort) : Prop :=
  l.stats.sent ≤ 65535 ∧ l.stats.received ≤ 65535 ∧ l.stats.bad ≤ 65535 ∧ l.stats.collisions ≤ 65535 ∧
    l.stats.attemptDrops ≤ 65535 ∧ l.stats.queueDrops ≤ 65535 ∧ l.echoFailures ≤ 3 ∧ l.seq ≤ 255

theorem LineStep.queueBounds {x y : PostMode × LinePort} (step : LineStep x y) (h : QueueBounds x.2) : QueueBounds y.2 := by
  obtain ⟨queue, attempt⟩ := h
  cases step with
  | taken moved =>
    rcases moved with rfl | ⟨none, f, q, body, head, rfl⟩
    · exact ⟨queue, attempt⟩
    · obtain ⟨length, order, standings⟩ := queue
      have sub : q.Sublist (f :: q) := List.sublist_cons_self f q
      simp only [head] at length order standings
      exact ⟨⟨(sub.length_le).trans length, order.sublist sub, (sub.countP_le).trans standings⟩, by simp⟩
  | mode => exact ⟨queue, attempt⟩
  | handed _ one => exact ⟨queue.enqueued one, attempt⟩
  | counted => exact ⟨queue, attempt⟩
  | level => exact ⟨queue, attempt⟩
  | timer => exact ⟨queue, attempt⟩
  | flight flight again =>
    have := attempt _ flight
    refine ⟨queue, fun f mem => ?_⟩
    obtain rfl := Option.some.inj mem
    omega
  | ended => exact ⟨queue, by simp⟩
  | silenced => exact ⟨⟨by simp, List.Pairwise.nil, by simp⟩, by simp⟩
  | reset => exact ⟨⟨by simp [LinePort.reset], List.Pairwise.nil, by simp [LinePort.reset]⟩, by simp [LinePort.reset]⟩

theorem LineStep.silent {x y : PostMode × LinePort} (step : LineStep x y) (h : SilentIn x.1 x.2) : SilentIn y.1 y.2 := by
  cases step with
  | taken moved =>
    intro silent
    obtain ⟨queue, flight, timer⟩ := h silent
    rcases moved with rfl | ⟨_, f, q, body, head, _⟩
    · exact ⟨queue, flight, timer⟩
    · exact absurd (head.symm.trans queue) (by simp)
  | mode transmits => exact fun silent => absurd transmits silent
  | handed transmits => exact fun silent => absurd transmits silent
  | counted => exact h
  | level => exact h
  | timer runs =>
    intro silent
    obtain ⟨_, _, timer⟩ := h silent
    exact absurd timer (runs.resolve_left silent)
  | flight flight =>
    intro silent
    obtain ⟨_, none, _⟩ := h silent
    exact absurd (flight.symm.trans none) (by simp)
  | ended =>
    intro silent
    obtain ⟨queue, _, timer⟩ := h silent
    exact ⟨queue, rfl, timer⟩
  | silenced => exact fun _ => ⟨rfl, rfl, rfl⟩
  | reset => exact fun _ => ⟨rfl, rfl, rfl⟩

theorem LineStep.countsBounded {x y : PostMode × LinePort} (step : LineStep x y) (h : CountsBounded x.2) :
    CountsBounded y.2 := by
  obtain ⟨sent, received, bad, collisions, attempts, queue, failures, seq⟩ := h
  cases step with
  | taken moved =>
    rcases moved with rfl | ⟨_, f, q, body, _, rfl⟩
    · exact ⟨sent, received, bad, collisions, attempts, queue, failures, seq⟩
    · exact ⟨sent, received, bad, collisions, attempts, queue, failures,
        Nat.le_of_lt_succ (Nat.mod_lt _ (by decide))⟩
  | handed =>
    refine ⟨sent, received, bad, collisions, attempts, ?_, failures, seq⟩
    simp only [LinePort.handed]
    split
    · exact satSucc_kept queue
    · exact queue
  | counted kept =>
    obtain ⟨sent', received', bad', collisions', attempts', queue'⟩ := kept
    exact ⟨sent' sent, received' received, bad' bad, collisions' collisions, attempts' attempts, queue' queue,
      failures, seq⟩
  | ended few => exact ⟨sent, received, bad, collisions, attempts, queue, few, seq⟩
  | reset => simp [CountsBounded, LinePort.reset, LineStats.zero]
  | _ => exact ⟨sent, received, bad, collisions, attempts, queue, failures, seq⟩

/-- What each elementary change keeps, every command keeps. -/
theorem exec_keeps_line {P : PostMode × LinePort → Prop} (closed : ∀ x y, LineStep x y → P x → P y) {c : Instr} {s : State}
    (h : P (s.sp.mode, s.lp)) : Answers (exec c s) fun t => P (t.sp.mode, t.lp) := by
  have reached {y} (steps : Relation.ReflTransGen LineStep (s.sp.mode, s.lp) y) : P y := by
    induction steps with
    | refl => exact h
    | tail _ step ih => exact closed _ _ step ih
  exact (exec_line c s).imp fun t steps => reached steps

theorem keptByLine {P : PostMode × LinePort → Prop} (closed : ∀ x y, LineStep x y → P x → P y) :
    KeptBy (fun _ => True) fun s => P (s.sp.mode, s.lp) where
  command _ _ _ h := exec_keeps_line closed h
  clock _ _ _ h := h
  levels _ _ _ h := closed _ _ .level h
  alone _ _ := trivial

theorem transmitQueue_iff (s : State) : TransmitQueue s ↔ QueueBounds s.lp := by
  simp [QueueBounds, QueueInOrder, InClassOrder, and_assoc]

theorem lineSilent_iff (s : State) : LineSilent s ↔ SilentIn s.sp.mode s.lp := by
  simp [SilentIn, transmits_iff]

/-- Settles O54: each elementary change of the line port keeps its three invariants. -/
theorem stepKeepsTheTransmitQueue : Obligations.StepKeepsTheTransmitQueue := by
  refine ⟨fun s t h e => ?_, fun s t h e => ?_, fun s t h e => ?_⟩
  · rw [transmitQueue_iff] at h ⊢
    exact step_keeps_always (keptByLine (P := fun x => QueueBounds x.2) fun _ _ => LineStep.queueBounds) h e
  · rw [lineSilent_iff] at h ⊢
    exact step_keeps_always (keptByLine (P := fun x => SilentIn x.1 x.2) fun _ _ => LineStep.silent) h e
  · exact step_keeps_always (keptByLine (P := fun x => CountsBounded x.2) fun _ _ => LineStep.countsBounded) h e

end Sys2Proof.Safety
end

