-- ==== Sys2Proof/Proofs/CallSteps.lean ====
section
/-!
The call table (R40 to R57): what any command does to the call records is a sequence of elementary changes (`CallStep`).
-/
namespace Sys2Proof.Safety

open Sys2Proof Sys2Proof.Machine

/-! ### The elementary changes -/

/-- The accumulators keep to their limits (R56, R57). -/
def AccumulatorsBounded (a : Accumulators) : Prop :=
  a.delivered ≤ 999999 ∧ a.shortfall ≤ 999999 ∧ a.deliveredJ < 3600 ∧ a.shortfallJ < 3600 ∧ a.allowanceS ≤ 65535 ∧
    a.energyS ≤ 65535 ∧ a.converterS ≤ 65535 ∧ a.headroomS ≤ 65535

/-- A record but for its serving flag and the counts of its accumulators. -/
def Accounts (r r' : CallRecord) : Prop :=
  ∃ (serving : Bool) (g : Accumulators → Accumulators), (∀ a, AccumulatorsBounded a → AccumulatorsBounded (g a)) ∧
    r' = { r with serving := serving, accumulators := r.accumulators.map g }

/-- How one record can move, where the active slot is free or not (R45 to R50). -/
inductive RecordMove (ok : CallFrame → Prop) (free : Bool) (r : CallRecord) : CallRecord → Prop
  | revised {d : CallFrame} (now : Nat) : ok d → d.callId = r.callId → RecordMove ok free r (r.revised d now free).1
  | merged {d : CallFrame} (now : Nat) : ok d → d.callId = r.callId → RecordMove ok free r (r.merged d now free).1
  | started (now : Nat) : r.waiting = true → RecordMove ok free r (r.started now r.duration free)
  | ended : r.state = .active → RecordMove ok free r { r with remaining := 0, state := .ending }
  | expired : r.state = .pending → RecordMove ok free r ({ r with remaining := 0 }.finished false)

/-- The elementary changes of the call records. -/
inductive CallStep (ok : CallFrame → Prop) : List CallRecord → List CallRecord → Prop
  | accounted {rs g} : (∀ r, Accounts r (g r)) → CallStep ok rs (rs.map g)
  | cleared {rs} : CallStep ok rs []
  | dropped {rs old} : old ∈ rs → old.isFinal = true → CallStep ok rs (rs.filter (·.callId != old.callId))
  | put {rs r m} : r ∈ rs → RecordMove ok (slotFree rs) r m → CallStep ok rs (putCall m rs)
  | created {rs rs' d now} : ok d → (∀ r ∈ rs, r.callId ≠ d.callId) → withFreeSlot rs = some rs' →
      CallStep ok rs (placeCall (d.createdRecord now (slotFree rs')).1 rs')
  | ticked {rs now} : CallStep ok rs (tickedCalls now rs).1
  | goal {rs} : CallStep ok rs (moveGoal rs).1

/-- A command's changes of the call records are elementary ones. -/
def CallSteps (ok : CallFrame → Prop) (s t : State) : Prop :=
  Relation.ReflTransGen (CallStep ok) s.ct.records t.ct.records

variable {ok : CallFrame → Prop} {s t u : State}

theorem CallSteps.refl (s : State) : CallSteps ok s s := Relation.ReflTransGen.refl

theorem CallSteps.of_same (h : CallSteps ok s t) (same : u.ct.records = t.ct.records) : CallSteps ok s u := by
  unfold CallSteps
  rw [same]
  exact h

theorem CallSteps.step (h : CallSteps ok s t) {rs : List CallRecord} (change : CallStep ok t.ct.records rs)
    (same : u.ct.records = rs) : CallSteps ok s u := by
  unfold CallSteps
  rw [same]
  exact Relation.ReflTransGen.tail h change

theorem callStep_markServing (rs : List CallRecord) : CallStep ok rs (markServing rs) :=
  .accounted fun r => by
    split
    · exact ⟨true, id, fun _ h => h, by simp⟩
    · exact ⟨r.serving, id, fun _ h => h, by simp⟩

theorem CallSteps.served (h : CallSteps ok s t) (served : Served t.ct.records u.ct.records) : CallSteps ok s u := by
  rcases served with same | marked
  · exact h.of_same same
  · exact h.step (callStep_markServing _) marked

theorem CallSteps.finish (h : CallSteps ok s t) : CallSteps ok s t.finish := h.served (by simp)

theorem CallSteps.respond (h : CallSteps ok s t) (r : ResultCode) (d : ResponseData) : CallSteps ok s (t.respond r d) := h

theorem CallSteps.compute (h : CallSteps ok s t) (k : Trigger) : CallSteps ok s (t.compute k) := h.served (by simp)

theorem CallSteps.setCalls {rs : List CallRecord} (h : Relation.ReflTransGen (CallStep ok) s.ct.records rs) :
    CallSteps ok s (t.setCalls rs) := by
  rcases setCalls_served t rs with same | marked
  · unfold CallSteps
    rw [same]
    exact h
  · unfold CallSteps
    rw [marked]
    exact h.tail (callStep_markServing _)

theorem CallSteps.completeRestart (h : CallSteps ok s t) (o : PostMode) (d : Bool) :
    CallSteps ok s (t.completeRestart o d) :=
  h.step .cleared (by rw [completeRestart_eq_restartedInto]; rfl)

theorem CallSteps.leaveEchoed (h : CallSteps ok s t) (body : FrameBody) : CallSteps ok s (t.leaveEchoed body) := by
  unfold State.leaveEchoed
  split
  · exact h.completeRestart _ _
  · exact h

theorem CallSteps.takeSample (h : CallSteps ok s t) (x : Int) : CallSteps ok s (t.takeSample x) :=
  h.served (by simp)

theorem CallSteps.start (h : CallSteps ok s t) : CallSteps ok s t.start := by
  have started : CallSteps ok s (startedBlocks t) := h.of_same (by simp [startedBlocks, State.startTimers])
  rw [start_eq]
  split
  · exact started.takeSample _
  · exact started

/-! ### The intake (R42 to R47) -/

theorem findCall_some {id : Nat} {rs : List CallRecord} {r : CallRecord} (found : findCall id rs = some r) :
    r ∈ rs ∧ r.callId = id :=
  ⟨List.mem_of_find?_eq_some found, by simpa using List.find?_some found⟩

theorem findCall_none {id : Nat} {rs : List CallRecord} (unknown : findCall id rs = none) : ∀ r ∈ rs, r.callId ≠ id := by
  simpa [findCall] using unknown

theorem oldestFinal_some {rs : List CallRecord} {old : CallRecord} (found : oldestFinal rs = some old) :
    old ∈ rs ∧ old.isFinal = true := by
  induction rs generalizing old with
  | nil => cases found
  | cons r rs ih =>
    unfold oldestFinal at found
    split at found
    · next final =>
      split at found
      · obtain rfl := Option.some.inj found
        exact ⟨List.mem_cons_self, final⟩
      · next m rest =>
        split at found
        · obtain rfl := Option.some.inj found
          exact ⟨List.mem_cons_self, final⟩
        · obtain rfl := Option.some.inj found
          exact ⟨List.mem_cons_of_mem _ (ih rest).1, (ih rest).2⟩
    · exact ⟨List.mem_cons_of_mem _ (ih found).1, (ih found).2⟩

/-- The intake of a command that a port has carried is a creation, a revision or a merge (R42). -/
theorem CallSteps.intake (h : CallSteps ok s t) {d : CallFrame} (valid : ok d) : CallSteps ok s (t.intake d).1 := by
  have taken {u : State} {rs : List CallRecord} (change : CallStep ok t.ct.records rs) : CallSteps ok s (u.setCalls rs) :=
    .setCalls (Relation.ReflTransGen.tail h change)
  have noticed {u : State} (r : CallRecord) (h : CallSteps ok s u) : CallSteps ok s (u.callNotice r) :=
    h.of_same (by simp)
  unfold State.intake
  split
  · next unknown =>
    unfold State.createCall
    split
    · exact h
    · split
      · exact h.of_same (by simp)
      · next rs room =>
        exact noticed _ (taken (.created valid (findCall_none unknown) (by simpa using room)))
  · next r found =>
    obtain ⟨mem, id⟩ := findCall_some found
    have put {m} (move : RecordMove ok (slotFree t.ct.records) r m) : CallStep ok t.ct.records (putCall m t.ct.records) :=
      .put mem move
    split
    · exact noticed _ (taken (by simpa using put (.revised t.now valid id.symm)))
    · split
      · exact taken (by simpa using put (.merged t.now valid id.symm))
      · exact h

theorem CallSteps.takeCall (h : CallSteps ok s t) {d : CallFrame} (valid : ok d) : CallSteps ok s (t.takeCall d).1 := by
  unfold State.takeCall State.sendCall
  dsimp only
  split
  · exact h.intake valid
  · exact (h.intake valid).of_same (by simp)

/-! ### What each command does to the call records -/

/-- The frame that a command hands to the intake (R41, R42). -/
def FromCommand (c : Instr) (s : State) (d : CallFrame) : Prop :=
  (∃ stall seq f, c = .dispatch stall seq f ∧ DispatchWire.corrected f = some d) ∨
    ∃ a kind, c = .call a ∧ supervisorKindOfCode a.kind = some kind ∧ a.callId ≠ 0 ∧ s.sp.mode ≠ .config ∧
      d = a.corrected kind s.lp.stall

theorem meterAdd_fst_le {limit wh residue joules : Nat} : (meterAdd limit wh residue joules).1 ≤ limit :=
  min_le_left ..

theorem meterAdd_snd_lt {limit wh residue joules : Nat} : (meterAdd limit wh residue joules).2 < 3600 :=
  Nat.mod_lt _ (by decide)

theorem accounts_sampled (r : CallRecord) (measured share : Nat) : Accounts r (r.sampled measured share) := by
  unfold CallRecord.sampled
  split
  · refine ⟨r.serving, (·.sampled measured share), fun a bounded => ?_, rfl⟩
    obtain ⟨_, _, _, _, seconds⟩ := bounded
    exact ⟨meterAdd_fst_le, meterAdd_fst_le, meterAdd_snd_lt (limit := 999999) (wh := a.delivered),
      meterAdd_snd_lt (limit := 999999) (wh := a.shortfall), seconds⟩
  · exact ⟨r.serving, id, fun _ h => h, by simp⟩

theorem accounts_clipSecond (r : CallRecord) (cause : ClipCause) : Accounts r (r.clipSecond cause) := by
  unfold CallRecord.clipSecond
  split
  · refine ⟨r.serving, (·.clipSecond cause), fun a bounded => ?_, rfl⟩
    obtain ⟨delivered, shortfall, deliveredJ, shortfallJ, allowance, energy, converter, headroom⟩ := bounded
    cases cause
    case allowance => exact ⟨delivered, shortfall, deliveredJ, shortfallJ, satSucc_kept allowance, energy, converter, headroom⟩
    case energy => exact ⟨delivered, shortfall, deliveredJ, shortfallJ, allowance, satSucc_kept energy, converter, headroom⟩
    case converter => exact ⟨delivered, shortfall, deliveredJ, shortfallJ, allowance, energy, satSucc_kept converter, headroom⟩
    case headroom => exact ⟨delivered, shortfall, deliveredJ, shortfallJ, allowance, energy, converter, satSucc_kept headroom⟩
    case noCause => exact ⟨delivered, shortfall, deliveredJ, shortfallJ, allowance, energy, converter, headroom⟩
  · exact ⟨r.serving, id, fun _ h => h, by simp⟩

theorem supervisor_calls (c : Instr) (s : State) (family : ofSupervisor c = true) (writes : ¬writesCalls c = false) :
    Answers (exec c s) (CallSteps (FromCommand c s) s) := by
  have same : CallSteps (FromCommand c s) s s := .refl s
  cases c
  case hardwareReset straps =>
    rw [exec, execHardwareReset, answers_next]
    exact same.step .cleared rfl
  case join =>
    simp only [exec, execJoin]
    repeat' split
    all_goals rw [answers_next]
    · exact same
    · exact same
    · exact same
    · exact same.start.finish.respond _ _
  case call args =>
    simp only [exec, execCall]
    repeat' split
    all_goals rw [answers_next]
    · exact same
    · exact same
    · exact same
    all_goals
      next admitted _ kind known id _ =>
        have joined := (refusal_eq_none_iff.mp admitted).2.2.1 rfl
        exact (same.takeCall (.inr ⟨args, kind, rfl, known, id, joined, rfl⟩)).finish.respond _ _
  case restart =>
    simp only [exec, execRestart]
    repeat' split
    all_goals rw [answers_next]
    · exact same
    · exact (CallSteps.completeRestart (same.of_same (by simp)) _ _).finish.respond _ _
    · exact CallSteps.respond (CallSteps.finish (same.of_same (by simp))) _ _
  case restartWaitExpiry =>
    simp only [exec, execRestartWaitExpiry]
    split
    all_goals rw [answers_next]
    · exact same
    · exact CallSteps.finish (CallSteps.completeRestart (t := s.reach _) (same.of_same rfl) _ _)
  all_goals first | exact absurd family Bool.false_ne_true | exact absurd rfl writes

theorem callTimers_calls (c : Instr) (s : State) (family : ofCalls c = true) (writes : ¬writesCalls c = false) :
    Answers (exec c s) (CallSteps (FromCommand c s) s) := by
  have same : CallSteps (FromCommand c s) s s := .refl s
  cases c
  case callTimer =>
    simp only [exec, execCallTimer]
    split
    all_goals rw [answers_next]
    · exact same
    · refine CallSteps.finish (CallSteps.setCalls ?_)
      have counted : CallStep (FromCommand .callTimer s) s.ct.records (s.ct.records.map (·.clipSecond s.ap.clip)) :=
        .accounted fun r => accounts_clipSecond r _
      exact (Relation.ReflTransGen.single counted).tail (by simpa using .ticked)
  case startCountdownExpiry id =>
    simp only [exec, execStartCountdownExpiry]
    repeat' split
    all_goals rw [answers_next]
    · exact same
    · next found waiting =>
        exact CallSteps.finish (CallSteps.setCalls (.single (by simpa using .put (findCall_some found).1 (.started s.now waiting))))
    · exact same
  case remainingActiveExpiry id =>
    simp only [exec, execRemainingActiveExpiry]
    repeat' split
    all_goals rw [answers_next]
    · exact same
    · next found active =>
        exact CallSteps.finish (CallSteps.setCalls (.single (by simpa using .put (findCall_some found).1 (.ended active))))
    · exact same
  case deferredExpiry id =>
    simp only [exec, execDeferredExpiry]
    repeat' split
    all_goals rw [answers_next]
    · exact same
    · next found waits =>
        exact CallSteps.finish (CallSteps.setCalls (.single (by simpa using .put (findCall_some found).1 (.expired waits.1))))
    · exact same
  case retentionExpiry id =>
    simp only [exec, execRetentionExpiry]
    repeat' split
    all_goals rw [answers_next]
    · exact same
    · next found final =>
        obtain ⟨mem, rfl⟩ := findCall_some found
        exact same.step (.dropped mem final) rfl
    · exact same
  case apportionStep =>
    simp only [exec, execApportionStep]
    split
    all_goals rw [answers_next]
    · exact same
    · exact CallSteps.finish (CallSteps.compute (same.step .goal (by simp)) _)
  case meterSample =>
    simp only [exec, execMeterSample]
    repeat' split
    all_goals rw [answers_next]
    · exact same
    · exact CallSteps.finish (same.step (.accounted fun r => accounts_sampled r s.cc.measured s.share) (by simp; exact fun _ _ => rfl))
    · exact same.step (.accounted fun r => accounts_sampled r s.cc.measured s.share) (by simp; exact fun _ _ => rfl)
  all_goals first | exact absurd family Bool.false_ne_true | exact absurd rfl writes

theorem exec_calls (c : Instr) (s : State) : Answers (exec c s) (CallSteps (FromCommand c s) s) := by
  have same : CallSteps (FromCommand c s) s s := .refl s
  by_cases writes : writesCalls c = false
  · exact (exec_spares c s).imp fun t spares => same.served (spares.calls writes)
  rcases families c with g | g | g | g | g | g | g
  · exact supervisor_calls c s g writes
  · cases c
    case dispatch stall seq f =>
      simp only [exec, execDispatch]
      repeat' split
      all_goals rw [answers_next]
      · exact same
      · exact CallSteps.finish (same.of_same (by simp))
      · exact same
      · next d valid =>
          have heard : CallSteps (FromCommand (.dispatch stall seq f) s) s (s.countReceived.heard stall seq) := same
          exact (heard.intake (.inl ⟨stall, seq, f, rfl, valid⟩)).finish
    all_goals first | exact absurd g Bool.false_ne_true | exact absurd rfl writes
  · cases c
    case echoSuccess idle =>
      simp only [exec, execEchoSuccess]
      repeat' split
      all_goals rw [answers_next]
      · exact same
      · exact CallSteps.finish (CallSteps.leaveEchoed (same.of_same (by simp)) _)
      · exact same
    all_goals first | exact absurd g Bool.false_ne_true | exact absurd rfl writes
  · exact callTimers_calls c s g writes
  all_goals
    cases c
    all_goals first | exact absurd g Bool.false_ne_true | exact absurd rfl writes

end Sys2Proof.Safety
end

