-- ==== Sys2Proof/Proofs/CallRecords.lean ====
section
/-!
One call record (R40, R45 to R51): each move keeps it in its ranges, takes the active slot only where it is free, never
gives it up, and defers only where it is taken (`Moved`).
-/
namespace Sys2Proof.Safety

open Sys2Proof Sys2Proof.Machine

/-- A frame's fields lie in the ranges that R42 and R184 give them. -/
def FrameInRange (d : CallFrame) : Prop :=
  1 ≤ d.callId ∧ d.target ≤ 30000 ∧ 1 ≤ d.ramp ∧ d.ramp ≤ 1000 ∧ 60 ≤ d.duration ∧ d.duration ≤ 14400 ∧
    d.countdown ≤ 14400 ∧ (d.kind = .echo ∧ d.carried = .active ∨ d.countdown ≤ 3600)

/-- What a move of a record keeps, where the active slot is free or not; `n` is the revision that it may take. -/
structure Moved (free : Bool) (n : Nat) (r m : CallRecord) : Prop where
  callId : m.callId = r.callId
  origin : m.origin = r.origin
  revision : m.revision = r.revision ∨ m.revision = n
  accumulators : m.accumulators = r.accumulators ∨ m.accumulators = some .zero
  holds : r.inForce = true → m.inForce = true
  takes : m.inForce = true → r.inForce = true ∨ free = true
  defers : m.deferred = true → r.deferred = true ∨ free = false
  ranges : RecordInRange r → RecordInRange m

variable {free : Bool} {n : Nat} {r m : CallRecord} {d : CallFrame}

theorem Moved.refl : Moved free n r r := ⟨rfl, rfl, .inl rfl, .inl rfl, id, .inl, .inl, id⟩

theorem Moved.trans {r m k : CallRecord} (h : Moved free n r m) (g : Moved free n m k) : Moved free n r k where
  callId := g.callId.trans h.callId
  origin := g.origin.trans h.origin
  revision := g.revision.elim (fun e => h.revision.imp e.trans e.trans) .inr
  accumulators := g.accumulators.elim (fun e => h.accumulators.imp e.trans e.trans) .inr
  holds := g.holds ∘ h.holds
  takes := fun k => (g.takes k).elim h.takes .inr
  defers := fun k => (g.defers k).elim h.defers .inr
  ranges := g.ranges ∘ h.ranges

theorem Moved.replaced (valid : FrameInRange d) : Moved free d.revision r (r.replaced d) where
  callId := rfl
  origin := rfl
  revision := .inr rfl
  accumulators := .inl rfl
  holds := id
  takes := .inl
  defers := .inl
  ranges := by
    obtain ⟨_, target, ramp, ramp', duration, duration', _⟩ := valid
    rintro ⟨id, _, _, _, _, _, rest⟩
    exact ⟨id, target, ramp, ramp', duration, duration', rest⟩

/-- A record PENDING that becomes final leaves the active slot as it is. -/
theorem Moved.finished (cancelled : Bool) (pending : r.state = .pending) : Moved free n r (r.finished cancelled) where
  callId := rfl
  origin := rfl
  revision := .inl rfl
  accumulators := .inl rfl
  holds := by simp [CallRecord.inForce, pending]
  takes := by cases cancelled <;> simp [CallRecord.inForce, CallRecord.finished]
  defers := by simp [CallRecord.finished]
  ranges := by
    rintro ⟨id, target, ramp, ramp', duration, duration', countdown, remaining, goal, _, _, _⟩
    exact ⟨id, target, ramp, ramp', duration, duration', countdown, remaining, goal, le_rfl,
      by simp [CallRecord.finished], by cases cancelled <;> simp [CallRecord.inForce, CallRecord.finished]⟩

theorem Moved.shortened {k : Nat} (less : k ≤ r.remaining) : Moved free n r { r with remaining := k } where
  callId := rfl
  origin := rfl
  revision := .inl rfl
  accumulators := .inl rfl
  holds := id
  takes := .inl
  defers := .inl
  ranges := by
    rintro ⟨id, target, ramp, ramp', duration, duration', countdown, remaining, rest⟩
    exact ⟨id, target, ramp, ramp', duration, duration', countdown, less.trans remaining, rest⟩

/-- An ACTIVE record may become ENDING, and the mark of an ENDING one may be set. -/
theorem Moved.ending (mark : Bool) (holds : r.inForce = true) :
    Moved free n r { r with state := .ending, cancelledMark := mark } where
  callId := rfl
  origin := rfl
  revision := .inl rfl
  accumulators := .inl rfl
  holds := fun _ => rfl
  takes := fun _ => .inl holds
  defers := .inl
  ranges := by
    rintro ⟨id, target, ramp, ramp', duration, duration', countdown, remaining, goal, retention, deferred, created⟩
    refine ⟨id, target, ramp, ramp', duration, duration', countdown, remaining, goal, retention, fun waits => ?_,
      fun _ => created holds⟩
    have := deferred waits
    simp [CallRecord.inForce, this] at holds

theorem Moved.endedAtZero : Moved free n r r.endedAtZero.1 := by
  unfold CallRecord.endedAtZero
  split
  · next zero => exact Moved.ending r.cancelledMark (by simp [CallRecord.inForce, zero.2])
  · split
    · next zero => exact .finished _ zero.2.1
    · exact .refl

theorem Moved.cancelApplied : Moved free n r r.cancelApplied.1 := by
  unfold CallRecord.cancelApplied
  split
  · next pending => exact .finished _ pending
  · next active => exact .ending _ (by simp [CallRecord.inForce, active])
  · next ending =>
      have := Moved.ending (free := free) (n := n) (r := r) true (by simp [CallRecord.inForce, ending])
      rwa [← ending] at this
  · exact .refl

theorem Moved.started {now remaining : Nat} (pending : r.state = .pending)
    (short : RecordInRange r → remaining ≤ 14400) :
    Moved free n r (r.started now remaining free) := by
  unfold CallRecord.started
  cases free
  · refine ⟨rfl, rfl, .inl rfl, .inl rfl, by simp [CallRecord.inForce, pending],
      by simp [CallRecord.inForce, pending], by simp, ?_⟩
    intro inRange
    obtain ⟨id, target, ramp, ramp', duration, duration', _, _, goal, retention, _, _⟩ := id inRange
    exact ⟨id, target, ramp, ramp', duration, duration', by simp, short inRange, goal, retention, fun _ => pending,
      by simp [CallRecord.inForce, pending]⟩
  · refine ⟨rfl, rfl, .inl rfl, .inr rfl, by simp [CallRecord.inForce, CallRecord.activated], by simp,
      by simp [CallRecord.activated], ?_⟩
    intro inRange
    obtain ⟨id, target, ramp, ramp', duration, duration', _, _, _, retention, _, _⟩ := id inRange
    exact ⟨id, target, ramp, ramp', duration, duration', by simp [CallRecord.activated], short inRange,
      by simp [CallRecord.activated], retention, by simp [CallRecord.activated], by simp [CallRecord.activated]⟩

theorem Moved.mergeCountdown {carried : Nat} : Moved free n r (r.mergeCountdown carried) := by
  unfold CallRecord.mergeCountdown
  split
  · refine ⟨rfl, rfl, .inl rfl, .inl rfl, id, .inl, .inl, ?_⟩
    rintro ⟨id, target, ramp, ramp', duration, duration', countdown, rest⟩
    exact ⟨id, target, ramp, ramp', duration, duration', (min_le_left ..).trans countdown, rest⟩
  · exact .refl

theorem waiting_iff : r.waiting = true ↔ r.state = .pending ∧ r.deferred = false := by
  simp [CallRecord.waiting]

theorem Moved.mergeActive {now carried : Nat} (short : carried ≤ 14400) : Moved free n r (r.mergeActive now carried free).1 := by
  unfold CallRecord.mergeActive
  split
  · next waiting =>
    exact (Moved.started (waiting_iff.mp waiting).1 fun _ => (min_le_right ..).trans short).trans .endedAtZero
  · split
    · exact (Moved.shortened (min_le_left ..)).trans .endedAtZero
    · exact .refl

theorem Moved.mergeEnding {mark : Bool} : Moved free n r (r.mergeEnding mark).1 := by
  unfold CallRecord.mergeEnding
  split
  · next active => exact .ending _ (by simp [CallRecord.inForce, active])
  · next pending => exact .finished _ pending
  · next ending =>
      have := Moved.ending (free := free) (n := n) (r := r) (r.cancelledMark || mark) (by simp [CallRecord.inForce, ending])
      rwa [← ending] at this
  · exact .refl

theorem Moved.mergeEcho {now : Nat} (valid : FrameInRange d) : Moved free n r (r.mergeEcho d now free).1 := by
  obtain ⟨_, _, _, _, _, _, countdown, _⟩ := valid
  unfold CallRecord.mergeEcho
  split
  · exact .mergeActive countdown
  · exact .mergeEnding
  · exact .mergeCountdown

theorem Moved.merged {now : Nat} (valid : FrameInRange d) : Moved free n r (r.merged d now free).1 := by
  unfold CallRecord.merged
  split
  · exact .mergeCountdown
  · exact .mergeCountdown
  · exact .cancelApplied
  · exact .mergeEcho valid

theorem Moved.reviseTime (valid : FrameInRange d) : Moved free d.revision r (r.reviseTime d).1 := by
  unfold CallRecord.reviseTime
  split
  · exact ((Moved.replaced valid).trans (.shortened (min_le_left ..))).trans .endedAtZero
  · exact (Moved.replaced valid).trans .mergeCountdown

theorem Moved.revised {now : Nat} (valid : FrameInRange d) : Moved free d.revision r (r.revised d now free).1 := by
  unfold CallRecord.revised
  split
  · exact .reviseTime valid
  · exact .reviseTime valid
  · exact (Moved.replaced valid).trans .cancelApplied
  · exact (Moved.replaced valid).trans (.mergeEcho valid)

/-- A record that waits starts with its duration (R48). -/
theorem Moved.starts (now : Nat) (waiting : r.waiting = true) : Moved free n r (r.started now r.duration free) :=
  .started (waiting_iff.mp waiting).1 fun ⟨_, _, _, _, _, duration, _⟩ => duration

/-- Every move of a record but the passing of time and of the goal. -/
theorem RecordMove.moved {ok : CallFrame → Prop} (valid : ∀ d, ok d → FrameInRange d) (move : RecordMove ok free r m) :
    (∃ d, ok d ∧ Moved free d.revision r m) ∨ ∀ n, Moved free n r m := by
  cases move with
  | revised now allowed _ => exact .inl ⟨_, allowed, .revised (valid _ allowed)⟩
  | merged now allowed _ => exact .inr fun _ => .merged (valid _ allowed)
  | started now waiting => exact .inr fun _ => .starts now waiting
  | ended active =>
    exact .inr fun _ => (Moved.shortened (Nat.zero_le _)).trans (.ending r.cancelledMark (by simp [CallRecord.inForce, active]))
  | expired pending => exact .inr fun _ => (Moved.shortened (Nat.zero_le _)).trans (.finished _ pending)

/-! ### A created record (R43) -/

/-- What a created record is where the active slot is free or not. -/
structure Created (free : Bool) (d : CallFrame) (m : CallRecord) : Prop where
  callId : m.callId = d.callId
  origin : m.origin = d.origin
  revision : m.revision = d.revision
  accumulators : m.accumulators = none ∨ m.accumulators = some .zero
  takes : m.inForce = true → free = true
  defers : m.deferred = true → free = false
  ranges : RecordInRange m

theorem Created.of_moved {r m : CallRecord} (h : Created free d r) (g : Moved free d.revision r m) : Created free d m where
  callId := g.callId.trans h.callId
  origin := g.origin.trans h.origin
  revision := g.revision.elim (·.trans h.revision) id
  accumulators := g.accumulators.elim (fun e => h.accumulators.imp e.trans e.trans) .inr
  takes := fun k => (g.takes k).elim h.takes id
  defers := fun k => (g.defers k).elim h.defers id
  ranges := g.ranges h.ranges

theorem Created.pending (valid : FrameInRange d) (countdown : d.countdown ≤ 3600) : Created free d d.pendingRecord := by
  obtain ⟨id, target, ramp, ramp', duration, duration', _⟩ := valid
  refine ⟨rfl, rfl, rfl, .inl rfl, by simp [CallFrame.pendingRecord, CallRecord.inForce], by simp [CallFrame.pendingRecord], ?_⟩
  exact ⟨id, target, ramp, ramp', duration, duration', countdown, by simp [CallFrame.pendingRecord],
    by simp [CallFrame.pendingRecord], by simp [CallFrame.pendingRecord], by simp [CallFrame.pendingRecord],
    by simp [CallFrame.pendingRecord, CallRecord.inForce]⟩

theorem Created.started {now : Nat} (valid : FrameInRange d) :
    Created free d (d.pendingRecord.started now d.countdown free).endedAtZero.1 := by
  obtain ⟨id, target, ramp, ramp', duration, duration', countdown, _⟩ := valid
  have fresh : Created free d ({ d with countdown := 0 } : CallFrame).pendingRecord := by
    have := Created.pending (free := free) (d := { d with countdown := 0 })
      ⟨id, target, ramp, ramp', duration, duration', Nat.zero_le _, .inr (Nat.zero_le _)⟩ (Nat.zero_le _)
    exact ⟨rfl, rfl, rfl, this.accumulators, this.takes, this.defers, this.ranges⟩
  exact fresh.of_moved ((Moved.started (now := now) rfl fun _ => countdown).trans .endedAtZero)

theorem Created.record {now : Nat} (valid : FrameInRange d) : Created free d (d.createdRecord now free).1 := by
  obtain ⟨_, _, _, _, _, _, _, early⟩ := id valid
  unfold CallFrame.createdRecord
  split
  · next kind =>
    have pending := Created.pending (free := free) valid (early.resolve_left (by simp [kind]))
    have final := pending.of_moved (.finished true rfl)
    refine ⟨rfl, rfl, rfl, .inl rfl, final.takes, final.defers, ?_⟩
    obtain ⟨id, target, ramp, ramp', duration, duration', _, rest⟩ := final.ranges
    exact ⟨id, target, ramp, ramp', duration, duration', Nat.zero_le _, rest⟩
  · exact .started valid
  · next other => exact .pending valid (early.resolve_left fun ⟨kind, carried⟩ => other kind carried)

/-! ### The frames that the ports carry (R41, R42) -/

theorem clampNat_bounds {lo hi n : Nat} (h : lo ≤ hi) : lo ≤ clampNat lo hi n ∧ clampNat lo hi n ≤ hi := by
  unfold clampNat
  split
  · omega
  · split <;> omega

theorem dispatch_corrected_inRange {f : DispatchWire} (valid : DispatchWire.corrected f = some d) : FrameInRange d := by
  unfold DispatchWire.corrected at valid
  split at valid
  · cases valid
  · next kind _ =>
    dsimp only at valid
    generalize (if kind = .echo then carriedOfCode f.carried else .absent) = carried at valid
    split at valid
    · cases valid
    · next known =>
      obtain rfl := Option.some.inj valid
      have ramp := clampNat_bounds (lo := 1) (hi := 1000) (n := f.ramp) (by decide)
      have duration := clampNat_bounds (lo := 60) (hi := 14400) (n := f.duration) (by decide)
      have limit (k : CallKind) (c : CarriedState) :
          countdownLimit k c ≤ 14400 ∧ (k = .echo ∧ c = .active ∨ countdownLimit k c ≤ 3600) := by
        cases k <;> cases c <;> decide
      have limit := limit kind carried
      refine ⟨?_, min_le_left .., ramp.1, ramp.2, duration.1, duration.2, (min_le_left ..).trans limit.1,
        limit.2.imp id (min_le_left ..).trans⟩
      exact Nat.one_le_iff_ne_zero.mpr (not_or.mp known).1

theorem call_corrected_inRange {a : CallArgs} {kind : CallKind} {stall : Nat}
    (named : a.callId ≠ 0) : FrameInRange (a.corrected kind stall) := by
  have ramp := clampNat_bounds (lo := 1) (hi := 1000) (n := a.ramp) (by decide)
  have duration := clampNat_bounds (lo := 60) (hi := 14400) (n := a.duration) (by decide)
  have delay : min 3600 a.delay ≤ 3600 := min_le_left ..
  exact ⟨Nat.one_le_iff_ne_zero.mpr named, min_le_left .., ramp.1, ramp.2, duration.1, duration.2, delay.trans (by decide), .inr delay⟩

theorem FromCommand.inRange {c : Instr} {s : State} (h : FromCommand c s d) : FrameInRange d := by
  rcases h with ⟨_, _, f, _, valid⟩ | ⟨a, kind, _, _, named, _, rfl⟩
  · exact dispatch_corrected_inRange valid
  · exact call_corrected_inRange named

end Sys2Proof.Safety
end

