-- ==== Sys2Proof/Proofs/CallTable.lean ====
section
/-!
The invariants of the call table (R40, R48, R49, R54, R57): each elementary change keeps the order, the ranges, the one
active slot, and that a record is deferred only while another holds the slot.
-/
namespace Sys2Proof.Safety

open Sys2Proof Sys2Proof.Machine

/-! ### The active slot -/

theorem slotFree_iff {rs : List CallRecord} : slotFree rs = true ↔ ∀ r ∈ rs, r.inForce = false := by
  simp [slotFree, callInForce]

theorem slotFree_false_iff {rs : List CallRecord} : slotFree rs = false ↔ ∃ r ∈ rs, r.inForce = true := by
  rw [← Bool.not_eq_true, slotFree_iff]
  simp

theorem countP_eq_zero_of_free {rs : List CallRecord} (free : slotFree rs = true) : rs.countP (·.inForce) = 0 :=
  List.countP_eq_zero.mpr fun r mem => by simp [slotFree_iff.mp free r mem]

/-- The table is strictly ascending by call id. -/
def AscendingIds (rs : List CallRecord) : Prop := rs.Pairwise fun a b => a.callId < b.callId

theorem AscendingIds.injective {rs : List CallRecord} (h : AscendingIds rs) {a b : CallRecord} (ha : a ∈ rs) (hb : b ∈ rs)
    (same : a.callId = b.callId) : a = b := by
  induction rs with
  | nil => cases ha
  | cons r rs ih =>
    obtain ⟨first, rest⟩ := List.pairwise_cons.mp h
    rcases List.mem_cons.mp ha with ea | ha <;> rcases List.mem_cons.mp hb with eb | hb
    · exact ea.trans eb.symm
    · have := first b hb
      rw [← ea] at this
      omega
    · have := first a ha
      rw [← eb] at this
      omega
    · exact ih rest ha hb

theorem AscendingIds.map {rs : List CallRecord} (h : AscendingIds rs) {g : CallRecord → CallRecord}
    (same : ∀ r ∈ rs, (g r).callId = r.callId) : AscendingIds (rs.map g) := by
  refine List.pairwise_map.mpr (List.Pairwise.imp_of_mem (fun ha hb lt => ?_) h)
  rw [same _ ha, same _ hb]
  exact lt

theorem placeCall_mem {r x : CallRecord} {rs : List CallRecord} : x ∈ placeCall r rs ↔ x = r ∨ x ∈ rs := by
  induction rs with
  | nil => simp [placeCall]
  | cons y ys ih =>
    unfold placeCall
    split <;> simp [ih, or_left_comm]

theorem AscendingIds.placeCall {rs : List CallRecord} (h : AscendingIds rs) {r : CallRecord}
    (new : ∀ x ∈ rs, x.callId ≠ r.callId) : AscendingIds (placeCall r rs) := by
  induction rs with
  | nil => exact List.pairwise_singleton ..
  | cons x xs ih =>
    obtain ⟨first, rest⟩ := List.pairwise_cons.mp h
    unfold Machine.placeCall
    split
    · next lt =>
      refine List.pairwise_cons.mpr ⟨fun y mem => ?_, h⟩
      rcases List.mem_cons.mp mem with rfl | mem
      · exact lt
      · exact lt.trans (first y mem)
    · next ge =>
      refine List.pairwise_cons.mpr ⟨fun y mem => ?_, ih rest fun y mem => new y (List.mem_cons_of_mem _ mem)⟩
      rcases placeCall_mem.mp mem with rfl | mem
      · have := new x List.mem_cons_self
        omega
      · exact first y mem

theorem placeCall_counts (p : CallRecord → Bool) (r : CallRecord) (rs : List CallRecord) :
    (placeCall r rs).length = rs.length + 1 ∧ (placeCall r rs).countP p = rs.countP p + if p r then 1 else 0 := by
  induction rs with
  | nil => simp [placeCall, List.countP_cons]
  | cons x xs ih =>
    unfold placeCall
    split
    · simp [List.countP_cons]
    · simp only [List.length_cons, List.countP_cons, ih.1, ih.2, true_and]
      exact Nat.add_right_comm ..

/-- A record replaced stands once, and the others stay. -/
theorem putCall_mem {m x : CallRecord} {rs : List CallRecord} (mem : x ∈ putCall m rs) :
    x = m ∨ (x ∈ rs ∧ x.callId ≠ m.callId) := by
  obtain ⟨y, hy, rfl⟩ := List.mem_map.mp mem
  split
  · exact .inl rfl
  · next other => exact .inr ⟨hy, other⟩

/-- At most one record of the table is in force. -/
def OneInForce (rs : List CallRecord) : Prop := rs.countP (·.inForce) ≤ 1

/-- Replacing a record by one that takes the slot only where it is free keeps one in force. -/
theorem OneInForce.putCall {rs : List CallRecord} {r m : CallRecord} (h : OneInForce rs) (ids : AscendingIds rs)
    (mem : r ∈ rs) (same : m.callId = r.callId) (takes : m.inForce = true → r.inForce = true ∨ slotFree rs = true) :
    OneInForce (putCall m rs) := by
  have spec (x : CallRecord) (hx : x ∈ rs) :
      (if x.callId = m.callId then m else x).inForce = true → x.inForce = true ∨ (x = r ∧ slotFree rs = true) := by
    split
    · next own =>
      obtain rfl := ids.injective hx mem (own.trans same)
      exact fun force => (takes force).imp id fun free => ⟨rfl, free⟩
    · exact .inl
  unfold OneInForce Machine.putCall
  rw [List.countP_map]
  by_cases free : slotFree rs = true
  · have none := slotFree_iff.mp free
    have only : ∀ x ∈ rs, ((fun y : CallRecord => y.inForce) ∘ fun x => if x.callId = m.callId then m else x) x = true →
        decide (x.callId = r.callId) = true := by
      intro x hx force
      rcases spec x hx force with held | ⟨rfl, _⟩
      · simp [none x hx] at held
      · simp
    refine (List.countP_mono_left only).trans ?_
    clear only none spec free h takes same
    induction rs with
    | nil => simp
    | cons y ys ih =>
      obtain ⟨first, rest⟩ := List.pairwise_cons.mp ids
      rw [List.countP_cons]
      rcases List.mem_cons.mp mem with own | mem
      · have : ys.countP (fun x => decide (x.callId = r.callId)) = 0 :=
          List.countP_eq_zero.mpr fun x hx => by have := first x hx; simp [own]; omega
        rw [this]
        split <;> omega
      · have := ih rest mem
        have := first r mem
        rw [if_neg (by simp; omega)]
        omega
  · refine (List.countP_mono_left fun x hx force => ?_).trans h
    exact (spec x hx force).resolve_right fun ⟨_, f⟩ => free f

/-! ### The invariant of the table -/

/-- The call table (R40, R48). -/
def TableInOrder (rs : List CallRecord) : Prop :=
  rs.length ≤ 4 ∧ AscendingIds rs ∧ OneInForce rs ∧ ∀ r ∈ rs, RecordInRange r

/-- A record is deferred only while another holds the slot (R48, R49). -/
def DeferralWaits (rs : List CallRecord) : Prop := ∀ r ∈ rs, r.deferred = true → slotFree rs = false

theorem accounts_inForce {r m : CallRecord} (h : Accounts r m) : m.inForce = r.inForce := by
  obtain ⟨serving, g, _, rfl⟩ := h
  rfl

theorem accounts_ranges {r m : CallRecord} (h : Accounts r m) (inRange : RecordInRange r) : RecordInRange m := by
  obtain ⟨serving, g, _, rfl⟩ := h
  obtain ⟨id, target, ramp, ramp', duration, duration', countdown, remaining, goal, retention, deferred, created⟩ := inRange
  exact ⟨id, target, ramp, ramp', duration, duration', countdown, remaining, goal, retention, deferred,
    fun force => by simpa using created force⟩

theorem TableInOrder.accounted {rs : List CallRecord} (h : TableInOrder rs) {g : CallRecord → CallRecord}
    (accounts : ∀ r, Accounts r (g r)) : TableInOrder (rs.map g) := by
  obtain ⟨length, ids, one, ranges⟩ := h
  refine ⟨by simpa using length, ids.map fun r _ => ?_, ?_, List.forall_mem_map.mpr fun r mem => accounts_ranges (accounts r) (ranges r mem)⟩
  · obtain ⟨_, _, _, e⟩ := accounts r
    rw [e]
  · unfold OneInForce
    rw [List.countP_map]
    exact (List.countP_mono_left fun r _ force => (accounts_inForce (accounts r)).symm.trans force).trans one

theorem TableInOrder.filter {rs : List CallRecord} (h : TableInOrder rs) (p : CallRecord → Bool) : TableInOrder (rs.filter p) := by
  obtain ⟨length, ids, one, ranges⟩ := h
  exact ⟨(List.length_filter_le ..).trans length, List.Pairwise.filter _ ids, (List.filter_sublist.countP_le).trans one,
    fun r mem => ranges r (List.mem_of_mem_filter mem)⟩

theorem TableInOrder.putCall {rs : List CallRecord} (h : TableInOrder rs) {r m : CallRecord} (mem : r ∈ rs) {n : Nat}
    (moved : Moved (slotFree rs) n r m) : TableInOrder (putCall m rs) := by
  obtain ⟨length, ids, one, ranges⟩ := h
  refine ⟨by simpa [Machine.putCall] using length, ids.map fun x _ => ?_, one.putCall ids mem moved.callId moved.takes, fun x hx => ?_⟩
  · split
    · next own => exact own.symm
    · rfl
  · rcases putCall_mem hx with rfl | ⟨hx, _⟩
    · exact moved.ranges (ranges r mem)
    · exact ranges x hx

theorem TableInOrder.created {rs rs' : List CallRecord} (h : TableInOrder rs) {d : CallFrame} {m : CallRecord}
    (unknown : ∀ r ∈ rs, r.callId ≠ d.callId) (room : withFreeSlot rs = some rs') (created : Created (slotFree rs') d m) :
    TableInOrder (placeCall m rs') := by
  have kept : TableInOrder rs' ∧ rs'.length < 4 ∧ ∀ r ∈ rs', r ∈ rs := by
    unfold withFreeSlot at room
    split at room
    · next few =>
      obtain rfl := Option.some.inj room
      exact ⟨h, few, fun _ mem => mem⟩
    · split at room
      · cases room
      · next old found =>
        obtain rfl := Option.some.inj room
        have less : (rs.filter (·.callId != old.callId)).length < rs.length :=
          List.length_filter_lt_length_iff_exists.mpr ⟨old, (oldestFinal_some found).1, by simp⟩
        exact ⟨h.filter _, less.trans_le h.1, fun r mem => List.mem_of_mem_filter mem⟩
  obtain ⟨⟨_, ids, one, ranges⟩, few, sub⟩ := kept
  have counts := placeCall_counts (·.inForce) m rs'
  refine ⟨by omega, ids.placeCall fun x mem => by rw [created.callId]; exact unknown x (sub x mem), ?_, fun x mem => ?_⟩
  · unfold OneInForce at one ⊢
    rw [counts.2]
    split
    · next force => rw [countP_eq_zero_of_free (created.takes force)]
    · exact one
  · rcases placeCall_mem.mp mem with rfl | mem
    · exact created.ranges
    · exact ranges x mem

/-! ### One second (R48 to R50, R53) -/

theorem secondOf_eq (rs : List CallRecord) : (secondOf rs).1 = rs.filterMap fun r => r.second.1 := by
  induction rs with
  | nil => rfl
  | cons r rs ih =>
    simp only [secondOf, List.filterMap_cons, ih]
    cases r.second.1 <;> rfl

/-- A second moves a record as a shortening of one of its times does, or deletes a final one. -/
theorem second_moved (r : CallRecord) (free : Bool) (n : Nat) :
    (∀ m, r.second.1 = some m → Moved free n r m) ∧ (r.inForce = true → ∃ m, r.second.1 = some m) := by
  have kept {m : CallRecord} (moved : Moved free n r m) :
      (∀ k, some m = some k → Moved free n r k) ∧ (r.inForce = true → ∃ k, some m = some k) :=
    ⟨fun k e => Option.some.inj e ▸ moved, fun _ => ⟨m, rfl⟩⟩
  unfold CallRecord.second
  split
  · exact kept ((Moved.shortened (Nat.sub_le ..)).trans .endedAtZero)
  · split
    · next final =>
      have idle : r.inForce = false := by
        cases h : r.state <;> simp_all [CallRecord.isFinal, CallRecord.inForce]
      split
      · exact ⟨fun _ e => by simp at e, fun force => by simp [idle] at force⟩
      · refine kept ⟨rfl, rfl, .inl rfl, .inl rfl, id, .inl, .inl, ?_⟩
        rintro ⟨id, target, ramp, ramp', duration, duration', countdown, remaining, goal, retention, rest⟩
        exact ⟨id, target, ramp, ramp', duration, duration', countdown, remaining, goal, (Nat.sub_le ..).trans retention, rest⟩
    · split
      · refine kept ⟨rfl, rfl, .inl rfl, .inl rfl, id, .inl, .inl, ?_⟩
        rintro ⟨id, target, ramp, ramp', duration, duration', countdown, rest⟩
        exact ⟨id, target, ramp, ramp', duration, duration', (Nat.sub_le ..).trans countdown, rest⟩
      · exact kept .refl

theorem secondOf_keeps {rs : List CallRecord} (h : TableInOrder rs) : TableInOrder (secondOf rs).1 := by
  obtain ⟨length, ids, one, ranges⟩ := h
  rw [secondOf_eq]
  refine ⟨(List.length_filterMap_le ..).trans length, ?_, ?_, fun m mem => ?_⟩
  · refine List.Pairwise.filterMap _ (fun a b lt m ha k hb => ?_) ids
    rw [((second_moved a false 0).1 m ha).callId, ((second_moved b false 0).1 k hb).callId]
    exact lt
  · unfold OneInForce
    rw [List.countP_filterMap]
    refine (List.countP_mono_left fun r _ force => ?_).trans one
    cases e : r.second.1 with
    | none => simp [e] at force
    | some m =>
      have : m.inForce = true := by simpa [e] using force
      simpa using ((second_moved r false 0).1 m e).takes this
  · obtain ⟨r, hr, e⟩ := List.mem_filterMap.mp mem
    exact ((second_moved r false 0).1 m e).ranges (ranges r hr)

theorem secondOf_defers {rs : List CallRecord} (h : DeferralWaits rs) : DeferralWaits (secondOf rs).1 := by
  rw [secondOf_eq]
  intro m mem deferred
  obtain ⟨r, hr, e⟩ := List.mem_filterMap.mp mem
  have before : r.deferred = true := by simpa using ((second_moved r true 0).1 m e).defers deferred
  obtain ⟨x, hx, force⟩ := slotFree_false_iff.mp (h r hr before)
  obtain ⟨y, ey⟩ := (second_moved x true 0).2 force
  exact slotFree_false_iff.mpr ⟨y, List.mem_filterMap.mpr ⟨x, hx, ey⟩, ((second_moved x true 0).1 y ey).holds force⟩

/-! ### The starts of one tick (R48) -/

theorem startDue_ids (now : Nat) (free : Bool) (rs : List CallRecord) :
    (startDue now free rs).1.map (·.callId) = rs.map (·.callId) := by
  induction rs generalizing free with
  | nil => rfl
  | cons r rs ih =>
    unfold startDue
    split
    · have id : (r.started now r.duration free).callId = r.callId := by unfold CallRecord.started; split <;> rfl
      simp [ih, id]
    · simp [ih]

/-- Each record after the starts is one of the table, or one of it that has started. -/
theorem startDue_moved (n : Nat) {now : Nat} {free : Bool} {rs : List CallRecord} :
    ∀ m ∈ (startDue now free rs).1, ∃ r ∈ rs, ∃ f, Moved f n r m := by
  induction rs generalizing free with
  | nil => simp [startDue]
  | cons r rs ih =>
    have later {f m} (mem : m ∈ (startDue now f rs).1) : ∃ x ∈ r :: rs, ∃ f, Moved f n x m := by
      obtain ⟨x, hx, moved⟩ := ih m mem
      exact ⟨x, List.mem_cons_of_mem _ hx, moved⟩
    unfold startDue
    split
    · next waits =>
      exact List.forall_mem_cons.mpr ⟨⟨r, List.mem_cons_self, free, .starts now waits.1⟩, fun m mem => later mem⟩
    · exact List.forall_mem_cons.mpr ⟨⟨r, List.mem_cons_self, free, .refl⟩, fun m mem => later mem⟩

/-- A record that waits holds no slot, and takes it only where it is free. -/
theorem started_inForce {now : Nat} {free : Bool} {r : CallRecord} (waits : r.waiting = true) :
    r.inForce = false ∧ (r.started now r.duration free).inForce = free ∧ (r.started now r.duration free).deferred = !free := by
  have pending := (waiting_iff.mp waits).1
  cases free <;> simp [CallRecord.started, CallRecord.inForce, CallRecord.activated, pending]

theorem startDue_countP (now : Nat) (free : Bool) (rs : List CallRecord) :
    (startDue now free rs).1.countP (·.inForce) ≤ rs.countP (·.inForce) + if free then 1 else 0 := by
  induction rs generalizing free with
  | nil => simp [startDue]
  | cons r rs ih =>
    unfold startDue
    split
    · next waits =>
      obtain ⟨before, after, _⟩ := started_inForce (now := now) (free := free) waits.1
      have := ih false
      simp only [List.countP_cons, before, after, Bool.false_eq_true, if_false] at this ⊢
      omega
    · have := ih free
      simp only [List.countP_cons]
      omega

theorem startDue_holds {now : Nat} {free : Bool} {rs : List CallRecord} (h : slotFree rs = false) :
    slotFree (startDue now free rs).1 = false := by
  induction rs generalizing free with
  | nil => exact h
  | cons r rs ih =>
    obtain ⟨x, mem, force⟩ := slotFree_false_iff.mp h
    have later (f : Bool) (rest : x ∈ rs) : slotFree (startDue now f rs).1 = false :=
      ih (slotFree_false_iff.mpr ⟨x, rest, force⟩)
    have cons {y : CallRecord} {ys : List CallRecord} (held : slotFree ys = false) : slotFree (y :: ys) = false := by
      obtain ⟨z, hz, fz⟩ := slotFree_false_iff.mp held
      exact slotFree_false_iff.mpr ⟨z, List.mem_cons_of_mem _ hz, fz⟩
    unfold startDue
    split
    · next waits =>
      rcases List.mem_cons.mp mem with rfl | rest
      · simp [(started_inForce (now := now) (free := free) waits.1).1] at force
      · exact cons (later _ rest)
    · rcases List.mem_cons.mp mem with rfl | rest
      · exact slotFree_false_iff.mpr ⟨x, List.mem_cons_self, force⟩
      · exact cons (later _ rest)

/-- A record deferred by the starts of one tick waits for one that is in force. -/
theorem startDue_defers {now : Nat} {free : Bool} {rs : List CallRecord} (none : ∀ r ∈ rs, r.deferred = false) :
    ∀ m ∈ (startDue now free rs).1, m.deferred = true → free = false ∨ slotFree (startDue now free rs).1 = false := by
  induction rs generalizing free with
  | nil => simp [startDue]
  | cons r rs ih =>
    obtain ⟨first, rest⟩ := List.forall_mem_cons.mp none
    unfold startDue
    split
    · next waits =>
      obtain ⟨_, after, deferred⟩ := started_inForce (now := now) (free := free) waits.1
      intro m _ _
      cases free
      · exact .inl rfl
      · exact .inr (slotFree_false_iff.mpr ⟨_, List.mem_cons_self, after⟩)
    · intro m mem deferred
      rcases List.mem_cons.mp mem with rfl | mem
      · simp [first] at deferred
      · refine (ih rest m mem deferred).imp id fun held => ?_
        obtain ⟨z, hz, fz⟩ := slotFree_false_iff.mp held
        exact slotFree_false_iff.mpr ⟨z, List.mem_cons_of_mem _ hz, fz⟩

theorem ascendingIds_iff {rs : List CallRecord} : AscendingIds rs ↔ (rs.map (·.callId)).Pairwise (· < ·) :=
  List.pairwise_map.symm

theorem TableInOrder.ticked {rs : List CallRecord} (h : TableInOrder rs) (now : Nat) : TableInOrder (tickedCalls now rs).1 := by
  obtain ⟨length, ids, one, ranges⟩ := secondOf_keeps h
  unfold tickedCalls
  dsimp only
  generalize (secondOf rs).1 = ms at *
  have count := startDue_countP now (slotFree ms) ms
  refine ⟨?_, ?_, ?_, fun m mem => ?_⟩
  · have := congrArg List.length (startDue_ids now (slotFree ms) ms)
    simp only [List.length_map] at this
    omega
  · rw [ascendingIds_iff, startDue_ids, ← ascendingIds_iff]
    exact ids
  · unfold OneInForce at one ⊢
    cases free : slotFree ms
    · simp only [free, Bool.false_eq_true, if_false] at count
      exact count.trans one
    · rw [free, countP_eq_zero_of_free free] at count
      exact count
  · obtain ⟨r, hr, _, moved⟩ := startDue_moved 0 m mem
    exact moved.ranges (ranges r hr)

theorem DeferralWaits.ticked {rs : List CallRecord} (h : DeferralWaits rs) (now : Nat) : DeferralWaits (tickedCalls now rs).1 := by
  have waits := secondOf_defers h
  unfold tickedCalls
  dsimp only
  generalize (secondOf rs).1 = ms at *
  intro m mem deferred
  cases free : slotFree ms
  · exact startDue_holds free
  · have none : ∀ r ∈ ms, r.deferred = false := by
      intro r hr
      by_contra waiting
      simp [waits r hr (by simpa using waiting)] at free
    rw [free] at mem
    exact (startDue_defers none m mem deferred).resolve_left (by simp)

/-! ### The goal's move and the slot passed on (R49, R51) -/

theorem goalMoved_moved {r : CallRecord} (force : r.inForce = true) :
    r.goalMoved.1.callId = r.callId ∧ r.goalMoved.1.origin = r.origin ∧ r.goalMoved.1.revision = r.revision ∧
      r.goalMoved.1.accumulators = r.accumulators ∧ (r.goalMoved.1.deferred = true → r.deferred = true) ∧
      (RecordInRange r → RecordInRange r.goalMoved.1) := by
  have goal (inRange : RecordInRange r) : r.movedGoal ≤ 30000 := by
    obtain ⟨_, target, _, _, _, _, _, _, goal, _⟩ := inRange
    unfold CallRecord.movedGoal
    dsimp only
    split <;> split <;> omega
  unfold CallRecord.goalMoved
  dsimp only
  split
  · refine ⟨rfl, rfl, rfl, rfl, by simp [CallRecord.finished], fun inRange => ?_⟩
    obtain ⟨id, target, ramp, ramp', duration, duration', countdown, remaining, _, _, _, _⟩ := id inRange
    exact ⟨id, target, ramp, ramp', duration, duration', countdown, remaining, goal inRange, le_rfl,
      by simp [CallRecord.finished], by cases r.cancelledMark <;> simp [CallRecord.inForce, CallRecord.finished]⟩
  · refine ⟨rfl, rfl, rfl, rfl, id, fun inRange => ?_⟩
    obtain ⟨id, target, ramp, ramp', duration, duration', countdown, remaining, _, retention, deferred, created⟩ := id inRange
    exact ⟨id, target, ramp, ramp', duration, duration', countdown, remaining, goal inRange, retention, deferred,
      fun _ => created force⟩

theorem nextDeferred_some {rs : List CallRecord} {r : CallRecord} (found : nextDeferred rs = some r) :
    r ∈ rs ∧ r.state = .pending := by
  induction rs generalizing r with
  | nil => cases found
  | cons x xs ih =>
    unfold nextDeferred at found
    split at found
    · next waits =>
      have pending : x.state = .pending := by simp at waits; exact waits.1
      split at found
      · obtain rfl := Option.some.inj found
        exact ⟨List.mem_cons_self, pending⟩
      · next m rest =>
        split at found
        · obtain rfl := Option.some.inj found
          exact ⟨List.mem_cons_self, pending⟩
        · obtain rfl := Option.some.inj found
          exact ⟨List.mem_cons_of_mem _ (ih rest).1, (ih rest).2⟩
    · exact ⟨List.mem_cons_of_mem _ (ih found).1, (ih found).2⟩

theorem nextDeferred_none {rs : List CallRecord} (none : nextDeferred rs = none) :
    ∀ r ∈ rs, r.state = .pending → r.deferred = false := by
  induction rs with
  | nil => simp
  | cons x xs ih =>
    unfold nextDeferred at none
    split at none
    · split at none
      · cases none
      · split at none <;> cases none
    · next idle =>
      refine List.forall_mem_cons.mpr ⟨fun pending => by simpa [pending] using idle, ih none⟩

theorem Moved.activated {n : Nat} {r : CallRecord} (pending : r.state = .pending) : Moved true n r r.activated := by
  refine ⟨rfl, rfl, .inl rfl, .inr rfl, by simp [CallRecord.inForce, pending], by simp, by simp [CallRecord.activated], ?_⟩
  rintro ⟨id, target, ramp, ramp', duration, duration', countdown, remaining, _, retention, _, _⟩
  exact ⟨id, target, ramp, ramp', duration, duration', countdown, remaining, by simp [CallRecord.activated], retention,
    by simp [CallRecord.activated], by simp [CallRecord.activated]⟩

theorem freeSlot_keeps {rs : List CallRecord} (h : TableInOrder rs) :
    TableInOrder (freeSlot rs).1 ∧ DeferralWaits (freeSlot rs).1 ∨ TableInOrder rs ∧ slotFree rs = false ∧ (freeSlot rs).1 = rs := by
  unfold freeSlot
  split
  · next free =>
    split
    · next none =>
      refine .inl ⟨h, fun r mem deferred => ?_⟩
      obtain ⟨_, _, _, ranges⟩ := h
      obtain ⟨_, _, _, _, _, _, _, _, _, _, pending, _⟩ := ranges r mem
      simp [nextDeferred_none none r mem (pending deferred)] at deferred
    · next r found =>
      obtain ⟨mem, pending⟩ := nextDeferred_some found
      have moved : Moved (slotFree rs) 0 r r.activated := free ▸ Moved.activated pending
      refine .inl ⟨h.putCall mem moved, fun _ _ _ => slotFree_false_iff.mpr ⟨r.activated, ?_, rfl⟩⟩
      exact List.mem_map.mpr ⟨r, mem, if_pos rfl⟩
  · next taken => exact .inr ⟨h, by simpa using taken, rfl⟩

theorem callInForce_some {rs : List CallRecord} {r : CallRecord} (found : callInForce rs = some r) :
    r ∈ rs ∧ r.inForce = true :=
  ⟨List.mem_of_find?_eq_some found, by simpa using List.find?_some found⟩

theorem moveGoal_keeps {rs : List CallRecord} (h : TableInOrder rs) :
    TableInOrder (moveGoal rs).1 ∧ (DeferralWaits rs → DeferralWaits (moveGoal rs).1) := by
  unfold moveGoal
  split
  · exact ⟨h, id⟩
  · next r found =>
    obtain ⟨mem, force⟩ := callInForce_some found
    obtain ⟨id, _, _, _, deferred, ranges⟩ := goalMoved_moved force
    obtain ⟨length, ids, one, inRange⟩ := h
    have table : TableInOrder (putCall r.goalMoved.1 rs) := by
      refine ⟨by simpa [putCall] using length, ids.map fun x _ => ?_, one.putCall ids mem id fun _ => .inl force, fun x hx => ?_⟩
      · split
        · next own => exact own.symm
        · rfl
      · rcases putCall_mem hx with rfl | ⟨hx, _⟩
        · exact ranges (inRange r mem)
        · exact inRange x hx
    dsimp only
    rcases freeSlot_keeps table with ⟨kept, waits⟩ | ⟨kept, taken, same⟩
    · exact ⟨kept, fun _ => waits⟩
    · rw [same]
      exact ⟨kept, fun _ _ _ _ => taken⟩

/-! ### Deferral, change by change -/

theorem slotFree_putCall {rs : List CallRecord} (ids : AscendingIds rs) {r m : CallRecord} (mem : r ∈ rs)
    (same : m.callId = r.callId) (holds : r.inForce = true → m.inForce = true) (taken : slotFree rs = false) :
    slotFree (putCall m rs) = false := by
  obtain ⟨x, hx, force⟩ := slotFree_false_iff.mp taken
  refine slotFree_false_iff.mpr ⟨_, List.mem_map_of_mem hx, ?_⟩
  split
  · next own =>
    obtain rfl := ids.injective hx mem (own.trans same)
    exact holds force
  · exact force

theorem DeferralWaits.putCall {rs : List CallRecord} (h : DeferralWaits rs) (ids : AscendingIds rs) {r m : CallRecord}
    (mem : r ∈ rs) {n : Nat} (moved : Moved (slotFree rs) n r m) : DeferralWaits (putCall m rs) := by
  intro x hx deferred
  refine slotFree_putCall ids mem moved.callId moved.holds ?_
  rcases putCall_mem hx with rfl | ⟨hx, _⟩
  · exact (moved.defers deferred).elim (h r mem) id
  · exact h x hx deferred

theorem DeferralWaits.dropped {rs : List CallRecord} (h : DeferralWaits rs) (ids : AscendingIds rs) {old : CallRecord}
    (mem : old ∈ rs) (final : old.isFinal = true) : DeferralWaits (rs.filter (·.callId != old.callId)) := by
  intro x hx deferred
  obtain ⟨y, hy, force⟩ := slotFree_false_iff.mp (h x (List.mem_of_mem_filter hx) deferred)
  refine slotFree_false_iff.mpr ⟨y, List.mem_filter.mpr ⟨hy, ?_⟩, force⟩
  simp only [bne_iff_ne, ne_eq]
  intro own
  obtain rfl := ids.injective hy mem own
  cases state : y.state <;> simp_all [CallRecord.isFinal, CallRecord.inForce]

theorem DeferralWaits.created {rs rs' : List CallRecord} (h : DeferralWaits rs) (ids : AscendingIds rs) {d : CallFrame}
    {m : CallRecord} (room : withFreeSlot rs = some rs') (created : Created (slotFree rs') d m) :
    DeferralWaits (placeCall m rs') := by
  have waits : DeferralWaits rs' := by
    unfold withFreeSlot at room
    split at room
    · exact Option.some.inj room ▸ h
    · split at room
      · cases room
      · next old found =>
        exact Option.some.inj room ▸ h.dropped ids (oldestFinal_some found).1 (oldestFinal_some found).2
  intro x hx deferred
  have taken : slotFree rs' = false := by
    rcases placeCall_mem.mp hx with rfl | hx
    · exact created.defers deferred
    · exact waits x hx deferred
  obtain ⟨y, hy, force⟩ := slotFree_false_iff.mp taken
  exact slotFree_false_iff.mpr ⟨y, placeCall_mem.mpr (.inr hy), force⟩

theorem DeferralWaits.accounted {rs : List CallRecord} (h : DeferralWaits rs) {g : CallRecord → CallRecord}
    (accounts : ∀ r, Accounts r (g r)) : DeferralWaits (rs.map g) := by
  intro m mem deferred
  obtain ⟨r, hr, rfl⟩ := List.mem_map.mp mem
  obtain ⟨_, _, _, e⟩ := accounts r
  obtain ⟨y, hy, force⟩ := slotFree_false_iff.mp (h r hr (by rw [e] at deferred; exact deferred))
  exact slotFree_false_iff.mpr ⟨g y, List.mem_map_of_mem hy, (accounts_inForce (accounts y)).trans force⟩

/-! ### Every change, every command -/

theorem CallStep.keeps {ok : CallFrame → Prop} (valid : ∀ d, ok d → FrameInRange d) {rs rs' : List CallRecord}
    (step : CallStep ok rs rs') (h : TableInOrder rs) :
    TableInOrder rs' ∧ (DeferralWaits rs → DeferralWaits rs') := by
  obtain ⟨length, ids, one, ranges⟩ := id h
  cases step with
  | accounted accounts => exact ⟨h.accounted accounts, fun w => w.accounted accounts⟩
  | cleared => exact ⟨⟨by simp, List.Pairwise.nil, by simp [OneInForce], by simp⟩, fun _ _ mem => by simp at mem⟩
  | dropped mem final => exact ⟨h.filter _, fun w => w.dropped ids mem final⟩
  | put mem move =>
    obtain ⟨n, moved⟩ : ∃ n, Moved (slotFree rs) n _ _ := (move.moved valid).elim (fun ⟨d, _, m⟩ => ⟨_, m⟩) fun m => ⟨0, m 0⟩
    exact ⟨h.putCall mem moved, fun w => w.putCall ids mem moved⟩
  | created allowed unknown room =>
    exact ⟨h.created unknown room (.record (valid _ allowed)), fun w => w.created ids room (.record (valid _ allowed))⟩
  | ticked => exact ⟨h.ticked _, fun w => w.ticked _⟩
  | goal => exact moveGoal_keeps h

theorem exec_callTable (c : Instr) (s : State) (h : CallTable s) :
    Answers (exec c s) fun t => CallTable t ∧ (DeferralWaits s.ct.records → DeferralWaits t.ct.records) := by
  have reached {rs : List CallRecord} (steps : Relation.ReflTransGen (CallStep (FromCommand c s)) s.ct.records rs) :
      TableInOrder rs ∧ (DeferralWaits s.ct.records → DeferralWaits rs) := by
    induction steps with
    | refl => exact ⟨h, id⟩
    | tail _ step ih =>
      obtain ⟨table, waits⟩ := step.keeps (fun _ => FromCommand.inRange) ih.1
      exact ⟨table, waits ∘ ih.2⟩
  exact (exec_calls c s).imp fun t steps => reached steps

theorem callTable_kept : KeptBy (fun _ => True) CallTable where
  command c s _ h := (exec_callTable c s h).imp fun _ kept => kept.1
  clock _ _ _ h := h
  levels _ _ _ h := h
  alone _ _ := trivial

theorem deferral_kept : KeptBy (fun _ => True) fun s => CallTable s ∧ DeferralWaits s.ct.records where
  command c s _ h := (exec_callTable c s h.1).imp fun _ kept => ⟨kept.1, kept.2 h.2⟩
  clock _ _ _ h := h
  levels _ _ _ h := h
  alone _ _ := trivial

/-! ### The ids, the revisions, the origins and the accumulators (R40, R57) -/

/-- The fields of a frame that the width of the wire gives (section 11.1). -/
def FrameFits (d : CallFrame) : Prop := d.callId ≤ 65535 ∧ d.revision ≤ 255 ∧ 1 ≤ d.origin ∧ d.origin ≤ 48

theorem recordFields_iff {r : CallRecord} : RecordFields r ↔ r.callId ≤ 65535 ∧ r.revision ≤ 255 ∧ 1 ≤ r.origin ∧
    r.origin ≤ 48 ∧ ∀ a ∈ r.accumulators, AccumulatorsBounded a := Iff.rfl

theorem Accumulators.zero_bounded : AccumulatorsBounded .zero := by
  simp [AccumulatorsBounded, Accumulators.zero]

theorem Moved.fields {free : Bool} {n : Nat} {r m : CallRecord} (moved : Moved free n r m) (few : n ≤ 255)
    (h : RecordFields r) : RecordFields m := by
  obtain ⟨id, revision, low, high, bounded⟩ := recordFields_iff.mp h
  refine recordFields_iff.mpr ⟨moved.callId ▸ id, ?_, moved.origin ▸ low, moved.origin ▸ high, ?_⟩
  · rcases moved.revision with e | e <;> rw [e] <;> assumption
  · rcases moved.accumulators with e | e <;> rw [e]
    · exact bounded
    · simpa using Accumulators.zero_bounded

theorem Created.fields {free : Bool} {d : CallFrame} {m : CallRecord} (created : Created free d m) (fits : FrameFits d) :
    RecordFields m := by
  obtain ⟨id, revision, low, high⟩ := fits
  refine recordFields_iff.mpr ⟨created.callId ▸ id, created.revision ▸ revision, created.origin ▸ low, created.origin ▸ high, ?_⟩
  rcases created.accumulators with e | e <;> rw [e]
  · simp
  · simpa using Accumulators.zero_bounded

theorem withFreeSlot_subset {rs rs' : List CallRecord} (room : withFreeSlot rs = some rs') : ∀ r ∈ rs', r ∈ rs := by
  unfold withFreeSlot at room
  split at room
  · exact Option.some.inj room ▸ fun _ mem => mem
  · split at room
    · cases room
    · exact Option.some.inj room ▸ fun _ mem => List.mem_of_mem_filter mem

theorem moveGoal_fields {rs : List CallRecord} (h : ∀ r ∈ rs, RecordFields r) : ∀ r ∈ (moveGoal rs).1, RecordFields r := by
  have put {rs : List CallRecord} {m : CallRecord} (h : ∀ r ∈ rs, RecordFields r) (hm : RecordFields m) :
      ∀ r ∈ putCall m rs, RecordFields r := by
    intro x hx
    rcases putCall_mem hx with rfl | ⟨hx, _⟩
    · exact hm
    · exact h x hx
  unfold moveGoal
  split
  · exact h
  · next r found =>
    obtain ⟨mem, force⟩ := callInForce_some found
    obtain ⟨id, origin, revision, accumulators, _⟩ := goalMoved_moved force
    have moved : RecordFields r.goalMoved.1 := by
      rw [recordFields_iff, id, origin, revision, accumulators]
      exact h r mem
    have placed := put h moved
    dsimp only
    unfold freeSlot
    split
    · split
      · exact placed
      · next x found =>
        obtain ⟨hx, pending⟩ := nextDeferred_some found
        exact put placed ((Moved.activated (n := 0) pending).fields (by decide) (placed x hx))
    · exact placed

theorem CallStep.fields {ok : CallFrame → Prop} (valid : ∀ d, ok d → FrameInRange d ∧ FrameFits d) {rs rs' : List CallRecord}
    (step : CallStep ok rs rs') (h : ∀ r ∈ rs, RecordFields r) : ∀ r ∈ rs', RecordFields r := by
  cases step with
  | accounted accounts =>
    refine List.forall_mem_map.mpr fun r mem => ?_
    obtain ⟨serving, g, bounds, e⟩ := accounts r
    obtain ⟨id, revision, low, high, bounded⟩ := recordFields_iff.mp (h r mem)
    rw [e]
    refine recordFields_iff.mpr ⟨id, revision, low, high, fun a ha => ?_⟩
    obtain ⟨b, hb, rfl⟩ := Option.map_eq_some_iff.mp ha
    exact bounds b (bounded b hb)
  | cleared => simp
  | dropped => exact fun r mem => h r (List.mem_of_mem_filter mem)
  | put mem move =>
    intro x hx
    rcases putCall_mem hx with rfl | ⟨hx, _⟩
    · rcases move.moved (fun d allowed => (valid d allowed).1) with ⟨d, allowed, moved⟩ | moved
      · exact moved.fields (valid d allowed).2.2.1 (h _ mem)
      · exact (moved 0).fields (by decide) (h _ mem)
    · exact h x hx
  | created allowed _ room =>
    intro x hx
    rcases placeCall_mem.mp hx with rfl | hx
    · exact (Created.record (valid _ allowed).1).fields (valid _ allowed).2
    · exact h x (withFreeSlot_subset room x hx)
  | ticked =>
    intro m hm
    obtain ⟨r, hr, f, moved⟩ := startDue_moved 0 m hm
    rw [secondOf_eq] at hr
    obtain ⟨x, hx, e⟩ := List.mem_filterMap.mp hr
    exact moved.fields (by decide) (((second_moved x false 0).1 r e).fields (by decide) (h x hx))
  | goal => exact moveGoal_fields h

/-- What a port carries gives a frame of the widths of section 11.1; a CALL's origin is the own stall (R41). -/
theorem FromCommand.fits {c : Instr} {s : State} {d : CallFrame} (h : FromCommand c s d) (port : OfPort c) (joined : StallJoined s) :
    FrameFits d := by
  rcases h with ⟨stall, seq, f, rfl, valid⟩ | ⟨a, kind, rfl, _, _, mode, rfl⟩
  · have fits : f.callId < 65536 ∧ f.revision < 256 := by
      rcases port with alone | carried
      · cases alone
      · simp only [Instr.WellFormed, Instr.wellFormed, decide_eq_true_eq] at carried
        obtain ⟨_, _, id, revision, _⟩ := carried
        exact ⟨id, revision⟩
    have origin := clampNat_bounds (lo := 1) (hi := 48) (n := f.origin) (by decide)
    unfold DispatchWire.corrected at valid
    split at valid
    · cases valid
    · dsimp only at valid
      generalize (if _ = CallKind.echo then carriedOfCode f.carried else .absent) = carried at valid
      split at valid
      · cases valid
      · obtain rfl := Option.some.inj valid
        exact ⟨Nat.le_of_lt_succ fits.1, Nat.le_of_lt_succ fits.2, origin⟩
  · have fits : a.callId < 65536 ∧ a.revision < 256 := by
      rcases port with alone | carried
      · cases alone
      · simp only [Instr.WellFormed, Instr.wellFormed, decide_eq_true_eq] at carried
        obtain ⟨id, revision, _⟩ := carried
        exact ⟨id, revision⟩
    obtain ⟨low, high, _⟩ := joined mode
    exact ⟨Nat.le_of_lt_succ fits.1, Nat.le_of_lt_succ fits.2, low, high⟩

/-! ### The own stall is one of the roster (R170) -/

theorem exec_stallJoined (c : Instr) (s : State) (mode : ModeControl s) (h : StallJoined s) : Answers (exec c s) StallJoined := by
  refine (exec_modeControl c s mode).imp' fun t e mode' joined' => ?_
  by_cases reset : ∃ straps, c = .hardwareReset straps
  · obtain ⟨straps, rfl⟩ := reset
    cases e
    exact absurd rfl joined'
  push Not at reset
  by_cases joined : s.sp.mode = .config
  · by_cases join : c = .join
    · subst join
      simp only [exec, execJoin] at e
      repeat' split at e
      all_goals
        cases e
      · exact absurd joined joined'
      · exact absurd joined joined'
      · exact absurd joined joined'
      · next valid _ =>
        have valid : 1 ≤ s.lp.stall ∧ s.lp.stall ≤ 48 ∧ s.lp.stall ≤ s.sp.config.posts := by
          simpa [State.stallValid, Nat.one_le_iff_ne_zero] using valid
        have stall : (s.start.finish.respond .accepted .empty).lp.stall = s.lp.stall := by simp
        simpa [stall] using valid
    · have open' : s.sp.locked = false := by
        by_contra locked
        exact mode.1.mp (by simpa using locked) joined
      have same : t.sp.locked = s.sp.locked := by
        by_cases writes : writesConfig c = false
        · exact ((exec_spares c s).of_next e |>.config writes).2.1
        · cases c
          case hardwareReset straps => exact absurd rfl (reset straps)
          case join => exact absurd rfl join
          case select key =>
            simp only [exec, execSelect] at e
            repeat' split at e
            all_goals
              cases e
              rfl
          case value v =>
            simp only [exec, execValue] at e
            repeat' split at e
            all_goals
              cases e
              rfl
          all_goals exact absurd rfl writes
      exact absurd (mode'.1.mpr joined') (by simp [same, open'])
  · obtain ⟨_, config, stall⟩ := (exec_locked ⟨mode.1.mpr joined, rfl, rfl⟩ reset).of_next e
    rw [config, stall]
    exact h joined

theorem callFields_kept : KeptBy OfPort fun s => ModeControl s ∧ StallJoined s ∧ CallFields s where
  command c s port h := by
    obtain ⟨mode, joined, fields⟩ := h
    have reached {rs : List CallRecord} (steps : Relation.ReflTransGen (CallStep (FromCommand c s)) s.ct.records rs) :
        ∀ r ∈ rs, RecordFields r := by
      induction steps with
      | refl => exact fields
      | tail _ step ih => exact step.fields (fun d from' => ⟨from'.inRange, from'.fits port joined⟩) ih
    obtain ⟨t, e, mode'⟩ := exec_modeControl c s mode
    exact ⟨t, e, mode', (exec_stallJoined c s mode joined).of_next e, reached ((exec_calls c s).of_next e)⟩
  clock _ _ _ h := h
  levels _ _ _ h := h
  alone _ alone := .inl alone

/-! ### The repeat list (R54) -/

theorem takeCopy_length (t : Nat) (es : List RepeatEntry) : (takeCopy t es).2.length ≤ es.length := by
  induction es with
  | nil => simp [takeCopy]
  | cons e es ih =>
    unfold takeCopy
    split
    · dsimp only
      split <;> simp
    · simpa using ih

theorem withRepeats_length (es : List RepeatEntry) (d : CallFrame) (now : Nat) : (withRepeats es d now).length ≤ 8 := by
  unfold withRepeats
  split <;> simp <;> omega

theorem exec_repeatList (c : Instr) (s : State) (h : RepeatList s) : Answers (exec c s) RepeatList := by
  by_cases writes : writesRepeats c = false
  · exact (exec_spares c s).imp fun t spares => by
      unfold RepeatList
      rw [spares.repeats writes]
      exact h
  have of_same {t : State} (same : t.ct.repeats = s.ct.repeats) : RepeatList t := by
    unfold RepeatList
    rw [same]
    exact h
  have restarted {t : State} (none : t.ct.repeats = []) : RepeatList t := by
    unfold RepeatList
    simp [none]
  cases c
  case hardwareReset straps =>
    rw [exec, execHardwareReset, answers_next]
    exact restarted rfl
  case call args =>
    simp only [exec, execCall]
    repeat' split
    all_goals rw [answers_next]
    · exact h
    · exact h
    · exact h
    all_goals
      unfold RepeatList State.takeCall State.sendCall
      dsimp only
      split
      · simpa using h
      · simpa using withRepeats_length _ _ _
  case repeatCopyDue =>
    simp only [exec, execRepeatCopyDue]
    repeat' split
    all_goals rw [answers_next]
    · exact h
    · exact (takeCopy_length ..).trans h
    · unfold RepeatList
      simpa using (takeCopy_length ..).trans h
  case join =>
    simp only [exec, execJoin]
    repeat' split
    all_goals rw [answers_next]
    · exact h
    · exact h
    · exact h
    · refine of_same ?_
      rw [start_eq]
      split <;> simp [startedBlocks, State.startTimers]
  case restart =>
    simp only [exec, execRestart]
    repeat' split
    all_goals rw [answers_next]
    · exact h
    · exact restarted (by simp [completeRestart_eq_restartedInto, restartedInto])
    · exact of_same (by simp)
  case restartWaitExpiry =>
    simp only [exec, execRestartWaitExpiry]
    split
    all_goals rw [answers_next]
    · exact h
    · exact restarted (by simp [completeRestart_eq_restartedInto, restartedInto])
  case echoSuccess idle =>
    simp only [exec, execEchoSuccess]
    repeat' split
    all_goals rw [answers_next]
    · exact h
    · unfold State.leaveEchoed
      split
      · exact restarted (by simp [completeRestart_eq_restartedInto, restartedInto])
      · exact of_same (by simp)
    · exact h
  all_goals exact absurd rfl writes

theorem repeatList_kept : KeptBy (fun _ => True) RepeatList where
  command c s _ h := exec_repeatList c s h
  clock _ _ _ h := h
  levels _ _ _ h := h
  alone _ _ := trivial

theorem deferredWaits_iff (s : State) : DeferredWaits s ↔ DeferralWaits s.ct.records := by
  unfold DeferredWaits DeferralWaits
  rw [List.any_eq_true]
  exact ⟨fun h r mem deferred => h ⟨r, mem, deferred⟩, fun h ⟨r, mem, deferred⟩ => h r mem deferred⟩

/-- Settles O55: each elementary change of the call records keeps the table, its fields and its deferrals. -/
theorem stepKeepsTheCallTable : Obligations.StepKeepsTheCallTable := by
  refine ⟨fun s t h e => step_keeps_always callTable_kept h e, fun s t carried mode joined fields e => ?_,
    fun s t h e => ?_, fun s t h e => step_keeps_always repeatList_kept h e⟩
  · obtain ⟨_, joined', fields'⟩ := step_keeps callFields_kept carried.ofPort ⟨mode, joined, fields⟩ e
    exact ⟨step_carried carried e, joined', fields'⟩
  · rw [deferredWaits_iff] at h ⊢
    exact (step_keeps_always deferral_kept h e).2

end Sys2Proof.Safety
end

