-- ==== Sys2Proof/Proofs/ReactionUpdates.lean ====
section
/-!
What each at-once reaction makes of a state, as one record update (chapter by chapter as Machine/Reactions lists them).
-/
namespace Sys2Proof.Safety

open Sys2Proof Sys2Proof.Machine

theorem holdSetpoint_eq (s : State) : s.holdSetpoint =
    { s with cc := { s.cc with setpoint := if s.powerPath then s.cc.setpoint else 0 } } := by
  unfold State.holdSetpoint
  split <;> rfl

/-- The events after the notice comparator (R76). -/
def noticeEvents (s : State) : EventSet :=
  match s.ea.side, noticeSideOf s.energy s.sp.config.energyNotice with
  | .above, .below => s.sp.events.raise .energyLow
  | .below, .above => s.sp.events.raise .energyRestored
  | _, _ => s.sp.events

theorem noticeTest_eq (s : State) : s.noticeTest = { s with
    ea := { s.ea with
      side := if s.ea.side = .noRecord then .noRecord else noticeSideOf s.energy s.sp.config.energyNotice }
    sp := { s.sp with events := noticeEvents s } } := by
  unfold State.noticeTest
  split
  · next above below => simp [noticeEvents, above, below, State.raise, State.setEa, State.setSp]
  · next below above => simp [noticeEvents, above, below, State.raise, State.setEa, State.setSp]
  · next kept kept' =>
    have same : (if s.ea.side = .noRecord then .noRecord else noticeSideOf s.energy s.sp.config.energyNotice) = s.ea.side := by
      unfold noticeSideOf at kept kept' ⊢
      cases side : s.ea.side <;> simp_all
    have quiet : noticeEvents s = s.sp.events := by
      unfold noticeEvents
      split
      · next above below => exact absurd below (kept above)
      · next below above => exact absurd above (kept' below)
      · rfl
    rw [same, quiet]

theorem gateNotice_eq (s : State) : s.gateNotice = { s with
    ea := { s.ea with gates := s.gateView }
    ap := if s.gateView = s.ea.gates then s.ap else s.computation .gate
    ct := { s.ct with
      records := if s.gateView = s.ea.gates ∨ (s.computation .gate).result = 0 then s.ct.records
        else markServing s.ct.records } } := by
  unfold State.gateNotice
  split
  · next same => simp [same]
  · next differs =>
    rw [compute_eq]
    have reads : (s.setEa { s.ea with gates := s.gateView }).computation .gate = s.computation .gate := rfl
    rw [reads]
    by_cases zero : (s.computation .gate).result = 0 <;> simp [differs, zero, State.setEa, Nat.pos_iff_ne_zero]

theorem shareZeroTest_eq (s : State) : s.shareZeroTest = { s with vl := { s.vl with
    shareZeroAt := if s.vl.session = .exporting ∧ s.share = 0 then
        if s.vl.shareZeroAt.isSome || s.vl.shareZeroOut then s.vl.shareZeroAt else some (s.now + 30000)
      else none
    shareZeroOut := decide (s.vl.session = .exporting ∧ s.share = 0) && s.vl.shareZeroOut } } := by
  unfold State.shareZeroTest
  by_cases waits : s.vl.session = .exporting ∧ s.share = 0
  · simp only [if_pos waits, decide_eq_true waits, Bool.true_and]
    split <;> rfl
  · simp only [if_neg waits, decide_eq_false waits, Bool.false_and]
    rfl

theorem stopTest_eq (s : State) : s.stopTest = { s with cc := if s.stopReady then converterOff s.cc else s.cc } := by
  unfold State.stopTest
  split <;> rfl

theorem releaseTest_eq (s : State) : s.releaseTest = { s with vl := { s.vl with
    session := if s.releaseWanted then .releasing else s.vl.session
    due := { s.vl.due with release := s.releaseWanted || s.vl.due.release } } } := by
  unfold State.releaseTest
  cases s.releaseWanted <;> rfl

/-- The converter as the evaluation of the start request leaves it (R119, R120, R125, R126). -/
def startedConverter (s : State) : Converter :=
  let held := { s.cc with startHeld := s.startRequest }
  match s.cc.state with
  | .off =>
    if s.startRequest then
      if s.cc.fault then converterFailed held s.now
      else { held with
        state := .precharging, prechargeAt := some (s.now + 1000 * s.sp.config.precharge), lingerAt := none,
        stopPending := false }
    else held
  | .retryWait => held
  | .convFault => held
  | state =>
    { held with
      lingerAt := if s.startRequest then none else if s.cc.startHeld then some (s.now + 30000) else s.cc.lingerAt
      stopPending := s.cc.stopPending && !(s.startRequest && state == .on && !s.cc.startHeld) }

/-- The events of the evaluation of the start request: a precharge that meets a FAULT high is a trip (R120, R122). -/
def startEvents (s : State) : EventSet :=
  if s.cc.state = .off ∧ s.startRequest = true ∧ s.cc.fault = true then
    if s.cc.failures < 2 then s.sp.events.raise .convTrip else (s.sp.events.raise .convTrip).raise .convFault
  else s.sp.events

theorem startTest_eq (s : State) : s.startTest = { s with
    cc := startedConverter s
    sp := { s.sp with events := startEvents s } } := by
  unfold State.startTest startedConverter startEvents
  cases state : s.cc.state
  case off =>
    cases request : s.startRequest
    · simp [State.setCc, state]
    · cases fault : s.cc.fault
      · simp [State.startPrecharge, State.setCc, state, fault]
      · simp only [State.startPrecharge, convFails_eq, State.setCc, state, fault, if_true, true_and]
        rfl
  case precharging =>
    cases request : s.startRequest <;> cases s.cc.startHeld <;> simp [State.setCc, state]
  case on =>
    cases request : s.startRequest <;> cases s.cc.startHeld <;> simp [State.setCc, state]
  all_goals simp [State.setCc, state]

theorem engageTest_eq (s : State) : s.engageTest = { s with vl := { s.vl with
    due := { s.vl.due with engage := s.engageWanted && !s.vl.engageInFlight } } } := rfl

theorem retuneTest_eq (s : State) : s.retuneTest = { s with vl := { s.vl with
    retuneAt := if s.vl.session.retunable = true ∧ s.vl.allowance < s.vl.desired then
        if s.vl.retuneAt.isSome then s.vl.retuneAt else some (s.now + 60000)
      else none } } := by
  unfold State.retuneTest
  by_cases runs : s.vl.session.retunable = true ∧ s.vl.allowance < s.vl.desired
  · rw [if_pos (by simpa using runs), if_pos runs]
    split <;> rfl
  · rw [if_neg (by simpa using runs), if_neg runs]
    rfl

theorem parkTest_eq (s : State) : s.parkTest =
    if s.parkReady then s.setMode (if s.vl.plug then .hold else .dormant) else s := rfl

theorem meetPlug_eq (s : State) : s.meetPlug =
    if s.linkRuns = true ∧ s.vl.plug = true ∧ s.vl.session = .absent then { s with
      vl := { s.vl with session := .attached, wakeAt := some (s.now + 200) }
      sp := { s.sp with events := s.sp.events.raise .vehicleAttached } } else s := by
  unfold State.meetPlug
  by_cases met : s.linkRuns = true ∧ s.vl.plug = true ∧ s.vl.session = .absent
  · rw [if_pos met, if_pos (by simp [met])]
    rfl
  · rw [if_neg met, if_neg (by simpa [and_assoc] using met)]

end Sys2Proof.Safety
end

