-- ==== Sys2Proof/Proofs/PowerSteps.lean ====
section
/-!
Converter Control (R118 to R134): what any command does to the converter, the mode, a restart's wait and the rating is a
sequence of elementary changes (`PowerStep`).
-/
namespace Sys2Proof.Safety

open Sys2Proof Sys2Proof.Machine

/-! ### The elementary changes -/

/-- What decides whether the converter may be enabled, and how far the setpoint may go. -/
structure Power where
  mode : PostMode
  restarting : Option Restarting
  rating : Nat
  cc : Converter

/-- That part of a state. -/
def powerOf (s : State) : Power := ⟨s.sp.mode, s.sp.restarting, s.sp.config.convRating, s.cc⟩

/-- A mode in which the converter may be enabled (R133). -/
def Runs (m : PostMode) : Prop := m = .active ∨ m = .parking

/-- The elementary changes; the rating changes only where `U` allows it. -/
inductive PowerStep (U : PostMode → Prop) : Power → Power → Prop
  | noted {p measured held slewAt ready fault} : measured = p.cc.measured ∨ measured ≤ 1023 →
      PowerStep U p { p with cc := { p.cc with
        measured := measured, startHeld := held, slewAt := slewAt, ready := ready, fault := fault } }
  | setpoint {p v} : v ≤ p.cc.setpoint ∨ (p.cc.state = .on ∧ v ≤ p.rating) →
      PowerStep U p { p with cc := { p.cc with setpoint := v } }
  | off {p} : p.cc.state.enabled = true → PowerStep U p { p with cc := converterOff p.cc }
  | failed {p now} : PowerStep U p { p with cc := converterFailed p.cc now }
  | precharge {p t} : p.cc.state = .off → p.mode = .active → p.restarting = none →
      PowerStep U p { p with cc := { p.cc with
        state := .precharging, prechargeAt := some t, lingerAt := none, stopPending := false } }
  | linger {p t} : p.cc.state.enabled = true ∨ t = none → PowerStep U p { p with cc := { p.cc with lingerAt := t } }
  | stop {p b} : (b = true → p.cc.state = .on ∨ p.cc.stopPending = true) → PowerStep U p { p with cc := { p.cc with stopPending := b } }
  | on {p t l} : p.cc.prechargeAt.isSome = true → PowerStep U p { p with cc := { p.cc with
      state := .on, prechargeAt := none, stableAt := some t, lingerAt := l } }
  | stable {p} : p.cc.stableAt.isSome = true → PowerStep U p { p with cc := { p.cc with stableAt := none, failures := 0 } }
  | retried {p} : p.cc.retryAt.isSome = true → PowerStep U p { p with cc := { p.cc with retryAt := none, state := .off } }
  | restarted {p} : PowerStep U p { p with cc := p.cc.restarted }
  | mode {p m} : Runs m ∨ p.cc.state.enabled = false ∨ ¬Runs p.mode ∨ p.restarting ≠ none → PowerStep U p { p with mode := m }
  | waits {p r} : r = none ∨ p.cc.state.enabled = false ∨ p.restarting ≠ none → PowerStep U p { p with restarting := r }
  | rated {p n} : U p.mode → PowerStep U p { p with rating := n }
  | reset {p ready fault} :
      PowerStep U p ⟨.config, none, Configuration.default.convRating, { Converter.reset with ready := ready, fault := fault }⟩

/-- A command's changes of the converter are elementary ones. -/
def PowerSteps (U : PostMode → Prop) (s t : State) : Prop := Relation.ReflTransGen (PowerStep U) (powerOf s) (powerOf t)

variable {U : PostMode → Prop} {s t u : State}

theorem PowerSteps.refl (s : State) : PowerSteps U s s := Relation.ReflTransGen.refl

theorem PowerSteps.of_same (h : PowerSteps U s t) (cc : u.cc = t.cc) (mode : u.sp.mode = t.sp.mode)
    (waits : u.sp.restarting = t.sp.restarting) (config : u.sp.config = t.sp.config) : PowerSteps U s u := by
  unfold PowerSteps powerOf
  rw [cc, mode, waits, config]
  exact h

theorem PowerSteps.step (h : PowerSteps U s t) {p : Power} (change : PowerStep U (powerOf t) p) (same : powerOf u = p) :
    PowerSteps U s u := by
  unfold PowerSteps
  rw [same]
  exact Relation.ReflTransGen.tail h change

/-! ### The reactions -/

theorem stopReady_on (ready : t.stopReady = true) : t.cc.state = .on := by
  simp only [State.stopReady, Bool.and_eq_true, beq_iff_eq] at ready
  exact ready.1.1.1

theorem startRequest_runs (request : t.startRequest = true) : t.sp.mode = .active ∧ t.sp.restarting = none := by
  simp only [State.startRequest, Bool.and_eq_true, beq_iff_eq, Option.isNone_iff_eq_none] at request
  exact ⟨request.1.1.1.1, request.1.2⟩

theorem parkReady_off (ready : t.parkReady = true) : t.cc.state.enabled = false := by
  simp only [State.parkReady, Bool.and_eq_true, Bool.not_eq_true'] at ready
  exact ready.1.1.2

theorem PowerSteps.holdSetpoint (h : PowerSteps U s t) : PowerSteps U s t.holdSetpoint := by
  rw [holdSetpoint_eq]
  refine h.step (.setpoint (v := if t.powerPath then t.cc.setpoint else 0) (.inl ?_)) rfl
  split
  · exact le_rfl
  · exact Nat.zero_le _

theorem PowerSteps.stopTest (h : PowerSteps U s t) : PowerSteps U s t.stopTest := by
  rw [stopTest_eq]
  split
  · next ready => exact h.step (.off (by simp [powerOf, stopReady_on ready, ConverterState.enabled])) rfl
  · exact h

theorem PowerSteps.startTest (h : PowerSteps U s t) : PowerSteps U s t.startTest := by
  rw [startTest_eq]
  unfold startedConverter
  have held : PowerSteps U s (t.setCc { t.cc with startHeld := t.startRequest }) := h.step (.noted (.inl rfl)) rfl
  have running (state : t.cc.state.enabled = true) {linger : Timer} {pending : Bool}
      (stop : pending = true → t.cc.state = .on ∨ t.cc.stopPending = true) :
      PowerSteps U s { t with
        cc := { t.cc with startHeld := t.startRequest, lingerAt := linger, stopPending := pending }
        sp := { t.sp with events := startEvents t } } := by
    have lingers : PowerSteps U s (t.setCc { t.cc with startHeld := t.startRequest, lingerAt := linger }) :=
      held.step (.linger (.inl state)) rfl
    exact lingers.step (.stop stop) rfl
  cases state : t.cc.state
  case off =>
    dsimp only
    split
    · next request =>
      obtain ⟨active, alone⟩ := startRequest_runs request
      split
      · exact held.step .failed rfl
      · exact held.step (.precharge state active alone) rfl
    · exact held.of_same rfl rfl rfl rfl
  case precharging =>
    exact running (by simp [state, ConverterState.enabled]) fun pending => .inr (by simpa using pending)
  case on => exact running (by simp [state, ConverterState.enabled]) fun _ => .inl state
  all_goals exact held.of_same rfl rfl rfl rfl

theorem PowerSteps.setMode (h : PowerSteps U s t) {m : PostMode}
    (enters : Runs m ∨ t.cc.state.enabled = false ∨ ¬Runs t.sp.mode ∨ t.sp.restarting ≠ none) : PowerSteps U s (t.setMode m) :=
  h.step (.mode enters) (by rw [setMode_eq]; rfl)

theorem PowerSteps.parkTest (h : PowerSteps U s t) : PowerSteps U s t.parkTest := by
  rw [parkTest_eq]
  split
  · next ready => exact h.setMode (.inr (.inl (parkReady_off ready)))
  · exact h

theorem PowerSteps.plugWake (h : PowerSteps U s t) : PowerSteps U s t.plugWake := by
  unfold State.plugWake
  split
  · exact h.setMode (.inl (.inl rfl))
  · exact h

theorem PowerSteps.meetPlug (h : PowerSteps U s t) : PowerSteps U s t.meetPlug := by
  rw [meetPlug_eq]
  split <;> exact h.of_same rfl rfl rfl rfl

theorem PowerSteps.compute (h : PowerSteps U s t) (k : Trigger) : PowerSteps U s (t.compute k) :=
  h.of_same (by simp) (by simp) (by simp) (by simp)

theorem PowerSteps.noticeTest (h : PowerSteps U s t) : PowerSteps U s t.noticeTest := by
  rw [noticeTest_eq]
  exact h

theorem PowerSteps.gateNotice (h : PowerSteps U s t) : PowerSteps U s t.gateNotice := by
  rw [gateNotice_eq]
  exact h

theorem PowerSteps.shareZeroTest (h : PowerSteps U s t) : PowerSteps U s t.shareZeroTest := by
  rw [shareZeroTest_eq]
  exact h

theorem PowerSteps.releaseTest (h : PowerSteps U s t) : PowerSteps U s t.releaseTest := by
  rw [releaseTest_eq]
  exact h

theorem PowerSteps.engageTest (h : PowerSteps U s t) : PowerSteps U s t.engageTest := by
  rw [engageTest_eq]
  exact h

theorem PowerSteps.retuneTest (h : PowerSteps U s t) : PowerSteps U s t.retuneTest := by
  rw [retuneTest_eq]
  exact h

theorem PowerSteps.react (h : PowerSteps U s t) : PowerSteps U s t.react :=
  h.holdSetpoint.noticeTest.gateNotice.shareZeroTest.stopTest.releaseTest.startTest.engageTest.retuneTest.parkTest
    |>.plugWake.meetPlug

theorem PowerSteps.takeFrame (h : PowerSteps U s t) : PowerSteps U s t.takeFrame :=
  h.of_same (by simp) (by simp) (by simp) (by simp)

theorem PowerSteps.finish (h : PowerSteps U s t) : PowerSteps U s t.finish := by
  unfold State.finish
  split
  · exact h.react.react.react.react.react.holdSetpoint.takeFrame
  · exact h

theorem PowerSteps.respond (h : PowerSteps U s t) (r : ResultCode) (d : ResponseData) : PowerSteps U s (t.respond r d) := h

/-! ### The shared operations -/

theorem PowerSteps.convFails (h : PowerSteps U s t) (k : EventKind) : PowerSteps U s (t.convFails k) := by
  rw [convFails_eq]
  exact h.step .failed rfl

theorem PowerSteps.requestStop (h : PowerSteps U s t) : PowerSteps U s t.requestStop := by
  rw [requestStop_eq]
  split
  · next state => exact h.step (.off (by simp [powerOf, state, ConverterState.enabled])) rfl
  · split
    · next state => exact h.step (.stop (b := true) fun _ => .inl state) rfl
    · exact h

theorem PowerSteps.stepDown (h : PowerSteps U s t) (v : Nat) : PowerSteps U s (t.stepDown v) :=
  h.step (.setpoint (.inl (min_le_left _ v))) rfl

theorem PowerSteps.dropEnable (h : PowerSteps U s t) : PowerSteps U s t.dropEnable := by
  unfold State.dropEnable
  split
  · next enabled => exact h.step (.off enabled) rfl
  · exact h

theorem dropEnable_off (s : State) : s.dropEnable.cc.state.enabled = false := by
  unfold State.dropEnable
  split
  · rfl
  · next off => simpa using off

theorem PowerSteps.enterLockout (h : PowerSteps U s t) : PowerSteps U s t.enterLockout := by
  by_cases locked : t.sp.mode = .lockout
  · unfold State.enterLockout
    rw [if_pos locked]
    exact h
  · have off := (h.stepDown 0).dropEnable
    refine off.step (.mode (m := .lockout) (.inr (.inl (dropEnable_off _)))) ?_
    rw [enterLockout_eq t locked, dropEnable_eq]
    rfl

theorem PowerSteps.meetDuplicate (h : PowerSteps U s t) : PowerSteps U s t.meetDuplicate := by
  have counted : PowerSteps U s (t.countReceived.raise .duplicateStall) := h
  unfold State.meetDuplicate
  dsimp only
  split
  · next r waiting => exact counted.step (.waits (.inr (.inr (by simpa [powerOf] using waiting ▸ Option.some_ne_none r)))) rfl
  · exact counted.enterLockout

theorem PowerSteps.completeRestart (h : PowerSteps U s t) (o : PostMode) (d : Bool)
    (waits : t.sp.restarting ≠ none ∨ ¬Runs t.sp.mode) : PowerSteps U s (t.completeRestart o d) := by
  rw [completeRestart_eq_restartedInto]
  have cleared : PowerSteps U s (t.setCc t.cc.restarted) := h.step .restarted rfl
  have moved : PowerSteps U s ((t.setCc t.cc.restarted).setMode (restartMode o d)) :=
    cleared.setMode (.inr (.inr (waits.symm)))
  exact moved.step (.waits (.inl rfl)) (by rw [setMode_eq]; rfl)

theorem PowerSteps.callNotice (h : PowerSteps U s t) (r : CallRecord) : PowerSteps U s (t.callNotice r) := by
  unfold State.callNotice
  split
  · exact (h.setMode (m := .active) (.inl (.inl rfl))).of_same rfl rfl rfl rfl
  · exact h

theorem PowerSteps.intake (h : PowerSteps U s t) (d : CallFrame) : PowerSteps U s (t.intake d).1 := by
  rcases intake_cases t d with e | e | ⟨k, b, n, rs, e | ⟨r, e⟩⟩ <;> rw [e]
  · exact h
  · exact h
  · exact h.of_same (by simp) (by simp) (by simp) (by simp)
  · exact PowerSteps.callNotice (h.of_same (by simp) (by simp) (by simp) (by simp)) r

theorem PowerSteps.takeCall (h : PowerSteps U s t) (d : CallFrame) : PowerSteps U s (t.takeCall d).1 := by
  unfold State.takeCall State.sendCall
  dsimp only
  split
  · exact h.intake d
  · exact (h.intake d).of_same (by simp) (by simp) (by simp) (by simp)

theorem PowerSteps.applyCurb (h : PowerSteps U s t) (level hold : Nat) : PowerSteps U s (t.applyCurb level hold) := by
  have computed : PowerSteps U s ((t.setCu { t.cu with
      curb := some (curbApplied t.cu.curb t.now level hold) }).compute .curb) := by
    refine PowerSteps.compute ?_ _
    exact h
  unfold State.applyCurb State.curbComputation
  dsimp only
  split
  · exact (computed.stepDown _).of_same rfl rfl rfl rfl
  · exact computed.stepDown _

theorem PowerSteps.takeSample (h : PowerSteps U s t) (x : Int) : PowerSteps U s (t.takeSample x) := by
  have judged : PowerSteps U s (t.judgeReading x) := h.of_same (by simp) (by simp) (by simp) (by simp)
  unfold State.takeSample State.originate
  dsimp only
  split
  · exact PowerSteps.applyCurb (judged.of_same (by simp) (by simp) (by simp) (by simp)) _ _
  · exact judged

theorem PowerSteps.start (h : PowerSteps U s t) : PowerSteps U s t.start := by
  have active : PowerSteps U s (t.setSp { t.sp with mode := .active, locked := true }) := h.step (.mode (.inl (.inl rfl))) rfl
  have timed : PowerSteps U s ((t.setSp { t.sp with mode := .active, locked := true }).setCc
      { t.cc with slewAt := some (t.now + 100) }) := active.step (.noted (.inl rfl)) rfl
  have started : PowerSteps U s (startedBlocks t) :=
    timed.of_same (by simp [startedBlocks, State.startTimers]) (by simp [startedBlocks]) (by simp [startedBlocks])
      (by simp [startedBlocks])
  rw [start_eq]
  split
  · exact started.takeSample _
  · exact started

theorem PowerSteps.beginRestart (h : PowerSteps U s t) : PowerSteps U s t.beginRestart := by
  have off := (h.stepDown 0).dropEnable
  have waits := off.step (u := ((t.stepDown 0).dropEnable).setSp { t.sp with
    restarting := some ⟨t.sp.mode, false, t.now + 200⟩ })
    (.waits (r := some ⟨t.sp.mode, false, t.now + 200⟩) (.inr (.inl (dropEnable_off _))))
    (by rw [dropEnable_eq]; rfl)
  exact waits.of_same (by simp [State.beginRestart, dropEnable_eq]; rfl) (by simp [State.beginRestart])
    (by simp [State.beginRestart]) (by simp [State.beginRestart])

/-! ### What each command does to the converter -/

/-- The rating may change only where the part is unlocked (R170). -/
def Unlocked (s : State) (m : PostMode) : Prop := s.sp.locked = false ∧ m = s.sp.mode

/-- A command whose own effect leaves the converter, the mode, the wait and the configuration leaves the rest to what
follows at once. -/
theorem PowerSteps.follows (cc : t.cc = s.cc) (mode : t.sp.mode = s.sp.mode) (waits : t.sp.restarting = s.sp.restarting)
    (config : t.sp.config = s.sp.config) : PowerSteps U s t.finish :=
  ((PowerSteps.refl s).of_same cc mode waits config).finish

theorem supervisor_power (c : Instr) (s : State) (family : ofSupervisor c = true) :
    Answers (exec c s) (PowerSteps (Unlocked s) s) := by
  have same : PowerSteps (Unlocked s) s s := .refl s
  cases c
  case hardwareReset straps =>
    rw [exec, execHardwareReset, answers_next]
    exact same.step .reset rfl
  case select key =>
    simp only [exec, execSelect]
    repeat' split
    all_goals
      rw [answers_next]
      exact same
  case value v =>
    simp only [exec, execValue]
    repeat' split
    all_goals rw [answers_next]
    · exact same
    · exact same
    all_goals
      next admitted _ _ _ _ =>
        have unlocked := (refusal_eq_none_iff.mp admitted).2.2.2 rfl
        exact same.step (.rated ⟨unlocked, rfl⟩) rfl
  case join =>
    simp only [exec, execJoin]
    repeat' split
    all_goals rw [answers_next]
    · exact same
    · exact same
    · exact same
    · exact same.start.finish.respond _ _
  case call args =>
    simp only [exec, execCall]
    repeat' split
    all_goals rw [answers_next]
    · exact same
    · exact same
    · exact same
    all_goals exact (same.takeCall _).finish.respond _ _
  case park =>
    simp only [exec, execPark]
    repeat' split
    all_goals rw [answers_next]
    · exact same
    · exact (same.setMode (m := .parking) (.inl (.inr rfl))).requestStop.finish.respond _ _
    · exact same
  case wake =>
    simp only [exec, execWake]
    repeat' split
    all_goals rw [answers_next]
    · exact same
    · exact (same.setMode (m := .active) (.inl (.inl rfl))).finish.respond _ _
    · exact same
  case restart =>
    simp only [exec, execRestart]
    repeat' split
    all_goals rw [answers_next]
    · exact same
    · next locked =>
      have released : PowerSteps (Unlocked s) s s.releaseForRestart :=
        same.of_same (by simp) (by simp) (by simp) (by simp)
      exact (released.completeRestart _ _ (.inr (by simp [locked, Runs]))).finish.respond _ _
    · exact same.beginRestart.finish.respond _ _
  case parkComplete =>
    simp only [exec, execParkComplete]
    split
    all_goals rw [answers_next]
    · exact same.parkTest.finish
    · exact same
  case restartWaitExpiry =>
    simp only [exec, execRestartWaitExpiry]
    split
    all_goals rw [answers_next]
    · exact same
    · next r waiting =>
      have reached : PowerSteps (Unlocked s) s (s.reach r.waitAt) := same
      exact (reached.completeRestart _ _ (.inl (by simp [waiting]))).finish
  case status =>
    rw [exec, execStatus, answers_next]
    exact same
  case point report index =>
    simp only [exec, execPoint]
    repeat' split
    all_goals
      rw [answers_next]
      exact same
  case read =>
    simp only [exec, execRead]
    repeat' split
    all_goals
      rw [answers_next]
      exact same
  case unknownCommand code length =>
    simp only [exec, execUnknownCommand]
    split
    all_goals
      rw [answers_next]
      exact same
  all_goals exact absurd family Bool.false_ne_true

theorem peers_power (c : Instr) (s : State) (family : ofPeers c = true) : Answers (exec c s) (PowerSteps U s) := by
  have same : PowerSteps U s s := .refl s
  cases c
  case standing stall seq f =>
    simp only [exec, execStanding]
    repeat' split
    all_goals rw [answers_next]
    · exact same
    · exact same.meetDuplicate.finish
    · exact same
    · exact .follows (by simp) (by simp) (by simp) (by simp)
    · exact same.of_same (by simp) (by simp) (by simp) (by simp)
  case leave stall seq reason =>
    simp only [exec, execLeave]
    repeat' split
    all_goals rw [answers_next]
    · exact same
    · exact same.meetDuplicate.finish
    · exact same
    · exact same
  case dispatch stall seq f =>
    simp only [exec, execDispatch]
    repeat' split
    all_goals rw [answers_next]
    · exact same
    · exact same.meetDuplicate.finish
    · exact same
    · have heard : PowerSteps U s (s.countReceived.heard stall seq) := same
      exact (heard.intake _).finish
  case curb stall seq f =>
    simp only [exec, execCurb]
    repeat' split
    all_goals rw [answers_next]
    · exact same
    · exact same.meetDuplicate.finish
    · refine PowerSteps.finish (PowerSteps.applyCurb ?_ _ _)
      exact same
  case duplicateStall kind =>
    simp only [exec, execDuplicateStall]
    split
    all_goals rw [answers_next]
    · exact same.meetDuplicate.finish
    · exact same
  case badFrame =>
    simp only [exec, execBadFrame]
    split
    all_goals
      rw [answers_next]
      exact same
  case sweep =>
    simp only [exec, execSweep]
    split
    all_goals rw [answers_next]
    · exact same
    · exact same.of_same (by simp) (by simp) (by simp) (by simp)
  case lastHeardExpiry =>
    simp only [exec, execLastHeardExpiry]
    split
    all_goals rw [answers_next]
    · exact same
    · exact .follows (by simp) (by simp) (by simp) (by simp)
  case rejoinHoldExpiry =>
    simp only [exec, execRejoinHoldExpiry]
    split
    all_goals rw [answers_next]
    · exact same
    · exact .follows rfl rfl rfl rfl
  all_goals exact absurd family Bool.false_ne_true

theorem line_power (c : Instr) (s : State) (family : ofLine c = true) : Answers (exec c s) (PowerSteps U s) := by
  have same : PowerSteps U s s := .refl s
  cases c
  case echoSuccess idle =>
    simp only [exec, execEchoSuccess]
    repeat' split
    all_goals rw [answers_next]
    · exact same
    · refine PowerSteps.finish ?_
      unfold State.leaveEchoed
      have echoed (t : State) (h : t.sp = s.sp) (cc : t.cc = s.cc) : PowerSteps U s t.ownEchoed :=
        same.of_same (by simp [cc]) (by simp [h]) (by simp [h]) (by simp [h])
      split
      · next waiting =>
        refine PowerSteps.completeRestart (echoed _ ?_ ?_) _ _ (.inl fun e => Option.some_ne_none _ (waiting.symm.trans e))
        · rfl
        · rfl
      · exact echoed _ rfl rfl
    · exact same
  case lineIdle =>
    simp only [exec, execLineIdle]
    repeat' split
    all_goals
      rw [answers_next]
      exact same.of_same (by simp [State.setLine, State.beginAttempt]) (by simp [State.setLine, State.beginAttempt])
        (by simp [State.setLine, State.beginAttempt]) (by simp [State.setLine, State.beginAttempt])
  case standingTimer =>
    simp only [exec, execStandingTimer]
    split
    all_goals
      rw [answers_next]
      exact same.of_same (by simp) (by simp) (by simp) (by simp)
  case collision idle =>
    simp only [exec, execCollision]
    repeat' split
    all_goals rw [answers_next]
    · exact same
    · exact same
    · exact .follows (by simp) (by simp) (by simp) (by simp)
    · exact same
  case backoffEnd idle =>
    simp only [exec, execBackoffEnd]
    repeat' split
    all_goals
      rw [answers_next]
      exact same
  case echoTimer =>
    simp only [exec, execEchoTimer]
    split
    all_goals
      rw [answers_next]
      exact same.of_same (by simp) (by simp) (by simp) (by simp)
  case repeatCopyDue =>
    simp only [exec, execRepeatCopyDue]
    repeat' split
    all_goals
      rw [answers_next]
      exact same.of_same (by simp) (by simp) (by simp) (by simp)
  all_goals exact absurd family Bool.false_ne_true

theorem calls_power (c : Instr) (s : State) (family : ofCalls c = true) : Answers (exec c s) (PowerSteps U s) := by
  have same : PowerSteps U s s := .refl s
  cases c
  case sensorSample x =>
    simp only [exec, execSensorSample]
    repeat' split
    all_goals rw [answers_next]
    · exact same
    · refine PowerSteps.finish (PowerSteps.takeSample ?_ _)
      exact same
    · refine PowerSteps.takeSample ?_ _
      exact same
  case callTimer =>
    simp only [exec, execCallTimer]
    split
    all_goals rw [answers_next]
    · exact same
    · exact .follows (by simp) (by simp) (by simp) (by simp)
  case startCountdownExpiry id =>
    simp only [exec, execStartCountdownExpiry]
    repeat' split
    all_goals rw [answers_next]
    · exact same
    · exact .follows (by simp) (by simp) (by simp) (by simp)
    · exact same
  case remainingActiveExpiry id =>
    simp only [exec, execRemainingActiveExpiry]
    repeat' split
    all_goals rw [answers_next]
    · exact same
    · exact .follows (by simp) (by simp) (by simp) (by simp)
    · exact same
  case deferredExpiry id =>
    simp only [exec, execDeferredExpiry]
    repeat' split
    all_goals rw [answers_next]
    · exact same
    · exact .follows (by simp) (by simp) (by simp) (by simp)
    · exact same
  case retentionExpiry id =>
    simp only [exec, execRetentionExpiry]
    repeat' split
    all_goals
      rw [answers_next]
      exact same
  case apportionStep =>
    simp only [exec, execApportionStep]
    split
    all_goals rw [answers_next]
    · exact same
    · exact .follows (by simp) (by simp) (by simp) (by simp)
  case meterSample =>
    simp only [exec, execMeterSample]
    repeat' split
    all_goals rw [answers_next]
    · exact same
    · exact .follows (by simp) (by simp) (by simp) (by simp)
    · exact same.of_same (by simp) (by simp) (by simp) (by simp)
  case departureMinute =>
    simp only [exec, execDepartureMinute]
    split
    all_goals rw [answers_next]
    · exact same
    · exact .follows rfl rfl rfl rfl
  case curbExpiry =>
    simp only [exec, execCurbExpiry]
    split
    all_goals rw [answers_next]
    · exact same
    · exact .follows rfl rfl rfl rfl
  all_goals exact absurd family Bool.false_ne_true

/-- The share, and with it the target of the setpoint, lies within CONV_RATING (R72, R82, R127). -/
theorem share_le_rating (s : State) : s.share ≤ s.sp.config.convRating := by
  refine (min_le_right ..).trans ?_
  unfold State.offer
  split
  · exact Nat.zero_le _
  · exact min_le_left ..

theorem slewed_setpoint (s : State) : slewed s.cc.setpoint s.target s.sp.config.riseStep ≤ s.cc.setpoint ∨
    (s.cc.state = .on ∧ slewed s.cc.setpoint s.target s.sp.config.riseStep ≤ s.sp.config.convRating) := by
  have target := share_le_rating s
  unfold State.target slewed
  by_cases path : s.powerPath = true
  · have on : s.cc.state = .on := by
      simp only [State.powerPath, Bool.and_eq_true, beq_iff_eq] at path
      exact path.1
    simp only [path, if_true]
    split
    · exact .inr ⟨on, (min_le_left ..).trans target⟩
    · next above =>
      exact .inl (max_le (by omega) (Nat.sub_le ..))
  · simp only [path, Bool.false_eq_true, if_false]
    exact .inl (by simp)

theorem converter_power (c : Instr) (s : State) (family : ofConverter c = true) : Answers (exec c s) (PowerSteps U s) := by
  have same : PowerSteps U s s := .refl s
  cases c
  case measStb sample =>
    rw [exec, execMeasStb, answers_next]
    exact same.step (.noted (.inr (Nat.le_of_lt_succ (Nat.mod_lt sample (by decide))))) rfl
  case faultHigh =>
    have high : PowerSteps U s (s.setCc { s.cc with fault := true }) := same.step (.noted (.inl rfl)) rfl
    simp only [exec, execFaultHigh]
    split
    all_goals rw [answers_next]
    · exact (high.convFails _).finish
    · exact high
  case prechargeExpiry ready =>
    have read : PowerSteps U s (s.setCc { s.cc with ready := ready }) := same.step (.noted (.inl rfl)) rfl
    simp only [exec, execPrechargeExpiry]
    split
    · exact answers_next.mpr read
    · next t waits =>
      split
      · exact answers_next.mpr (.finish (read.step (.on (Option.isSome_iff_exists.mpr ⟨t, waits⟩)) rfl))
      · rw [answers_next]
        refine PowerSteps.finish (PowerSteps.convFails ?_ _)
        exact read
  case stableExpiry =>
    simp only [exec, execStableExpiry]
    split
    all_goals rw [answers_next]
    · exact same
    · next runs => exact same.step (.stable (by simp [powerOf, runs])) rfl
  case retryExpiry =>
    simp only [exec, execRetryExpiry]
    split
    all_goals rw [answers_next]
    · exact same
    · next runs => exact PowerSteps.finish (same.step (.retried (by simp [powerOf, runs])) rfl)
  case lingerExpiry =>
    simp only [exec, execLingerExpiry]
    split
    all_goals rw [answers_next]
    · exact same
    · refine PowerSteps.finish (PowerSteps.requestStop ?_)
      exact same.step (.linger (.inr rfl)) rfl
  case stopComplete =>
    simp only [exec, execStopComplete]
    split
    all_goals rw [answers_next]
    · next ready =>
      exact PowerSteps.finish (same.step (.off (by simp [powerOf, stopReady_on ready, ConverterState.enabled])) rfl)
    · exact same
  case slewStep =>
    simp only [exec, execSlewStep]
    repeat' split
    all_goals rw [answers_next]
    · exact same
    all_goals
      next t _ _ =>
        have slews : PowerSteps U s (s.setCc { s.cc with
            setpoint := slewed s.cc.setpoint s.target s.sp.config.riseStep }) :=
          same.step (.setpoint (slewed_setpoint s)) rfl
        have timed : PowerSteps U s (s.setCc { s.cc with
            setpoint := slewed s.cc.setpoint s.target s.sp.config.riseStep, slewAt := some (t + 100) }) :=
          slews.step (.noted (.inl rfl)) rfl
        first | exact PowerSteps.finish timed | exact timed
  all_goals exact absurd family Bool.false_ne_true

theorem link_power (c : Instr) (s : State) (family : ofLink c = true) : Answers (exec c s) (PowerSteps U s) := by
  have same : PowerSteps U s s := .refl s
  cases c
  case plugLow =>
    simp only [exec, execPlugLow]
    split
    all_goals rw [answers_next]
    · exact same
    · exact PowerSteps.finish ((same.stepDown 0).of_same rfl rfl rfl rfl)
  all_goals first | exact absurd family Bool.false_ne_true | simp only [exec, execPlugHigh, execWakeExpiry,
    execPilotRequestTaken, execRequestSent, execReplyTimerExpiry, execPilotFrameDisregarded, execItem, execNotReady,
    execUnsupported, execIdentifyExpiry, execRequeryExpiry, execSessionRetryExpiry, execPollExpiry, execRefreshExpiry]
  all_goals
    repeat' split
    all_goals
      rw [answers_next]
      first
        | with_reducible apply PowerSteps.follows
        | refine same.of_same ?_ ?_ ?_ ?_
      all_goals simp

theorem session_power (c : Instr) (s : State) (family : ofSession c = true) : Answers (exec c s) (PowerSteps U s) := by
  have same : PowerSteps U s s := .refl s
  cases c
  case polled number flags ceiling temperature =>
    simp only [exec, execPolled]
    split
    all_goals rw [answers_next]
    · have pack : PowerSteps U s (s.endRequest.replacePack (packTempCorrected temperature)).finish :=
        .follows (by simp) (by simp) (by simp) (by simp)
      have limited (t : State) (h : PowerSteps U s t) : PowerSteps U s (t.meetCeiling (levelCorrected ceiling)).finish :=
        PowerSteps.finish (h.of_same (by simp) (by simp) (by simp) (by simp))
      have stopped (t : State) (h : PowerSteps U s t) : PowerSteps U s (t.meetStop (flags.testBit 0)) := by
        unfold State.meetStop
        repeat' split
        · exact h
        · exact PowerSteps.of_same (t := (t.setVl { t.vl with stopLatch := true }).stepDown 0)
            (PowerSteps.stepDown (t := t.setVl _) h 0) rfl rfl rfl rfl
        · exact h
      exact (stopped _ (limited _ pack)).finish
    · exact same
  all_goals first | exact absurd family Bool.false_ne_true | simp only [exec, execTuned, execTuningExpiry,
    execStepDelayExpiry, execSettleExpiry, execRetuneExpiry, execRetuneBegin, execEngaged, execDeclined,
    execEngageHoldExpiry, execShareZeroExpiry, execReleased]
  all_goals
    repeat' split
    all_goals
      rw [answers_next]
      first
        | with_reducible apply PowerSteps.follows
        | refine same.of_same ?_ ?_ ?_ ?_
      all_goals simp

theorem exec_power (c : Instr) (s : State) : Answers (exec c s) (PowerSteps (Unlocked s) s) := by
  rcases families c with f | f | f | f | f | f | f
  · exact supervisor_power c s f
  · exact peers_power c s f
  · exact line_power c s f
  · exact calls_power c s f
  · exact converter_power c s f
  · exact link_power c s f
  · exact session_power c s f

end Sys2Proof.Safety
end

