-- ==== Sys2Proof/Proofs/Ends.lean ====
section
/-!
How a command ends (`exec_ends`): a command either leaves the part in CONFIG, or ends with the reactions of a joined part
(`State.finish`), or leaves all that the reactions read as it is (`Undisturbed`).
-/
namespace Sys2Proof.Safety

open Sys2Proof Sys2Proof.Machine

/-! ### What the reactions read -/

/-- No frame waits beside an idle line that it could take (R26). -/
def LineTaken (s : State) : Prop :=
  s.lp.inFlight ≠ none ∨ s.lp.queue = [] ∨ s.lp.lineIdle = false ∨ s.sp.mode = .lockout

/-- What the reactions read of the records: the state and the time of the call in force, and the nearest record. -/
def callsRead (rs : List CallRecord) : Option (CallState × Nat) × Option CallRecord :=
  ((callInForce rs).map fun r => (r.state, r.remaining), nearestPending rs)

/-- All that the reactions read stands as it did. -/
structure Undisturbed (s t : State) : Prop where
  control : control t = control s
  waits : t.sp.restarting = s.sp.restarting
  config : t.sp.config = s.sp.config
  isolated : t.pv.isolated = s.pv.isolated
  rejoining : t.pv.rejoining = s.pv.rejoining
  cut : t.cu.cutHold = s.cu.cutHold
  record : t.ea.record = s.ea.record
  estimate : t.ea.estimate = s.ea.estimate
  departure : t.ea.departureLeft = s.ea.departureLeft
  side : t.ea.side = s.ea.side
  gates : t.ea.gates = s.ea.gates
  setpoint : t.cc.setpoint = s.cc.setpoint
  stop : t.cc.stopPending = s.cc.stopPending
  held : t.cc.startHeld = s.cc.startHeld
  linger : t.cc.lingerAt = s.cc.lingerAt
  result : t.ap.result = s.ap.result
  allowance : t.vl.allowance = s.vl.allowance
  desired : t.vl.desired = s.vl.desired
  latch : t.vl.stopLatch = s.vl.stopLatch
  shareZeroAt : t.vl.shareZeroAt = s.vl.shareZeroAt
  shareZeroOut : t.vl.shareZeroOut = s.vl.shareZeroOut
  engageHold : t.vl.engageHoldAt = s.vl.engageHoldAt
  engageDue : t.vl.due.engage = s.vl.due.engage
  retune : t.vl.retuneAt.isSome = s.vl.retuneAt.isSome
  plug : t.vl.plug = true → s.vl.plug = true
  engage : (∀ f ∈ s.vl.inFlight, asksInPlace s.vl f.request = true) →
    t.vl.engageInFlight = s.vl.engageInFlight ∨ s.vl.session ≠ .ready
  calls : CallTable s → callsRead t.ct.records = callsRead s.ct.records
  line : LineTaken s → LineTaken t

variable {s t u : State}

theorem Undisturbed.refl (s : State) : Undisturbed s s := by
  constructor <;> simp

/-- The blocks that the reactions read stand as they did. -/
theorem Undisturbed.of_blocks (mode : t.sp.mode = s.sp.mode) (waits : t.sp.restarting = s.sp.restarting)
    (config : t.sp.config = s.sp.config) (isolated : t.pv.isolated = s.pv.isolated)
    (rejoining : t.pv.rejoining = s.pv.rejoining) (cut : t.cu.cutHold = s.cu.cutHold) (ea : t.ea = s.ea)
    (cc : t.cc = s.cc) (result : t.ap.result = s.ap.result) (vl : t.vl = s.vl)
    (calls : t.ct.records = s.ct.records) (line : LineTaken s → LineTaken t) : Undisturbed s t := by
  obtain ⟨session, state⟩ : t.vl.session = s.vl.session ∧ t.cc.state = s.cc.state := ⟨vl ▸ rfl, cc ▸ rfl⟩
  exact
    { control := by unfold Sys2Proof.Safety.control; rw [mode, session, state]
      waits, config, isolated, rejoining, cut, result, line
      record := ea ▸ rfl, estimate := ea ▸ rfl, departure := ea ▸ rfl, side := ea ▸ rfl, gates := ea ▸ rfl
      setpoint := cc ▸ rfl, stop := cc ▸ rfl, held := cc ▸ rfl, linger := cc ▸ rfl
      allowance := vl ▸ rfl, desired := vl ▸ rfl, latch := vl ▸ rfl, shareZeroAt := vl ▸ rfl
      shareZeroOut := vl ▸ rfl, engageHold := vl ▸ rfl, engageDue := vl ▸ rfl, retune := vl ▸ rfl
      plug := fun high => vl ▸ high
      engage := fun _ => .inl (vl ▸ rfl)
      calls := fun _ => by rw [calls] }

/-- All that the reactions read of the Vehicle Link stands as it did. -/
structure LinkUndisturbed (v w : VehicleLink) : Prop where
  session : w.session = v.session
  allowance : w.allowance = v.allowance
  desired : w.desired = v.desired
  latch : w.stopLatch = v.stopLatch
  shareZeroAt : w.shareZeroAt = v.shareZeroAt
  shareZeroOut : w.shareZeroOut = v.shareZeroOut
  engageHold : w.engageHoldAt = v.engageHoldAt
  engageDue : w.due.engage = v.due.engage
  retune : w.retuneAt.isSome = v.retuneAt.isSome
  plug : w.plug = true → v.plug = true
  engage : (∀ f ∈ v.inFlight, asksInPlace v f.request = true) →
    w.engageInFlight = v.engageInFlight ∨ v.session ≠ .ready

theorem Undisturbed.of_link (link : LinkUndisturbed s.vl t.vl) (sp : t.sp = s.sp) (pv : t.pv = s.pv) (cu : t.cu = s.cu)
    (ea : t.ea = s.ea) (cc : t.cc = s.cc) (ap : t.ap = s.ap) (calls : t.ct = s.ct) (lp : t.lp = s.lp) :
    Undisturbed s t := by
  obtain ⟨session, allowance, desired, latch, shareZeroAt, shareZeroOut, engageHold, engageDue, retune, plug, engage⟩ := link
  constructor <;> first | assumption | simp [Sys2Proof.Safety.control, LineTaken, *]

/-- How a command may end. -/
inductive Ends (s : State) : State → Prop
  | config {v : State} : v.sp.mode = .config → Ends s v
  | finished (v : State) : v.sp.mode ≠ .config → Ends s v.finish
  | responded (v : State) (r d) : v.sp.mode ≠ .config → Ends s (v.finish.respond r d)
  | undisturbed {v : State} : Undisturbed s v → Ends s v

theorem finish_of_config (h : u.sp.mode = .config) : u.finish = u := by
  unfold State.finish State.joined
  simp [h]

theorem Ends.finish (s u : State) : Ends s u.finish := by
  by_cases unjoined : u.sp.mode = .config
  · exact .config (by rw [finish_of_config unjoined]; exact unjoined)
  · exact .finished u unjoined

theorem Ends.respond (s u : State) (r : ResultCode) (d : ResponseData) : Ends s (u.finish.respond r d) := by
  by_cases unjoined : u.sp.mode = .config
  · exact .config (by rw [finish_of_config unjoined]; exact unjoined)
  · exact .responded u r d unjoined

theorem Ends.refl (s : State) : Ends s s := .undisturbed (.refl s)

/-! ### The line -/

theorem takeFrame_taken (h : t.sp.mode ≠ .config) : LineTaken t.takeFrame := by
  unfold LineTaken State.takeFrame
  split
  · next f q none waiting =>
    by_cases sends : (t.lp.lineIdle && t.transmitEnabled) = true
    · simp [sends]
    · rw [if_neg sends]
      unfold State.transmitEnabled State.joined at sends
      cases idle : t.lp.lineIdle
      · simp
      · simp_all
  · next other =>
    cases flight : t.lp.inFlight
    · cases queue : t.lp.queue
      · simp
      · exact absurd queue (other _ _ flight)
    · simp

/-- A waiting frame may be taken at the end of what leaves the reactions' readings as they are. -/
theorem Ends.takeFrame (mode : t.sp.mode = s.sp.mode) (waits : t.sp.restarting = s.sp.restarting)
    (config : t.sp.config = s.sp.config) (pv : t.pv = s.pv) (cu : t.cu = s.cu) (ea : t.ea = s.ea)
    (cc : t.cc = s.cc) (ap : t.ap = s.ap) (vl : t.vl = s.vl) (calls : t.ct.records = s.ct.records) :
    Ends s t.takeFrame := by
  by_cases unjoined : t.sp.mode = .config
  · exact .config (by simp [unjoined])
  · exact .undisturbed (.of_blocks (by simp [mode]) (by simp [waits]) (by simp [config]) (by simp [pv]) (by simp [pv])
      (by simp [cu]) (by simp [ea]) (by simp [cc]) (by simp [ap]) (by simp [vl]) (by simp [calls])
      fun _ => takeFrame_taken unjoined)

/-! ### The records -/

theorem nearestPending_filter (rs : List CallRecord) (k : Nat) (h : ∀ r ∈ rs, r.callId = k → r.state ≠ .pending) :
    nearestPending (rs.filter (·.callId != k)) = nearestPending rs := by
  induction rs with
  | nil => rfl
  | cons r rs ih =>
    have rest := ih fun x member => h x (List.mem_cons_of_mem r member)
    by_cases removed : r.callId = k
    · have closed := h r List.mem_cons_self removed
      rw [List.filter_cons_of_neg (by simp [removed]), rest, nearestPending]
      split
      · next pending => exact absurd pending closed
      · rfl
    · rw [List.filter_cons_of_pos (by simp [removed]), nearestPending, nearestPending, rest]

/-- A final record that goes changes nothing that the reactions read. -/
theorem callsRead_filter_final {rs : List CallRecord} {k : Nat} {r : CallRecord}
    (ascending : rs.Pairwise fun a b => a.callId < b.callId) (found : findCall k rs = some r) (final : r.isFinal = true) :
    callsRead (rs.filter (·.callId != k)) = callsRead rs := by
  obtain ⟨member, named⟩ := findCall_some found
  have only (x : CallRecord) (h : x ∈ rs) (same : x.callId = k) : x = r :=
    AscendingIds.injective ascending h member (same.trans named.symm)
  have closed (x : CallRecord) (h : x ∈ rs) (same : x.callId = k) : x.state = .done ∨ x.state = .cancelled := by
    rw [only x h same]
    simpa [CallRecord.isFinal] using final
  unfold callsRead
  have forced (x : CallRecord) (h : x ∈ rs) (same : x.callId = k) : x.inForce = false := by
    rcases closed x h same with state | state <;> simp [CallRecord.inForce, state]
  have waits (x : CallRecord) (h : x ∈ rs) (same : x.callId = k) : x.state ≠ .pending := by
    rcases closed x h same with state | state <;> simp [state]
  rw [callInForce_filter rs k forced, nearestPending_filter rs k waits]

/-- A change of the records in force that keeps their state and time. -/
theorem callsRead_map (f : CallRecord → CallRecord) (rs : List CallRecord) (state : ∀ r, (f r).state = r.state)
    (time : ∀ r, (f r).remaining = r.remaining) (others : ∀ r, r.inForce = false → f r = r) :
    callsRead (rs.map f) = callsRead rs := by
  have forced (r : CallRecord) : (f r).inForce = r.inForce := by unfold CallRecord.inForce; rw [state]
  induction rs with
  | nil => rfl
  | cons r rs ih =>
    unfold callsRead callInForce at ih ⊢
    simp only [Prod.mk.injEq] at ih ⊢
    obtain ⟨first, nearest⟩ := ih
    refine ⟨?_, ?_⟩
    · rw [List.map_cons, List.find?_cons, List.find?_cons, forced]
      cases r.inForce
      · exact first
      · simp [state, time]
    · rw [List.map_cons, nearestPending, nearestPending, nearest, state]
      cases pending : r.state
      case pending => rw [others r (by simp [CallRecord.inForce, pending])]
      all_goals rfl

/-- A sample changes the accumulators of the record in force alone. -/
theorem callsRead_sampled (measured share : Nat) (rs : List CallRecord) :
    callsRead (rs.map (·.sampled measured share)) = callsRead rs := by
  refine callsRead_map (·.sampled measured share) rs (fun r => ?_) (fun r => ?_) fun r off => ?_
  all_goals unfold CallRecord.sampled
  · split <;> rfl
  · split <;> rfl
  · simp [off]

theorem drained_frame (a : EnergyAccount) (measured : Nat) : (a.drained measured).record = a.record ∧
    (a.drained measured).departureLeft = a.departureLeft ∧ (a.drained measured).side = a.side ∧
      (a.drained measured).gates = a.gates := by
  unfold EnergyAccount.drained
  split <;> simp [*]

/-! ### The commands -/

@[simp] theorem judgeReading_cutHold (s : State) (x : Int) : (s.judgeReading x).cu.cutHold = s.cu.cutHold := by
  unfold State.judgeReading
  split <;> simp

theorem judgeReading_originates (s : State) (x y : Int) : (s.judgeReading x).originates y = s.originates y := by
  unfold State.judgeReading
  split
  · rfl
  · unfold State.originates
    simp

@[simp] theorem heard_flags (s : State) (stall seq : Nat) :
    (s.heard stall seq).pv.isolated = s.pv.isolated ∧ (s.heard stall seq).pv.rejoining = s.pv.rejoining := ⟨rfl, rfl⟩

@[simp] theorem acceptStanding_flags (s : State) (stall seq : Nat) (a : Announced) :
    (s.acceptStanding stall seq a).pv.isolated = s.pv.isolated ∧
      (s.acceptStanding stall seq a).pv.rejoining = s.pv.rejoining := by
  unfold State.acceptStanding
  simp

@[simp] theorem countReceived_line (s : State) :
    s.countReceived.lp.inFlight = s.lp.inFlight ∧ s.countReceived.lp.queue = s.lp.queue ∧
      s.countReceived.lp.lineIdle = s.lp.lineIdle := ⟨rfl, rfl, rfl⟩

theorem supervisor_ends (c : Instr) (s : State) (unlocked : s.sp.locked = false → s.sp.mode = .config)
    (family : ofSupervisor c = true) : Answers (exec c s) (Ends s) := by
  cases c
  case hardwareReset straps =>
    rw [exec, execHardwareReset, answers_next]
    exact .config rfl
  case value v =>
    simp only [exec, execValue]
    repeat' split
    all_goals rw [answers_next]
    · exact .undisturbed (.of_blocks rfl rfl rfl rfl rfl rfl rfl rfl rfl rfl rfl id)
    · exact .undisturbed (.of_blocks rfl rfl rfl rfl rfl rfl rfl rfl rfl rfl rfl id)
    all_goals
      next admitted _ _ _ _ =>
        exact .config (unlocked ((refusal_eq_none_iff.mp admitted).2.2.2 rfl))
  all_goals first | exact absurd family Bool.false_ne_true | simp only [exec, execSelect, execJoin, execCall, execPark,
    execWake, execRestart, execParkComplete, execRestartWaitExpiry, execStatus, execPoint, execRead, execUnknownCommand]
  all_goals
    repeat' split
    all_goals
      rw [answers_next]
      first
        | with_reducible apply Ends.finish
        | with_reducible apply Ends.respond
        | with_reducible apply Ends.refl
        | exact .undisturbed (.of_blocks rfl rfl rfl rfl rfl rfl rfl rfl rfl rfl rfl id)

theorem peers_ends (c : Instr) (s : State) (family : ofPeers c = true) : Answers (exec c s) (Ends s) := by
  cases c
  all_goals first | exact absurd family Bool.false_ne_true | simp only [exec, execStanding, execLeave, execDispatch, execCurb,
    execDuplicateStall, execBadFrame, execSweep, execLastHeardExpiry, execRejoinHoldExpiry]
  all_goals
    repeat' split
    all_goals
      rw [answers_next]
      first
        | with_reducible apply Ends.finish
        | with_reducible apply Ends.refl
        | refine .undisturbed (.of_blocks ?_ ?_ ?_ ?_ ?_ ?_ ?_ ?_ ?_ ?_ ?_ ?_)
      all_goals simp [LineTaken]

theorem line_ends (c : Instr) (s : State) (family : ofLine c = true) : Answers (exec c s) (Ends s) := by
  cases c
  all_goals first | exact absurd family Bool.false_ne_true | simp only [exec, execEchoSuccess, execLineIdle, execStandingTimer,
    execCollision, execBackoffEnd, execEchoTimer, execRepeatCopyDue]
  all_goals
    repeat' split
    all_goals
      rw [answers_next]
      first
        | with_reducible apply Ends.finish
        | with_reducible apply Ends.refl
        | with_reducible apply Ends.takeFrame
        | refine .undisturbed (.of_blocks ?_ ?_ ?_ ?_ ?_ ?_ ?_ ?_ ?_ ?_ ?_ ?_)
      all_goals simp [LineTaken, State.beginAttempt, State.setLine, State.collided, *]

theorem calls_ends (c : Instr) (s : State) (family : ofCalls c = true) : Answers (exec c s) (Ends s) := by
  cases c
  case retentionExpiry id =>
    simp only [exec, execRetentionExpiry]
    repeat' split
    all_goals rw [answers_next]
    · exact .refl s
    · next r found final =>
      refine .undisturbed { Undisturbed.refl s with calls := fun table => ?_ }
      exact callsRead_filter_final table.2.1 found final
    · exact .refl s
  case meterSample =>
    simp only [exec, execMeterSample]
    repeat' split
    all_goals rw [answers_next]
    · exact .refl s
    · exact .finish ..
    · next t _ steady =>
      have estimate : (s.ea.drained s.cc.measured).estimate = s.ea.estimate := by simpa using steady
      obtain ⟨record, departure, side, gates⟩ := drained_frame s.ea s.cc.measured
      have calls := callsRead_sampled s.cc.measured (s.reach t).share s.ct.records
      refine .undisturbed ?_
      constructor <;> simp [Sys2Proof.Safety.control, LineTaken, record, departure, side, gates, estimate, calls]
  case sensorSample x =>
    simp only [exec, execSensorSample]
    repeat' split
    all_goals rw [answers_next]
    · exact .undisturbed (.of_blocks rfl rfl rfl rfl rfl rfl rfl rfl rfl rfl rfl id)
    · exact .finish ..
    · next quiet =>
      rw [State.takeSample, judgeReading_originates, if_neg quiet]
      refine .undisturbed (.of_blocks ?_ ?_ ?_ ?_ ?_ ?_ ?_ ?_ ?_ ?_ ?_ ?_)
      all_goals simp [LineTaken]
  all_goals first | exact absurd family Bool.false_ne_true | simp only [exec, execCallTimer,
    execStartCountdownExpiry, execRemainingActiveExpiry, execDeferredExpiry, execApportionStep, execDepartureMinute,
    execCurbExpiry]
  all_goals
    repeat' split
    all_goals
      rw [answers_next]
      first
        | with_reducible apply Ends.finish
        | with_reducible apply Ends.refl

theorem converter_ends (c : Instr) (s : State) (family : ofConverter c = true) : Answers (exec c s) (Ends s) := by
  cases c
  all_goals first | exact absurd family Bool.false_ne_true | simp only [exec, execMeasStb, execFaultHigh, execPrechargeExpiry,
    execStableExpiry, execRetryExpiry, execLingerExpiry, execStopComplete, execSlewStep]
  all_goals
    repeat' split
    all_goals
      rw [answers_next]
      first
        | with_reducible apply Ends.finish
        | with_reducible apply Ends.refl
        | refine .undisturbed ?_
      all_goals constructor <;> simp_all [Sys2Proof.Safety.control, LineTaken]

theorem engageInFlight_of_flight {v w : VehicleLink} (same : w.inFlight = v.inFlight) :
    w.engageInFlight = v.engageInFlight := by
  unfold VehicleLink.engageInFlight
  rw [same]

/-- No ENGAGE is in flight from READY (R158, R150). -/
theorem engage_elsewhere {v : VehicleLink} (place : ∀ f ∈ v.inFlight, asksInPlace v f.request = true) :
    v.engageInFlight = false ∨ v.session ≠ .ready := by
  unfold VehicleLink.engageInFlight
  cases flight : v.inFlight with
  | none => simp
  | some f =>
    have asked := place f flight
    cases request : f.request
    case engage =>
      right
      rw [request] at asked
      unfold asksInPlace at asked
      rintro ready
      simp [ready] at asked
    all_goals simp [request]

theorem LinkUndisturbed.ended {v w : VehicleLink} (flight : w.inFlight = none)
    (session : w.session = v.session) (allowance : w.allowance = v.allowance) (desired : w.desired = v.desired)
    (latch : w.stopLatch = v.stopLatch) (shareZeroAt : w.shareZeroAt = v.shareZeroAt)
    (shareZeroOut : w.shareZeroOut = v.shareZeroOut) (engageHold : w.engageHoldAt = v.engageHoldAt)
    (engageDue : w.due.engage = v.due.engage) (retune : w.retuneAt.isSome = v.retuneAt.isSome)
    (plug : w.plug = v.plug) : LinkUndisturbed v w where
  session; allowance; desired; latch; shareZeroAt; shareZeroOut; engageHold; engageDue; retune
  plug := fun high => plug ▸ high
  engage := fun place => by
    have none : w.engageInFlight = false := by unfold VehicleLink.engageInFlight; rw [flight]
    rw [none]
    exact (engage_elsewhere place).imp_left Eq.symm

theorem LinkUndisturbed.kept {v w : VehicleLink} (flight : w.engageInFlight = v.engageInFlight)
    (session : w.session = v.session) (allowance : w.allowance = v.allowance) (desired : w.desired = v.desired)
    (latch : w.stopLatch = v.stopLatch) (shareZeroAt : w.shareZeroAt = v.shareZeroAt)
    (shareZeroOut : w.shareZeroOut = v.shareZeroOut) (engageHold : w.engageHoldAt = v.engageHoldAt)
    (engageDue : w.due.engage = v.due.engage) (retune : w.retuneAt.isSome = v.retuneAt.isSome)
    (plug : w.plug = true → v.plug = true) : LinkUndisturbed v w where
  session; allowance; desired; latch; shareZeroAt; shareZeroOut; engageHold; engageDue; retune; plug
  engage := fun _ => .inl flight

theorem inFlight_of_nextRequest {v : VehicleLink} {r : Request} (next : v.nextRequest = some r) : v.inFlight = none := by
  unfold VehicleLink.nextRequest at next
  split at next
  · cases next
  · next none => exact none

theorem takeRequest_undisturbed {r : Request} (next : s.vl.nextRequest = some r) (other : r ≠ .engage) :
    LinkUndisturbed s.vl (s.takeRequest r).vl := by
  have none := inFlight_of_nextRequest next
  refine .kept ?_ ?_ rfl rfl rfl rfl rfl rfl ?_ rfl id
  · simp [State.takeRequest, VehicleLink.engageInFlight, none, other]
  · simp [State.takeRequest, other]
  · cases r
    case engage => exact absurd rfl other
    all_goals rfl

theorem link_ends (c : Instr) (s : State) (family : ofLink c = true) : Answers (exec c s) (Ends s) := by
  cases c
  case pilotRequestTaken =>
    simp only [exec, execPilotRequestTaken]
    repeat' split
    all_goals rw [answers_next]
    · exact .refl s
    · exact .finish ..
    · next r next other => exact .undisturbed (.of_link (takeRequest_undisturbed next other) rfl rfl rfl rfl rfl rfl rfl rfl)
  all_goals first | exact absurd family Bool.false_ne_true | simp only [exec, execPlugHigh, execPlugLow, execWakeExpiry,
    execRequestSent, execReplyTimerExpiry, execPilotFrameDisregarded, execItem, execNotReady, State.refreshGoesOn, State.holdItem,
    execUnsupported, execIdentifyExpiry, execRequeryExpiry, execSessionRetryExpiry, execPollExpiry, execRefreshExpiry]
  all_goals
    repeat' split
    all_goals
      rw [answers_next]
      first
        | with_reducible apply Ends.finish
        | with_reducible apply Ends.refl
        | refine .undisturbed (.of_link ?_ rfl rfl rfl rfl rfl rfl rfl rfl)
    all_goals first
      | exact .ended rfl rfl rfl rfl rfl rfl rfl rfl rfl rfl rfl
      | refine .kept ?_ rfl rfl rfl rfl rfl rfl rfl rfl rfl ?_
    all_goals simp [VehicleLink.engageInFlight, *]

theorem session_ends (c : Instr) (s : State) (family : ofSession c = true) : Answers (exec c s) (Ends s) := by
  cases c
  all_goals first | exact absurd family Bool.false_ne_true | simp only [exec, execTuned, execTuningExpiry,
    execStepDelayExpiry, execSettleExpiry, execRetuneExpiry, execRetuneBegin, execEngaged, execDeclined,
    execEngageHoldExpiry, execShareZeroExpiry, execReleased, execPolled]
  all_goals
    repeat' split
    all_goals
      rw [answers_next]
      first
        | with_reducible apply Ends.finish
        | with_reducible apply Ends.refl
        | refine .undisturbed (.of_link ?_ rfl rfl rfl rfl rfl rfl rfl rfl)
    all_goals first
      | exact .ended rfl rfl rfl rfl rfl rfl rfl rfl rfl rfl rfl
      | refine .kept ?_ rfl rfl rfl rfl rfl rfl rfl rfl ?_ ?_
    all_goals simp [VehicleLink.engageInFlight, *]

/-- Every command ends so, where an unlocked part stands in CONFIG. -/
theorem exec_ends (c : Instr) (s : State) (unlocked : s.sp.locked = false → s.sp.mode = .config) :
    Answers (exec c s) (Ends s) := by
  rcases families c with f | f | f | f | f | f | f
  · exact supervisor_ends c s unlocked f
  · exact peers_ends c s f
  · exact line_ends c s f
  · exact calls_ends c s f
  · exact converter_ends c s f
  · exact link_ends c s f
  · exact session_ends c s f

end Sys2Proof.Safety
end

