-- ==== Sys2Proof/Proofs/Setpoint.lean ====
section
/-!
The invariants of Converter Control (R118 to R134): each elementary change keeps the timers and marks with the converter's
state, the setpoint within the rating and at 0 unless the converter is ON, and the converter enabled only where it may be;
and every command leaves the setpoint at 0 outside the power path.
-/
namespace Sys2Proof.Safety

open Sys2Proof Sys2Proof.Machine

/-- The converter's timers and marks stand with its state (R118 to R126). -/
def TimersAgree (c : Converter) : Prop :=
  (c.retryAt.isSome = true ↔ c.state = .retryWait) ∧ (c.stableAt.isSome = true → c.state = .on) ∧
    (c.prechargeAt.isSome = true ↔ c.state = .precharging) ∧ (c.lingerAt.isSome = true → c.state.enabled = true) ∧
    (c.stopPending = true → c.state = .on) ∧ (c.failures = 3 ↔ c.state = .convFault) ∧ c.failures ≤ 3 ∧ c.measured ≤ 1023

theorem enabled_cases (c : ConverterState) : c.enabled = true ↔ c = .precharging ∨ c = .on := by
  cases c <;> simp [ConverterState.enabled]

theorem PowerStep.timers {U : PostMode → Prop} {p q : Power} (step : PowerStep U p q) (h : TimersAgree p.cc) :
    TimersAgree q.cc := by
  obtain ⟨retry, stable, precharge, linger, stop, fault, failures, measured⟩ := h
  cases step with
  | noted note =>
    refine ⟨retry, stable, precharge, linger, stop, fault, failures, ?_⟩
    rcases note with same | few
    · exact same ▸ measured
    · exact few
  | setpoint => exact ⟨retry, stable, precharge, linger, stop, fault, failures, measured⟩
  | off enabled =>
    have running := (enabled_cases _).mp enabled
    have noRetry : p.cc.retryAt = none := by
      by_contra some'
      have := retry.mp (Option.isSome_iff_ne_none.mpr some')
      simp [this] at running
    have few : p.cc.failures ≠ 3 := fun full => by
      have := fault.mp full
      simp [this] at running
    simp [TimersAgree, converterOff, noRetry, few, failures, measured]
  | failed =>
    unfold TimersAgree converterFailed converterOff
    by_cases few : p.cc.failures < 2
    · simp [few, measured]
      omega
    · simp [few, measured]
  | precharge off =>
    have noRetry : p.cc.retryAt = none := by
      by_contra some'
      simpa [off] using retry.mp (Option.isSome_iff_ne_none.mpr some')
    have noStable : p.cc.stableAt = none := by
      by_contra some'
      simpa [off] using stable (Option.isSome_iff_ne_none.mpr some')
    have few : p.cc.failures ≠ 3 := fun full => by simpa [off] using fault.mp full
    simp [TimersAgree, noRetry, noStable, few, failures, measured, ConverterState.enabled]
  | linger runs =>
    refine ⟨retry, stable, precharge, fun timed => ?_, stop, fault, failures, measured⟩
    rcases runs with enabled | rfl
    · exact enabled
    · cases timed
  | stop pending =>
    refine ⟨retry, stable, precharge, linger, fun set => ?_, fault, failures, measured⟩
    exact (pending set).elim id stop
  | on timed =>
    have state := precharge.mp timed
    have noRetry : p.cc.retryAt = none := by
      by_contra some'
      simpa [state] using retry.mp (Option.isSome_iff_ne_none.mpr some')
    have few : p.cc.failures ≠ 3 := fun full => by simpa [state] using fault.mp full
    simp [TimersAgree, noRetry, few, failures, measured, ConverterState.enabled]
  | stable timed =>
    have on := stable timed
    have noFault : ¬p.cc.state = .convFault := by simp [on]
    exact ⟨retry, by simp, precharge, linger, stop, by simp [noFault], by simp, measured⟩
  | retried timed =>
    have waits := retry.mp timed
    have few : p.cc.failures ≠ 3 := fun full => by simpa [waits] using fault.mp full
    have noStable : p.cc.stableAt = none := by
      by_contra some'
      simpa [waits] using stable (Option.isSome_iff_ne_none.mpr some')
    have noPrecharge : p.cc.prechargeAt = none := by
      by_contra some'
      simpa [waits] using precharge.mp (Option.isSome_iff_ne_none.mpr some')
    have noLinger : p.cc.lingerAt = none := by
      by_contra some'
      simpa [waits, ConverterState.enabled] using linger (Option.isSome_iff_ne_none.mpr some')
    have noStop : p.cc.stopPending = false := by
      by_contra set
      simpa [waits] using stop (by simpa using set)
    simp [TimersAgree, noStable, noPrecharge, noLinger, noStop, few, failures, measured]
  | restarted =>
    unfold TimersAgree Converter.restarted
    cases state : p.cc.state <;> simp_all [ConverterState.enabled]
  | mode => exact ⟨retry, stable, precharge, linger, stop, fault, failures, measured⟩
  | waits => exact ⟨retry, stable, precharge, linger, stop, fault, failures, measured⟩
  | rated => exact ⟨retry, stable, precharge, linger, stop, fault, failures, measured⟩
  | reset => simp [TimersAgree, Converter.reset]

/-- The setpoint within the rating and at 0 unless the converter is ON, which is enabled only in ACTIVE and PARKING with no
restart waiting (R128, R133, R134). -/
def SetpointBounded (p : Power) : Prop :=
  p.cc.setpoint ≤ p.rating ∧ (0 < p.cc.setpoint → p.cc.state = .on) ∧
    (p.cc.state.enabled = true → Runs p.mode ∧ p.restarting = none)

theorem PowerStep.bounded {U : PostMode → Prop} {p q : Power} (step : PowerStep U p q) (timers : TimersAgree p.cc)
    (h : SetpointBounded p) (unlocked : ∀ m, U m → ¬Runs m) : SetpointBounded q := by
  obtain ⟨limit, flows, enables⟩ := h
  have still (state : p.cc.state ≠ .on) : p.cc.setpoint = 0 := by
    by_contra moving
    exact state (flows (by omega))
  cases step with
  | noted => exact ⟨limit, flows, enables⟩
  | setpoint falls =>
    rcases falls with lower | ⟨on, within⟩
    · exact ⟨lower.trans limit, fun moving => flows (by dsimp only at moving; omega), enables⟩
    · exact ⟨within, fun _ => on, enables⟩
  | off => simp [SetpointBounded, converterOff, ConverterState.enabled]
  | failed =>
    unfold SetpointBounded converterFailed converterOff
    by_cases few : p.cc.failures < 2 <;> simp [few, ConverterState.enabled]
  | precharge off active alone =>
    have zero := still (by simp [off])
    simp [SetpointBounded, zero, active, alone, Runs]
  | linger => exact ⟨limit, flows, enables⟩
  | stop => exact ⟨limit, flows, enables⟩
  | on timed =>
    have state := timers.2.2.1.mp timed
    exact ⟨limit, fun _ => rfl, fun _ => enables (by simp [state, ConverterState.enabled])⟩
  | stable => exact ⟨limit, flows, enables⟩
  | retried timed =>
    have zero := still (by simp [timers.1.mp timed])
    simp [SetpointBounded, zero, ConverterState.enabled]
  | restarted =>
    unfold SetpointBounded Converter.restarted
    cases state : p.cc.state <;> simp_all [ConverterState.enabled]
  | mode enters =>
    refine ⟨limit, flows, fun enabled => ⟨?_, (enables enabled).2⟩⟩
    obtain ⟨runs, alone⟩ := enables enabled
    rcases enters with runs' | off | stands | waits
    · exact runs'
    · simp [off] at enabled
    · exact absurd runs stands
    · exact absurd alone waits
  | waits ends =>
    refine ⟨limit, flows, fun enabled => ⟨(enables enabled).1, ?_⟩⟩
    rcases ends with none | off | waiting
    · exact none
    · simp [off] at enabled
    · exact absurd (enables enabled).2 waiting
  | rated free =>
    have off : p.cc.state.enabled ≠ true := fun enabled => unlocked _ free (enables enabled).1
    have zero := still fun on => off (by simp [on, ConverterState.enabled])
    exact ⟨by simp [zero], flows, enables⟩
  | reset => simp [SetpointBounded, Converter.reset, ConverterState.enabled]

theorem PowerSteps.bounded {U : PostMode → Prop} {s t : State} (h : PowerSteps U s t) (timers : TimersAgree s.cc)
    (bounded : SetpointBounded (powerOf s)) (unlocked : ∀ m, U m → ¬Runs m) :
    TimersAgree t.cc ∧ SetpointBounded (powerOf t) := by
  change TimersAgree (powerOf t).cc ∧ _
  unfold PowerSteps at h
  generalize powerOf t = q at h ⊢
  induction h with
  | refl => exact ⟨timers, bounded⟩
  | tail _ step ih => exact ⟨step.timers ih.1, step.bounded ih.1 ih.2 unlocked⟩

/-! ### The setpoint outside EXPORTING -/

/-- The setpoint stands above 0 only while the session is EXPORTING (R128). -/
def FlowsExporting (s : State) : Prop := 0 < s.cc.setpoint → s.vl.session = .exporting

theorem finish_flows {u : State} (joined : u.sp.mode ≠ .config) : FlowsExporting u.finish := by
  unfold FlowsExporting State.finish State.joined
  rw [if_pos (by simpa using joined), State.takeFrame_cc, State.takeFrame_vl, holdSetpoint_eq]
  dsimp only
  split
  · next path =>
    simp only [State.powerPath, Bool.and_eq_true, beq_iff_eq] at path
    exact fun _ => path.2
  · simp

theorem Ends.flows {s t : State} (ends : Ends s t) (h : FlowsExporting s) : t.sp.mode = .config ∨ FlowsExporting t := by
  cases ends with
  | config unjoined => exact .inl unjoined
  | finished u joined => exact .inr (finish_flows joined)
  | responded u r d joined => exact .inr (finish_flows joined)
  | undisturbed same =>
    have session : t.vl.session = s.vl.session := congrArg (·.2.1) same.control
    refine .inr fun moving => ?_
    rw [same.setpoint] at moving
    rw [session]
    exact h moving

/-! ### What every step keeps (O56) -/

theorem converterTimers_kept : KeptBy (fun _ => True) ConverterTimers where
  command c s _ h := (exec_power c s).imp fun t steps => by
    change TimersAgree (powerOf t).cc
    unfold PowerSteps at steps
    generalize powerOf t = q at steps ⊢
    induction steps with
    | refl => exact h
    | tail _ step ih => exact step.timers ih
  clock _ _ _ h := h
  levels _ _ _ h := h
  alone _ _ := trivial

theorem setpoint_iff {s : State} : Setpoint s ↔ SetpointBounded (powerOf s) ∧ FlowsExporting s ∧
    (s.cc.state = .precharging ↔ s.cc.prechargeAt.isSome = true) ∧ (s.sp.locked = false → s.sp.mode = .config) := by
  unfold Setpoint SetpointBounded powerOf FlowsExporting Runs
  dsimp only
  constructor
  · rintro ⟨limit, flows, mode, waits, timed, unlocked⟩
    exact ⟨⟨limit, fun moving => (flows moving).1, fun enabled => ⟨mode enabled, waits enabled⟩⟩,
      fun moving => (flows moving).2, timed, unlocked⟩
  · rintro ⟨⟨limit, on, enables⟩, exporting, timed, unlocked⟩
    exact ⟨limit, fun moving => ⟨on moving, exporting moving⟩, fun enabled => (enables enabled).1,
      fun enabled => (enables enabled).2, timed, unlocked⟩

theorem setpoint_kept : KeptBy (fun _ => True) fun s => ModeControl s ∧ ConverterTimers s ∧ Setpoint s where
  command c s _ h := by
    obtain ⟨control, timers, setpoint⟩ := h
    obtain ⟨bounded, flows, -, unlocked⟩ := setpoint_iff.mp setpoint
    have idle (m : PostMode) (free : Unlocked s m) : ¬Runs m := by
      rw [free.2, unlocked free.1]
      simp [Runs]
    obtain ⟨t, e, steps⟩ := exec_power c s
    obtain ⟨timers', bounded'⟩ := steps.bounded timers bounded idle
    have control' := (exec_modeControl c s control).of_next e
    have locked' (open' : t.sp.locked = false) : t.sp.mode = .config := by
      by_contra joined
      simpa [open'] using control'.1.mpr joined
    have flows' : FlowsExporting t := by
      rcases ((exec_ends c s unlocked).of_next e).flows flows with unjoined | flows'
      · intro moving
        have on := bounded'.2.1 moving
        have runs := (bounded'.2.2 (by simp [powerOf] at on; simp [powerOf, on, ConverterState.enabled])).1
        simp [powerOf, unjoined, Runs] at runs
      · exact flows'
    exact ⟨t, e, control', timers', setpoint_iff.mpr ⟨bounded', flows', timers'.2.2.1.symm, locked'⟩⟩
  clock _ _ _ h := h
  levels _ _ _ h := h
  alone _ _ := trivial

/-- Settles O56: the changes of the converter are elementary ones (`exec_power`), and a command ends with the setpoint at 0
outside the power path (`exec_ends`). -/
theorem stepKeepsTheSetpointBounded : Obligations.StepKeepsTheSetpointBounded :=
  ⟨fun _ _ => step_keeps_always setpoint_kept, fun _ _ => step_keeps_always converterTimers_kept⟩

end Sys2Proof.Safety
end

