-- ==== Sys2Proof/Proofs/Quiescence.lean ====
section
/-!
Why nothing follows a settled state (R73, R76, R119, R126, R129, R137, R157, R158, R160, R172, R174): a round of the
reactions that keeps the mode, the session and the converter's state leaves no reaction open, of five rounds one does, and
where none is open a round changes nothing.
-/
namespace Sys2Proof.Safety

open Sys2Proof Sys2Proof.Machine

variable {s t u : State}

/-! ### The conditions of the reactions -/

theorem stopReady_iff : s.stopReady = true ↔ s.cc.state = .on ∧ s.cc.stopPending = true ∧ s.cc.setpoint = 0 ∧
    s.vl.session ≠ .engaging ∧ s.vl.session ≠ .exporting ∧ s.vl.session ≠ .releasing := by
  unfold State.stopReady SessionState.holdsStop
  cases s.vl.session <;> simp [and_assoc]

theorem releaseWanted_iff : s.releaseWanted = true ↔ s.vl.session = .exporting ∧ s.cc.setpoint = 0 ∧
    (s.vl.shareZeroOut = true ∨ s.cc.stopPending = true ∨ s.cc.state ≠ .on ∨ s.vl.stopLatch = true) := by
  unfold State.releaseWanted
  simp [and_assoc, or_assoc]

theorem parkReady_iff : s.parkReady = true ↔ s.sp.mode = .parking ∧ s.cc.setpoint = 0 ∧ s.cc.state.enabled = false ∧
    s.vl.session.holdsPark = false ∧ s.sp.restarting = none := by
  unfold State.parkReady
  simp [and_assoc]

theorem engageWanted_iff : s.engageWanted = true ↔ s.vl.session = .ready ∧ s.cc.state = .on ∧ 0 < s.share ∧
    s.cc.stopPending = false ∧ s.vl.engageHoldAt = none := by
  unfold State.engageWanted
  simp [and_assoc]

theorem retunable_iff (x : SessionState) :
    x.retunable = true ↔ x = .ready ∨ x = .engaging ∨ x = .exporting ∨ x = .releasing := by
  cases x <;> simp [SessionState.retunable]

/-! ### What a reaction leaves of the readings -/

theorem holdSetpoint_sameView (s : State) : SameView s s.holdSetpoint := by
  rw [holdSetpoint_eq]
  constructor <;> first | rfl | exact .inl rfl

theorem noticeTest_sameView (s : State) : SameView s s.noticeTest := by
  rw [noticeTest_eq]
  constructor <;> first | rfl | exact .inl rfl

theorem gateNotice_sameView (s : State) : SameView s s.gateNotice := by
  rw [gateNotice_eq]
  constructor
  case records =>
    dsimp only
    split
    · exact .inl rfl
    · exact .inr rfl
  all_goals rfl

theorem shareZeroTest_sameView (s : State) : SameView s s.shareZeroTest := by
  rw [shareZeroTest_eq]
  constructor <;> first | rfl | exact .inl rfl

theorem startTest_sameView (same : control s.startTest = control s) : SameView s s.startTest := by
  have control' := same
  rw [startTest_eq] at same ⊢
  constructor <;> first | exact same | rfl | exact .inl rfl

theorem engageTest_sameView (s : State) : SameView s s.engageTest := by
  rw [engageTest_eq]
  constructor <;> first | rfl | exact .inl rfl

theorem retuneTest_sameView (s : State) : SameView s s.retuneTest := by
  rw [retuneTest_eq]
  constructor <;> first | rfl | exact .inl rfl

/-! ### A round that keeps the control -/

/-- The first reactions of a round, which change no control (R129, R76, R73, R160). -/
def readied (s : State) : State := s.holdSetpoint.noticeTest.gateNotice.shareZeroTest

/-- The reactions of a round but for those that change the control. -/
def steadied (s : State) : State := (readied s).startTest.engageTest.retuneTest

/-- What stands in a round that keeps the control. -/
structure SteadyRound (s : State) : Prop where
  react : s.react = steadied s
  stop : (readied s).stopReady = false
  release : (readied s).releaseWanted = false
  start : control (readied s).startTest = control (readied s)
  park : (steadied s).parkReady = false
  wake : ¬((steadied s).sp.mode = .dormant ∧ (steadied s).vl.plug = true ∧ (steadied s).sp.restarting = none)
  plug : ¬((steadied s).linkRuns = true ∧ (steadied s).vl.plug = true ∧ (steadied s).vl.session = .absent)

/-- A reaction that keeps the rank keeps the control. -/
theorem stopTest_steady (same : control s.stopTest = control s) : s.stopReady = false ∧ s.stopTest = s := by
  cases ready : s.stopReady
  · exact ⟨rfl, by rw [stopTest_eq, ready]; rfl⟩
  · have on := stopReady_on ready
    simp [stopTest_eq, ready, control, converterOff, on] at same

theorem releaseTest_steady (same : control s.releaseTest = control s) : s.releaseWanted = false ∧ s.releaseTest = s := by
  cases wanted : s.releaseWanted
  · exact ⟨rfl, by rw [releaseTest_eq, wanted]; simp⟩
  · simp only [releaseTest_eq, wanted, control] at same
    simp [State.releaseWanted] at wanted
    simp [wanted] at same

theorem parkTest_steady (same : control s.parkTest = control s) : s.parkReady = false ∧ s.parkTest = s := by
  cases ready : s.parkReady
  · exact ⟨rfl, by rw [parkTest_eq, ready]; rfl⟩
  · have parking : s.sp.mode = .parking := by
      simp only [State.parkReady, Bool.and_eq_true, beq_iff_eq] at ready
      exact ready.1.1.1.1
    have leaves : (if s.vl.plug then PostMode.hold else PostMode.dormant) = .parking := by
      simpa [parkTest_eq, ready, control, setMode_eq, parking] using same
    cases plug : s.vl.plug <;> simp [plug] at leaves

theorem plugWake_steady (same : control s.plugWake = control s) :
    ¬(s.sp.mode = .dormant ∧ s.vl.plug = true ∧ s.sp.restarting = none) ∧ s.plugWake = s := by
  unfold State.plugWake at same ⊢
  split at same
  · next wakes => simp [control, setMode_eq, wakes.1] at same
  · next sleeps => exact ⟨sleeps, by rw [if_neg sleeps]⟩

theorem meetPlug_steady (same : control s.meetPlug = control s) :
    ¬(s.linkRuns = true ∧ s.vl.plug = true ∧ s.vl.session = .absent) ∧ s.meetPlug = s := by
  rw [meetPlug_eq] at same ⊢
  split at same
  · next met => simp [control, met.2.2] at same
  · next unmet => exact ⟨unmet, by rw [if_neg unmet]⟩

theorem steadyRound_of_control (same : control s.react = control s) : SteadyRound s := by
  have first : Descends s (readied s) :=
    (((descends_holdSetpoint s).trans (descends_noticeTest _)).trans (descends_gateNotice _)).trans
      (descends_shareZeroTest _)
  have afterStart (t : State) : Descends t.startTest t.startTest.engageTest.retuneTest :=
    (descends_engageTest _).trans (descends_retuneTest _)
  have last (t : State) : Descends t t.parkTest.plugWake.meetPlug :=
    ((descends_parkTest _).trans (descends_plugWake _)).trans (descends_meetPlug _)
  have whole : s.react = (((readied s).stopTest.releaseTest.startTest.engageTest.retuneTest.parkTest.plugWake).meetPlug) := rfl
  have rest (t : State) : Descends t t.startTest.engageTest.retuneTest.parkTest.plugWake.meetPlug :=
    ((descends_startTest t).trans (afterStart t)).trans (last _)
  rw [whole] at same
  obtain ⟨first', same⟩ := first.between (((descends_stopTest _).trans (descends_releaseTest _)).trans (rest _)) same
  obtain ⟨stop', same⟩ := (descends_stopTest _).between ((descends_releaseTest _).trans (rest _)) same
  obtain ⟨stop, stopped⟩ := stopTest_steady stop'
  rw [stopped] at same whole
  obtain ⟨release', same⟩ := (descends_releaseTest _).between (rest _) same
  obtain ⟨release, released⟩ := releaseTest_steady release'
  rw [released] at same whole
  obtain ⟨start, same⟩ := (descends_startTest _).between ((afterStart _).trans (last _)) same
  obtain ⟨timers, same⟩ := (afterStart _).between (last _) same
  obtain ⟨park', same⟩ := (descends_parkTest _).between ((descends_plugWake _).trans (descends_meetPlug _)) same
  obtain ⟨park, parked⟩ := parkTest_steady park'
  rw [parked] at same whole
  obtain ⟨wake', same⟩ := (descends_plugWake _).between (descends_meetPlug _) same
  obtain ⟨wake, woken⟩ := plugWake_steady wake'
  rw [woken] at same whole
  obtain ⟨plug, met⟩ := meetPlug_steady same
  rw [met] at whole
  exact ⟨whole, stop, release, start, park, wake, plug⟩

theorem readied_sameView (s : State) : SameView s (readied s) :=
  (((holdSetpoint_sameView s).trans (noticeTest_sameView _)).trans (gateNotice_sameView _)).trans
    (shareZeroTest_sameView _)

theorem SteadyRound.sameView (round : SteadyRound s) : SameView (readied s) (steadied s) :=
  ((startTest_sameView round.start).trans (engageTest_sameView _)).trans (retuneTest_sameView _)

/-- The evaluation of the start request where it keeps the converter's state (R119, R125, R126). -/
theorem startedConverter_steady (same : control t.startTest = control t) :
    (t.startRequest = true → t.cc.state ≠ .off) ∧ ∃ linger pending,
      startedConverter t = { t.cc with startHeld := t.startRequest, lingerAt := linger, stopPending := pending } ∧
        (pending = true → t.cc.stopPending = true) ∧
        (t.startRequest = true → t.cc.state.enabled = true → linger = none) := by
  rw [startTest_eq] at same
  have state : (startedConverter t).state = t.cc.state := congrArg (·.2.2) same
  unfold startedConverter at state ⊢
  cases held : t.cc.state
  case off =>
    simp only [held] at state ⊢
    cases request : t.startRequest
    · exact ⟨by simp, t.cc.lingerAt, t.cc.stopPending, rfl, id, by simp⟩
    · cases fault : t.cc.fault
      · simp [request, fault] at state
      · by_cases few : t.cc.failures < 2 <;> simp [request, fault, converterFailed, few] at state
  case precharging =>
    exact ⟨by simp, _, _, rfl, by simp, fun request _ => by simp [request]⟩
  case on =>
    exact ⟨by simp, _, _, rfl, by simp; tauto, fun request _ => by simp [request]⟩
  all_goals exact ⟨by simp, t.cc.lingerAt, t.cc.stopPending, rfl, id, by simp [ConverterState.enabled]⟩

/-! ### What stands at the end of such a round -/

theorem readied_setpoint (s : State) : s.powerPath = true ∨ (readied s).cc.setpoint = 0 := by
  simp only [readied, shareZeroTest_eq, gateNotice_eq, noticeTest_eq, holdSetpoint_eq]
  split
  · next path => exact .inl path
  · exact .inr rfl

theorem readied_side (s : State) : (readied s).ea.side = .noRecord ∨
    (readied s).ea.side = noticeSideOf s.energy s.sp.config.energyNotice := by
  have view := holdSetpoint_sameView s
  simp only [readied, shareZeroTest_eq, gateNotice_eq, noticeTest_eq, view.energy, view.config]
  split
  · exact .inl rfl
  · exact .inr rfl

theorem readied_gates (s : State) : (readied s).ea.gates = s.gateView := by
  have view := (holdSetpoint_sameView s).trans (noticeTest_sameView _)
  simp only [readied, shareZeroTest_eq, gateNotice_eq]
  exact view.gateView

theorem readied_shareZero (s : State) : (readied s).vl.session = .exporting ∧ (readied s).share = 0 ↔
    (readied s).vl.shareZeroAt.isSome = true ∨ (readied s).vl.shareZeroOut = true := by
  unfold readied
  generalize s.holdSetpoint.noticeTest.gateNotice = t
  have share : t.shareZeroTest.share = t.share := (shareZeroTest_sameView t).share (by rw [shareZeroTest_eq])
  rw [share, shareZeroTest_eq]
  by_cases waits : t.vl.session = .exporting ∧ t.share = 0
  · cases t.vl.shareZeroAt <;> cases t.vl.shareZeroOut <;> simp [waits]
  · simp [waits]

theorem tested_engage (t : State) : let w := t.engageTest.retuneTest
    (w.vl.due.engage = true ↔ w.vl.session = .ready ∧ w.cc.state = .on ∧ 0 < w.share ∧ w.cc.stopPending = false ∧
      w.vl.engageHoldAt = none ∧ w.vl.engageInFlight = false) := by
  have share : t.engageTest.retuneTest.share = t.share :=
    ((engageTest_sameView t).trans (retuneTest_sameView _)).share (by rw [retuneTest_eq, engageTest_eq])
  dsimp only
  rw [share, retuneTest_eq, engageTest_eq]
  simp [State.engageWanted, VehicleLink.engageInFlight, and_assoc]

theorem tested_retune (t : State) : let w := t.retuneTest
    (w.vl.retuneAt.isSome = true ↔ (w.vl.session = .ready ∨ w.vl.session = .engaging ∨
      w.vl.session = .exporting ∨ w.vl.session = .releasing) ∧ w.vl.allowance < w.vl.desired) := by
  dsimp only
  rw [retuneTest_eq, ← retunable_iff]
  dsimp only
  split
  · next runs =>
    simp only [runs, and_self, iff_true]
    split <;> simp [*]
  · next stands => simpa using stands

/-- A round that keeps the control leaves no reaction open. -/
theorem SteadyRound.quiet (round : SteadyRound s) (joined : s.sp.mode ≠ .config) : Quiet (steadied s) := by
  have late := round.sameView
  have view := (readied_sameView s).trans late
  obtain ⟨request, linger, pending, started, withdrawn, stops⟩ := startedConverter_steady round.start
  have cc : (steadied s).cc = { (readied s).cc with
      startHeld := (readied s).startRequest, lingerAt := linger, stopPending := pending } := by
    simp only [steadied, retuneTest_eq, engageTest_eq, startTest_eq, started]
  have ea : (steadied s).ea = (readied s).ea := by simp only [steadied, retuneTest_eq, engageTest_eq, startTest_eq]
  have share : (steadied s).share = (readied s).share :=
    late.share (by simp only [steadied, retuneTest_eq, engageTest_eq, startTest_eq])
  have timer : (steadied s).vl.shareZeroAt = (readied s).vl.shareZeroAt ∧
      (steadied s).vl.shareZeroOut = (readied s).vl.shareZeroOut := by
    simp only [steadied, retuneTest_eq, engageTest_eq, startTest_eq, and_self]
  exact
    { setpoint := by
        have path : (steadied s).powerPath = s.powerPath := by
          unfold State.powerPath
          rw [view.session, view.converter]
        rw [path, cc]
        exact readied_setpoint s
      notice := by
        rw [ea, view.energy, view.config]
        exact readied_side s
      gates := by
        rw [ea, view.gateView]
        exact readied_gates s
      shareZero := by
        rw [late.session, share, timer.1, timer.2]
        exact readied_shareZero s
      stop := by
        have test := round.stop
        rintro ⟨on, set, zero, engaging, exporting, releasing⟩
        rw [cc] at on set zero
        rw [late.session] at engaging exporting releasing
        simp only [State.stopReady, show (readied s).cc.state = .on from on, withdrawn set, show (readied s).cc.setpoint = 0 from zero] at test
        cases session : (readied s).vl.session <;> simp_all [SessionState.holdsStop]
      release := by
        have test := round.release
        rintro ⟨exporting, zero, reason⟩
        rw [late.session] at exporting
        rw [late.latch, late.converter, timer.2, cc] at reason
        rw [cc] at zero
        simp only [State.releaseWanted, exporting, show (readied s).cc.setpoint = 0 from zero] at test
        rcases reason with out | set | off | latched
        · simp [out] at test
        · simp [withdrawn set] at test
        · simp [off] at test
        · simp [latched] at test
      held := by
        rw [late.startRequest, cc]
      start := by
        rw [late.startRequest, late.converter, cc]
        exact fun holds => ⟨request holds, fun enabled => stops holds ((enabled_cases _).mpr enabled)⟩
      engage := tested_engage _
      retune := tested_retune _
      park := by
        have test := round.park
        rintro ⟨parking, zero, off, free, alone⟩
        simp [State.parkReady, parking, zero, off, free, alone] at test
      wake := round.wake
      plug := fun high awake absent => round.plug ⟨by simp [State.linkRuns, State.joined, awake, view.mode ▸ joined], high, absent⟩ }

/-! ### Where no reaction is open -/

theorem converter_same {c : Converter} {held pending : Bool} {linger : Timer} (held' : held = c.startHeld)
    (linger' : linger = c.lingerAt) (pending' : pending = c.stopPending) :
    { c with startHeld := held, lingerAt := linger, stopPending := pending } = c := by
  subst held' linger' pending'
  rfl

/-- The start request has been evaluated and has come about (R119, R120, R125). -/
theorem startedConverter_idle (held : s.cc.startHeld = s.startRequest)
    (start : s.startRequest = true → s.cc.state ≠ .off ∧
      (s.cc.state = .precharging ∨ s.cc.state = .on → s.cc.lingerAt = none)) : startedConverter s = s.cc := by
  have same : { s.cc with startHeld := s.startRequest } = s.cc := by rw [← held]
  have running (enabled : s.cc.state = .precharging ∨ s.cc.state = .on) :
      (if s.startRequest then none else if s.cc.startHeld then some (s.now + 30000) else s.cc.lingerAt) = s.cc.lingerAt := by
    rw [held]
    cases request : s.startRequest
    · rfl
    · exact ((start request).2 enabled).symm
  have pending (b : Bool) : (s.cc.stopPending && !(s.startRequest && b && !s.cc.startHeld)) = s.cc.stopPending := by
    rw [held]
    cases s.startRequest <;> simp
  unfold startedConverter
  cases state : s.cc.state
  case off =>
    have waits : s.startRequest = false := by
      by_contra request
      exact (start (by simpa using request)).1 state
    rw [waits] at same ⊢
    exact same
  case precharging => exact converter_same held.symm (running (.inl state)) (pending _)
  case on => exact converter_same held.symm (running (.inr state)) (pending _)
  all_goals exact same

/-- Where no reaction is open a round changes nothing. -/
theorem Quiet.react_eq (h : Quiet s) : s.react = s := by
  have hold : s.holdSetpoint = s := by
    rw [holdSetpoint_eq]
    rcases h.setpoint with path | zero
    · rw [if_pos path]
    · rw [zero, ite_self, ← zero]
  have notice : s.noticeTest = s := by
    unfold State.noticeTest
    split
    · next above below => rcases h.notice with none | stands <;> simp_all [noticeSideOf]
    · next below above => rcases h.notice with none | stands <;> simp_all [noticeSideOf]
    · rfl
  have gates : s.gateNotice = s := by
    unfold State.gateNotice
    rw [if_pos h.gates.symm]
  have shareZero : s.shareZeroTest = s := by
    unfold State.shareZeroTest
    by_cases waits : s.vl.session = .exporting ∧ s.share = 0
    · rw [if_pos waits, if_pos (by simpa using h.shareZero.mp waits)]
    · rw [if_neg waits]
      have stopped := mt h.shareZero.mpr waits
      simp only [not_or, Bool.not_eq_true, Option.isSome_eq_false_iff, Option.isNone_iff_eq_none] at stopped
      obtain ⟨timer, out⟩ := stopped
      rw [← timer, ← out]
      rfl
  have stop : s.stopTest = s := by
    unfold State.stopTest
    rw [if_neg fun ready => h.stop (stopReady_iff.mp ready)]
  have release : s.releaseTest = s := by
    unfold State.releaseTest
    rw [if_neg fun wanted => h.release (releaseWanted_iff.mp wanted)]
  have start : s.startTest = s := by
    rw [startTest_eq, startedConverter_idle h.held h.start, startEvents, if_neg]
    rintro ⟨off, request, -⟩
    exact (h.start request).1 off
  have engage : s.engageTest = s := by
    have due : (s.engageWanted && !s.vl.engageInFlight) = s.vl.due.engage := by
      rw [Bool.eq_iff_iff, h.engage]
      simp [State.engageWanted, and_assoc]
    rw [engageTest_eq, due]
  have retune : s.retuneTest = s := by
    have test := h.retune
    rw [← retunable_iff] at test
    have timer : (if s.vl.session.retunable = true ∧ s.vl.allowance < s.vl.desired then
        if s.vl.retuneAt.isSome then s.vl.retuneAt else some (s.now + 60000) else none) = s.vl.retuneAt := by
      split
      · next runs => rw [if_pos (test.mpr runs)]
      · next stands => exact (Option.not_isSome_iff_eq_none.mp (mt test.mp stands)).symm
    rw [retuneTest_eq, timer]
  have park : s.parkTest = s := by
    unfold State.parkTest
    rw [if_neg fun ready => h.park (parkReady_iff.mp ready)]
  have wake : s.plugWake = s := by
    unfold State.plugWake
    rw [if_neg h.wake]
  have plug : s.meetPlug = s := by
    rw [meetPlug_eq, if_neg]
    rintro ⟨runs, high, absent⟩
    simp only [State.linkRuns, Bool.and_eq_true, bne_iff_ne] at runs
    exact h.plug high runs.2 absent
  unfold State.react
  rw [hold, notice, gates, shareZero, stop, release, start, engage, retune, park, wake, plug]

/-! ### What keeps a state quiet -/

theorem timeBase_of_calls (calls : callsRead t.ct.records = callsRead s.ct.records) : t.timeBase = s.timeBase := by
  obtain ⟨call, nearest⟩ := Prod.mk.inj calls
  unfold State.timeBase State.call
  rw [nearest]
  revert call
  cases callInForce t.ct.records <;> cases callInForce s.ct.records <;> simp_all

section
variable (same : Undisturbed s t) (calls : callsRead t.ct.records = callsRead s.ct.records)
include same

theorem Undisturbed.mode : t.sp.mode = s.sp.mode := congrArg (·.1) same.control
theorem Undisturbed.session : t.vl.session = s.vl.session := congrArg (·.2.1) same.control
theorem Undisturbed.converter : t.cc.state = s.cc.state := congrArg (·.2.2) same.control

theorem Undisturbed.energy : t.energy = s.energy := by
  unfold State.energy State.reserveFloor
  rw [same.record, same.estimate, same.config]

theorem Undisturbed.gateHolds (g : Gate) : t.gateHolds g = s.gateHolds g := by
  unfold State.gateHolds
  rw [same.mode, same.session, same.converter, same.allowance, same.config, same.departure, same.record, same.energy,
    same.isolated, same.rejoining, same.cut, same.latch]

theorem Undisturbed.gateView : t.gateView = s.gateView := by
  unfold State.gateView
  simp only [same.gateHolds, same.mode, same.isolated, same.rejoining, same.cut]

include calls

theorem Undisturbed.share : t.share = s.share := by
  have holds : t.gateHolds = s.gateHolds := funext same.gateHolds
  unfold State.share State.offer State.gated State.offerLimit State.energyPower
  rw [holds, same.result, same.config, same.allowance, same.energy, timeBase_of_calls calls]

theorem Undisturbed.startRequest : t.startRequest = s.startRequest := by
  obtain ⟨call, nearest⟩ := Prod.mk.inj calls
  have holds : t.gateHolds = s.gateHolds := funext same.gateHolds
  have stands : t.call.isSome = s.call.isSome := by
    simpa [State.call] using congrArg Option.isSome call
  unfold State.startRequest State.gatedForStart State.callInView
  rw [holds, same.mode, same.session, same.waits, same.config, stands, nearest]

/-- Where all that the reactions read stands as it did, none is open that was not. -/
theorem Undisturbed.quiet (engage : t.vl.engageInFlight = s.vl.engageInFlight ∨ s.vl.session ≠ .ready)
    (h : Quiet s) : Quiet t where
  setpoint := by
    unfold State.powerPath
    rw [same.converter, same.session, same.setpoint]
    exact h.setpoint
  notice := by
    rw [same.side, same.config, same.energy]
    exact h.notice
  gates := by
    rw [same.gates, same.gateView]
    exact h.gates
  shareZero := by
    rw [same.session, same.share calls, same.shareZeroAt, same.shareZeroOut]
    exact h.shareZero
  stop := by
    rw [same.converter, same.stop, same.setpoint, same.session]
    exact h.stop
  release := by
    rw [same.session, same.setpoint, same.shareZeroOut, same.stop, same.converter, same.latch]
    exact h.release
  held := by
    rw [same.held, same.startRequest calls]
    exact h.held
  start := by
    rw [same.startRequest calls, same.converter, same.linger]
    exact h.start
  engage := by
    rw [same.engageDue, same.session, same.converter, same.share calls, same.stop, same.engageHold]
    rcases engage with flight | elsewhere
    · rw [flight]
      exact h.engage
    · rw [h.engage]
      simp [elsewhere]
  retune := by
    rw [same.retune, same.session, same.allowance, same.desired]
    exact h.retune
  park := by
    rw [same.mode, same.setpoint, same.converter, same.session, same.waits]
    exact h.park
  wake := by
    rw [same.mode, same.waits]
    exact fun ⟨dormant, high, alone⟩ => h.wake ⟨dormant, same.plug high, alone⟩
  plug := by
    rw [same.mode, same.session]
    exact fun high => h.plug (same.plug high)

end

theorem Quiet.takeFrame (h : Quiet s) (joined : s.sp.mode ≠ .config) : Quiet s.takeFrame :=
  Undisturbed.quiet (.of_blocks (by simp) (by simp) (by simp) (by simp) (by simp) (by simp) (by simp) (by simp) (by simp)
    (by simp) (by simp) fun _ => takeFrame_taken joined) (by simp) (.inl (by simp)) h

/-! ### Five rounds suffice -/

theorem rank_le (s : State) : rank s ≤ 4 := by
  have mode : modeRank s.sp.mode s.vl.plug ≤ 1 := by
    cases s.sp.mode <;> cases s.vl.plug <;> decide
  have session : sessionRank s.vl.session ≤ 1 := by
    cases s.vl.session <;> decide
  have converter : converterRank s.cc.state ≤ 2 := by
    cases s.cc.state <;> decide
  unfold rank
  omega

theorem react_descends (s : State) : Descends s s.react :=
  (((((((((((descends_holdSetpoint s).trans (descends_noticeTest _)).trans (descends_gateNotice _)).trans
    (descends_shareZeroTest _)).trans (descends_stopTest _)).trans (descends_releaseTest _)).trans
    (descends_startTest _)).trans (descends_engageTest _)).trans (descends_retuneTest _)).trans
    (descends_parkTest _)).trans (descends_plugWake _)).trans (descends_meetPlug _)

theorem Moves.joined (h : Moves s t) (joined : s.sp.mode ≠ .config) : t.sp.mode ≠ .config := by
  rcases h.mode with same | ⟨-, ⟨-, hold | ⟨dormant, -⟩⟩ | ⟨-, -, active⟩⟩
  · rwa [same]
  · simp [hold]
  · simp [dormant]
  · simp [active]

theorem iterate_react_quiet (n : Nat) (s : State) (joined : s.sp.mode ≠ .config) (few : rank s < n) :
    Quiet (State.react^[n] s) := by
  induction n generalizing s with
  | zero => exact absurd few (Nat.not_lt_zero _)
  | succ n ih =>
    rw [Function.iterate_succ_apply]
    rcases (react_descends s).2 with same | fewer
    · have round := steadyRound_of_control same
      have quiet := round.quiet joined
      rw [round.react, Function.iterate_fixed quiet.react_eq]
      exact quiet
    · exact ih s.react ((react_moves s).joined joined) (by omega)

theorem settle_quiet (joined : s.sp.mode ≠ .config) : Quiet s.settle := by
  have quiet := iterate_react_quiet 5 s joined (Nat.lt_succ_of_le (rank_le s))
  simp only [Function.iterate_succ_apply, Function.iterate_zero_apply] at quiet
  exact quiet

theorem Quiet.holdSetpoint_eq (h : Quiet s) : s.holdSetpoint = s := by
  unfold State.holdSetpoint
  rcases h.setpoint with path | zero
  · rw [if_pos path]
  · split
    · rfl
    · rw [← zero]
      rfl

/-- The end of a command's handling leaves no reaction open, and no frame waiting beside an idle line. -/
theorem finish_settled (joined : s.sp.mode ≠ .config) : Settled s.finish := by
  have quiet := settle_quiet joined
  have joined' := (settle_moves s).joined joined
  unfold State.finish State.joined
  rw [if_pos (by simpa using joined), quiet.holdSetpoint_eq]
  exact ⟨quiet.takeFrame joined', takeFrame_taken joined'⟩

end Sys2Proof.Safety
end

