-- ==== Sys2Proof/Proofs/Reactions.lean ====
section
/-!
What each at-once reaction makes of a state, under its condition and without it (O50).
-/
namespace Sys2Proof.Safety

open Sys2Proof Sys2Proof.Machine

variable {s : State}

/-! ### The setpoint, the comparator and the gates -/

theorem powerPath_iff : s.powerPath = true ↔ s.cc.state = .on ∧ s.vl.session = .exporting := by
  simp [State.powerPath]

theorem holdSetpoint_of_path (path : s.cc.state = .on ∧ s.vl.session = .exporting) : s.holdSetpoint = s := by
  unfold State.holdSetpoint
  rw [if_pos (powerPath_iff.mpr path)]

theorem holdSetpoint_outside (path : ¬(s.cc.state = .on ∧ s.vl.session = .exporting)) :
    s.holdSetpoint = { s with cc := { s.cc with setpoint := 0 } } := by
  unfold State.holdSetpoint
  rw [if_neg (mt powerPath_iff.mp path)]
  rfl

theorem noticeSideOf_below {e n : Nat} (low : e < n) : noticeSideOf e n = .below := if_neg (by omega)
theorem noticeSideOf_above {e n : Nat} (high : n ≤ e) : noticeSideOf e n = .above := if_pos high

theorem noticeTest_falls (side : s.ea.side = .above) (low : s.energy < s.sp.config.energyNotice) :
    s.noticeTest = { s with
      ea := { s.ea with side := .below }
      sp := { s.sp with events := s.sp.events.raise .energyLow } } := by
  simp [noticeTest_eq, noticeEvents, side, noticeSideOf_below low]

theorem noticeTest_rises (side : s.ea.side = .below) (high : s.sp.config.energyNotice ≤ s.energy) :
    s.noticeTest = { s with
      ea := { s.ea with side := .above }
      sp := { s.sp with events := s.sp.events.raise .energyRestored } } := by
  simp [noticeTest_eq, noticeEvents, side, noticeSideOf_above high]

theorem noticeTest_stays (stands : s.ea.side = .noRecord ∨ (s.ea.side = .above ∧ s.sp.config.energyNotice ≤ s.energy) ∨
    (s.ea.side = .below ∧ s.energy < s.sp.config.energyNotice)) : s.noticeTest = s := by
  unfold State.noticeTest
  rcases stands with none | ⟨above, high⟩ | ⟨below, low⟩
  · rw [none]
  · rw [above, noticeSideOf_above high]
  · rw [below, noticeSideOf_below low]

/-! ### The timers and decisions -/

theorem shareZeroTest_starts (exporting : s.vl.session = .exporting) (zero : s.share = 0) (timer : s.vl.shareZeroAt = none)
    (out : s.vl.shareZeroOut = false) :
    s.shareZeroTest = { s with vl := { s.vl with shareZeroAt := some (s.now + 30000) } } := by
  unfold State.shareZeroTest
  rw [if_pos ⟨exporting, zero⟩, if_neg (by simp [timer, out])]
  rfl

theorem shareZeroTest_runs (exporting : s.vl.session = .exporting) (zero : s.share = 0)
    (runs : s.vl.shareZeroAt ≠ none ∨ s.vl.shareZeroOut = true) : s.shareZeroTest = s := by
  unfold State.shareZeroTest
  rw [if_pos ⟨exporting, zero⟩, if_pos (by simpa [Option.isSome_iff_ne_none] using runs)]

theorem shareZeroTest_stops (stops : s.vl.session ≠ .exporting ∨ 0 < s.share) :
    s.shareZeroTest = { s with vl := { s.vl with shareZeroAt := none, shareZeroOut := false } } := by
  unfold State.shareZeroTest
  rw [if_neg fun ⟨exporting, zero⟩ => by rcases stops with other | more <;> [exact other exporting; omega]]
  rfl

theorem stopTest_completes (on : s.cc.state = .on) (set : s.cc.stopPending = true) (zero : s.cc.setpoint = 0)
    (engaging : s.vl.session ≠ .engaging) (exporting : s.vl.session ≠ .exporting) (releasing : s.vl.session ≠ .releasing) :
    s.stopTest = { s with cc := converterOff s.cc } := by
  unfold State.stopTest
  rw [if_pos (stopReady_iff.mpr ⟨on, set, zero, engaging, exporting, releasing⟩)]
  rfl

theorem stopTest_waits (waits : s.cc.state ≠ .on ∨ s.cc.stopPending = false ∨ 0 < s.cc.setpoint ∨
    s.vl.session = .engaging ∨ s.vl.session = .exporting ∨ s.vl.session = .releasing) : s.stopTest = s := by
  unfold State.stopTest
  rw [if_neg]
  rw [stopReady_iff]
  rintro ⟨on, set, zero, engaging, exporting, releasing⟩
  simp [on, set, zero, engaging, exporting, releasing] at waits

theorem releaseTest_decides (exporting : s.vl.session = .exporting) (zero : s.cc.setpoint = 0)
    (reason : s.vl.shareZeroOut = true ∨ s.cc.stopPending = true ∨ s.cc.state ≠ .on ∨ s.vl.stopLatch = true) :
    s.releaseTest = { s with vl := { s.vl with session := .releasing, due := { s.vl.due with release := true } } } := by
  unfold State.releaseTest
  rw [if_pos (releaseWanted_iff.mpr ⟨exporting, zero, reason⟩)]
  rfl

theorem releaseTest_waits (waits : s.vl.session ≠ .exporting ∨ 0 < s.cc.setpoint ∨ (s.vl.shareZeroOut = false ∧
    s.cc.stopPending = false ∧ s.cc.state = .on ∧ s.vl.stopLatch = false)) : s.releaseTest = s := by
  unfold State.releaseTest
  rw [if_neg]
  rw [releaseWanted_iff]
  rintro ⟨exporting, zero, reason⟩
  rcases waits with other | moving | ⟨out, set, on, latch⟩
  · exact other exporting
  · omega
  · simp [out, set, on, latch] at reason

/-! ### The start request -/

theorem canOffer_iff (x : SessionState) : x.canOffer = true ↔ x = .ready ∨ x = .exporting := by
  cases x <;> simp [SessionState.canOffer]

theorem Gate.mem_all (g : Gate) : g ∈ Gate.all := by
  cases g <;> simp [Gate.all]

theorem startRequest_iff : s.startRequest = true ↔
    s.sp.mode = .active ∧ (s.vl.session = .ready ∨ s.vl.session = .exporting) ∧
      (∀ g, g ≠ .converterDown → s.gateHolds g = false) ∧ s.sp.restarting = none ∧
      (s.call ≠ none ∨ ∃ r, nearestPending s.ct.records = some r ∧ r.lead ≤ s.sp.config.precharge + 5) := by
  have gates : s.gatedForStart = false ↔ ∀ g, g ≠ .converterDown → s.gateHolds g = false := by
    simp [State.gatedForStart, List.any_eq_false, Gate.mem_all]
  have calls : s.callInView = true ↔
      s.call ≠ none ∨ ∃ r, nearestPending s.ct.records = some r ∧ r.lead ≤ s.sp.config.precharge + 5 := by
    unfold State.callInView
    cases nearestPending s.ct.records <;> simp [Option.isSome_iff_ne_none]
  simp only [State.startRequest, Bool.and_eq_true, beq_iff_eq, Bool.not_eq_true', Option.isNone_iff_eq_none, canOffer_iff,
    gates, calls, and_assoc]

theorem startTest_precharges (request : s.startRequest = true) (off : s.cc.state = .off) (fault : s.cc.fault = false) :
    s.startTest = { s with cc := { s.cc with
      startHeld := true
      state := .precharging
      prechargeAt := some (s.now + 1000 * s.sp.config.precharge)
      lingerAt := none
      stopPending := false } } := by
  simp [startTest_eq, startedConverter, startEvents, request, off, fault]

theorem startTest_trips (request : s.startRequest = true) (off : s.cc.state = .off) (fault : s.cc.fault = true) :
    s.startTest = { s with
      cc := { converterFailed s.cc s.now with startHeld := true }
      sp := { s.sp with
        events := if s.cc.failures < 2 then s.sp.events.raise .convTrip
          else (s.sp.events.raise .convTrip).raise .convFault } } := by
  have held : converterFailed { s.cc with startHeld := true } s.now =
      { converterFailed s.cc s.now with startHeld := true } := by
    by_cases few : s.cc.failures < 2 <;> simp [converterFailed, converterOff, few]
  have failed : startedConverter s = converterFailed { s.cc with startHeld := true } s.now := by
    unfold startedConverter
    rw [request, fault]
    split
    · rfl
    all_goals simp_all
  rw [startTest_eq, failed, held, startEvents, if_pos ⟨off, request, fault⟩]

theorem startTest_holds (request : s.startRequest = true) (runs : s.cc.state = .precharging ∨ s.cc.state = .on) :
    s.startTest = { s with cc := { s.cc with
      startHeld := true
      lingerAt := none
      stopPending := s.cc.stopPending && !(decide (s.cc.state = .on) && !s.cc.startHeld) } } := by
  rcases runs with state | state <;> simp [startTest_eq, startedConverter, startEvents, request, state]

theorem startTest_ceases (request : s.startRequest = false) (runs : s.cc.state = .precharging ∨ s.cc.state = .on) :
    s.startTest = { s with cc := { s.cc with
      startHeld := false
      lingerAt := if s.cc.startHeld then some (s.now + 30000) else s.cc.lingerAt } } := by
  rcases runs with state | state <;> simp [startTest_eq, startedConverter, startEvents, request, state]

theorem startTest_elsewhere (stands : s.cc.state = .retryWait ∨ s.cc.state = .convFault ∨
    (s.cc.state = .off ∧ s.startRequest = false)) :
    s.startTest = { s with cc := { s.cc with startHeld := s.startRequest } } := by
  rcases stands with state | state | ⟨state, request⟩
  · simp [startTest_eq, startedConverter, startEvents, state]
  · simp [startTest_eq, startedConverter, startEvents, state]
  · simp [startTest_eq, startedConverter, startEvents, state, request]

/-! ### The ENGAGE, the retune, the park and the plug -/

theorem engageTest_due (ready : s.vl.session = .ready) (on : s.cc.state = .on) (share : 0 < s.share)
    (stop : s.cc.stopPending = false) (hold : s.vl.engageHoldAt = none) (flight : s.vl.engageInFlight = false) :
    s.engageTest = { s with vl := { s.vl with due := { s.vl.due with engage := true } } } := by
  rw [engageTest_eq, engageWanted_iff.mpr ⟨ready, on, share, stop, hold⟩, flight]
  rfl

theorem engageTest_withdrawn (lacks : s.vl.session ≠ .ready ∨ s.cc.state ≠ .on ∨ s.share = 0 ∨ s.cc.stopPending = true ∨
    s.vl.engageHoldAt ≠ none ∨ s.vl.engageInFlight = true) :
    s.engageTest = { s with vl := { s.vl with due := { s.vl.due with engage := false } } } := by
  have none : (s.engageWanted && !s.vl.engageInFlight) = false := by
    by_contra wanted
    simp only [Bool.not_eq_false, Bool.and_eq_true, engageWanted_iff, Bool.not_eq_true'] at wanted
    obtain ⟨⟨ready, on, share, stop, hold⟩, flight⟩ := wanted
    simp [ready, on, stop, hold, flight] at lacks
    omega
  rw [engageTest_eq, none]

section
variable (agreed : s.vl.session = .ready ∨ s.vl.session = .engaging ∨ s.vl.session = .exporting ∨
  s.vl.session = .releasing) (below : s.vl.allowance < s.vl.desired)
include agreed below

theorem retuneTest_starts (timer : s.vl.retuneAt = none) :
    s.retuneTest = { s with vl := { s.vl with retuneAt := some (s.now + 60000) } } := by
  simp [retuneTest_eq, (retunable_iff _).mpr agreed, below, timer]

theorem retuneTest_runs (timer : s.vl.retuneAt ≠ none) : s.retuneTest = s := by
  unfold State.retuneTest
  rw [if_pos (by simp [(retunable_iff _).mpr agreed, below]), if_pos (Option.isSome_iff_ne_none.mpr timer)]

end

theorem retuneTest_stops (stops : ¬(s.vl.session = .ready ∨ s.vl.session = .engaging ∨ s.vl.session = .exporting ∨
    s.vl.session = .releasing) ∨ s.vl.desired ≤ s.vl.allowance) :
    s.retuneTest = { s with vl := { s.vl with retuneAt := none } } := by
  rw [retuneTest_eq, if_neg]
  rintro ⟨agreed, below⟩
  rcases stops with other | reached
  · exact other ((retunable_iff _).mp agreed)
  · omega

theorem holdsPark_iff (x : SessionState) : x.holdsPark = true ↔ x = .attached ∨ x = .identifying ∨ x = .tuning ∨
    x = .engaging ∨ x = .exporting ∨ x = .releasing := by
  cases x <;> simp [SessionState.holdsPark]

theorem parkTest_completes (parking : s.sp.mode = .parking) (zero : s.cc.setpoint = 0) (off : s.enablePin = false)
    (free : ¬(s.vl.session = .attached ∨ s.vl.session = .identifying ∨ s.vl.session = .tuning ∨
      s.vl.session = .engaging ∨ s.vl.session = .exporting ∨ s.vl.session = .releasing)) (alone : s.sp.restarting = none) :
    s.parkTest = s.setMode (if s.vl.plug then .hold else .dormant) := by
  unfold State.parkTest
  rw [if_pos (parkReady_iff.mpr ⟨parking, zero, off, by simpa using mt (holdsPark_iff _).mp free, alone⟩)]

theorem parkTest_waits (waits : s.sp.mode ≠ .parking ∨ 0 < s.cc.setpoint ∨ s.enablePin = true ∨
    (s.vl.session = .attached ∨ s.vl.session = .identifying ∨ s.vl.session = .tuning ∨
      s.vl.session = .engaging ∨ s.vl.session = .exporting ∨ s.vl.session = .releasing) ∨ s.sp.restarting ≠ none) :
    s.parkTest = s := by
  unfold State.parkTest
  rw [if_neg]
  rw [parkReady_iff]
  rintro ⟨parking, zero, off, free, alone⟩
  rw [← holdsPark_iff] at waits
  simp [parking, zero, show s.enablePin = false from off, free, alone] at waits

theorem meetPlug_meets (high : s.vl.plug = true) (absent : s.vl.session = .absent) (joined : s.sp.mode ≠ .config)
    (awake : s.sp.mode ≠ .dormant) : s.meetPlug = { s with
      vl := { s.vl with session := .attached, wakeAt := some (s.now + 200) }
      sp := { s.sp with events := s.sp.events.raise .vehicleAttached } } := by
  rw [meetPlug_eq, if_pos ⟨by simp [State.linkRuns, State.joined, joined, awake], high, absent⟩]

theorem meetPlug_waits (waits : s.vl.plug = false ∨ s.vl.session ≠ .absent ∨ s.sp.mode = .config ∨ s.sp.mode = .dormant) :
    s.meetPlug = s := by
  rw [meetPlug_eq, if_neg]
  rintro ⟨runs, high, absent⟩
  simp only [State.linkRuns, State.joined, Bool.and_eq_true, bne_iff_ne] at runs
  simp [high, absent, runs] at waits

theorem plugWake_waits (waits : s.vl.plug = false ∨ s.sp.mode ≠ .dormant ∨ s.sp.restarting ≠ none) : s.plugWake = s := by
  unfold State.plugWake
  rw [if_neg]
  rintro ⟨dormant, high, alone⟩
  simp [high, dormant, alone] at waits

/-- Settles O50: each reaction under its condition and without it, and the end of a handling by `finish_settled`. -/
theorem reactionsFollowTheirRules : Obligations.ReactionsFollowTheirRules :=
  ⟨fun _ => ⟨holdSetpoint_of_path, holdSetpoint_outside, noticeTest_falls, noticeTest_rises, noticeTest_stays, rfl,
      fun differs => if_neg differs, fun same => if_pos same,
      shareZeroTest_starts, shareZeroTest_runs, shareZeroTest_stops, stopTest_completes, stopTest_waits,
      releaseTest_decides, releaseTest_waits, startRequest_iff, startTest_precharges, startTest_trips, startTest_holds,
      startTest_ceases, startTest_elsewhere, engageTest_due, engageTest_withdrawn, retuneTest_starts, retuneTest_runs,
      retuneTest_stops, parkTest_completes, parkTest_waits, meetPlug_meets,
      fun high dormant alone => if_pos ⟨dormant, high, alone⟩, plugWake_waits, meetPlug_waits⟩,
    fun s joined => ⟨finish_settled joined, finish_reacted s⟩, fun _ => finish_of_config⟩

end Sys2Proof.Safety
end

