-- ==== Sys2Proof/Proofs/LinkRules.lean ====
section
/-!
The Vehicle Link's session (chapters 8 and 9) and the Energy Account: the invariant of the session as a property of the link
(`Linked`), what each operation on the link makes of it, and that no reaction breaks it.
-/
namespace Sys2Proof.Safety

open Sys2Proof Sys2Proof.Machine

/-! ### The invariants as properties of the blocks -/

/-- The session against the plug, the mode, the requests, the allowance, the timers and the tuning phase. -/
structure Linked (runs : Bool) (v : VehicleLink) (record : Option BusRecord) : Prop where
  plug : v.session ≠ .absent → v.plug = true
  unstarted : runs = false → v.session = .absent
  absent : v.session = .absent →
    v.inFlight = none ∧ v.due = .nothing ∧ record = none ∧ v.pollAt = none ∧ v.refreshAt = none
  unagreed : v.session = .absent ∨ v.session = .attached ∨ v.session = .identifying ∨ v.session = .retryWait ∨
    v.session = .faulted → v.allowance = 0
  wake : v.wakeAt.isSome = true ↔ v.session = .attached
  identify : v.identifyAt.isSome = true ↔ v.session = .identifying
  requery : v.requeryAt.isSome = true → v.session = .identifying
  retry : v.retryAt.isSome = true ↔ v.session = .retryWait
  tuning : v.phase ≠ .idle ↔ v.session = .tuning
  stepping : v.tuningAt.isSome = true ↔ v.phase = .stepping
  delayed : v.stepAt.isSome = true → v.phase = .stepping
  settling : v.settleAt.isSome = true → v.phase = .settling
  place : ∀ f ∈ v.inFlight, asksInPlace v f.request = true
  latched : v.failures = 3 ↔ v.session = .faulted
  failures : v.failures ≤ 3
  allowance : v.allowance ≤ v.desired
  level : ∀ l ∈ v.busLevel, l ≤ 63
  items : v.items.length ≤ 7
  counter : v.counter ≤ 255

theorem session_iff {s : State} : Session s ↔ Linked s.linkRuns s.vl s.ea.record :=
  ⟨fun ⟨a, b, c, d, e, f, g, h, i, j, k, l, m, n, o, p, q, r, t⟩ => ⟨a, b, c, d, e, f, g, h, i, j, k, l, m, n, o, p, q, r, t⟩,
    fun ⟨a, b, c, d, e, f, g, h, i, j, k, l, m, n, o, p, q, r, t⟩ => ⟨a, b, c, d, e, f, g, h, i, j, k, l, m, n, o, p, q, r, t⟩⟩

/-- The Energy Account against its record (R62 to R69, R76). -/
structure Accounted (a : EnergyAccount) : Prop where
  estimate : a.estimate ≤ a.reported
  residue : a.residue < 360000
  side : a.record = none ↔ a.side = .noRecord
  none : a.record = none → a.estimate = 0 ∧ a.reported = 0 ∧ a.residue = 0 ∧ a.departureLeft = none ∧ a.minuteAt = none
  record : ∀ r ∈ a.record, a.reported ≤ r.capacity ∧ r.soe ≤ r.capacity ∧ r.capacity ≤ 6000

theorem account_iff {s : State} : Account s ↔ Accounted s.ea :=
  ⟨fun ⟨a, b, c, d, e⟩ => ⟨a, b, c, d, e⟩, fun ⟨a, b, c, d, e⟩ => ⟨a, b, c, d, e⟩⟩

/-- Each item held at an identify lies in its range (R185). -/
def ItemsHeld (items : List (Option Int)) : Prop :=
  ∀ p ∈ items.zipIdx, p.1.all (fun v => itemCorrected p.2 v == v) = true

/-- The session, the items read and the account. -/
structure Attended (s : State) : Prop where
  link : Linked s.linkRuns s.vl s.ea.record
  items : ItemsHeld s.vl.items
  account : Accounted s.ea

theorem attended_iff {s : State} : Attended s ↔ Session s ∧ ItemsInRange s ∧ Account s := by
  rw [session_iff, account_iff]
  exact ⟨fun ⟨a, b, c⟩ => ⟨a, b, c⟩, fun ⟨a, b, c⟩ => ⟨a, b, c⟩⟩

variable {s t : State} {r : Bool} {v : VehicleLink} {record : Option BusRecord}

theorem Attended.of_same (h : Attended s) (vl : t.vl = s.vl) (ea : t.ea = s.ea) (mode : t.sp.mode = s.sp.mode) :
    Attended t := by
  obtain ⟨link, items, account⟩ := h
  have runs : t.linkRuns = s.linkRuns := by
    unfold State.linkRuns State.joined
    rw [mode]
  refine ⟨?_, ?_, ?_⟩
  · rw [runs, vl, ea]
    exact link
  · rw [vl]
    exact items
  · rw [ea]
    exact account

/-! ### The sessions by their kinds -/

theorem agreed_ne {x : SessionState} (agreed : x.retunable = true) : x ≠ .absent ∧ x ≠ .attached ∧ x ≠ .identifying ∧
    x ≠ .tuning ∧ x ≠ .retryWait ∧ x ≠ .faulted := by
  cases x <;> simp [SessionState.retunable] at agreed ⊢

/-- A request that every session may have in flight. -/
def anywhere : Request → Bool
  | .identifyQuery _ => false
  | .engage => false
  | _ => true

theorem asksInPlace_anywhere {q : Request} (free : anywhere q = true) (v : VehicleLink) : asksInPlace v q = true := by
  cases q <;> simp [anywhere, asksInPlace] at free ⊢

/-- Outside IDENTIFYING, ENGAGING and RELEASING a request in flight is none of theirs (R142, R158, R150). -/
theorem Linked.flight_anywhere (h : Linked r v record) (identifying : v.session ≠ .identifying)
    (engaging : v.session ≠ .engaging) (releasing : v.session ≠ .releasing) : ∀ f ∈ v.inFlight, anywhere f.request = true := by
  intro f flight
  have place := h.place f flight
  cases request : f.request <;> simp [request, asksInPlace, identifying, engaging, releasing, anywhere] at place ⊢

/-! ### The operations on the link -/

/-- An agreed session moves to another (R155, R158 to R161, R150). -/
theorem Linked.moved (h : Linked r v record) {x : SessionState} (agreed : v.session.retunable = true)
    (into : x.retunable = true) (place : ∀ f ∈ v.inFlight, asksInPlace { v with session := x } f.request = true) :
    Linked r { v with session := x } record := by
  obtain ⟨absent, attached, identifying, tuning, retryWait, faulted⟩ := agreed_ne agreed
  obtain ⟨absent', attached', identifying', tuning', retryWait', faulted'⟩ := agreed_ne into
  exact
    { h with
      plug := fun _ => h.plug absent
      unstarted := fun none => absurd (h.unstarted none) absent
      absent := fun none => absurd none absent'
      unagreed := by simp [absent', attached', identifying', retryWait', faulted']
      wake := by simpa [attached, attached'] using h.wake
      identify := by simpa [identifying, identifying'] using h.identify
      requery := fun runs => absurd (h.requery runs) identifying
      retry := by simpa [retryWait, retryWait'] using h.retry
      tuning := by simpa [tuning, tuning'] using h.tuning
      latched := by simpa [faulted, faulted'] using h.latched
      place }

/-- The link leaves its session (R138, R150, R164). -/
theorem Linked.left (h : Linked r v record) (owed runs : Bool) : Linked runs (v.absentWith owed) none where
  plug no := absurd rfl no
  unstarted _ := rfl
  absent _ := ⟨rfl, rfl, rfl, rfl, rfl⟩
  unagreed _ := rfl
  wake := by simp [VehicleLink.absentWith, VehicleLink.tuningCleared, VehicleLink.quiesced]
  identify := by simp [VehicleLink.absentWith, VehicleLink.tuningCleared, VehicleLink.quiesced]
  requery := by simp [VehicleLink.absentWith, VehicleLink.tuningCleared, VehicleLink.quiesced]
  retry := by simp [VehicleLink.absentWith, VehicleLink.tuningCleared, VehicleLink.quiesced]
  tuning := by simp [VehicleLink.absentWith, VehicleLink.tuningCleared, VehicleLink.quiesced]
  stepping := by simp [VehicleLink.absentWith, VehicleLink.tuningCleared, VehicleLink.quiesced]
  delayed := by simp [VehicleLink.absentWith, VehicleLink.tuningCleared, VehicleLink.quiesced]
  settling := by simp [VehicleLink.absentWith, VehicleLink.tuningCleared, VehicleLink.quiesced]
  place := by simp [VehicleLink.absentWith]
  latched := by simp [VehicleLink.absentWith]
  failures := Nat.zero_le _
  allowance := Nat.zero_le _
  level := by simp [VehicleLink.absentWith, VehicleLink.tuningCleared]
  items := Nat.zero_le _
  counter := h.counter

/-- A session in which nothing but a wait is left (R141, R143, R145, R156). -/
theorem Linked.failed (h : Linked r v record) (present : v.session ≠ .absent)
    (flight : ∀ f ∈ v.inFlight, anywhere f.request = true) (cause : LastFailure) (t : Nat) :
    Linked r { v.quiesced.tuningCleared with
      session := if 3 ≤ satSucc 3 v.failures then .faulted else .retryWait
      retryAt := if 3 ≤ satSucc 3 v.failures then none else some t
      failures := satSucc 3 v.failures
      lastFailure := cause
      allowance := 0 } record := by
  have few : satSucc 3 v.failures ≤ 3 := satSucc_le 3 _
  by_cases full : 3 ≤ satSucc 3 v.failures
  all_goals
    simp only [full, if_true, if_false]
    exact
      { plug := fun _ => h.plug present
        unstarted := fun none => absurd (h.unstarted none) present
        absent := nofun
        unagreed := fun _ => rfl
        wake := by simp [VehicleLink.tuningCleared, VehicleLink.quiesced]
        identify := by simp [VehicleLink.tuningCleared, VehicleLink.quiesced]
        requery := by simp [VehicleLink.tuningCleared, VehicleLink.quiesced]
        retry := by simp
        tuning := by simp [VehicleLink.tuningCleared]
        stepping := by simp [VehicleLink.tuningCleared]
        delayed := by simp [VehicleLink.tuningCleared]
        settling := by simp [VehicleLink.tuningCleared]
        place := fun f member => asksInPlace_anywhere (flight f member) _
        latched := by simp; omega
        failures := few
        allowance := Nat.zero_le _
        level := by simp [VehicleLink.tuningCleared]
        items := Nat.zero_le _
        counter := h.counter }

/-- IDENTIFYING is entered when the wake or a retry wait ends (R142). -/
theorem Linked.identifies (h : Linked r v record) (waits : v.session = .attached ∨ v.session = .retryWait) (t : Nat)
    (d : DueRequests) : Linked r { v with
      session := .identifying
      wakeAt := none
      retryAt := none
      identifyAt := some t
      items := []
      due := d
      stopLatch := false
      lastCeiling := none } none := by
  have present : v.session ≠ .absent := by rcases waits with w | w <;> simp [w]
  have untuned : v.session ≠ .tuning := by rcases waits with w | w <;> simp [w]
  have unlatched : v.session ≠ .faulted := by rcases waits with w | w <;> simp [w]
  have flight : ∀ f ∈ v.inFlight, anywhere f.request = true :=
    h.flight_anywhere (by rcases waits with w | w <;> simp [w]) (by rcases waits with w | w <;> simp [w])
      (by rcases waits with w | w <;> simp [w])
  exact
    { h with
      plug := fun _ => h.plug present
      unstarted := fun none => absurd (h.unstarted none) present
      absent := nofun
      unagreed := fun _ => h.unagreed (by rcases waits with w | w <;> simp [w])
      wake := by simp
      identify := by simp
      requery := fun _ => rfl
      retry := by simp
      tuning := by simpa [untuned] using h.tuning
      place := fun f member => asksInPlace_anywhere (flight f member) _
      latched := by simpa [unlatched] using h.latched
      items := Nat.zero_le _ }

/-- TUNING is entered from IDENTIFYING as it completes, and from READY (R153, R157). -/
theorem Linked.tunes (h : Linked r v record) (leaves : v.session = .identifying ∨ v.session = .ready)
    (flight : ∀ f ∈ v.inFlight, anywhere f.request = true) (record' : Option BusRecord) {items : List (Option Int)}
    (short : items.length ≤ 7) (t : Nat) (kind : TuningKind) (code : TuneCode) (retune : Bool) (d : DueRequests) :
    Linked r { v with
      identifyAt := none
      requeryAt := none
      items := items
      session := .tuning
      kind := kind
      phase := .stepping
      tuningAt := some t
      busLevel := none
      busStatus := none
      retuneDue := retune
      code := some code
      due := d } record' := by
  obtain ⟨present, attached, retryWait, tuning, faulted⟩ : v.session ≠ .absent ∧ v.session ≠ .attached ∧
      v.session ≠ .retryWait ∧ v.session ≠ .tuning ∧ v.session ≠ .faulted := by
    rcases leaves with l | l <;> simp [l]
  have idle : v.phase = .idle := by
    by_contra busy
    exact tuning (h.tuning.mp busy)
  exact
    { plug := fun _ => h.plug present
      unstarted := fun none => absurd (h.unstarted none) present
      absent := nofun
      unagreed := nofun
      wake := by simpa [attached] using h.wake
      identify := by simp
      requery := by simp
      retry := by simpa [retryWait] using h.retry
      tuning := by simp
      stepping := by simp
      delayed := fun _ => rfl
      settling := fun runs => by simpa [idle] using h.settling runs
      place := fun f member => asksInPlace_anywhere (flight f member) _
      latched := by simpa [faulted] using h.latched
      failures := h.failures
      allowance := h.allowance
      level := by simp
      items := short
      counter := h.counter }

/-- A request of a present session becomes due or is withdrawn. -/
theorem Linked.due (h : Linked r v record) (present : v.session ≠ .absent) (d : DueRequests) :
    Linked r { v with due := d } record :=
  { h with absent := fun none => absurd none present }

/-- A request of a present session is in flight, or is so no more. -/
theorem Linked.flight (h : Linked r v record) (present : v.session ≠ .absent) (f : Option RequestInFlight)
    (place : ∀ q ∈ f, asksInPlace v q.request = true) : Linked r { v with inFlight := f } record :=
  { h with
    absent := fun none => absurd none present
    place }

theorem Linked.ended (h : Linked r v record) : Linked r { v with inFlight := none } record :=
  { h with
    absent := fun none => ⟨rfl, (h.absent none).2⟩
    place := nofun }

/-- The timers of the polling of a present session (R147, R148). -/
theorem Linked.polls (h : Linked r v record) (present : v.session ≠ .absent) (poll refresh : Timer) :
    Linked r { v with pollAt := poll, refreshAt := refresh } record :=
  { h with absent := fun none => absurd none present }

/-- The record of a present session is any (R62 to R67). -/
theorem Linked.recorded (h : Linked r v record) (present : v.session ≠ .absent) (record' : Option BusRecord) :
    Linked r v record' :=
  { h with absent := fun none => absurd none present }

/-- The settle wait ends in READY (R155). -/
theorem Linked.settles (h : Linked r v record) (settling : v.phase = .settling) {allowance : Nat}
    (within : allowance ≤ v.desired) (first : Bool) (poll refresh : Timer) :
    Linked r { v with
      allowance := allowance
      phase := .idle
      settleAt := none
      session := .ready
      failures := if first then 0 else v.failures
      pollAt := if first then poll else v.pollAt
      refreshAt := if first then refresh else v.refreshAt } record := by
  have tuning := h.tuning.mp (by simp [settling])
  have present : v.session ≠ .absent := by simp [tuning]
  have flight := h.flight_anywhere (by simp [tuning]) (by simp [tuning]) (by simp [tuning])
  have unlatched : v.failures ≠ 3 := by simpa [tuning] using h.latched
  exact
    { plug := fun _ => h.plug present
      unstarted := fun none => absurd (h.unstarted none) present
      absent := nofun
      unagreed := nofun
      wake := by simpa [tuning] using h.wake
      identify := by simpa [tuning] using h.identify
      requery := fun runs => by simpa [tuning] using h.requery runs
      retry := by simpa [tuning] using h.retry
      tuning := by simp
      stepping := by simpa [settling] using h.stepping
      delayed := fun runs => by simpa [settling] using h.delayed runs
      settling := nofun
      place := fun f member => asksInPlace_anywhere (flight f member) _
      latched := by cases first <;> simp [unlatched]
      failures := by cases first <;> simp [h.failures]
      allowance := within
      level := h.level
      items := h.items
      counter := h.counter }

/-- The plug is met in ABSENT (R137). -/
theorem Linked.attached (h : Linked r v record) (runs : r = true) (high : v.plug = true) (absent : v.session = .absent)
    (t : Nat) : Linked r { v with session := .attached, wakeAt := some t } record := by
  have flight := h.flight_anywhere (by simp [absent]) (by simp [absent]) (by simp [absent])
  exact
    { h with
      plug := fun _ => high
      unstarted := fun none => by simp [runs] at none
      absent := nofun
      unagreed := fun _ => h.unagreed (.inl absent)
      wake := by simp
      identify := by simpa [absent] using h.identify
      requery := fun requery => by simpa [absent] using h.requery requery
      retry := by simpa [absent] using h.retry
      tuning := by simpa [absent] using h.tuning
      place := fun f member => asksInPlace_anywhere (flight f member) _
      latched := by simpa [absent] using h.latched }

/-- The mode changes; a part whose link stops has left its session. -/
theorem Linked.runs (h : Linked r v record) {r' : Bool} (stops : r' = false → v.session = .absent) :
    Linked r' v record :=
  { h with unstarted := stops }

/-! ### The reactions -/

theorem Attended.holdSetpoint (h : Attended s) : Attended s.holdSetpoint := by
  rw [holdSetpoint_eq]
  exact h.of_same rfl rfl rfl

theorem Attended.noticeTest (h : Attended s) : Attended s.noticeTest := by
  rw [noticeTest_eq]
  obtain ⟨link, items, account⟩ := h
  refine ⟨link, items, { account with side := ?_ }⟩
  refine account.side.trans ?_
  dsimp only
  unfold noticeSideOf
  repeat' split
  all_goals simp [*]

theorem Attended.gateNotice (h : Attended s) : Attended s.gateNotice := by
  rw [gateNotice_eq]
  obtain ⟨link, items, account⟩ := h
  exact ⟨link, items, { account with }⟩

theorem Attended.shareZeroTest (h : Attended s) : Attended s.shareZeroTest := by
  rw [shareZeroTest_eq]
  obtain ⟨link, items, account⟩ := h
  exact ⟨{ link with }, items, account⟩

theorem Attended.stopTest (h : Attended s) : Attended s.stopTest := by
  rw [stopTest_eq]
  exact h.of_same rfl rfl rfl

theorem Attended.releaseTest (h : Attended s) : Attended s.releaseTest := by
  unfold State.releaseTest
  split
  · next wanted =>
    have exporting := (releaseWanted_iff.mp wanted).1
    obtain ⟨link, items, account⟩ := h
    have moved : Linked s.linkRuns { s.vl with session := .releasing } s.ea.record :=
      link.moved (by rw [exporting]; rfl) rfl fun f member => by
        have place := link.place f member
        cases request : f.request <;> simp [request, asksInPlace, exporting] at place ⊢
    exact ⟨moved.due nofun _, items, account⟩
  · exact h

theorem Attended.startTest (h : Attended s) : Attended s.startTest := by
  rw [startTest_eq]
  exact h.of_same rfl rfl rfl

theorem Attended.engageTest (h : Attended s) : Attended s.engageTest := by
  rw [engageTest_eq]
  obtain ⟨link, items, account⟩ := h
  refine ⟨{ link with absent := fun absent => ?_ }, items, account⟩
  obtain ⟨flight, due, rest⟩ := link.absent absent
  have unwanted : s.engageWanted = false := by
    by_contra wanted
    have ready := (engageWanted_iff.mp (by simpa using wanted)).1
    exact nomatch absent.symm.trans ready
  refine ⟨flight, ?_, rest⟩
  rw [due, unwanted]
  rfl

theorem Attended.retuneTest (h : Attended s) : Attended s.retuneTest := by
  rw [retuneTest_eq]
  obtain ⟨link, items, account⟩ := h
  exact ⟨{ link with }, items, account⟩

theorem Attended.setMode (h : Attended s) {m : PostMode}
    (stops : m = .config ∨ m = .dormant → s.vl.session = .absent) : Attended (s.setMode m) := by
  rw [setMode_eq]
  obtain ⟨link, items, account⟩ := h
  refine ⟨?_, items, account⟩
  have polls : Linked s.linkRuns { s.vl with
      pollAt :=
        if (s.sp.mode != m) && (s.sp.mode.slowPoll || m.slowPoll) && s.vl.pollAt.isSome then
          some (s.now + m.pollPeriod)
        else s.vl.pollAt } s.ea.record := by
    refine { link with absent := fun absent => ?_ }
    obtain ⟨flight, due, record, poll, refresh⟩ := link.absent absent
    refine ⟨flight, due, record, ?_, refresh⟩
    simp [poll]
  refine polls.runs fun stopped => stops ?_
  simp only [State.linkRuns, State.joined, Bool.and_eq_false_iff, bne_eq_false_iff_eq] at stopped
  exact stopped

theorem Attended.parkTest (h : Attended s) : Attended s.parkTest := by
  unfold State.parkTest
  split
  · refine h.setMode fun stops => ?_
    by_contra present
    have high := h.link.plug present
    simp [high] at stops
  · exact h

theorem Attended.plugWake (h : Attended s) : Attended s.plugWake := by
  unfold State.plugWake
  split
  · exact h.setMode (by simp)
  · exact h

theorem Attended.meetPlug (h : Attended s) : Attended s.meetPlug := by
  rw [meetPlug_eq]
  split
  · next met =>
    obtain ⟨runs, high, absent⟩ := met
    obtain ⟨link, items, account⟩ := h
    exact ⟨link.attached runs high absent _, items, account⟩
  · exact h

theorem Attended.react (h : Attended s) : Attended s.react :=
  h.holdSetpoint.noticeTest.gateNotice.shareZeroTest.stopTest.releaseTest.startTest.engageTest.retuneTest.parkTest
    |>.plugWake.meetPlug

theorem Attended.finish (h : Attended s) : Attended s.finish := by
  unfold State.finish
  split
  · have settled : Attended s.settle := h.react.react.react.react.react
    exact settled.holdSetpoint.of_same (by simp) (by simp) (by simp)
  · exact h

end Sys2Proof.Safety
end

