-- ==== Sys2Proof/Proofs/SessionSteps.lean ====
section
/-!
Every command keeps the session, the items read and the Energy Account consistent (O57).
-/
namespace Sys2Proof.Safety

open Sys2Proof Sys2Proof.Machine

variable {s t : State}

/-! ### The shared operations -/

theorem Attended.enterLockout (h : Attended s) : Attended s.enterLockout := by
  unfold State.enterLockout
  split
  · exact h
  · have moved : Attended (s.setMode .lockout) := h.setMode (by simp)
    exact moved.of_same (by simp) (by simp) (by simp)

theorem Attended.meetDuplicate (h : Attended s) : Attended s.meetDuplicate := by
  unfold State.meetDuplicate
  dsimp only
  split
  · exact h.of_same rfl rfl rfl
  · exact Attended.enterLockout (h.of_same rfl rfl rfl)

/-- The record goes (R63). -/
theorem accounted_discarded (a : EnergyAccount) : Accounted { a with
    record := none, estimate := 0, reported := 0, residue := 0, departureLeft := none, minuteAt := none
    side := .noRecord } where
  estimate := le_rfl
  residue := by simp
  side := by simp
  none _ := ⟨rfl, rfl, rfl, rfl, rfl⟩
  record := nofun

theorem itemsHeld_nil : ItemsHeld [] := by
  unfold ItemsHeld
  simp

/-- The session ends, whatever the mode then is (R138, R178). -/
theorem Attended.departed (h : Attended s) {owed : Bool} {vl : VehicleLink} {ea : EnergyAccount}
    (link : vl = s.vl.absentWith owed) (account : Accounted ea) (unrecorded : ea.record = none) {u : State}
    (sameLink : u.vl = vl) (sameAccount : u.ea = ea) : Attended u := by
  have left := h.link.left owed u.linkRuns
  subst link
  refine ⟨?_, ?_, ?_⟩
  · rw [sameLink, sameAccount, unrecorded]
    exact left
  · rw [sameLink]
    exact itemsHeld_nil
  · rw [sameAccount]
    exact account

theorem Attended.completeRestart (h : Attended s) (o : PostMode) (d : Bool) : Attended (s.completeRestart o d) := by
  rw [completeRestart_eq_restartedInto]
  exact h.departed rfl (accounted_discarded s.ea) rfl rfl rfl

theorem Attended.callNotice (h : Attended s) (r : CallRecord) : Attended (s.callNotice r) := by
  unfold State.callNotice
  split
  · exact (h.setMode (m := .active) (by simp)).of_same rfl rfl rfl
  · exact h

theorem Attended.intake (h : Attended s) (d : CallFrame) : Attended (s.intake d).1 := by
  rcases intake_cases s d with e | e | ⟨k, b, n, rs, e | ⟨r, e⟩⟩ <;> rw [e]
  · exact h
  · exact h.of_same rfl rfl rfl
  · exact h.of_same (by simp) (by simp) (by simp)
  · exact Attended.callNotice (h.of_same (by simp) (by simp) (by simp)) r

theorem Attended.takeCall (h : Attended s) (d : CallFrame) : Attended (s.takeCall d).1 := by
  unfold State.takeCall State.sendCall
  dsimp only
  split
  · exact h.intake d
  · exact (h.intake d).of_same (by simp) (by simp) (by simp)

theorem Attended.releaseForRestart (h : Attended s) : Attended s.releaseForRestart := by
  unfold State.releaseForRestart
  split
  · next released =>
    obtain ⟨link, items, account⟩ := h
    have agreed : s.vl.session.retunable = true := by
      cases session : s.vl.session <;> simp [session, SessionState.releasedByRestart, SessionState.retunable] at released ⊢
    have identifying : s.vl.session ≠ .identifying := (agreed_ne agreed).2.2.1
    have moved : Linked s.linkRuns { s.vl with session := .releasing } s.ea.record :=
      link.moved agreed rfl fun f member => by
        have place := link.place f member
        cases request : f.request <;> simp [request, asksInPlace, identifying] at place ⊢
    exact ⟨moved.due nofun _, items, account⟩
  · exact h

theorem Attended.beginRestart (h : Attended s) : Attended s.beginRestart := by
  unfold State.beginRestart
  exact Attended.releaseForRestart (h.of_same (by simp) (by simp) (by simp))

/-- The blocks start at JOIN, before which the link has stood in ABSENT (R170, R152). -/
theorem Attended.start (h : Attended s) (unjoined : s.sp.mode = .config) : Attended s.start := by
  obtain ⟨link, items, account⟩ := h
  have absent : s.vl.session = .absent := link.unstarted (by simp [State.linkRuns, State.joined, unjoined])
  have zero := link.unagreed (.inl absent)
  have runs : Linked true { s.vl with desired := desiredLevel s.sp.config } s.ea.record :=
    { link with
      unstarted := nofun
      allowance := by simp [zero] }
  have started : Attended (startedBlocks s) := by
    refine ⟨?_, ?_, ?_⟩
    · have runs' : (startedBlocks s).linkRuns = true := by
        simp [startedBlocks, State.linkRuns, State.joined]
      rw [runs']
      simpa [startedBlocks, State.startTimers] using runs
    · simpa [startedBlocks, State.startTimers] using items
    · have gates : Accounted { s.ea with gates := (startedBlocks s).ea.gates } := { account with }
      simpa [startedBlocks, State.startTimers] using gates
  rw [start_eq]
  split
  · exact started.of_same (by simp) (by simp) (by simp)
  · exact started

theorem linked_reset (runs plug : Bool) : Linked runs { VehicleLink.reset with plug := plug } none := by
  constructor <;> simp [VehicleLink.reset]

theorem accounted_reset : Accounted EnergyAccount.reset := by
  constructor <;> simp [EnergyAccount.reset]

/-! ### The commands of the other blocks -/

theorem Attended.follows (h : Attended s) (vl : t.vl = s.vl) (ea : t.ea = s.ea) (mode : t.sp.mode = s.sp.mode) :
    Attended t.finish := (h.of_same vl ea mode).finish

theorem Attended.respond (h : Attended s) (r : ResultCode) (d : ResponseData) : Attended (s.respond r d) :=
  h.of_same rfl rfl rfl

theorem supervisor_attended (c : Instr) (s : State) (unlocked : s.sp.locked = false → s.sp.mode = .config)
    (family : ofSupervisor c = true) (h : Attended s) : Answers (exec c s) Attended := by
  cases c
  case hardwareReset straps =>
    rw [exec, execHardwareReset, answers_next]
    exact ⟨linked_reset _ _, itemsHeld_nil, accounted_reset⟩
  case join =>
    simp only [exec, execJoin]
    repeat' split
    all_goals rw [answers_next]
    · exact h.respond _ _
    · exact h.respond _ _
    · exact h.respond _ _
    · next admitted _ _ =>
      exact (h.start (unlocked ((refusal_eq_none_iff.mp admitted).2.2.2 rfl))).finish.respond _ _
  case call args =>
    simp only [exec, execCall]
    repeat' split
    all_goals rw [answers_next]
    · exact h.respond _ _
    · exact h.respond _ _
    · exact h.respond _ _
    all_goals exact (h.takeCall _).finish.respond _ _
  case park =>
    simp only [exec, execPark]
    repeat' split
    all_goals rw [answers_next]
    · exact h.respond _ _
    · have parking : Attended (s.setMode .parking) := h.setMode (by simp)
      exact (parking.follows (by simp) (by simp) (by simp)).respond _ _
    · exact h.respond _ _
  case wake =>
    simp only [exec, execWake]
    repeat' split
    all_goals rw [answers_next]
    · exact h.respond _ _
    · exact (h.setMode (m := .active) (by simp)).finish.respond _ _
    · exact h.respond _ _
  case restart =>
    simp only [exec, execRestart]
    repeat' split
    all_goals rw [answers_next]
    · exact h.respond _ _
    · exact (h.releaseForRestart.completeRestart _ _).finish.respond _ _
    · exact h.beginRestart.finish.respond _ _
  case parkComplete =>
    simp only [exec, execParkComplete]
    split
    all_goals rw [answers_next]
    · exact h.parkTest.finish
    · exact h
  case restartWaitExpiry =>
    simp only [exec, execRestartWaitExpiry]
    split
    all_goals rw [answers_next]
    · exact h
    · next r waiting =>
      have reached : Attended (s.reach r.waitAt) := h.of_same rfl rfl rfl
      exact (reached.completeRestart _ _).finish
  all_goals first | exact absurd family Bool.false_ne_true | simp only [exec, execSelect, execValue, execStatus, execPoint,
    execRead, execUnknownCommand]
  all_goals
    repeat' split
    all_goals
      rw [answers_next]
      exact h.of_same rfl rfl rfl

theorem peers_attended (c : Instr) (s : State) (family : ofPeers c = true) (h : Attended s) : Answers (exec c s) Attended := by
  cases c
  case dispatch stall seq f =>
    simp only [exec, execDispatch]
    repeat' split
    all_goals rw [answers_next]
    · exact h
    · exact h.meetDuplicate.finish
    · exact h.of_same rfl rfl rfl
    · have heard : Attended (s.countReceived.heard stall seq) := h.of_same rfl rfl rfl
      exact (heard.intake _).finish
  all_goals first | exact absurd family Bool.false_ne_true | simp only [exec, execStanding, execLeave, execCurb,
    execDuplicateStall, execBadFrame, execSweep, execLastHeardExpiry, execRejoinHoldExpiry]
  all_goals
    repeat' split
    all_goals
      rw [answers_next]
      first
        | exact h
        | exact h.meetDuplicate.finish
        | with_reducible apply h.follows
        | refine h.of_same ?_ ?_ ?_
      all_goals simp

theorem line_attended (c : Instr) (s : State) (family : ofLine c = true) (h : Attended s) : Answers (exec c s) Attended := by
  cases c
  case echoSuccess idle =>
    simp only [exec, execEchoSuccess]
    repeat' split
    all_goals rw [answers_next]
    · exact h
    · refine Attended.finish ?_
      have echoed (t : State) (vl : t.vl = s.vl) (ea : t.ea = s.ea) (mode : t.sp.mode = s.sp.mode) : Attended t.ownEchoed :=
        h.of_same (by simp [vl]) (by simp [ea]) (by simp [mode])
      unfold State.leaveEchoed
      split
      · refine Attended.completeRestart (echoed _ ?_ ?_ ?_) _ _ <;> rfl
      · exact echoed _ rfl rfl rfl
    · exact h
  all_goals first | exact absurd family Bool.false_ne_true | simp only [exec, execLineIdle, execStandingTimer,
    execCollision, execBackoffEnd, execEchoTimer, execRepeatCopyDue]
  all_goals
    repeat' split
    all_goals
      rw [answers_next]
      first
        | exact h
        | with_reducible apply h.follows
        | refine h.of_same ?_ ?_ ?_
      all_goals simp [State.setLine, State.beginAttempt]

theorem converter_attended (c : Instr) (s : State) (family : ofConverter c = true) (h : Attended s) :
    Answers (exec c s) Attended := by
  cases c
  all_goals first | exact absurd family Bool.false_ne_true | simp only [exec, execMeasStb, execFaultHigh, execPrechargeExpiry,
    execStableExpiry, execRetryExpiry, execLingerExpiry, execStopComplete, execSlewStep]
  all_goals
    repeat' split
    all_goals
      rw [answers_next]
      first
        | exact h
        | with_reducible apply h.follows
        | refine h.of_same ?_ ?_ ?_
      all_goals simp

/-! ### The account -/

theorem Accounted.drained {a : EnergyAccount} (h : Accounted a) (measured : Nat) : Accounted (a.drained measured) := by
  unfold EnergyAccount.drained
  split
  · exact h
  · next r held =>
    exact
      { estimate := (Nat.sub_le ..).trans h.estimate
        residue := Nat.mod_lt _ (by decide)
        side := h.side
        none := fun none => by simp [held] at none
        record := h.record }

theorem calls_attended (c : Instr) (s : State) (family : ofCalls c = true) (h : Attended s) : Answers (exec c s) Attended := by
  cases c
  case meterSample =>
    have drained (t : State) (vl : t.vl = s.vl) (ea : t.ea = s.ea.drained s.cc.measured) (mode : t.sp.mode = s.sp.mode) :
        Attended t := by
      obtain ⟨link, items, account⟩ := h
      have runs : t.linkRuns = s.linkRuns := by
        unfold State.linkRuns State.joined
        rw [mode]
      refine ⟨?_, ?_, ?_⟩
      · rw [runs, vl, ea, (drained_frame s.ea s.cc.measured).1]
        exact link
      · rw [vl]
        exact items
      · rw [ea]
        exact account.drained _
    simp only [exec, execMeterSample]
    repeat' split
    all_goals rw [answers_next]
    · exact h
    · exact (drained _ (by simp) (by simp) (by simp)).finish
    · exact drained _ (by simp) (by simp) (by simp)
  case departureMinute =>
    simp only [exec, execDepartureMinute]
    split
    all_goals rw [answers_next]
    · exact h
    · next t minute =>
      obtain ⟨link, items, account⟩ := h
      have held : s.ea.record ≠ none := fun none => by simp [(account.none none).2.2.2.2] at minute
      have passed : Accounted { s.ea with departureLeft := s.ea.departureLeft.map (· - 1), minuteAt := some (t + 60000) } :=
        { account with none := fun none => absurd none held }
      exact Attended.finish ⟨link, items, passed⟩
  all_goals first | exact absurd family Bool.false_ne_true | simp only [exec, execSensorSample, execCallTimer,
    execStartCountdownExpiry, execRemainingActiveExpiry, execDeferredExpiry, execRetentionExpiry, execApportionStep,
    execCurbExpiry]
  all_goals
    repeat' split
    all_goals
      rw [answers_next]
      first
        | exact h
        | with_reducible apply h.follows
        | refine h.of_same ?_ ?_ ?_
      all_goals simp

/-! ### The commands of the link -/

/-- The link's part of a state is replaced. -/
theorem Attended.linked (h : Attended s) {w : VehicleLink} (link : Linked s.linkRuns w s.ea.record)
    (items : w.items = s.vl.items ∨ w.items = []) (vl : t.vl = w) (ea : t.ea = s.ea) (mode : t.sp.mode = s.sp.mode) :
    Attended t := by
  have runs : t.linkRuns = s.linkRuns := by
    unfold State.linkRuns State.joined
    rw [mode]
  refine ⟨?_, ?_, ?_⟩
  · rw [runs, vl, ea]
    exact link
  · rw [vl]
    rcases items with same | none
    · rw [same]
      exact h.items
    · rw [none]
      exact itemsHeld_nil
  · rw [ea]
    exact h.account

theorem answeredBy_some {n : Nat} {r : Request} (answered : s.answeredBy n = some r) :
    ∃ f, s.vl.inFlight = some f ∧ f.request = r := by
  unfold State.answeredBy at answered
  split at answered
  · next f flight =>
    split at answered
    · exact ⟨f, flight, Option.some.inj answered⟩
    · cases answered
  · cases answered

/-- A session with a request in flight is present. -/
theorem Linked.present_of_flight {r : Bool} {v : VehicleLink} {record : Option BusRecord} (h : Linked r v record)
    {f : RequestInFlight} (flight : v.inFlight = some f) : v.session ≠ .absent := fun absent => by
  simp [(h.absent absent).1] at flight

theorem Attended.endRequest (h : Attended s) : Attended s.endRequest :=
  h.linked h.link.ended (.inl rfl) rfl rfl rfl

/-- A failed session waits, or is FAULTED (R145). -/
theorem Attended.failSession (h : Attended s) (present : s.vl.session ≠ .absent)
    (flight : ∀ f ∈ s.vl.inFlight, anywhere f.request = true) (cause : LastFailure) (wait : Nat) :
    Attended (s.failSession cause wait) := by
  have failed := h.link.failed present flight cause (s.now + wait)
  refine h.linked failed (.inr rfl) ?_ (by simp) (by simp)
  unfold State.failSession
  simp

theorem Attended.identifyFails (h : Attended s) (present : s.vl.session ≠ .absent) (cause : LastFailure) :
    Attended (s.identifyFails cause) :=
  Attended.failSession (s := s.endRequest) h.endRequest present nofun cause 60000

theorem Attended.linkLost (h : Attended s) (present : s.vl.session ≠ .absent) : Attended s.linkLost := by
  have lost : Attended ((s.raise .linkLost).setVl { s.vl with
      inFlight := none, releaseOwed := s.vl.releaseOwed || s.vl.session.holdsStop }) :=
    h.linked (w := { s.vl with inFlight := none, releaseOwed := s.vl.releaseOwed || s.vl.session.holdsStop })
      { h.link.ended with } (.inl rfl) rfl rfl rfl
  exact lost.failSession present nofun _ _

theorem Attended.enterIdentifying (h : Attended s) (waits : s.vl.session = .attached ∨ s.vl.session = .retryWait) :
    Attended s.enterIdentifying := by
  have identifies := h.link.identifies waits (s.now + 5000)
    { s.vl.due with release := s.vl.releaseOwed, identify := true }
  exact ⟨identifies, itemsHeld_nil, accounted_discarded s.ea⟩

/-! ### The requests -/

theorem allows_present {v : VehicleLink} {q : Request} (allowed : v.allows q = true) : v.session ≠ .absent := by
  intro absent
  cases q <;> simp [VehicleLink.allows, VehicleLink.polling, absent] at allowed

theorem nextRequest_some {v : VehicleLink} {q : Request} (next : v.nextRequest = some q) :
    v.inFlight = none ∧ v.allows q = true ∧ ∀ k, q = .identifyQuery k → k = v.items.length := by
  unfold VehicleLink.nextRequest at next
  split at next
  · cases next
  · next none =>
    have member := List.mem_of_find?_eq_some next
    refine ⟨none, List.find?_some (p := v.allows) next, fun k asked => ?_⟩
    subst asked
    unfold VehicleLink.dueList at member
    have asked : v.due.identify = true ∧ k = v.items.length := by simpa using member
    exact asked.2

theorem Linked.taken {r : Bool} {v : VehicleLink} {record : Option BusRecord} (h : Linked r v record)
    (present : v.session ≠ .absent) (f : RequestInFlight) (place : asksInPlace v f.request = true) (d : DueRequests)
    (refresh : Timer) (n : Nat) :
    Linked r { v with due := d, counter := n % 256, inFlight := some f, refreshAt := refresh } record := by
  have flying := h.flight present (some f) fun q member => Option.some.inj member ▸ place
  exact { (flying.due present d).polls present v.pollAt refresh with counter := by dsimp only; omega }

/-- A request is taken for sending (R139, R158). -/
theorem Attended.takeRequest (h : Attended s) {q : Request} (next : s.vl.nextRequest = some q) :
    Attended (s.takeRequest q) := by
  obtain ⟨flight, allowed, asks⟩ := nextRequest_some next
  obtain ⟨link, items, account⟩ := h
  unfold State.takeRequest
  by_cases engages : q = .engage
  · subst engages
    have ready : s.vl.session = .ready := by simpa [VehicleLink.allows] using allowed
    have engaging : Linked s.linkRuns { s.vl with session := .engaging } s.ea.record :=
      link.moved (by rw [ready]; rfl) rfl (by simp [flight])
    exact ⟨engaging.taken nofun ⟨.engage, _, 1, none⟩ rfl _ _ _, items, account⟩
  · have place : asksInPlace s.vl q = true := by
      cases q
      case engage => exact absurd rfl engages
      case identifyQuery k =>
        have identifying : s.vl.session = .identifying := by simpa [VehicleLink.allows] using allowed
        simp [asksInPlace, identifying, asks k rfl]
      all_goals rfl
    simp only [if_neg engages]
    exact ⟨link.taken (allows_present allowed) ⟨q, _, 1, none⟩ place _ _ _, items, account⟩

/-- The same request is sent, or is sent again (R139, R140). -/
theorem Attended.resend (h : Attended s) {f : RequestInFlight} (flight : s.vl.inFlight = some f) (g : RequestInFlight)
    (same : g.request = f.request) (vl : t.vl = { s.vl with inFlight := some g }) (ea : t.ea = s.ea)
    (mode : t.sp.mode = s.sp.mode) : Attended t := by
  refine h.linked (h.link.flight (h.link.present_of_flight flight) (some g) fun q member => ?_) (.inl rfl) vl ea mode
  rw [← Option.some.inj member, same]
  exact h.link.place f flight

/-! ### The identify and the refresh -/

theorem itemRange_ordered (k : Nat) : ∀ r ∈ itemRange k, r.1 ≤ r.2 := by
  unfold itemRange
  split <;> simp

theorem itemCorrected_itemCorrected (k : Nat) (v : Int) : itemCorrected k (itemCorrected k v) = itemCorrected k v := by
  unfold itemCorrected
  cases found : itemRange k with
  | none => rfl
  | some range =>
    have ordered := itemRange_ordered k range found
    simp only [clampInt]
    omega

/-- What a QUERY of the identify in flight asks for (R142). -/
theorem Attended.identify_asks (h : Attended s) {n k : Nat} (answered : s.answeredBy n = some (.identifyQuery k)) :
    s.vl.session = .identifying ∧ k = s.vl.items.length := by
  obtain ⟨f, flight, request⟩ := answeredBy_some answered
  have place := h.link.place f flight
  simpa [request, asksInPlace] using place

/-- The next item is held, and the QUERY of the one after it is due (R142). -/
theorem Attended.holdItem (h : Attended s) (present : s.vl.session ≠ .absent) (flight : s.vl.inFlight = none) (short : s.vl.items.length < 7)
    {v : Option Int} (inRange : v.all (fun x => itemCorrected s.vl.items.length x == x) = true) : Attended (s.holdItem v) := by
  obtain ⟨link, items, account⟩ := h
  have due := link.due present { s.vl.due with identify := true }
  have held : Linked s.linkRuns (s.holdItem v).vl s.ea.record :=
    { due with
      items := by
        have added : (s.holdItem v).vl.items = s.vl.items ++ [v] := rfl
        rw [added, List.length_append]
        exact short
      place := fun f member => by
        have none : (s.holdItem v).vl.inFlight = none := flight
        simp [none] at member }
  refine ⟨held, fun p member => ?_, account⟩
  have added : (s.holdItem v).vl.items = s.vl.items ++ [v] := rfl
  rw [added, List.zipIdx_append] at member
  rcases List.mem_append.mp member with old | new
  · exact items p old
  · simp only [List.zipIdx_cons, List.zipIdx_nil, List.mem_singleton] at new
    subst new
    simpa using inRange

/-- The seven items make a record within its capacity (R62). -/
theorem busRecordOf_inRange {items : List (Option Int)} {route : Nat} {record : BusRecord}
    (made : busRecordOf items route = some record) (held : ItemsHeld items) :
    record.soe ≤ record.capacity ∧ record.capacity ≤ 6000 := by
  unfold busRecordOf at made
  split at made
  · next bus capacity soe route' departure pack minTemp =>
    have second : itemCorrected 1 capacity = capacity := by
      have := held (some capacity, 1) (by simp)
      simpa using this
    have below : capacity ≤ 6000 := by
      rw [← second]
      simp only [itemCorrected, itemRange, clampInt]
      omega
    cases made
    simp only
    omega
  · cases made

theorem noticeSideOf_ne (e n : Nat) : noticeSideOf e n ≠ .noRecord := by
  unfold noticeSideOf
  split <;> simp

/-- A record is taken whole (R62). -/
theorem accounted_taken {record : BusRecord} (soe : record.soe ≤ record.capacity) (capacity : record.capacity ≤ 6000)
    {departure : Option Nat} {minute : Timer} {side : NoticeSide} (stands : side ≠ .noRecord) {gates : GateView} :
    Accounted ⟨some record, record.soe, record.soe, 0, departure, minute, side, gates⟩ where
  estimate := le_rfl
  residue := by simp
  side := by simp [stands]
  none := nofun
  record := by simpa using ⟨soe, capacity⟩

/-- The identify completes into TUNING with the record (R142, R62, R153), or fails. -/
theorem Attended.identifyCompletes (h : Attended s) (identifying : s.vl.session = .identifying)
    (flight : s.vl.inFlight = none) : Attended s.identifyCompletes := by
  unfold State.identifyCompletes
  split
  · exact h.identifyFails (by simp [identifying]) _
  · next record made =>
    obtain ⟨soe, capacity⟩ := busRecordOf_inRange made h.items
    obtain ⟨link, items, account⟩ := h
    have tunes := link.tunes (.inl identifying) (by simp [flight]) (some record) (items := []) (Nat.zero_le _)
      (s.now + 10000) .initial (firstCode s.sp.config.tuneStart) s.vl.retuneDue
      { s.vl.due with identify := false, tune := some (firstCode s.sp.config.tuneStart) }
    exact ⟨tunes, itemsHeld_nil, accounted_taken soe capacity (noticeSideOf_ne _ _)⟩

theorem Attended.identifyItem (h : Attended s) (identifying : s.vl.session = .identifying) (flight : s.vl.inFlight = none)
    (v : Int) : Attended (s.identifyItem s.vl.items.length v) := by
  unfold State.identifyItem
  split
  · split
    · exact h.identifyCompletes identifying flight
    · exact h.identifyFails (by simp [identifying]) _
  · next more =>
    have few := h.link.items
    exact h.holdItem (by simp [identifying]) flight (by omega) (by simp [itemCorrected_itemCorrected])

theorem Attended.recorded (h : Attended s) {a : EnergyAccount} (present : s.vl.session ≠ .absent) (account : Accounted a)
    (vl : t.vl = s.vl) (ea : t.ea = a) (mode : t.sp.mode = s.sp.mode) : Attended t := by
  have runs : t.linkRuns = s.linkRuns := by
    unfold State.linkRuns State.joined
    rw [mode]
  refine ⟨?_, ?_, ?_⟩
  · rw [runs, vl]
    exact h.link.recorded present _
  · rw [vl]
    exact h.items
  · rw [ea]
    exact account

/-- A new pack temperature (R65). -/
theorem Attended.replacePack (h : Attended s) (present : s.vl.session ≠ .absent) (x : Int) : Attended (s.replacePack x) := by
  unfold State.replacePack
  split
  · exact h
  · next record held =>
    have account := h.account
    have packed : Accounted { s.ea with record := some { record with packTemp := x } } :=
      { account with
        side := by simpa [held] using account.side
        none := nofun
        record := fun r same => Option.some.inj same ▸ account.record record held }
    exact h.recorded present packed rfl rfl rfl

/-- A refresh of the state of energy (R67). -/
theorem Attended.refreshEnergy (h : Attended s) (present : s.vl.session ≠ .absent) (v : Nat) : Attended (s.refreshEnergy v) := by
  unfold State.refreshEnergy
  split
  · exact h
  · next record held =>
    have account := h.account
    obtain ⟨reported, soe, capacity⟩ := account.record record held
    have refreshed : Accounted { s.ea with
        estimate := min s.ea.estimate (min v record.capacity), reported := min v record.capacity } :=
      { account with
        estimate := min_le_right ..
        none := fun none => by simp [held] at none
        record := fun r same => by
          have same : record = r := Option.some.inj (held.symm.trans same)
          exact same ▸ ⟨min_le_right .., soe, capacity⟩ }
    exact h.recorded present refreshed rfl rfl rfl

theorem Attended.refreshGoesOn (h : Attended s) (present : s.vl.session ≠ .absent) (k : Nat) : Attended (s.refreshGoesOn k) := by
  unfold State.refreshGoesOn
  split
  · exact h.linked (h.link.due present { s.vl.due with refresh := some 5 }) (.inl rfl) rfl rfl rfl
  · exact h

theorem Attended.refreshItem (h : Attended s) (present : s.vl.session ≠ .absent) (k : Nat) (v : Int) :
    Attended (s.refreshItem k v) := by
  unfold State.refreshItem
  dsimp only
  split
  · exact (h.refreshEnergy present _).refreshGoesOn (by simpa using present) k
  · exact h.replacePack present _

/-! ### The commands of the link -/

theorem link_attended (c : Instr) (s : State) (family : ofLink c = true) (h : Attended s) : Answers (exec c s) Attended := by
  have asked {n : Nat} {r : Request} (answered : s.answeredBy n = some r) : s.vl.session ≠ .absent := by
    obtain ⟨f, flight, -⟩ := answeredBy_some answered
    exact h.link.present_of_flight flight
  cases c
  case plugHigh =>
    rw [exec, execPlugHigh, answers_next]
    exact Attended.finish (h.linked (w := { s.vl with plug := true }) { h.link with plug := fun _ => rfl } (.inl rfl) rfl rfl rfl)
  case plugLow =>
    simp only [exec, execPlugLow]
    split
    all_goals rw [answers_next]
    · next absent =>
      exact h.linked (w := { s.vl with plug := false, releaseOwed := false }) { h.link with plug := fun present => absurd absent present }
        (.inl rfl) rfl rfl rfl
    · have left := h.link.left false s.linkRuns
      have unplugged : Linked s.linkRuns { s.vl.absentWith false with plug := false } none :=
        { left with plug := fun present => absurd rfl present }
      exact Attended.finish ⟨unplugged, itemsHeld_nil, accounted_discarded s.ea⟩
  case wakeExpiry =>
    simp only [exec, execWakeExpiry]
    split
    all_goals rw [answers_next]
    · exact h
    · next n timer =>
      have reached : Attended (s.reach n) := h.of_same rfl rfl rfl
      exact (reached.enterIdentifying (.inl (h.link.wake.mp (by simp [timer])))).finish
  case sessionRetryExpiry =>
    simp only [exec, execSessionRetryExpiry]
    split
    all_goals rw [answers_next]
    · exact h
    · next n timer =>
      have reached : Attended (s.reach n) := h.of_same rfl rfl rfl
      exact (reached.enterIdentifying (.inr (h.link.retry.mp (by simp [timer])))).finish
  case pilotRequestTaken =>
    simp only [exec, execPilotRequestTaken]
    repeat' split
    all_goals rw [answers_next]
    · exact h
    · next r next' engages => exact (h.takeRequest next').finish
    · next r next' other => exact h.takeRequest next'
  case requestSent =>
    simp only [exec, execRequestSent]
    repeat' split
    all_goals rw [answers_next]
    · exact h
    · exact h
    · next f flight _ => exact h.resend flight { f with replyAt := some (s.now + 200) } rfl rfl rfl rfl
  case replyTimerExpiry =>
    simp only [exec, execReplyTimerExpiry]
    repeat' split
    all_goals rw [answers_next]
    · exact h
    · exact h
    · next f flight _ _ _ _ => exact h.resend flight { f with attempt := f.attempt + 1, replyAt := none } rfl rfl rfl rfl
    · next f flight _ n _ _ =>
      have reached : Attended (s.reach n) := h.of_same rfl rfl rfl
      exact (reached.linkLost (h.link.present_of_flight flight)).finish
  case pilotFrameDisregarded =>
    rw [exec, execPilotFrameDisregarded, answers_next]
    exact h
  case item number k v =>
    simp only [exec, execItem]
    repeat' split
    all_goals rw [answers_next]
    · next i answered same =>
      obtain ⟨identifying, asks⟩ := h.identify_asks answered
      rw [same, asks]
      exact (h.endRequest.identifyItem identifying rfl v).finish
    · exact h
    · next i answered same => exact (h.endRequest.refreshItem (asked answered) k v).finish
    · exact h
    · exact h
  case notReady number k =>
    simp only [exec, execNotReady]
    repeat' split
    all_goals rw [answers_next]
    · next i answered same =>
      have identifying := (h.identify_asks answered).1
      have ended := h.endRequest
      exact ended.linked (w := { s.endRequest.vl with requeryAt := some (s.now + 100) })
        { ended.link with requery := fun _ => identifying } (.inl rfl) rfl rfl rfl
    · exact h
    · next i answered same => exact h.endRequest.refreshGoesOn (asked answered) k
    · exact h
    · exact h
  case unsupported number k =>
    simp only [exec, execUnsupported]
    repeat' split
    all_goals rw [answers_next]
    · next i answered same optional =>
      have asks := (h.identify_asks answered).2
      have few : k < 7 := by
        simp only [optionalItem, Bool.or_eq_true, beq_iff_eq] at optional
        omega
      have short : s.vl.items.length < 7 := by omega
      exact h.endRequest.holdItem (asked answered) rfl short rfl
    · next i answered same _ => exact (h.endRequest.identifyFails (asked answered) _).finish
    · exact h
    · next i answered same => exact h.endRequest.refreshGoesOn (asked answered) k
    · exact h
    · exact h
  case identifyExpiry =>
    simp only [exec, execIdentifyExpiry]
    split
    all_goals rw [answers_next]
    · exact h
    · next n timer =>
      have reached : Attended (s.reach n) := h.of_same rfl rfl rfl
      have identifying := h.link.identify.mp (by simp [timer])
      exact (reached.identifyFails (by simp [identifying]) _).finish
  case requeryExpiry =>
    simp only [exec, execRequeryExpiry]
    split
    all_goals rw [answers_next]
    · exact h
    · next n timer =>
      have identifying := h.link.requery (by simp [timer])
      have due := h.link.due (by simp [identifying]) { s.vl.due with identify := true }
      exact h.linked (w := { s.vl with requeryAt := none, due := { s.vl.due with identify := true } })
        { due with requery := nofun } (.inl rfl) rfl rfl rfl
  case pollExpiry =>
    simp only [exec, execPollExpiry]
    split
    all_goals rw [answers_next]
    · exact h
    · next n timer =>
      have present : s.vl.session ≠ .absent := fun absent => by simp [(h.link.absent absent).2.2.2.1] at timer
      have due := h.link.due present { s.vl.due with poll := s.vl.due.poll || !s.vl.pollInFlight }
      exact h.linked (due.polls present (some ((s.reach n).now + s.sp.mode.pollPeriod)) s.vl.refreshAt) (.inl rfl) rfl rfl rfl
  case refreshExpiry =>
    have present {n : Nat} (timer : s.vl.refreshAt = some n) : s.vl.session ≠ .absent := fun absent => by
      simp [(h.link.absent absent).2.2.2.2] at timer
    simp only [exec, execRefreshExpiry]
    repeat' split
    all_goals rw [answers_next]
    · exact h
    · next n timer _ =>
      exact h.linked (h.link.polls (present timer) s.vl.pollAt (some ((s.reach n).now + 60000))) (.inl rfl) rfl rfl rfl
    · next n timer _ =>
      have due := h.link.due (present timer) { s.vl.due with refresh := some 2 }
      exact h.linked (due.polls (present timer) s.vl.pollAt none) (.inl rfl) rfl rfl rfl
  all_goals exact absurd family Bool.false_ne_true

/-! ### The commands of the tuning and of the session in EXPORTING -/

theorem Attended.makeTune (h : Attended s) (tuning : s.vl.session = .tuning) (code : TuneCode) : Attended (s.makeTune code) := by
  have due := h.link.due (by simp [tuning]) { s.vl.due with tune := some code }
  exact h.linked (w := { s.vl with code := some code, due := { s.vl.due with tune := some code } }) { due with } (.inl rfl)
    rfl rfl rfl

/-- Tuning is done, and the wait to settle begins (R155). -/
theorem Attended.beginSettle (h : Attended s) (tuning : s.vl.session = .tuning) : Attended s.beginSettle := by
  have settles : Linked s.linkRuns { s.vl with
      tuningAt := none, stepAt := none, phase := .settling, holdAnswered := false, settleAt := some (s.now + 1000) }
      s.ea.record :=
    { h.link with
      tuning := by simp [tuning]
      stepping := by simp
      delayed := nofun
      settling := fun _ => rfl }
  have waits : Attended (s.setVl { s.vl with
      tuningAt := none, stepAt := none, phase := .settling, holdAnswered := false, settleAt := some (s.now + 1000) }) :=
    h.linked settles (.inl rfl) rfl rfl rfl
  exact waits.makeTune tuning .hold

theorem Attended.tuneReply (h : Attended s) (stepping : s.vl.phase = .stepping) (status : TuneStatus) {level : Nat}
    (within : level ≤ 63) : Attended (s.tuneReply status level) := by
  have tuning := h.link.tuning.mp (by simp [stepping])
  have held : Attended (s.setVl { s.vl with busLevel := some level, busStatus := some status }) :=
    h.linked (w := { s.vl with busLevel := some level, busStatus := some status })
      { h.link with level := fun l member => Option.some.inj member ▸ within } (.inl rfl) rfl rfl rfl
  unfold State.tuneReply
  dsimp only
  split
  · exact held.beginSettle tuning
  · exact held.linked (w := { s.vl with
      busLevel := some level, busStatus := some status, stepAt := some (s.now + 100) })
      { held.link with delayed := fun _ => stepping } (.inl rfl) rfl rfl rfl
  · exact held.makeTune tuning .up
  · exact held.makeTune tuning .down

theorem agreedAllowance_le (level desired : Nat) (ceiling : Option Nat) : agreedAllowance level desired ceiling ≤ desired := by
  unfold agreedAllowance
  split <;> omega

theorem Attended.settleEnds (h : Attended s) (settling : s.vl.phase = .settling) : Attended s.settleEnds := by
  have settles := h.link.settles settling (agreedAllowance_le (s.vl.busLevel.getD 0) s.vl.desired s.vl.lastCeiling)
    (s.vl.kind == .initial) (some (s.now + s.sp.mode.pollPeriod)) (some (s.now + 60000))
  refine h.linked settles (.inl rfl) ?_ (by simp [State.settleEnds]) (by simp [State.settleEnds])
  simp [State.settleEnds]

theorem Attended.holdReply (h : Attended s) (settling : s.vl.phase = .settling) (status : TuneStatus) {level : Nat}
    (within : level ≤ 63) : Attended (s.holdReply status level) := by
  have held : Attended (s.setVl { s.vl with busLevel := some level, busStatus := some status, holdAnswered := true }) :=
    h.linked (w := { s.vl with busLevel := some level, busStatus := some status, holdAnswered := true })
      { h.link with level := fun l member => Option.some.inj member ▸ within } (.inl rfl) rfl rfl rfl
  unfold State.holdReply
  dsimp only
  split
  · exact held.settleEnds settling
  · exact held

theorem Attended.setSession (h : Attended s) {x : SessionState} (agreed : s.vl.session.retunable = true)
    (into : x.retunable = true) (flight : s.vl.inFlight = none) : Attended (s.setSession x) :=
  h.linked (h.link.moved agreed into (by simp [flight])) (.inl rfl) rfl rfl rfl

theorem Attended.meetCeiling (h : Attended s) (c : Nat) : Attended (s.meetCeiling c) := by
  have lowered : Linked s.linkRuns { s.vl with lastCeiling := some c, allowance := min s.vl.allowance c } s.ea.record :=
    { h.link with
      unagreed := fun none => by simp [h.link.unagreed none]
      allowance := (min_le_left ..).trans h.link.allowance }
  exact h.linked lowered (.inl rfl) (by simp [State.meetCeiling]) (by simp [State.meetCeiling]) (by simp [State.meetCeiling])

theorem Attended.meetStop (h : Attended s) (b : Bool) : Attended (s.meetStop b) := by
  unfold State.meetStop
  repeat' split
  · exact h
  · exact h.linked (w := { s.vl with stopLatch := true }) { h.link with } (.inl rfl) rfl rfl rfl
  · exact h.linked (w := { s.vl with stopLatch := false }) { h.link with } (.inl rfl) rfl rfl rfl

/-- A retune begins from READY (R157). -/
theorem Attended.retunes (h : Attended s) (opens : s.retuneOpen = true) : Attended (s.enterTuning .retune .up) := by
  simp only [State.retuneOpen, Bool.and_eq_true, beq_iff_eq, Bool.not_eq_true'] at opens
  obtain ⟨⟨⟨-, ready⟩, -⟩, -⟩ := opens
  have flight := h.link.flight_anywhere (by simp [ready]) (by simp [ready]) (by simp [ready])
  have identify : s.vl.identifyAt = none := Option.not_isSome_iff_eq_none.mp (mt h.link.identify.mp (by simp [ready]))
  have requery : s.vl.requeryAt = none := Option.not_isSome_iff_eq_none.mp (mt h.link.requery (by simp [ready]))
  have tunes := h.link.tunes (.inr ready) flight s.ea.record h.link.items (s.now + 10000) .retune .up false
    { s.vl.due with tune := some .up }
  exact h.linked tunes (.inl rfl) (by simp [State.enterTuning, identify, requery]) rfl rfl

theorem session_attended (c : Instr) (s : State) (family : ofSession c = true) (h : Attended s) : Answers (exec c s) Attended := by
  have ended := h.endRequest
  cases c
  case tuned number status level =>
    simp only [exec, execTuned]
    repeat' split
    all_goals rw [answers_next]
    · next settling => exact (ended.holdReply settling.2 _ (min_le_left ..)).finish
    · next stepping => exact (ended.tuneReply stepping.2 _ (min_le_left ..)).finish
    · exact ended
    · exact h
  case tuningExpiry =>
    simp only [exec, execTuningExpiry]
    split
    all_goals rw [answers_next]
    · exact h
    · next n timer =>
      have tuning := h.link.tuning.mp (by simp [h.link.stepping.mp (by simp [timer])])
      have flight := h.link.flight_anywhere (by simp [tuning]) (by simp [tuning]) (by simp [tuning])
      have present : s.vl.session ≠ .absent := by simp [tuning]
      split
      · have raised : Attended ((s.reach n).endRequest.raise .tuneFailed) := ended.of_same rfl rfl rfl
        exact (raised.failSession present nofun _ _).finish
      · have raised : Attended ((s.reach n).raise .tuneFailed) := h.of_same rfl rfl rfl
        exact (raised.failSession present flight _ _).finish
  case stepDelayExpiry =>
    simp only [exec, execStepDelayExpiry]
    split
    all_goals rw [answers_next]
    · exact h
    · next n timer =>
      have tuning := h.link.tuning.mp (by simp [h.link.delayed (by simp [timer])])
      have due := h.link.due (by simp [tuning]) { s.vl.due with tune := s.vl.code }
      exact h.linked (w := { s.vl with stepAt := none, due := { s.vl.due with tune := s.vl.code } })
        { due with delayed := nofun } (.inl rfl) rfl rfl rfl
  case settleExpiry =>
    simp only [exec, execSettleExpiry]
    repeat' split
    all_goals rw [answers_next]
    · exact h
    all_goals
      next n timer _ =>
        have settling := h.link.settling (by simp [timer])
        have out : Attended ((s.reach n).setVl { s.vl with settleAt := none }) :=
          h.linked (w := { s.vl with settleAt := none }) { h.link with settling := nofun } (.inl rfl) rfl rfl rfl
        first | exact (out.settleEnds settling).finish | exact out
  case retuneExpiry =>
    simp only [exec, execRetuneExpiry]
    split
    all_goals rw [answers_next]
    · exact h
    · next n timer =>
      exact h.linked (w := { s.vl with retuneDue := true, retuneAt := some ((s.reach n).now + 60000) }) { h.link with }
        (.inl rfl) rfl rfl rfl
  case retuneBegin =>
    simp only [exec, execRetuneBegin]
    split
    all_goals rw [answers_next]
    · next opens => exact (h.retunes opens).finish
    · exact h
  case engaged number =>
    simp only [exec, execEngaged]
    repeat' split
    all_goals rw [answers_next]
    · next engaging => exact (ended.setSession (by rw [engaging]; rfl) rfl rfl).finish
    · exact ended
    · exact h
  case declined number =>
    simp only [exec, execDeclined]
    repeat' split
    all_goals rw [answers_next]
    · next engaging =>
      have ready := ended.setSession (x := .ready) (by rw [engaging]; rfl) rfl rfl
      exact Attended.finish (ready.linked (w := { s.endRequest.vl with
        session := .ready, engageHoldAt := some (s.now + 10000) }) { ready.link with } (.inl rfl) rfl rfl rfl)
    · exact ended
    · exact h
  case engageHoldExpiry =>
    simp only [exec, execEngageHoldExpiry]
    split
    all_goals rw [answers_next]
    · exact h
    · next n timer =>
      exact Attended.finish (h.linked (w := { s.vl with engageHoldAt := none }) { h.link with } (.inl rfl) rfl rfl rfl)
  case shareZeroExpiry =>
    simp only [exec, execShareZeroExpiry]
    split
    all_goals rw [answers_next]
    · exact h
    · next n timer =>
      exact Attended.finish (h.linked (w := { s.vl with shareZeroAt := none, shareZeroOut := true }) { h.link with } (.inl rfl)
        rfl rfl rfl)
  case released number =>
    have cleared : Attended (s.endRequest.setVl { s.endRequest.vl with releaseOwed := false }) :=
      ended.linked (w := { s.endRequest.vl with releaseOwed := false }) { ended.link with } (.inl rfl) rfl rfl rfl
    simp only [exec, execReleased]
    repeat' split
    all_goals rw [answers_next]
    · next releasing => exact (cleared.setSession (x := .ready) (by rw [releasing]; rfl) rfl rfl).finish
    · exact cleared
    · exact h
  case polled number flags ceiling temperature =>
    simp only [exec, execPolled]
    split
    all_goals rw [answers_next]
    · next answered =>
      obtain ⟨f, flight, -⟩ := answeredBy_some answered
      have packed := (ended.replacePack (h.link.present_of_flight flight) (packTempCorrected temperature)).finish
      exact ((packed.meetCeiling _).finish.meetStop _).finish
    · exact h
  all_goals exact absurd family Bool.false_ne_true

/-! ### What every step keeps (O57) -/

theorem exec_attended (c : Instr) (s : State) (unlocked : s.sp.locked = false → s.sp.mode = .config) (h : Attended s) :
    Answers (exec c s) Attended := by
  rcases families c with f | f | f | f | f | f | f
  · exact supervisor_attended c s unlocked f h
  · exact peers_attended c s f h
  · exact line_attended c s f h
  · exact calls_attended c s f h
  · exact converter_attended c s f h
  · exact link_attended c s f h
  · exact session_attended c s f h

theorem ModeControl.unlocked (h : ModeControl s) (free : s.sp.locked = false) : s.sp.mode = .config := by
  by_contra joined
  simpa [free] using h.1.mpr joined

theorem attended_kept : KeptBy (fun _ => True) fun s => ModeControl s ∧ Attended s where
  command c s _ h := by
    obtain ⟨t, e, attended⟩ := exec_attended c s h.1.unlocked h.2
    exact ⟨t, e, (exec_modeControl c s h.1).of_next e, attended⟩
  clock _ _ _ h := ⟨h.1, h.2.of_same rfl rfl rfl⟩
  levels _ _ _ h := ⟨h.1, h.2.of_same rfl rfl rfl⟩
  alone _ _ := trivial

/-- Settles O57: each operation on the link and on the account keeps its invariant (`Linked`, `Accounted`), and so does each
reaction. -/
theorem stepKeepsTheSessionAndTheAccount : Obligations.StepKeepsTheSessionAndTheAccount := fun _ _ control h e =>
  attended_iff.mp (step_keeps_always attended_kept ⟨control, attended_iff.mpr h⟩ e fun _ _ k => ⟨k.1, k.2.of_same rfl rfl rfl⟩).2

end Sys2Proof.Safety
end

