-- ==== Sys2Proof/Proofs/SettledSteps.lean ====
section
/-!
Nothing follows a settled state, and no step of a joined part leaves a reaction open (O51); what the reset state has of all
that steps keep (O59).
-/
namespace Sys2Proof.Safety

open Sys2Proof Sys2Proof.Machine

variable {s t : State}

/-! ### Where nothing follows -/

theorem Settled.finish_eq (h : Settled s) : s.finish = s := by
  obtain ⟨quiet, taken⟩ := h
  have settled : s.settle = s := by
    unfold State.settle
    simp only [quiet.react_eq]
  have taken' : s.takeFrame = s := by
    unfold State.takeFrame
    split
    · next f q none waiting =>
      rw [if_neg]
      unfold State.transmitEnabled
      rintro sends
      simp only [Bool.and_eq_true, bne_iff_ne] at sends
      simp [none, waiting, sends] at taken
    · rfl
  unfold State.finish
  rw [settled, quiet.holdSetpoint_eq, taken', ite_self]

/-! ### What a command leaves settled -/

theorem Undisturbed.settled (same : Undisturbed s t) (attended : Attended s) (table : CallTable s) (h : Settled s) :
    Settled t :=
  ⟨same.quiet (same.calls table) (same.engage attended.link.place) h.1, same.line h.2⟩

theorem Settled.respond (h : Settled s) (r : ResultCode) (d : ResponseData) : Settled (s.respond r d) := by
  obtain ⟨quiet, taken⟩ := h
  exact ⟨{ quiet with }, taken⟩

theorem Ends.settled (ends : Ends s t) (attended : Attended s) (table : CallTable s)
    (h : s.sp.mode ≠ .config → Settled s) (joined : t.sp.mode ≠ .config) : Settled t := by
  cases ends with
  | config unjoined => exact absurd unjoined joined
  | finished u from_ => exact finish_settled from_
  | responded u r d from_ => exact (finish_settled from_).respond r d
  | undisturbed same => exact same.settled attended table (h (same.mode ▸ joined))

theorem settled_kept : KeptBy (fun _ => True) fun s =>
    (ModeControl s ∧ Attended s) ∧ CallTable s ∧ (s.sp.mode ≠ .config → Settled s) where
  command c s _ h := by
    obtain ⟨⟨control, attended⟩, table, settled⟩ := h
    obtain ⟨t, e, kept⟩ := attended_kept.command c s trivial ⟨control, attended⟩
    have ends := (exec_ends c s control.unlocked).of_next e
    exact ⟨t, e, kept, (callTable_kept.command c s trivial table).of_next e, ends.settled attended table settled⟩
  clock s n later h := by
    obtain ⟨kept, table, settled⟩ := h
    have same : Undisturbed s (s.setNow n) := .of_blocks rfl rfl rfl rfl rfl rfl rfl rfl rfl rfl rfl id
    exact ⟨attended_kept.clock s n later kept, table, fun joined => same.settled kept.2 table (settled joined)⟩
  levels s l ls h := by
    obtain ⟨kept, table, settled⟩ := h
    have same : Undisturbed s ((s.setInputs ls).presentLevels l) := by
      constructor
      case line =>
        rintro (flight | empty | busy | locked)
        · exact .inl flight
        · exact .inr (.inl empty)
        · refine .inr (.inr (.inl ?_))
          simp [State.presentLevels, busy]
        · exact .inr (.inr (.inr locked))
      case engage => exact fun _ => .inl rfl
      case plug => exact id
      case calls => exact fun _ => rfl
      all_goals rfl
    exact ⟨attended_kept.levels s l ls kept, table, fun joined => same.settled kept.2 table (settled joined)⟩
  alone _ _ := trivial

/-- The state of a step's command, which has the queue's rest. -/
theorem Settled.setPending (h : Settled s) (rest : List Instr) : Settled (s.setPending rest) := by
  obtain ⟨quiet, taken⟩ := h
  exact ⟨{ quiet with }, taken⟩

/-- Settles O51: where no reaction is open a round changes nothing (`Quiet.react_eq`), and every command leaves CONFIG, ends
with the reactions, or leaves what they read as it was (`exec_ends`). -/
theorem nothingFollowsAQuietState : Obligations.NothingFollowsAQuietState := by
  refine ⟨fun s setpoint notice gates shareZero stop release held start engage retune park wake plug taken => ?_,
    fun s t control kept table settled e => ?_⟩
  · by_cases unjoined : s.sp.mode = .config
    · exact finish_of_config unjoined
    refine Settled.finish_eq ⟨?_, taken⟩
    exact
      { setpoint
        notice
        gates := gates.symm
        shareZero
        stop := fun ready => by simp [stopReady_iff.mpr ready] at stop
        release := fun wanted => by simp [releaseWanted_iff.mpr wanted] at release
        held := held.symm
        start := fun request => ⟨(start request).1, fun runs => (start request).2 ((enabled_cases _).mpr runs)⟩
        engage := by
          rw [engage, Bool.and_eq_true, engageWanted_iff, Bool.not_eq_true']
          simp only [and_assoc]
        retune := by rw [retune, retunable_iff]
        park := fun ready => by simp [parkReady_iff.mpr ready] at park
        wake
        plug := fun high awake => plug high (by simp [State.linkRuns, State.joined, unjoined, awake]) }
  · exact (step_keeps_always settled_kept ⟨⟨control, attended_iff.mpr kept⟩, table, settled⟩ e
      fun _ rest h => ⟨⟨h.1.1, h.1.2.of_same rfl rfl rfl⟩, h.2.1, fun joined => (h.2.2 joined).setPending rest⟩).2.2

/-! ### The reset state (O59) -/

/-- Settles O59: each invariant is evaluated at the reset state. -/
theorem resetHasWhatStepsKeep : Obligations.ResetHasWhatStepsKeep := by
  refine ⟨?_, ?_, ?_, ?_, ?_, ?_, ?_, ?_, ?_, ?_, ?_, ?_, ?_, ?_, ?_, ?_, ?_, ?_, ?_, ?_⟩
  case refine_15 => exact session_iff.mpr (linked_reset _ _)
  case refine_17 => exact account_iff.mpr accounted_reset
  all_goals decide

end Sys2Proof.Safety
end

