-- ==== Sys2Proof/Proofs/ResetAndPins.lean ====
section
/-!
What the hardware reset sets (O3, O4), what STATUS returns (O11), and the events and pins (O52).
-/
namespace Sys2Proof.Safety

open Sys2Proof Sys2Proof.Machine

/-- Settles O3: the reset state, block by block, and what is computed from it. -/
theorem resetHoldsTheStatedValues : Obligations.ResetHoldsTheStatedValues := by
  refine ⟨rfl, rfl, rfl, rfl, rfl, rfl, rfl, rfl, rfl, rfl, ?_⟩
  decide

/-- Settles O4: the straps fit their six bits, and all else is the definition of the reset state. -/
theorem hardwareResetSetsEveryBlock : Obligations.HardwareResetSetsEveryBlock := by
  intro s straps fits
  rw [exec, execHardwareReset, Nat.mod_eq_of_lt fits]
  rfl

/-- Settles O11: the moment's values, and the event set emptied. -/
theorem statusReturnsAndRemovesTheEvents : Obligations.StatusReturnsAndRemovesTheEvents := fun _ => rfl

theorem callInForce_isSome (rs : List CallRecord) :
    (callInForce rs).isSome = true ↔ ∃ r ∈ rs, r.state = .active ∨ r.state = .ending := by
  simp [callInForce, CallRecord.inForce]

theorem interrupt_iff (s : State) : s.interrupt = true ↔
    ∃ k : EventKind, s.sp.config.eventMask.getLsbD k.code.val = true ∧ 0 < s.sp.events.count k := by
  simp only [State.interrupt, List.any_eq_true, List.mem_finRange, true_and, Bool.and_eq_true, decide_eq_true_eq]
  constructor
  · rintro ⟨i, enabled, present⟩
    obtain ⟨k, rfl⟩ := code_surjective i
    exact ⟨k, enabled, present⟩
  · rintro ⟨k, enabled, present⟩
    exact ⟨k.code, enabled, present⟩

/-- Settles O52: the counts of a raised kind, and the pins as the state gives them. -/
theorem eventsCountAndPinsFollow : Obligations.EventsCountAndPinsFollow := by
  refine ⟨fun e k within => ⟨?_, fun j other => e.count_raise_of_ne other⟩, fun s =>
    ⟨?_, enabled_cases _, rfl, rfl, rfl, ?_, ?_, rfl, callInForce_isSome _, ?_, retunable_iff _, ?_, rfl⟩⟩
  · rw [e.count_raise_self]
    unfold satSucc
    split <;> omega
  · rw [← interrupt_iff]
    simp [State.intNPin]
  · simp [State.signal]
  · simp [State.signal]
  · simp [State.signal, Option.isSome_iff_ne_none]
  · simp [State.signal]

end Sys2Proof.Safety
end

