-- ==== Sys2Proof/Proofs/Corrections.lean ====
section
/-!
The ranges that received fields are brought into (O13), and the frames that are not received (O14).
-/
namespace Sys2Proof.Safety

open Sys2Proof Sys2Proof.Machine

/-! ### Limits and codes -/

theorem clampNat_eq {lo hi : Nat} (h : lo ≤ hi) (n : Nat) : clampNat lo hi n = max lo (min hi n) := by
  unfold clampNat
  split
  · omega
  · split <;> omega

theorem clampInt_eq {lo hi : Int} (h : lo ≤ hi) (n : Int) : clampInt lo hi n = max lo (min hi n) := by
  unfold clampInt
  split
  · omega
  · split <;> omega

theorem modeOfCode_eq (n : Nat) : modeOfCode n =
    if n = 0 then .active else if n = 1 then .parking else if n = 2 then .hold else .dormant := by
  match n with
  | 0 | 1 | 2 => rfl
  | k + 3 => simp [modeOfCode]

theorem tuneStatusOfCode_eq (n : Nat) : tuneStatusOfCode n =
    if n = 0 then .moved else if n = 1 then .atTop else if n = 2 then .atBottom else .unchanged := by
  match n with
  | 0 | 1 | 2 => rfl
  | k + 3 => simp [tuneStatusOfCode]

/-- The codes of a DISPATCH's kind are 1 to 4. -/
theorem callKindOfCode_eq (n : Nat) : callKindOfCode n = if n < 1 ∨ 4 < n then none else
    some (if n = 1 then .new else if n = 2 then .revise else if n = 3 then .cancel else .echo) := by
  match n with
  | 0 | 1 | 2 | 3 | 4 => rfl
  | k + 5 => simp [callKindOfCode]

theorem carriedOfCode_eq (n : Nat) : carriedOfCode n =
    if n % 4 = 0 then .absent else if n % 4 = 1 then .pending else if n % 4 = 2 then .active else .ending := by
  have below : n % 4 < 4 := Nat.mod_lt _ (by decide)
  unfold carriedOfCode
  generalize n % 4 = code at below
  match code, below with
  | 0, _ | 1, _ | 2, _ | 3, _ => rfl

theorem carriedOfCode_absent (n : Nat) : carriedOfCode n = .absent ↔ n % 4 = 0 := by
  rw [carriedOfCode_eq]
  split_ifs <;> simp_all

theorem carriedOfCode_ending (n : Nat) : carriedOfCode n = .ending ↔ n % 4 = 3 := by
  rw [carriedOfCode_eq]
  split_ifs <;> simp_all
  omega

/-! ### The corrected frames -/

/-- The kind that a code from 1 to 4 names. -/
def namedKind (n : Nat) : CallKind :=
  if n = 1 then .new else if n = 2 then .revise else if n = 3 then .cancel else .echo

theorem namedKind_echo {n : Nat} (h : ¬(n < 1 ∨ 4 < n)) : namedKind n = .echo ↔ n = 4 := by
  unfold namedKind
  split_ifs <;> simp <;> omega

/-- The state that a DISPATCH carries: an ECHO alone has one. -/
def carriedBy (f : DispatchWire) : CarriedState := if f.kind = 4 then carriedOfCode f.carried else .absent

/-- A DISPATCH that the Call Unit meets. -/
theorem corrected_of_known {f : DispatchWire} (known : ¬(f.kind < 1 ∨ 4 < f.kind)) : f.corrected =
    if f.callId = 0 ∨ (f.kind = 4 ∧ f.carried % 4 = 0) then none
    else some {
      callId := f.callId
      revision := f.revision
      kind := namedKind f.kind
      origin := clampNat 1 48 f.origin
      carried := carriedBy f
      cancelledMark := f.carried.testBit 7 && carriedBy f == .ending
      target := min 30000 f.target
      ramp := clampNat 1 1000 f.ramp
      duration := clampNat 60 14400 f.duration
      countdown := min (countdownLimit (namedKind f.kind) (carriedBy f)) f.countdown } := by
  have kind : callKindOfCode f.kind = some (namedKind f.kind) := by rw [callKindOfCode_eq, if_neg known, namedKind]
  have echo := namedKind_echo known
  unfold DispatchWire.corrected
  rw [kind]
  by_cases four : f.kind = 4
  · simp [carriedBy, four, namedKind, carriedOfCode_absent]
  · simp [carriedBy, four, echo]

theorem corrected_of_unknown {f : DispatchWire} (unknown : f.kind < 1 ∨ 4 < f.kind) : f.corrected = none := by
  unfold DispatchWire.corrected
  rw [callKindOfCode_eq, if_pos unknown]

theorem carriedBy_eq (f : DispatchWire) : carriedBy f =
    if f.kind ≠ 4 then .absent else if f.carried % 4 = 1 then .pending else if f.carried % 4 = 2 then .active
      else if f.carried % 4 = 0 then .absent else .ending := by
  unfold carriedBy
  rw [carriedOfCode_eq]
  split_ifs <;> simp_all

theorem countdownLimit_eq {f : DispatchWire} (known : ¬(f.kind < 1 ∨ 4 < f.kind)) :
    countdownLimit (namedKind f.kind) (carriedBy f) = if f.kind = 4 ∧ f.carried % 4 = 2 then 14400 else 3600 := by
  rw [carriedBy_eq]
  by_cases four : f.kind = 4
  · simp only [four, namedKind, ne_eq, not_true, if_false, true_and]
    split_ifs <;> simp_all [countdownLimit]
  · have other := mt (namedKind_echo known).mp four
    simp [four, countdownLimit]

/-- Settles O13, field by field. -/
theorem receivedFieldsAreCorrected : Obligations.ReceivedFieldsAreCorrected := by
  refine ⟨fun f => ?_, fun f => ?_, fun f => ?_, fun v => ?_, fun n => ⟨rfl, tuneStatusOfCode_eq n⟩⟩
  · rw [StandingWire.corrected, modeOfCode_eq]
  · rw [CurbWire.corrected, clampNat_eq (by decide), clampInt_eq (by decide)]
  · by_cases known : f.kind < 1 ∨ 4 < f.kind
    · rw [corrected_of_unknown known]
      exact ⟨by tauto, by simp⟩
    · rw [corrected_of_known known]
      by_cases disregarded : f.callId = 0 ∨ (f.kind = 4 ∧ f.carried % 4 = 0)
      · rw [if_pos disregarded]
        exact ⟨by tauto, by simp⟩
      · rw [if_neg disregarded]
        refine ⟨iff_of_false (by simp) (by tauto), ?_⟩
        rintro d ⟨⟩
        refine ⟨rfl, rfl, rfl, clampNat_eq (by decide) _, ?_, ?_, rfl, clampNat_eq (by decide) _,
          clampNat_eq (by decide) _, by rw [countdownLimit_eq known]⟩
        · rw [carriedBy_eq]
          split_ifs <;> simp_all
        · by_cases four : f.kind = 4
          · simp [carriedBy, four, carriedOfCode_ending, Bool.beq_eq_decide_eq]
          · simp [carriedBy, four]
  · simp [itemCorrected, itemRange, packTempCorrected, clampInt_eq]

/-- Settles O14: the receiver alone decides. -/
theorem unheardAndBadFrames : Obligations.UnheardAndBadFrames := by
  intro s
  have receives : s.receives = true ↔ s.sp.mode ≠ .config ∧ ∀ f, s.lp.inFlight = some f → f.phase ≠ .sending := by
    cases flight : s.lp.inFlight <;> simp [State.receives, State.joined, State.transmitting, flight]
  constructor
  · intro joined listens
    have hears : s.receives = true := receives.mpr ⟨joined, listens⟩
    simp [exec, execBadFrame, hears]
    rfl
  · intro deaf
    have unheard : s.receives = false := by
      rw [Bool.eq_false_iff, ne_eq, receives]
      rintro ⟨joined, listens⟩
      rcases deaf with h | ⟨f, h, sending⟩
      · exact joined h
      · exact listens f h sending
    simp [exec, execStanding, execLeave, execDispatch, execCurb, execBadFrame, execDuplicateStall, unheard]

end Sys2Proof.Safety
end

