-- ==== Sys2Proof/Proofs/PeerCommands.lean ====
section
/-!
The Peer View's commands: STANDING (O15), LEAVE (O16), and the sweep with the isolation timers (O17).
-/
namespace Sys2Proof.Safety

open Sys2Proof Sys2Proof.Machine

/-- A handling whose own effect is `u` ends in a state that has reacted to it. -/
theorem next_finish_of_eq {s u : State} (h : s = u) :
    ∃ t, (Host.Outcome.next s.finish : Host.Outcome State Fault Refusal) = .next t ∧ Reacted u t :=
  ⟨_, rfl, h ▸ finish_reacted s⟩

/-! ### The frames of the other posts -/

section
variable {s : State} {stall seq : Nat}

/-- A STANDING of another stall in the roster, after its heard notice. -/
theorem exec_standing_known (hears : Hears s stall) (inside : s.inRoster stall = true) (f : StandingWire) :
    exec (.standing stall seq f) s =
      if ((heardFrom s stall seq).acceptStanding stall seq f.corrected).clearsOnStanding then
        .next ((heardFrom s stall seq).acceptStanding stall seq f.corrected).clearIsolation.finish
      else .next ((heardFrom s stall seq).acceptStanding stall seq f.corrected) := by
  obtain ⟨receives, other⟩ := hears
  have known : (heardFrom s stall seq).inRoster stall = true := inside
  simp only [exec, execStanding, receives, if_neg other, heardFrom_eq, known, Bool.not_true, Bool.false_eq_true,
    if_false]

theorem exec_standing_unknown (hears : Hears s stall) (outside : s.inRoster stall = false) (f : StandingWire) :
    exec (.standing stall seq f) s = .next ((heardFrom s stall seq).raise .rosterMismatch) := by
  obtain ⟨receives, other⟩ := hears
  have unknown : (heardFrom s stall seq).inRoster stall = false := outside
  simp only [exec, execStanding, receives, if_neg other, heardFrom_eq, unknown, Bool.not_true, Bool.not_false,
    Bool.false_eq_true, if_false, if_true]

theorem exec_leave_known (hears : Hears s stall) (inside : s.inRoster stall = true) (reason : Nat) :
    exec (.leave stall seq reason) s = .next ((heardFrom s stall seq).setPv { (heardFrom s stall seq).pv with
      entries := (heardFrom s stall seq).pv.entries.filter (·.stall != stall) }) := by
  obtain ⟨receives, other⟩ := hears
  have known : (heardFrom s stall seq).inRoster stall = true := inside
  simp only [exec, execLeave, receives, if_neg other, heardFrom_eq, known, Bool.not_true, Bool.false_eq_true,
    if_false]

theorem exec_leave_unknown (hears : Hears s stall) (outside : s.inRoster stall = false) (reason : Nat) :
    exec (.leave stall seq reason) s = .next ((heardFrom s stall seq).raise .rosterMismatch) := by
  obtain ⟨receives, other⟩ := hears
  have unknown : (heardFrom s stall seq).inRoster stall = false := outside
  simp only [exec, execLeave, receives, if_neg other, heardFrom_eq, unknown, Bool.not_true, Bool.not_false,
    Bool.false_eq_true, if_false, if_true]

theorem inRoster_iff (s : State) (stall : Nat) : s.inRoster stall = true ↔ 1 ≤ stall ∧ stall ≤ s.sp.config.posts := by
  simp [State.inRoster]

end

/-- The heard notice keeps the stalls of the table. -/
theorem heardFrom_stalls (s : State) (stall seq : Nat) :
    (heardFrom s stall seq).pv.entries.map (·.stall) = s.pv.entries.map (·.stall) := by
  simp only [heardFrom, List.map_map]
  refine List.map_congr_left fun e _ => ?_
  simp only [Function.comp_apply]
  split <;> rfl

theorem heardFrom_hasEntry (s : State) (stall seq k : Nat) :
    (heardFrom s stall seq).pv.hasEntry k = s.pv.entries.any (·.stall == k) := by
  have stalls := congrArg (List.any · (· == k)) (heardFrom_stalls s stall seq)
  simpa [List.any_map, Function.comp_def, PeerView.hasEntry] using stalls

theorem heardFrom_ascending {s : State} (stall seq : Nat)
    (ascending : s.pv.entries.Pairwise (fun a b => a.stall < b.stall)) :
    (heardFrom s stall seq).pv.entries.Pairwise (fun a b => a.stall < b.stall) := by
  have stalls := List.pairwise_map.mpr ascending
  rw [← heardFrom_stalls s stall seq] at stalls
  exact List.pairwise_map.mp stalls

/-- Settles O15: the entry of the stall is replaced, or a new one stands in its place. -/
theorem standingReplacesTheEntry : Obligations.StandingReplacesTheEntry := by
  intro s stall seq f hears low high ascending h known entries u
  have has : h.pv.hasEntry stall = known := heardFrom_hasEntry s stall seq stall
  have table : acceptedEntries h.pv.entries h.now stall seq f.corrected = entries := by
    unfold acceptedEntries
    rw [show h.pv.entries.any (·.stall == stall) = known from has]
    cases there : known
    · have strangers : ∀ e ∈ h.pv.entries, e.stall ≠ stall := by
        rw [← has] at there
        simpa [PeerView.hasEntry] using there
      have place := placeEntry_of_ascending ⟨stall, seq, 0, f.corrected, h.now, false⟩ h.pv.entries
        (heardFrom_ascending stall seq ascending) strangers
      simp only [entries, there]
      exact place
    · simp only [entries, there]
      rfl
  have accepted : h.acceptStanding stall seq f.corrected = u := by
    unfold State.acceptStanding
    rw [has, table]
    cases there : known <;> simp only [u, there] <;> rfl
  have clears : u.clearsOnStanding = true ↔ s.pv.isolated = true ∧ s.pv.lastOutcome = .echoed := by
    simp [State.clearsOnStanding, u, h, heardFrom]
  rw [exec_standing_known hears ((inRoster_iff _ _).mpr ⟨low, high⟩), accepted]
  constructor
  · intro stays
    rw [if_neg (mt clears.mp stays)]
  · intro isolated echoed
    rw [if_pos (clears.mpr ⟨isolated, echoed⟩)]
    exact next_finish_of_eq rfl

/-- Settles O16. -/
theorem leaveDeletesTheEntry : Obligations.LeaveDeletesTheEntry := by
  intro s stall seq hears
  constructor
  · intro low high reason
    rw [exec_leave_known hears ((inRoster_iff _ _).mpr ⟨low, high⟩)]
    have other : (fun e : PeerEntry => e.stall != stall) = fun e => decide (e.stall ≠ stall) := by
      funext e
      simp [bne, Bool.beq_eq_decide_eq]
    rw [other]
    rfl
  · intro outside
    have absent : s.inRoster stall = false := by
      rw [Bool.eq_false_iff, ne_eq, inRoster_iff]
      omega
    exact ⟨exec_standing_unknown hears absent, exec_leave_unknown hears absent⟩

theorem entryLost_iff (e : PeerEntry) (now : Nat) : e.state now = .lost ↔ 8000 ≤ now - e.received := by
  unfold PeerEntry.state PeerEntry.age entryStateOfAge
  split
  · simp; omega
  · split
    · simp; omega
    · simp; omega

/-- The table after a sweep: what is old is marked, what is older still is gone (R9). -/
theorem sweptEntries_eq (es : List PeerEntry) (now : Nat) : sweptEntries es now =
    (es.filter fun e => decide (now - e.received < 60000)).map fun e =>
      if decide (8000 ≤ now - e.received) then { e with lostMark := true } else e := by
  simp only [sweptEntries, entryLost_iff, decide_eq_true_eq]
  rfl

theorem newlyLost_eq (e : PeerEntry) (now : Nat) :
    e.newlyLost now = (decide (8000 ≤ now - e.received) && !e.lostMark) := by
  have lost := entryLost_iff e now
  simp only [PeerEntry.newlyLost, ← lost, Bool.beq_eq_decide_eq]

/-- What a cause of isolation adds (R13, R14). -/
theorem isolate_eq (s : State) (silence : Bool) : s.isolate silence = { s with
    pv := { s.pv with
      isolated := true
      causeSilence := s.pv.causeSilence || silence
      causeEcho := s.pv.causeEcho || !silence
      rejoining := s.pv.isolated && s.pv.rejoining
      rejoinAt := if s.pv.isolated then s.pv.rejoinAt else none }
    sp := { s.sp with events := if s.pv.isolated then s.sp.events else s.sp.events.raise .isolationOn } } := by
  unfold State.isolate
  rw [State.raiseIf_eq]
  cases isolated : s.pv.isolated <;> rfl

/-- Settles O17: the sweep and the two timers, each running and the sweep stopped. -/
theorem sweepAndIsolationTimersRun : Obligations.SweepAndIsolationTimersRun := by
  refine ⟨⟨?_, ?_⟩, ?_, ?_⟩
  · intro s at' timer counts now old
    refine ⟨s.sp.events.raiseTimes .peerLost (s.pv.entries.countP fun e => old e && !e.lostMark),
      raiseTimes_spec _ _ _ (count_le counts _), ?_⟩
    simp only [exec, execSweep, timer, State.raiseTimes_eq, sweptEntries_eq, newlyLost_eq]
    rfl
  · intro s timer
    simp [exec, execSweep, timer]
  · intro s at' timer
    simp only [exec, execLastHeardExpiry, timer]
    apply next_finish_of_eq
    rw [isolate_eq]
    simp [State.reach, State.setNow, State.setPv]
    exact ⟨rfl, rfl⟩
  · intro s at' timer
    simp only [exec, execRejoinHoldExpiry, timer]
    exact next_finish_of_eq rfl

end Sys2Proof.Safety
end

