-- ==== Sys2Proof/Proofs/LineCommands.lean ====
section
/-!
The line's commands: the own stall on the line (O18), the transmit queue (O19), the idle line (O20), the STANDING
timer (O21), and the outcomes of the own frame (O22, O23).
-/
namespace Sys2Proof.Safety

open Sys2Proof Sys2Proof.Machine

/-! ### The own stall on the line -/

theorem slowPoll_iff (m : PostMode) : m.slowPoll = true ↔ m = .hold ∨ m = .lockout := by
  cases m <;> decide

/-- A change of mode: the mode, and the poll timer at its period (R147). -/
theorem setMode_pollIn (s : State) (m : PostMode) : s.setMode m = { s with
    vl := { s.vl with pollAt := pollIn s m }, sp := { s.sp with mode := m } } := by
  have same : (if (s.sp.mode != m) && (s.sp.mode.slowPoll || m.slowPoll) && s.vl.pollAt.isSome then
      some (s.now + m.pollPeriod) else s.vl.pollAt) = pollIn s m := by
    simp only [pollIn, Bool.and_eq_true, Bool.or_eq_true, bne_iff_ne, Option.isSome_iff_ne_none, slowPoll_iff, and_assoc,
      or_assoc, PostMode.pollPeriod]
  rw [setMode_eq, same]

/-- The state that a good frame of the own stall meets: it is counted and reported (R34). -/
def ownStallHeard (s : State) : State := { s with
  lp := { s.lp with stats := { s.lp.stats with received := satSucc 65535 s.lp.stats.received } }
  sp := { s.sp with events := s.sp.events.raise .duplicateStall } }

/-- The state locked out (R35, R133). -/
def lockedOut (s : State) : State := { s with
  lp := { s.lp with queue := [], inFlight := none, standingAt := none }
  cc := if s.cc.state.enabled then converterOff s.cc else { s.cc with setpoint := 0 }
  vl := { s.vl with pollAt := pollIn s .lockout }
  sp := { s.sp with mode := .lockout } }

theorem enterLockout_eq_lockedOut {s : State} (mode : s.sp.mode ≠ .lockout) : s.enterLockout = lockedOut s := by
  rw [enterLockout_eq s mode, setMode_pollIn]
  rfl

theorem meetDuplicate_ready {s : State} (ready : s.sp.restarting = none) :
    s.meetDuplicate = (ownStallHeard s).enterLockout := by
  unfold State.meetDuplicate
  dsimp only
  split
  · next held => cases ready.symm.trans held
  · rfl

theorem meetDuplicate_waits {s : State} {r : Restarting} (waits : s.sp.restarting = some r) : s.meetDuplicate =
    (ownStallHeard s).setSp { (ownStallHeard s).sp with restarting := some { r with duplicateHeld := true } } := by
  unfold State.meetDuplicate
  dsimp only
  split
  · next held =>
    cases waits.symm.trans held
    rfl
  · next held => cases waits.symm.trans held

theorem exec_ownStall {s : State} {c : Instr} (receives : s.receives = true)
    (own : (∃ kind, c = .duplicateStall kind) ∨ (∃ seq f, c = .standing s.lp.stall seq f) ∨
      (∃ seq reason, c = .leave s.lp.stall seq reason) ∨ (∃ seq f, c = .dispatch s.lp.stall seq f) ∨
      (∃ seq f, c = .curb s.lp.stall seq f)) : exec c s = .next s.meetDuplicate.finish := by
  rcases own with ⟨_, rfl⟩ | ⟨_, _, rfl⟩ | ⟨_, _, rfl⟩ | ⟨_, _, rfl⟩ | ⟨_, _, rfl⟩
  · simp [exec, execDuplicateStall, receives]
  · simp [exec, execStanding, receives]
  · simp [exec, execLeave, receives]
  · simp [exec, execDispatch, receives]
  · simp [exec, execCurb, receives]

/-- Settles O18: the duplicate locks the post out, is counted in LOCKOUT, and is held in a restart's wait. -/
theorem duplicateStallLocksOut : Obligations.DuplicateStallLocksOut := by
  intro s c receives own met
  refine ⟨_, exec_ownStall receives own, fun ready mode => ?_, fun ready mode => ?_, fun r waits => ?_⟩
  · have elsewhere : (ownStallHeard s).sp.mode ≠ .lockout := mode
    rw [meetDuplicate_ready ready, enterLockout_eq_lockedOut elsewhere]
    exact ⟨finish_mode (lockedOut (ownStallHeard s)) (by simp [lockedOut]) (by simp [lockedOut]),
      finish_reacted (lockedOut (ownStallHeard s))⟩
  · have there : (ownStallHeard s).sp.mode = .lockout := mode
    rw [meetDuplicate_ready ready, State.enterLockout, if_pos there]
    exact finish_reacted (ownStallHeard s)
  · rw [meetDuplicate_waits waits]
    exact finish_reacted _

/-! ### The transmit queue -/

section
variable {s : State} {f : QueuedFrame}

theorem enqueue_of_room (joined : s.sp.mode ≠ .config) (open' : s.sp.mode ≠ .lockout) (room : s.lp.queue.length < 8) :
    s.enqueue f = { s with lp := { s.lp with queue := placeFrame f s.lp.queue } } := by
  have kept : drops s.lp.queue = false := decide_eq_false (by omega)
  rw [enqueue_eq s f joined open', enqueueNow_eq, enqueued, if_pos room, kept]
  rfl

/-- The state whose full queue has dropped a frame (R23). -/
def frameDropped (s : State) : State := { s with
  lp := { s.lp with stats := { s.lp.stats with queueDrops := satSucc 65535 s.lp.stats.queueDrops } }
  sp := { s.sp with events := s.sp.events.raise .frameDropped } }

theorem enqueue_of_full (joined : s.sp.mode ≠ .config) (open' : s.sp.mode ≠ .lockout) (full : s.lp.queue.length = 8) :
    s.enqueue f = { frameDropped s with lp := { (frameDropped s).lp with
      queue := if lowestRank s.lp.queue < f.rank then placeFrame f (evictOldest (lowestRank s.lp.queue) s.lp.queue)
        else s.lp.queue } } := by
  have drops : drops s.lp.queue = true := decide_eq_true (by omega)
  rw [enqueue_eq s f joined open', enqueueNow_eq, enqueued, if_neg (by omega), drops]
  rfl

end

theorem takeFrame_takes {s : State} {f : QueuedFrame} {q : List QueuedFrame} (queue : s.lp.queue = f :: q)
    (free : s.lp.inFlight = none) (idle : s.lp.lineIdle = true) (joined : s.sp.mode ≠ .config)
    (open' : s.sp.mode ≠ .lockout) : s.takeFrame = { s with lp := { s.lp with
      queue := q, inFlight := some ⟨s.lp.seq, s.bodyOf f, 1, .sending⟩, seq := (s.lp.seq + 1) % 256
      lineIdle := false } } := by
  simp [State.takeFrame, queue, free, idle, State.transmitEnabled, State.joined, joined, open']
  rfl

theorem takeFrame_waits {s : State} (waits : s.lp.queue = [] ∨ s.lp.inFlight ≠ none ∨ s.lp.lineIdle = false ∨
    s.sp.mode = .config ∨ s.sp.mode = .lockout) : s.takeFrame = s := by
  unfold State.takeFrame
  split
  · next f q free queue =>
    rw [if_neg]
    simp only [queue, free, State.transmitEnabled, State.joined] at waits ⊢
    grind
  · rfl

/-- Settles O19: a frame handed in, and the head frame taken. -/
theorem queueTakesAndYieldsFrames : Obligations.QueueTakesAndYieldsFrames := by
  constructor
  swap
  · intro s
    exact ⟨fun f q queue free idle joined open' => takeFrame_takes queue free idle joined open', takeFrame_waits,
      fun _ => rfl, fun _ => rfl, rfl, rfl⟩
  intro s f ordered _ placed
  refine ⟨enqueue_refused s f, fun joined open' => ⟨fun room => ?_, fun full => ⟨?_, ?_⟩⟩⟩
  · rw [enqueue_of_room joined open' room, placeFrame_of_ordered f _ ordered]
  · rintro ⟨g, mem, below, least⟩
    have lowest := lowestRank_eq s.lp.queue ordered g mem least
    rw [enqueue_of_full joined open' full, if_neg (by omega)]
    rfl
  · intro before g after queue above first rest
    have least : ∀ h ∈ s.lp.queue, g.rank ≤ h.rank := by
      rw [queue]
      intro h mem
      rcases List.mem_append.mp mem with early | late
      · exact (first h early).le
      · rcases List.mem_cons.mp late with rfl | later
        · exact le_rfl
        · exact (rest h later).ge
    have lowest := lowestRank_eq s.lp.queue ordered g (by simp [queue]) least
    have evicted : evictOldest g.rank s.lp.queue = before ++ after := by
      rw [queue]
      exact evictOldest_at g.rank before g after first rfl
    have still : (before ++ after).Pairwise (fun a b => b.rank ≤ a.rank) := by
      rw [queue] at ordered
      exact ordered.sublist (List.Sublist.append_left (List.sublist_cons_self _ _) _)
    rw [enqueue_of_full joined open' full, lowest, if_pos above, evicted, placeFrame_of_ordered f _ still]
    rfl

/-! ### The idle line and the STANDING timer -/

theorem mustNotOffer_iff (s : State) : s.mustNotOffer = true ↔
    s.pv.isolated = true ∨ s.pv.rejoining = true ∨ s.cu.cutHold = true ∨ s.sp.mode ≠ .active := by
  simp [State.mustNotOffer, or_assoc]

/-- A STANDING may not offer at a later attempt; the other frames go as they are (R28). -/
theorem bodyAtRetry_eq (s : State) (b : FrameBody) : s.bodyAtRetry b = match b with
    | .standing a =>
      .standing (if s.pv.isolated = true ∨ s.pv.rejoining = true ∨ s.cu.cutHold = true ∨ s.sp.mode ≠ .active then
        { a with offer := 0 } else a)
    | b => b := by
  cases b with
  | standing a => simp only [State.bodyAtRetry, mustNotOffer_iff]
  | curb c => rfl
  | dispatch d => rfl
  | leave => rfl

/-- Settles O20, by the phase of the frame in flight. -/
theorem lineIdleLetsTheLineBeUsed : Obligations.LineIdleLetsTheLineBeUsed := by
  intro s
  refine ⟨fun free => ?_, fun f flight => ⟨fun phase => ?_, fun slots phase => ?_, fun ends phase => ?_, fun phase => ?_⟩⟩
  · simp only [exec, execLineIdle, free]
    rw [← free]
    rfl
  · simp only [exec, execLineIdle, flight, phase]
  · simp only [exec, execLineIdle, flight, phase]
    rfl
  · simp only [exec, execLineIdle, flight, phase]
    rw [← flight]
    rfl
  · simp only [exec, execLineIdle, flight, phase, State.beginAttempt, bodyAtRetry_eq]
    rfl

/-- What a request for a STANDING makes of the queue (R24). -/
theorem enqueued_standing (q : List QueuedFrame) :
    enqueued .standing q = if 8 ≤ q.length then q else q ++ [.standing] := by
  unfold enqueued
  split
  · next room => rw [if_neg (by omega), placeFrame_standing]
  · next full => rw [if_neg (standing_not_above q), if_pos (by omega)]

/-- A request for a STANDING (R24): one that waits stands for it, and a full queue drops it. -/
theorem enqueueStanding_eq {s : State} (joined : s.sp.mode ≠ .config) (open' : s.sp.mode ≠ .lockout) :
    let queued : Bool := s.lp.queue.any (·.isStanding)
    let full : Bool := !queued && decide (8 ≤ s.lp.queue.length)
    s.enqueueStanding = { s with
      lp := { s.lp with
        queue := if queued || full then s.lp.queue else s.lp.queue ++ [.standing]
        stats := { s.lp.stats with
          queueDrops := if full then satSucc 65535 s.lp.stats.queueDrops else s.lp.stats.queueDrops } }
      sp := { s.sp with events := if full then s.sp.events.raise .frameDropped else s.sp.events } } := by
  intro queued full
  have takes : s.transmitEnabled = true := transmits_iff.mp ⟨joined, open'⟩
  unfold State.enqueueStanding
  rw [takes, Bool.true_and]
  cases waits : queued
  · rw [if_pos (by simpa [queued] using waits), enqueueNow_eq, enqueued_standing]
    simp [drops, full, waits]
  · rw [if_neg (by simpa [queued] using waits)]
    simp [full, waits]

/-- Settles O21. -/
theorem standingTimerEnqueuesOne : Obligations.StandingTimerEnqueuesOne := by
  constructor
  · intro s at' timer joined open' now queued full
    obtain ⟨low, high⟩ := State.drawn_range (s.reach at') 1000 100
    refine ⟨_, _, low, high, rfl, ?_⟩
    simp only [exec, execStandingTimer, timer]
    unfold State.startStanding
    dsimp only
    rw [enqueueStanding_eq (by exact joined) (by exact open')]
    rfl
  · intro s timer
    simp only [exec, execStandingTimer, timer]

/-! ### The outcomes of the own frame -/

/-- An own outcome ECHOED ends isolation where a STANDING was accepted within the last second (R14, R15). -/
theorem ownEchoed_eq (s : State) :
    let clears : Bool := s.pv.isolated && s.pv.lastAccepted.any fun at' => decide (s.now - at' < 1000)
    s.ownEchoed = { s with
      pv := { s.pv with
        lastOutcome := .echoed
        isolated := s.pv.isolated && !clears
        causeSilence := s.pv.causeSilence && !clears
        causeEcho := s.pv.causeEcho && !clears
        rejoining := s.pv.rejoining || clears
        rejoinAt := if clears then some (s.now + 2000) else s.pv.rejoinAt }
      sp := { s.sp with events := if clears then s.sp.events.raise .isolationOff else s.sp.events } } := by
  intro clears
  unfold State.ownEchoed
  dsimp only
  split
  · next at' accepted =>
    have accepted : s.pv.lastAccepted = some at' := accepted
    have both : clears = true ↔ s.pv.isolated = true ∧ s.now - at' < 1000 := by simp [clears, accepted]
    split
    · next h =>
      have isolated : s.pv.isolated = true := h.1
      rw [both.mpr h]
      simp [isolated, State.clearIsolation]
      rfl
    · next h =>
      rw [Bool.eq_false_iff.mpr (mt both.mp h)]
      simp
      rfl
  · next accepted =>
    have accepted : s.pv.lastAccepted = none := accepted
    have stays : clears = false := by simp [clears, accepted]
    rw [stays]
    simp
    rfl

theorem restartMode_eq (o : PostMode) (d : Bool) : restartMode o d =
    if d then .lockout else if o = .hold ∨ o = .dormant then .dormant else .active := by
  cases o <;> cases d <;> rfl

/-- Settles O22: the echo, and the restart that an echoed LEAVE completes. -/
theorem echoSuccessEndsTheFrame : Obligations.EchoSuccessEndsTheFrame := by
  intro s f idle flight sending clears u
  have effect : exec (.echoSuccess idle) s = .next (u.leaveEchoed f.body).finish := by
    simp only [exec, execEchoSuccess, flight, sending, if_true]
    rw [ownEchoed_eq]
    rfl
  rw [effect]
  constructor
  · intro stays
    apply next_finish_of_eq
    unfold State.leaveEchoed
    split
    · next r leave waits =>
      have waits : s.sp.restarting = some r := waits
      simp [leave, waits] at stays
    · rfl
  · intro leave r waits
    have held : u.sp.restarting = some r := waits
    have completes : u.leaveEchoed f.body = u.completeRestart r.origin r.duplicateHeld := by
      simp only [State.leaveEchoed, leave, held]
    obtain ⟨echoLow, echoHigh⟩ := State.drawn_range u 10000 1000
    obtain ⟨standingLow, standingHigh⟩ := State.drawn_range u.countDraw 1000 100
    rw [completes, completeRestart_eq_restartedInto, restartMode_eq]
    exact ⟨_, _, _, rfl, echoLow, echoHigh, standingLow, standingHigh, finish_reacted _⟩

/-- A frame given up (R14, R31): an echo failure, the third of which isolates the post. -/
theorem givenUp_eq (s : State) :
    let third : Bool := decide (2 ≤ s.lp.echoFailures)
    let isolates : Bool := third && !s.pv.isolated
    s.givenUp = { s with
      lp := { s.lp with
        inFlight := none
        echoFailures := if third then 3 else s.lp.echoFailures + 1
        stats := { s.lp.stats with attemptDrops := satSucc 65535 s.lp.stats.attemptDrops } }
      pv := { s.pv with
        lastOutcome := .notEchoed
        isolated := s.pv.isolated || third
        causeEcho := s.pv.causeEcho || third
        rejoining := s.pv.rejoining && !isolates
        rejoinAt := if isolates then none else s.pv.rejoinAt }
      sp := { s.sp with events :=
        if isolates then (s.sp.events.raise .frameDropped).raise .isolationOn else s.sp.events.raise .frameDropped } } := by
  intro third isolates
  have counted : satSucc 3 s.lp.echoFailures = if third then 3 else s.lp.echoFailures + 1 := by
    unfold satSucc
    simp only [third, decide_eq_true_eq]
    split <;> split <;> omega
  have reached : 3 ≤ satSucc 3 s.lp.echoFailures ↔ third = true := by
    rw [counted]
    simp only [third, decide_eq_true_eq]
    split <;> omega
  unfold State.givenUp State.ownNotEchoed
  dsimp only
  split
  · next failed =>
    rw [isolate_eq]
    have isThird : third = true := reached.mp failed
    simp only [isolates, isThird]
    cases isolated : s.pv.isolated <;> simp [isolated, counted, isThird]
  · next failed =>
    have notThird : third = false := Bool.eq_false_iff.mpr (mt reached.mpr failed)
    simp [isolates, notThird, counted]
    rfl

/-- Settles O23. -/
theorem collisionBacksOff : Obligations.CollisionBacksOff := by
  intro s f idle flight
  refine ⟨fun sending early => ?_, fun sending last => ?_, fun ends phase => ⟨?_, ?_⟩⟩
  · obtain ⟨low, high⟩ := State.drawn_range s 1 15
    refine ⟨_, low, high, ?_⟩
    simp only [exec, execCollision, flight, sending, if_true, if_pos early]
    rfl
  · intro third isolates
    simp only [exec, execCollision, flight, sending, if_true, if_neg (Nat.not_lt.mpr last)]
    apply next_finish_of_eq
    rw [givenUp_eq]
    rfl
  · simp only [exec, execBackoffEnd, flight, phase, if_true, State.beginAttempt, bodyAtRetry_eq]
    rfl
  · simp only [exec, execBackoffEnd, flight, phase, Bool.false_eq_true, if_false]
    rfl

end Sys2Proof.Safety
end

