-- ==== Sys2Proof/Proofs/CallIntake.lean ====
section
/-!
The intake of a DISPATCH or CALL: the notices (R52, R174), what an unknown call makes (O24) and what a command makes
of its record (O25).
-/
namespace Sys2Proof.Safety

open Sys2Proof Sys2Proof.Machine

/-! ### The notices -/

variable {s : State} {r : CallRecord} {d : CallFrame} {rs : List CallRecord}

/-- The wake of a post in HOLD (R174). -/
def woken (s : State) : State := { s with
  vl := { s.vl with pollAt := pollIn s .active }
  sp := { s.sp with mode := .active, events := s.sp.events.raise .callWake } }

theorem callNotice_wakes (hold : s.sp.mode = .hold) (ready : s.sp.restarting = none) (wakes : r.wakes = true) :
    s.callNotice r = woken s := by
  rw [State.callNotice, if_pos ⟨hold, ready, wakes⟩, setMode_pollIn]
  rfl

theorem callNotice_stays (stays : ¬(s.sp.mode = .hold ∧ s.sp.restarting = none ∧ r.wakes = true)) :
    s.callNotice r = s := by
  rw [State.callNotice, if_neg stays]

/-- The notice of a created or revised call, by the condition of its wake (R174, R177). -/
theorem callNotice_of (wakes : Bool)
    (condition : (decide (s.sp.mode = .hold) && s.sp.restarting.isNone && r.wakes) = wakes) :
    s.callNotice r = if wakes then woken s else s := by
  cases wakes
  · refine callNotice_stays fun ⟨hold, ready, wakes⟩ => ?_
    simp [hold, ready, wakes] at condition
  · simp only [Bool.and_eq_true, decide_eq_true_eq, Option.isNone_iff_eq_none] at condition
    obtain ⟨⟨hold, ready⟩, wakes⟩ := condition
    exact callNotice_wakes hold ready wakes

theorem wakes_iff (r : CallRecord) : r.wakes = true ↔
    (r.state = .pending ∧ (r.deferred = true ∨ r.countdown ≤ 1800)) ∨ r.state = .active ∨ r.state = .ending := by
  cases state : r.state <;> simp [CallRecord.wakes, state]

/-- The state with a new table, before any notice of it. -/
def withCalls (s : State) (rs : List CallRecord) : State := { s with ct := { s.ct with records := rs } }

/-- A computation before the wake is one that may follow it. -/
theorem woken_compute_reacted (s : State) (k : Trigger) : Reacted (woken s) (woken (s.compute k)) := by
  have rest : blank (woken (s.compute k)) = blank (woken s) := by
    rw [compute_eq]
    simp only [blank, woken, computation_stepAt]
  refine ⟨rest, ?_⟩
  rw [compute_eq]
  split
  · exact { Moves.refl (woken s) with records := .inr rfl }
  · exact Moves.of_same rfl rfl rfl rfl rfl rfl rfl rfl

/-- A new table and its notices, but for the computation that they start. -/
theorem callNotice_setCalls_reacted (s : State) (rs : List CallRecord) (r : CallRecord) :
    Reacted ((withCalls s rs).callNotice r) ((s.setCalls rs).callNotice r) := by
  by_cases wakes : s.sp.mode = .hold ∧ s.sp.restarting = none ∧ r.wakes = true
  · obtain ⟨hold, ready, wakes⟩ := wakes
    rw [callNotice_wakes (s := withCalls s rs) hold ready wakes, callNotice_wakes (by simpa) (by simpa) wakes]
    unfold State.setCalls
    dsimp only
    split
    · exact Reacted.refl _
    · exact woken_compute_reacted (withCalls s rs) .call
  · rw [callNotice_stays (s := withCalls s rs) wakes, callNotice_stays (by simpa using wakes)]
    exact setCalls_reacted s rs

/-! ### The intake, by what the table holds -/

theorem intake_unknown (unknown : ∀ x ∈ s.ct.records, x.callId ≠ d.callId) : s.intake d = s.createCall d := by
  rw [State.intake, findCall_of_unknown _ _ unknown]

theorem createCall_ignored (kind : d.kind = .echo) (carried : d.carried = .ending) :
    s.createCall d = (s, .ignored) := if_pos ⟨kind, carried⟩

theorem createCall_discarded (kind : ¬(d.kind = .echo ∧ d.carried = .ending))
    (full : withFreeSlot s.ct.records = none) : s.createCall d = (s.raise .callDiscarded, .discarded) := by
  rw [State.createCall, if_neg kind, full]

/-- The events of a call that is created (R43, R52). -/
def createdEvents (e : EventSet) (d : CallFrame) (changes : Nat) : EventSet :=
  (if d.kind = .cancel then e else e.raise .callNew).raiseTimes .callState changes

/-- The state in which a created call is notified. -/
def withEvents (s : State) (e : EventSet) : State := { s with sp := { s.sp with events := e } }

theorem createCall_created (kind : ¬(d.kind = .echo ∧ d.carried = .ending)) (room : withFreeSlot s.ct.records = some rs) :
    s.createCall d =
      (((withEvents s (createdEvents s.sp.events d (d.createdRecord s.now (slotFree rs)).2)).setCalls
        (placeCall (d.createdRecord s.now (slotFree rs)).1 rs)).callNotice (d.createdRecord s.now (slotFree rs)).1,
      if d.kind = .cancel then .tombstone else .created) := by
  rw [State.createCall, if_neg kind, room]
  simp only [State.raiseIf_eq, State.raiseTimes_eq, decide_eq_true_eq]
  by_cases cancel : d.kind = .cancel
  · simp only [createdEvents, cancel]
    rfl
  · simp only [createdEvents, cancel]
    rfl

theorem withFreeSlot_room (room : rs.length < 4) : withFreeSlot rs = some rs := if_pos room

theorem withFreeSlot_evicts {old : CallRecord} (full : rs.length = 4) (oldest : oldestFinal rs = some old) :
    withFreeSlot rs = some (rs.filter (·.callId != old.callId)) := by
  rw [withFreeSlot, if_neg (by omega), oldest]

theorem withFreeSlot_live (full : rs.length = 4) (live : ∀ r ∈ rs, r.isFinal = false) : withFreeSlot rs = none := by
  rw [withFreeSlot, if_neg (by omega), oldestFinal_of_live rs live]

theorem isFinal_iff (r : CallRecord) : r.isFinal = true ↔ r.state = .done ∨ r.state = .cancelled := by
  simp [CallRecord.isFinal]

theorem inForce_iff (r : CallRecord) : r.inForce = true ↔ r.state = .active ∨ r.state = .ending := by
  simp [CallRecord.inForce]

/-- A table that differs in records out of force alone is replaced with the same notice. -/
theorem setCalls_withCalls (same : callInForce rs = callInForce s.ct.records) (e : EventSet) (rs' : List CallRecord) :
    (withEvents s e).setCalls rs' = (withEvents (withCalls s rs) e).setCalls rs' := by
  have view : callView rs = callView s.ct.records := by simp only [callView, same]
  unfold State.setCalls
  simp only [withCalls, withEvents, view]
  rfl

/-! ### The unknown call -/

theorem createdRecord_cancel (kind : d.kind = .cancel) (now : Nat) (free : Bool) :
    d.createdRecord now free = (d.tombstone, 0) := by
  rw [CallFrame.createdRecord, kind]

theorem createdRecord_pending (kind : d.kind = .new ∨ d.kind = .revise ∨ (d.kind = .echo ∧ d.carried = .pending))
    (now : Nat) (free : Bool) : d.createdRecord now free = (d.pendingRecord, 0) := by
  rcases kind with kind | kind | ⟨kind, carried⟩
  · rw [CallFrame.createdRecord, kind]
  · rw [CallFrame.createdRecord, kind]
  · rw [CallFrame.createdRecord, kind, carried]

theorem createdRecord_active (kind : d.kind = .echo) (carried : d.carried = .active) (now : Nat) (free : Bool) :
    d.createdRecord now free = (d.pendingRecord.started now d.countdown free).endedAtZero := by
  rw [CallFrame.createdRecord, kind, carried]

theorem createdRecord_callId (d : CallFrame) (now : Nat) (free : Bool) :
    (d.createdRecord now free).1.callId = d.callId := by
  unfold CallFrame.createdRecord
  split
  · rfl
  · unfold CallRecord.endedAtZero CallRecord.started
    cases free <;> (repeat' split) <;> rfl
  · rfl

/-- A record placed out of force changes the table alone, and may wake the post. -/
theorem setCalls_placed (e : EventSet) (waits : r.inForce = false) :
    (withEvents s e).setCalls (placeCall r s.ct.records) = withCalls (withEvents s e) (placeCall r s.ct.records) :=
  setCalls_of_same_call _ _ (callInForce_placeCall r _ waits)

section
variable (unknown : ∀ x ∈ s.ct.records, x.callId ≠ d.callId)
variable (ascending : s.ct.records.Pairwise (fun a b => a.callId < b.callId))
include unknown

include ascending in
theorem placeCall_created (same : r.callId = d.callId) : placeCall r s.ct.records =
    s.ct.records.filter (fun x => decide (x.callId < r.callId)) ++ r ::
      s.ct.records.filter (fun x => decide (r.callId < x.callId)) :=
  placeCall_of_ascending r _ ascending fun x mem => same ▸ unknown x mem

/-- A CANCEL for an unknown call leaves a tombstone (R43). -/
theorem intake_tombstone (room : s.ct.records.length < 4) (kind : d.kind = .cancel) :
    s.intake d = (withCalls s (placeCall d.tombstone s.ct.records), .tombstone) := by
  have other : ¬(d.kind = .echo ∧ d.carried = .ending) := by simp [kind]
  have stays : ∀ u : State, u.callNotice d.tombstone = u := fun u => callNotice_stays (by
    rintro ⟨_, _, wakes⟩
    cases wakes)
  rw [intake_unknown unknown, createCall_created other (withFreeSlot_room room), createdRecord_cancel kind, stays,
    setCalls_placed _ rfl, if_pos kind]
  simp only [createdEvents, kind]
  rfl

/-- A NEW, a REVISE or an ECHO carrying PENDING for an unknown call makes a PENDING record (R43). -/
theorem intake_pending (room : s.ct.records.length < 4)
    (kind : d.kind = .new ∨ d.kind = .revise ∨ (d.kind = .echo ∧ d.carried = .pending)) :
    s.intake d = ((withCalls (withEvents s (s.sp.events.raise .callNew))
      (placeCall d.pendingRecord s.ct.records)).callNotice d.pendingRecord, .created) := by
  have other : ¬(d.kind = .echo ∧ d.carried = .ending) := by
    rcases kind with kind | kind | kind <;> simp [kind]
  have made : d.kind ≠ .cancel := by
    rcases kind with kind | kind | kind <;> simp [kind]
  rw [intake_unknown unknown, createCall_created other (withFreeSlot_room room), createdRecord_pending kind,
    setCalls_placed _ rfl, if_neg made]
  simp only [createdEvents, made]
  rfl

end

/-- The final record of the least retention makes room (R44). -/
theorem oldestFinal_eq {old : CallRecord} (ascending : rs.Pairwise (fun a b => a.callId < b.callId)) (mem : old ∈ rs)
    (final : old.isFinal = true) (least : ∀ r ∈ rs, r.isFinal = true →
      old.retention < r.retention ∨ (old.retention = r.retention ∧ old.callId ≤ r.callId)) : oldestFinal rs = some old := by
  obtain ⟨o, memo, found, finalo, leasto⟩ := oldestFinal_of_final rs ⟨old, mem, final⟩ ascending
  have one := least o memo finalo
  have two := leasto old mem final
  have ids : o.callId = old.callId := by omega
  have distinct : (rs.map (·.callId)).Nodup := List.pairwise_map.mpr (ascending.imp Nat.ne_of_lt)
  rw [found, List.inj_on_of_nodup_map distinct memo mem ids]

/-- The final record that makes room is as good as gone (R44). -/
theorem intake_evicts {old : CallRecord} (unknown : ∀ x ∈ s.ct.records, x.callId ≠ d.callId)
    (ascending : s.ct.records.Pairwise (fun a b => a.callId < b.callId))
    (kind : ¬(d.kind = .echo ∧ d.carried = .ending)) (full : s.ct.records.length = 4) (mem : old ∈ s.ct.records)
    (final : old.isFinal = true) (oldest : oldestFinal s.ct.records = some old) :
    s.intake d = (withCalls s (s.ct.records.filter (·.callId != old.callId))).intake d := by
  have distinct : (s.ct.records.map (·.callId)).Nodup := List.pairwise_map.mpr (ascending.imp Nat.ne_of_lt)
  have idle : ∀ x ∈ s.ct.records, x.callId = old.callId → x.inForce = false := by
    intro x memx same
    rw [List.inj_on_of_nodup_map distinct memx mem same]
    rcases (isFinal_iff old).mp final with done | done <;> simp [CallRecord.inForce, done]
  have shorter : (s.ct.records.filter (·.callId != old.callId)).length < 4 := by
    rw [← full]
    exact List.length_filter_lt_length_iff_exists.mpr ⟨old, mem, by simp⟩
  have still : ∀ x ∈ (withCalls s (s.ct.records.filter (·.callId != old.callId))).ct.records, x.callId ≠ d.callId :=
    fun x memx => unknown x (List.mem_of_mem_filter memx)
  rw [intake_unknown unknown, createCall_created kind (withFreeSlot_evicts full oldest), intake_unknown still,
    createCall_created kind (withFreeSlot_room shorter)]
  exact congrArg (fun u : State => (u.callNotice _, _))
    (setCalls_withCalls (callInForce_filter _ _ idle) _ _)

/-- A record placed in force is the call in force where no other is. -/
theorem callInForce_placed (inForce : r.inForce = true) (idle : callInForce rs = none) :
    callInForce (placeCall r rs) = some r := by
  induction rs with
  | nil => simp [placeCall, callInForce, inForce]
  | cons x rs ih =>
    have out : x.inForce = false ∧ callInForce rs = none := by
      simp only [callInForce, List.find?_cons] at idle
      split at idle
      · cases idle
      · next out => exact ⟨out, idle⟩
    unfold placeCall
    split
    · simp [callInForce, inForce]
    · simpa [callInForce, out.1] using ih out.2

/-- The record of an unknown call that runs already (R43). -/
def runningRecord (d : CallFrame) (now : Nat) (free : Bool) : CallRecord :=
  let ended := d.countdown == 0
  { d.pendingRecord with
    state := if free then (if ended then .ending else .active) else if ended then .done else .pending
    deferred := !free && !ended
    countdown := 0
    startTime := some now
    remaining := d.countdown
    accumulators := if free then some ⟨0, 0, 0, 0, 0, 0, 0, 0⟩ else none
    retention := if !free && ended then 3600 else 0 }

theorem createdRecord_running (kind : d.kind = .echo) (carried : d.carried = .active) (now : Nat) (free : Bool) :
    d.createdRecord now free = (runningRecord d now free, (d.countdown == 0).toNat) := by
  rw [CallFrame.createdRecord, kind, carried]
  by_cases ended : d.countdown = 0
  · cases free <;> simp [CallRecord.started, CallRecord.endedAtZero, CallRecord.activated, CallRecord.finished,
      runningRecord, CallFrame.pendingRecord, ended, retentionTime, Accumulators.zero]
  · have runs : (d.countdown == 0) = false := by simpa using ended
    cases free <;> simp [CallRecord.started, CallRecord.endedAtZero, CallRecord.activated, runningRecord,
      CallFrame.pendingRecord, ended, runs, Accumulators.zero]

theorem runningRecord_wakes (d : CallFrame) (now : Nat) (free : Bool) :
    (runningRecord d now free).wakes = (free || !(d.countdown == 0)) := by
  cases free <;> cases ended : d.countdown == 0 <;> simp [runningRecord, CallRecord.wakes, ended]

/-- The computation that a call created in force starts. -/
theorem setCalls_created_ap (idle : callInForce s.ct.records = none) (inForce : callInForce rs = some r) :
    (s.setCalls rs).ap.trigger = .call ∧ (s.setCalls rs).ap.call = some r.callId := by
  have changed : callView rs ≠ callView s.ct.records := by simp [callView, idle, inForce]
  unfold State.setCalls
  dsimp only
  rw [if_neg changed, compute_eq]
  refine ⟨computation_trigger _ _, ?_⟩
  rw [computation_call]
  show (callInForce rs).map (·.callId) = _
  rw [inForce]
  rfl

/-- Settles O24. -/
theorem unknownCallIsCreated : Obligations.UnknownCallIsCreated := by
  constructor
  · intro s d unknown ascending placed pending wakes
    refine ⟨fun kind carried => ?_, fun room => ⟨fun kind => ?_, fun kind => ?_⟩, fun full kind => ⟨fun live => ?_,
      fun old mem final least => ?_⟩⟩
    · rw [intake_unknown unknown, createCall_ignored kind carried]
    · rw [intake_tombstone unknown room kind, placeCall_created unknown ascending rfl]
      rfl
    · rw [intake_pending unknown room kind, placeCall_created unknown ascending rfl]
      rw [callNotice_of wakes rfl]
      cases wakes <;> rfl
    · have final : ∀ r ∈ s.ct.records, r.isFinal = false := fun r mem =>
        Bool.eq_false_iff.mpr (mt (isFinal_iff r).mp (not_or.mpr (live r mem)))
      rw [intake_unknown unknown, createCall_discarded kind (withFreeSlot_live full final)]
      rfl
    · have oldest : oldestFinal s.ct.records = some old := oldestFinal_eq ascending mem ((isFinal_iff old).mpr final)
        fun r mem gone => least r mem ((isFinal_iff r).mp gone)
      have kept : (fun r : CallRecord => r.callId != old.callId) = fun r => decide (r.callId ≠ old.callId) := by
        funext r
        simp [bne, Bool.beq_eq_decide_eq]
      rw [intake_evicts unknown ascending kind full mem ((isFinal_iff old).mpr final) oldest, kept]
      rfl
  · intro s d unknown room kind carried free ended wakes created counted
    have other : ¬(d.kind = .echo ∧ d.carried = .ending) := by simp [carried]
    have made : d.kind ≠ .cancel := by simp [kind]
    have slot : slotFree s.ct.records = free := slotFree_eq _
    have events : createdEvents s.sp.events d ended.toNat = counted := by
      simp only [createdEvents, if_neg made, counted]
      cases ended <;> rfl
    have answer := intake_unknown (s := s) unknown
    rw [createCall_created other (withFreeSlot_room room), createdRecord_running kind carried, if_neg made, slot,
      events] at answer
    refine ⟨_, runningRecord d s.now free, answer, rfl, rfl, rfl, rfl, rfl, rfl, rfl, rfl, rfl, rfl, rfl, rfl, rfl,
      rfl, rfl, rfl, rfl, _, placeCall_perm _ _, ?_, fun open' => ?_⟩
    · have follows := callNotice_setCalls_reacted (withEvents s counted)
        (placeCall (runningRecord d s.now free) s.ct.records) (runningRecord d s.now free)
      have early := runningRecord_wakes d s.now free
      rw [callNotice_of wakes (by rw [early]; rfl)] at follows
      cases awake : wakes <;> rw [awake] at follows <;> exact follows
    · have idle : callInForce s.ct.records = none := by
        rw [open'] at slot
        simpa [slotFree] using slot
      have inForce : (runningRecord d s.now free).inForce = true := by
        rw [open']
        cases zero : d.countdown == 0 <;> simp [runningRecord, CallRecord.inForce, zero]
      rw [State.callNotice_ap]
      exact setCalls_created_ap (s := withEvents s counted) idle (callInForce_placed inForce idle)

end Sys2Proof.Safety
end

