-- ==== Sys2Proof/Proofs/CallMerges.lean ====
section
/-!
What a revision and a merge make of each held state (O26), and what a command makes of its record (O25).
-/
namespace Sys2Proof.Safety

open Sys2Proof Sys2Proof.Machine

variable {r b : CallRecord} {d : CallFrame}

/-! ### Never back -/

/-- A change of a record, with the number of its changes of state, that never moves it back (R45, R46). -/
structure Onward (r : CallRecord) (m : CallRecord × Nat) : Prop where
  callId : m.1.callId = r.callId
  origin : m.1.origin = r.origin
  serving : m.1.serving = r.serving
  mark : r.cancelledMark = true → m.1.cancelledMark = true
  progress : progress r.state ≤ progress m.1.state
  unchanged : m.2 = 0 → m.1.state = r.state ∧ m.1.deferred = r.deferred
  final : r.state = .done ∨ r.state = .cancelled → m.1.state = r.state ∧ m.1.retention = r.retention ∧
    m.1.accumulators = r.accumulators
  waits : r.waiting = true → m.1.waiting = true → m.1.countdown ≤ r.countdown
  runs : r.running = true → m.1.running = true → m.1.remaining ≤ r.remaining

theorem Onward.refl (r : CallRecord) : Onward r (r, 0) :=
  ⟨rfl, rfl, rfl, id, le_rfl, fun _ => ⟨rfl, rfl⟩, fun _ => ⟨rfl, rfl, rfl⟩, fun _ _ => le_rfl, fun _ _ => le_rfl⟩

/-- New content leaves a record where it stands (R45). -/
theorem Onward.of_replaced {m : CallRecord × Nat} (h : Onward (r.replaced d) m) : Onward r m := { h with }

theorem Onward.mergeCountdown (carried : Nat) : Onward r (r.mergeCountdown carried, 0) := by
  unfold CallRecord.mergeCountdown
  split
  · exact { Onward.refl r with waits := fun _ _ => Nat.min_le_left _ _ }
  · exact .refl r

theorem Onward.cancelApplied : Onward r r.cancelApplied := by
  unfold CallRecord.cancelApplied
  split
  · next state => constructor <;> simp [CallRecord.finished, CallRecord.waiting, CallRecord.running, Safety.progress, state]
  · next state => constructor <;> simp [CallRecord.waiting, CallRecord.running, Safety.progress, state]
  · next state => constructor <;> simp [CallRecord.waiting, CallRecord.running, Safety.progress, state]
  · exact .refl r

theorem Onward.mergeEnding (mark : Bool) : Onward r (r.mergeEnding mark) := by
  unfold CallRecord.mergeEnding
  split
  · next state => constructor <;> simp [CallRecord.waiting, CallRecord.running, Safety.progress, state]; tauto
  · next state =>
    cases mark <;> constructor <;>
      simp [CallRecord.finished, CallRecord.waiting, CallRecord.running, Safety.progress, state]
  · next state => constructor <;> simp [CallRecord.waiting, CallRecord.running, Safety.progress, state]; tauto
  · exact .refl r

/-- A remaining time shortened, to 0 where the record then ends (R45, R46, R49, R50). -/
theorem Onward.endedAtZero {k : Nat} (less : k ≤ r.remaining) : Onward r ({ r with remaining := k }.endedAtZero) := by
  unfold CallRecord.endedAtZero
  dsimp only
  split
  · next active => constructor <;> simp [CallRecord.waiting, CallRecord.running, Safety.progress, active.2]
  · split
    · next waits =>
      constructor <;> simp [CallRecord.finished, CallRecord.waiting, CallRecord.running, Safety.progress, waits]
    · exact { Onward.refl r with runs := fun _ _ => less }

/-- A start, or the end at once of a record whose time is out (R46, R48). -/
theorem Onward.startedNow (waits : r.waiting = true) (now remaining : Nat) (free : Bool) :
    Onward r ((r.started now remaining free).endedAtZero.1, (r.started now remaining free).endedAtZero.2 + 1) := by
  obtain ⟨pending, undeferred⟩ := waiting_iff.mp waits
  by_cases ended : remaining = 0
  · cases free <;> constructor <;> simp [CallRecord.started, CallRecord.activated, CallRecord.endedAtZero,
      CallRecord.finished, CallRecord.waiting, CallRecord.running, Safety.progress, pending, undeferred, ended]
  · cases free <;> constructor <;> simp [CallRecord.started, CallRecord.activated, CallRecord.endedAtZero,
      CallRecord.waiting, CallRecord.running, Safety.progress, pending, undeferred, ended]

theorem Onward.mergeActive (now carried : Nat) (free : Bool) : Onward r (r.mergeActive now carried free) := by
  unfold CallRecord.mergeActive
  split
  · next waits => exact .startedNow waits _ _ _
  · split
    · exact .endedAtZero (Nat.min_le_left _ _)
    · exact .refl r

theorem Onward.mergeEcho (now : Nat) (free : Bool) : Onward r (r.mergeEcho d now free) := by
  unfold CallRecord.mergeEcho
  split
  · exact .mergeActive _ _ _
  · exact .mergeEnding _
  · exact .mergeCountdown _

theorem Onward.merged (now : Nat) (free : Bool) : Onward r (r.merged d now free) := by
  unfold CallRecord.merged
  split
  · exact .mergeCountdown _
  · exact .mergeCountdown _
  · exact .cancelApplied
  · exact .mergeEcho _ _

theorem Onward.reviseTime : Onward r (r.reviseTime d) := by
  unfold CallRecord.reviseTime
  split
  · exact (Onward.endedAtZero (r := r.replaced d) (Nat.min_le_left _ _)).of_replaced
  · exact (Onward.mergeCountdown _).of_replaced

theorem Onward.revised (now : Nat) (free : Bool) : Onward r (r.revised d now free) := by
  unfold CallRecord.revised
  split
  · exact .reviseTime
  · exact .reviseTime
  · exact Onward.cancelApplied.of_replaced
  · exact (Onward.mergeEcho _ _).of_replaced

/-! ### The content -/

/-- The fields that a revision replaces (R45). -/
def contentOf (r : CallRecord) : Nat × CallKind × Nat × Nat × Nat := (r.revision, r.kind, r.target, r.ramp, r.duration)

theorem mergeCountdown_content (carried : Nat) : contentOf (r.mergeCountdown carried) = contentOf r := by
  unfold CallRecord.mergeCountdown
  split <;> rfl

theorem cancelApplied_content : contentOf r.cancelApplied.1 = contentOf r := by
  unfold CallRecord.cancelApplied
  split <;> rfl

theorem endedAtZero_content : contentOf r.endedAtZero.1 = contentOf r := by
  unfold CallRecord.endedAtZero
  split
  · rfl
  · split <;> rfl

theorem mergeEnding_content (mark : Bool) : contentOf (r.mergeEnding mark).1 = contentOf r := by
  unfold CallRecord.mergeEnding
  split <;> rfl

theorem mergeActive_content (now carried : Nat) (free : Bool) : contentOf (r.mergeActive now carried free).1 = contentOf r := by
  unfold CallRecord.mergeActive
  split
  · exact endedAtZero_content.trans (by cases free <;> rfl)
  · split
    · exact endedAtZero_content
    · rfl

theorem mergeEcho_content (now : Nat) (free : Bool) : contentOf (r.mergeEcho d now free).1 = contentOf r := by
  unfold CallRecord.mergeEcho
  split
  · exact mergeActive_content _ _ _
  · exact mergeEnding_content _
  · exact mergeCountdown_content _

theorem merged_content (now : Nat) (free : Bool) : contentOf (r.merged d now free).1 = contentOf r := by
  unfold CallRecord.merged
  split
  · exact mergeCountdown_content _
  · exact mergeCountdown_content _
  · exact cancelApplied_content
  · exact mergeEcho_content _ _

theorem revised_content (now : Nat) (free : Bool) : contentOf (r.revised d now free).1 = contentOf (r.replaced d) := by
  have time : contentOf (r.reviseTime d).1 = contentOf (r.replaced d) := by
    unfold CallRecord.reviseTime
    split
    · exact endedAtZero_content
    · exact mergeCountdown_content _
  unfold CallRecord.revised
  split
  · exact time
  · exact time
  · exact cancelApplied_content
  · exact mergeEcho_content _ _

/-! ### The tables -/

/-- What a record whose time is shortened becomes: as it is, or ended (R49, R50). -/
def ends (b : CallRecord) : CallRecord × Nat :=
  if 0 < b.remaining then (b, 0)
  else if b.state = .active then ({ b with state := .ending }, 1)
  else ({ b with state := .done, deferred := false, retention := 3600 }, 1)

theorem endedAtZero_running (runs : b.state = .active ∨ (b.state = .pending ∧ b.deferred = true)) :
    b.endedAtZero = ends b := by
  unfold CallRecord.endedAtZero ends
  by_cases out : b.remaining = 0
  · rcases runs with active | ⟨pending, deferred⟩
    · simp [out, active]
    · simp [out, pending, deferred, CallRecord.finished, retentionTime]
  · simp [out, Nat.pos_of_ne_zero out]

theorem running_iff : r.running = true ↔ r.state = .active ∨ (r.state = .pending ∧ r.deferred = true) := by
  simp [CallRecord.running]

/-- A CANCEL by the state that it meets (R45, R46). -/
theorem cancelApplied_table (b : CallRecord) :
    (b.state = .pending →
      b.cancelApplied = ({ b with state := .cancelled, deferred := false, retention := 3600 }, 1)) ∧
    (b.state = .active → b.cancelApplied = ({ b with state := .ending, cancelledMark := true }, 1)) ∧
    (b.state = .ending → b.cancelApplied = ({ b with cancelledMark := true }, 0)) ∧
    (b.state = .done ∨ b.state = .cancelled → b.cancelApplied = (b, 0)) := by
  refine ⟨?_, ?_, ?_, ?_⟩
  · intro h
    simp [CallRecord.cancelApplied, h, CallRecord.finished, retentionTime]
  · intro h
    simp [CallRecord.cancelApplied, h]
  · intro h
    simp [CallRecord.cancelApplied, h]
  · rintro (h | h) <;> simp [CallRecord.cancelApplied, h]

/-- An ECHO carrying ENDING by the state that it meets (R46). -/
theorem mergeEnding_table (b : CallRecord) (mark : Bool) :
    (b.state = .active → b.mergeEnding mark =
      ({ b with state := .ending, cancelledMark := b.cancelledMark || mark }, 1)) ∧
    (b.state = .pending → b.mergeEnding mark =
      ({ b with state := if mark then .cancelled else .done, deferred := false, retention := 3600 }, 1)) ∧
    (b.state = .ending → b.mergeEnding mark = ({ b with cancelledMark := b.cancelledMark || mark }, 0)) ∧
    (b.state = .done ∨ b.state = .cancelled → b.mergeEnding mark = (b, 0)) := by
  refine ⟨?_, ?_, ?_, ?_⟩
  · intro h
    simp [CallRecord.mergeEnding, h]
  · intro h
    simp [CallRecord.mergeEnding, h, CallRecord.finished, retentionTime]
  · intro h
    simp [CallRecord.mergeEnding, h]
  · rintro (h | h) <;> simp [CallRecord.mergeEnding, h]

theorem mergeCountdown_waiting (waits : b.state = .pending ∧ b.deferred = false) (carried : Nat) :
    b.mergeCountdown carried = { b with countdown := min b.countdown carried } :=
  if_pos (waiting_iff.mpr waits)

theorem mergeCountdown_other (waits : ¬(b.state = .pending ∧ b.deferred = false)) (carried : Nat) :
    b.mergeCountdown carried = b := if_neg (mt waiting_iff.mp waits)

/-- An ECHO carrying ACTIVE by the state that it meets (R46). -/
theorem mergeActive_table (b : CallRecord) (now carried : Nat) (free : Bool) :
    (b.state = .pending ∧ b.deferred = false → 0 < b.duration → 0 < carried →
      b.mergeActive now carried free = ({ b with
        startTime := some now
        remaining := min b.duration carried
        countdown := 0
        state := if free then .active else .pending
        deferred := !free
        goal := if free then 0 else b.goal
        accumulators := if free then some ⟨0, 0, 0, 0, 0, 0, 0, 0⟩ else b.accumulators }, 1)) ∧
    (b.state = .pending ∧ b.deferred = false → carried = 0 → (b.mergeActive now carried free).2 = 2 ∧
      (b.mergeActive now carried free).1.state = (if free then .ending else .done) ∧
      (b.mergeActive now carried free).1.remaining = 0) ∧
    (b.state = .active ∨ (b.state = .pending ∧ b.deferred = true) →
      b.mergeActive now carried free = ends { b with remaining := min b.remaining carried }) ∧
    (b.state = .ending ∨ b.state = .done ∨ b.state = .cancelled → b.mergeActive now carried free = (b, 0)) := by
  refine ⟨?_, ?_, ?_, ?_⟩
  · intro waits lasts carries
    have runs : ¬min b.duration carried = 0 := by omega
    rw [CallRecord.mergeActive, if_pos (waiting_iff.mpr waits)]
    cases free
    · simp [CallRecord.started, CallRecord.endedAtZero, waits, runs]
    · simp [CallRecord.started, CallRecord.activated, CallRecord.endedAtZero, runs, Accumulators.zero]
  · intro waits out
    rw [CallRecord.mergeActive, if_pos (waiting_iff.mpr waits), out, Nat.min_zero]
    cases free
    · simp [CallRecord.started, CallRecord.endedAtZero, CallRecord.finished, waits]
    · simp [CallRecord.started, CallRecord.activated, CallRecord.endedAtZero]
  · intro runs
    have waits : ¬b.waiting = true := by
      rw [waiting_iff]
      rcases runs with active | ⟨_, deferred⟩
      · simp [active]
      · simp [deferred]
    rw [CallRecord.mergeActive, if_neg waits, if_pos (running_iff.mpr runs)]
    exact endedAtZero_running runs
  · rintro (h | h | h) <;> simp [CallRecord.mergeActive, CallRecord.waiting, CallRecord.running, h]

/-- A NEW or REVISE at a higher revision, on a record whose time runs (R45). -/
theorem reviseTime_running (runs : r.state = .active ∨ (r.state = .pending ∧ r.deferred = true)) {elapsed : Nat}
    (elapses : r.duration = elapsed + r.remaining) :
    r.reviseTime d = ends { r.replaced d with remaining := min r.remaining (d.duration - elapsed) } := by
  have shortened : shortenedRemaining r.duration r.remaining d.duration = min r.remaining (d.duration - elapsed) := by
    unfold shortenedRemaining
    omega
  rw [CallRecord.reviseTime, if_pos (running_iff.mpr runs), shortened]
  exact endedAtZero_running runs

theorem reviseTime_other (runs : ¬(r.state = .active ∨ (r.state = .pending ∧ r.deferred = true))) :
    r.reviseTime d = ((r.replaced d).mergeCountdown d.countdown, 0) :=
  if_neg (mt running_iff.mp runs)

/-- Settles O26: what no command changes, and the tables. -/
theorem recordsMoveForwardOnly : Obligations.RecordsMoveForwardOnly := by
  intro r d now free
  refine ⟨?_, ?_, ?_, ?_⟩
  · have kept := revised_content (r := r) (d := d) now free
    simp only [contentOf, Prod.mk.injEq] at kept
    exact kept
  · have kept := merged_content (r := r) (d := d) now free
    simp only [contentOf, Prod.mk.injEq] at kept
    exact kept
  · have onward : ∀ m, m = r.revised d now free ∨ m = r.merged d now free → Onward r m := by
      rintro m (rfl | rfl)
      · exact .revised now free
      · exact .merged now free
    intro m made
    obtain ⟨callId, origin, serving, mark, progress, unchanged, final, waits, runs⟩ := onward m made
    exact ⟨callId, origin, serving, mark, progress, unchanged, final, waits, runs⟩
  intro replaced waiting deferred final ends'
  constructor
  · intro kind
    have revised : r.revised d now free = r.reviseTime d := by
      rcases kind with kind | kind <;> simp only [CallRecord.revised, kind]
    have merged : r.merged d now free = (r.mergeCountdown d.countdown, 0) := by
      rcases kind with kind | kind <;> simp only [CallRecord.merged, kind]
    rw [revised, merged]
    refine ⟨fun waits => ?_, fun runs => ⟨fun elapsed elapses => reviseTime_running runs elapses, ?_⟩, fun late => ?_⟩
    · rw [reviseTime_other (by simp [waits.1, waits.2]), mergeCountdown_waiting waits,
        mergeCountdown_waiting (b := r.replaced d) waits]
      exact ⟨rfl, rfl⟩
    · have waits : ¬(r.state = .pending ∧ r.deferred = false) := by
        rcases runs with active | ⟨_, deferred⟩
        · simp [active]
        · simp [deferred]
      rw [mergeCountdown_other waits]
    · have waits : r.state ≠ .pending ∧ r.state ≠ .active := by
        rcases late with h | h | h <;> simp [h]
      have settled : ¬(r.state = .pending ∧ r.deferred = false) := fun h => waits.1 h.1
      rw [reviseTime_other (by simp [waits.1, waits.2]), mergeCountdown_other (b := r.replaced d) settled,
        mergeCountdown_other settled]
      exact ⟨rfl, rfl⟩
  · intro b m meets
    have cancels : d.kind = .cancel → m = b.cancelApplied := by
      intro kind
      rcases meets with ⟨rfl, rfl⟩ | ⟨rfl, rfl⟩
      · simp only [CallRecord.merged, kind]
      · simp only [CallRecord.revised, kind]
        rfl
    have echoes : d.kind = .echo → m = b.mergeEcho d now free := by
      intro kind
      rcases meets with ⟨rfl, rfl⟩ | ⟨rfl, rfl⟩
      · simp only [CallRecord.merged, kind]
      · simp only [CallRecord.revised, kind]
        rfl
    obtain ⟨state, defers, countdown, remaining, goal, accumulators, mark⟩ : r.state = b.state ∧
        r.deferred = b.deferred ∧ r.countdown = b.countdown ∧ r.remaining = b.remaining ∧ r.goal = b.goal ∧
        r.accumulators = b.accumulators ∧ r.cancelledMark = b.cancelledMark := by
      rcases meets with ⟨rfl, _⟩ | ⟨rfl, _⟩ <;> exact ⟨rfl, rfl, rfl, rfl, rfl, rfl, rfl⟩
    simp only [waiting, deferred, final, state, defers, countdown, remaining, goal, accumulators, mark]
    refine ⟨fun kind => ?_, fun kind carried => ?_, fun kind carried => ?_, fun kind carried => ?_⟩
    · rw [cancels kind]
      exact cancelApplied_table b
    · rw [echoes kind, CallRecord.mergeEcho, carried]
      exact ⟨fun waits => by rw [mergeCountdown_waiting waits], fun waits => by rw [mergeCountdown_other waits]⟩
    · rw [echoes kind, CallRecord.mergeEcho, carried]
      exact mergeActive_table b now d.countdown free
    · rw [echoes kind, CallRecord.mergeEcho, carried]
      exact mergeEnding_table b d.cancelledMark

/-! ### A command meets its record -/

section
variable {s : State}

/-- The events of a command that meets its record, but for a wake (R45, R46, R52). -/
def metEvents (e : EventSet) (revises : Bool) (changes : Nat) : EventSet :=
  (if revises then e.raise .callRevised else e).raiseTimes .callState changes

theorem intake_revises (found : findCall d.callId s.ct.records = some r) (higher : r.revision < d.revision) :
    s.intake d =
      (((withEvents s (metEvents s.sp.events true (r.revised d s.now (slotFree s.ct.records)).2)).setCalls
        (putCall (r.revised d s.now (slotFree s.ct.records)).1 s.ct.records)).callNotice
          (r.revised d s.now (slotFree s.ct.records)).1, .revised) := by
  rw [State.intake, found]
  simp only [if_pos higher, State.reviseCall, State.raiseTimes_eq]
  rfl

theorem intake_merges (found : findCall d.callId s.ct.records = some r) (equal : r.revision = d.revision) :
    s.intake d =
      ((withEvents s (metEvents s.sp.events false (r.merged d s.now (slotFree s.ct.records)).2)).setCalls
        (putCall (r.merged d s.now (slotFree s.ct.records)).1 s.ct.records), .merged) := by
  rw [State.intake, found]
  simp only [equal, lt_irrefl, if_false, if_true, State.mergeCall, State.raiseTimes_eq]
  rfl

theorem intake_stale (found : findCall d.callId s.ct.records = some r) (lower : d.revision < r.revision) :
    s.intake d = (s, .ignored) := by
  rw [State.intake, found]
  simp only [if_neg (show ¬r.revision < d.revision by omega), if_neg (show ¬r.revision = d.revision by omega)]

variable {e : EventSet} {rs : List CallRecord}

theorem notified_wakes (hold : s.sp.mode = .hold) (ready : s.sp.restarting = none) (wakes : r.wakes = true) :
    Reacted (woken (withCalls (withEvents s e) rs)) (((withEvents s e).setCalls rs).callNotice r) := by
  have follows := callNotice_setCalls_reacted (withEvents s e) rs r
  have notice : (withCalls (withEvents s e) rs).callNotice r = woken (withCalls (withEvents s e) rs) :=
    callNotice_wakes hold ready wakes
  rwa [notice] at follows

theorem notified_stays (stays : ¬(s.sp.mode = .hold ∧ s.sp.restarting = none ∧ r.wakes = true)) :
    Reacted (withCalls (withEvents s e) rs) (((withEvents s e).setCalls rs).callNotice r) := by
  have follows := callNotice_setCalls_reacted (withEvents s e) rs r
  have notice : (withCalls (withEvents s e) rs).callNotice r = withCalls (withEvents s e) rs := callNotice_stays stays
  rwa [notice] at follows

/-- The counts of a command that meets its record (R52, R174). -/
theorem count_metEvents {e : EventSet} (counts : ∀ k, e.count k ≤ 255) (revises : Bool) (changes : Nat) :
    (metEvents e revises changes).count .callState = min 255 (e.count .callState + changes) ∧
    (metEvents e revises changes).count .callRevised =
      (if revises then min 255 (e.count .callRevised + 1) else e.count .callRevised) ∧
    (∀ k, k ≠ .callState → k ≠ .callRevised → (metEvents e revises changes).count k = e.count k) := by
  unfold metEvents
  refine ⟨?_, ?_, fun k state revised => ?_⟩
  · cases revises
    · exact EventSet.count_raiseTimes _ _ _ (counts _)
    · have kept : (e.raise .callRevised).count .callState = e.count .callState := e.count_raise_of_ne (by decide)
      simp only [if_true]
      rw [EventSet.count_raiseTimes _ _ _ (kept ▸ counts _), kept]
  · rw [EventSet.count_raiseTimes_of_ne _ (by decide)]
    cases revises
    · rfl
    · have within := counts .callRevised
      simp only [if_true, e.count_raise_self, satSucc]
      split <;> omega
  · rw [EventSet.count_raiseTimes_of_ne _ state]
    cases revises
    · rfl
    · exact e.count_raise_of_ne revised

theorem exec_dispatch_disregarded {stall seq : Nat} {f : DispatchWire} (hears : Hears s stall)
    (disregarded : f.corrected = none) : exec (.dispatch stall seq f) s = .next (heardFrom s stall seq) := by
  obtain ⟨receives, other⟩ := hears
  simp only [exec, execDispatch, receives, if_neg other, heardFrom_eq, disregarded, Bool.not_true, Bool.false_eq_true,
    if_false]

theorem exec_dispatch_taken {stall seq : Nat} {f : DispatchWire} (hears : Hears s stall) (taken : f.corrected = some d) :
    exec (.dispatch stall seq f) s = .next ((heardFrom s stall seq).intake d).1.finish := by
  obtain ⟨receives, other⟩ := hears
  simp only [exec, execDispatch, receives, if_neg other, heardFrom_eq, taken, Bool.not_true, Bool.false_eq_true,
    if_false]

end

/-- Settles O25. -/
theorem dispatchMeetsItsRecord : Obligations.DispatchMeetsItsRecord := by
  constructor
  · intro s stall seq f hears
    refine ⟨exec_dispatch_disregarded hears, fun d taken => ?_⟩
    rw [exec_dispatch_taken hears taken]
    exact next_finish_of_eq rfl
  · intro s d before r after table others same counts free m wakes
    have slot : slotFree s.ct.records = free := slotFree_eq _
    have found : findCall d.callId s.ct.records = some r := by
      rw [same, table]
      exact findCall_at before r after others
    have put : ∀ x : CallRecord, x.callId = r.callId → putCall x s.ct.records = before ++ x :: after := by
      intro x id
      rw [table]
      exact putCall_at before r after x others id
    refine ⟨intake_stale found, fun notLower => ?_⟩
    have within := count_le counts
    by_cases higher : r.revision < d.revision
    · have made : m = r.revised d s.now free := if_pos higher
      have answer := intake_revises found higher
      rw [slot, ← made, put m.1 (made ▸ (Onward.revised s.now free).callId)] at answer
      obtain ⟨state, revised, rest⟩ := count_metEvents within true m.2
      have wakes_iff : wakes ↔ s.sp.mode = .hold ∧ s.sp.restarting = none ∧ m.1.wakes = true := by
        simp only [wakes, wakes_iff, higher, true_and]
      by_cases awake : wakes
      · obtain ⟨hold, ready, early⟩ := wakes_iff.mp awake
        have woke : ∀ k, k ≠ .callWake → ((metEvents s.sp.events true m.2).raise .callWake).count k =
          (metEvents s.sp.events true m.2).count k := fun k other => EventSet.count_raise_of_ne _ other
        refine ⟨_, (metEvents s.sp.events true m.2).raise .callWake, by rw [answer, if_pos higher], ?_, ?_, fun _ => ?_,
          fun asleep => absurd awake asleep, fun k notState notRevised notWake => ?_,
          fun _ => notified_wakes (e := metEvents s.sp.events true m.2) (rs := before ++ m.1 :: after) hold ready early,
          fun asleep => absurd awake asleep⟩
        · rw [woke _ (by decide), state]
        · rw [woke _ (by decide), revised, if_pos higher, if_pos rfl]
        · have below := within .callWake
          rw [EventSet.count_raise_self, rest _ (by decide) (by decide), satSucc]
          split <;> omega
        · rw [woke k notWake, rest k notState notRevised]
      · exact ⟨_, metEvents s.sp.events true m.2, by rw [answer, if_pos higher], state,
          by rw [revised, if_pos higher, if_pos rfl], fun woken => absurd woken awake,
          fun _ => rest _ (by decide) (by decide), fun k notState notRevised _ => rest k notState notRevised,
          fun woken => absurd woken awake, fun _ =>
            notified_stays (e := metEvents s.sp.events true m.2) (rs := before ++ m.1 :: after)
              (mt wakes_iff.mpr awake)⟩
    · have made : m = r.merged d s.now free := if_neg higher
      have answer := intake_merges found (show r.revision = d.revision by omega)
      rw [slot, ← made, put m.1 (made ▸ (Onward.merged s.now free).callId)] at answer
      obtain ⟨state, revised, rest⟩ := count_metEvents within false m.2
      have asleep : ¬wakes := fun woken => higher woken.2.2.1
      exact ⟨_, metEvents s.sp.events false m.2, by rw [answer, if_neg higher], state,
        by rw [revised, if_neg higher, if_neg (by decide)], fun woken => absurd woken asleep,
        fun _ => rest _ (by decide) (by decide), fun k notState notRevised _ => rest k notState notRevised,
        fun woken => absurd woken asleep, fun _ => setCalls_reacted (withEvents s (metEvents s.sp.events false m.2)) _⟩

end Sys2Proof.Safety
end

