-- ==== Sys2Proof/Proofs/ModeCommands.lean ====
section
/-!
The supervisor's commands of the configuration and the mode: admission (O5), SELECT and VALUE (O6), PARK, WAKE and the
wake by a call (O9), and RESTART (O10).
-/
namespace Sys2Proof.Safety

open Sys2Proof Sys2Proof.Machine

variable {s : State}

/-! ### Admission and configuration -/

/-- Settles O5, row by row. -/
theorem admissionTable : Obligations.AdmissionTable := by
  intro s c a row
  refine ⟨fun waits => ?_, fun ready pending held => ?_, fun ready free config needs => ?_,
    fun ready free locked writes => ?_, fun code length unknown ready passes => ?_⟩
  · exact exec_refused row (refusal_busy a waits)
  · exact exec_refused row (refusal_sequence a ready pending held)
  · exact exec_refused row (refusal_notJoined a ready free config needs)
  · exact exec_refused row (refusal_locked a ready free locked writes (supervisorRow_writes row writes))
  · have admitted : s.refusal ⟨code == 2, false, false⟩ = none := by
      rcases passes with free | two
      · simp [State.refusal, ready, free]
      · simp [State.refusal, ready, two]
    subst unknown
    simp only [exec, execUnknownCommand, admitted]
    rfl

/-- Settles O6: SELECT, VALUE without a key, and VALUE with one. -/
theorem selectAndValueWriteOneKey : Obligations.SelectAndValueWriteOneKey := by
  refine ⟨fun s code open' free => ⟨fun k named => ?_, fun unnamed => ?_⟩, fun s v open' free => ?_, ?_⟩
  · simp only [exec, execSelect, refusal_configurable .writing open' (.inl free) rfl, named]
    rfl
  · simp only [exec, execSelect, refusal_configurable .writing open' (.inl free) rfl, unnamed]
    rfl
  · simp only [exec, execValue, refusal_configurable .value open' (.inl free) rfl, free]
    rfl
  · intro s v k open' pending inRange stored
    have kept : k.stored v = stored := ConfigKey.stored_eq k v
    refine ⟨s.sp.config.write k (k.stored v), kept ▸ Configuration.read_write_self s.sp.config k v,
      fun j other => Configuration.read_write_ne s.sp.config k j _ other, ?_⟩
    simp only [exec, execValue, refusal_configurable .value open' (.inr rfl) rfl, pending]
    rw [← kept]
    rfl

/-! ### PARK and WAKE -/

/-- The records of a call after its intake: that of the table, but for its serving flag. -/
theorem mem_setCalls {rs : List CallRecord} {r : CallRecord} (mem : r ∈ (s.setCalls rs).ct.records) :
    ∃ x ∈ rs, r = x ∨ r = { x with serving := true } := by
  rcases setCalls_served s rs with same | marked
  · exact ⟨r, same ▸ mem, .inl rfl⟩
  · rw [marked, markServing, List.mem_map] at mem
    obtain ⟨x, memx, rfl⟩ := mem
    refine ⟨x, memx, ?_⟩
    split
    · exact .inr rfl
    · exact .inl rfl

theorem mem_putCall {m x : CallRecord} {rs : List CallRecord} (mem : x ∈ putCall m rs) (id : x.callId = m.callId) :
    x = m := by
  obtain ⟨y, _, rfl⟩ := List.mem_map.mp mem
  by_cases same : y.callId = m.callId
  · rw [if_pos same]
  · rw [if_neg same] at id
    exact absurd id same

theorem mem_placeCall {m x : CallRecord} {rs : List CallRecord} (mem : x ∈ placeCall m rs) (id : x.callId = m.callId)
    (unknown : ∀ y ∈ rs, y.callId ≠ m.callId) : x = m := by
  rcases List.mem_cons.mp ((placeCall_perm m rs).mem_iff.mp mem) with same | old
  · exact same
  · exact absurd id (unknown x old)

theorem mem_withFreeSlot {rs rs' : List CallRecord} (room : withFreeSlot rs = some rs') {x : CallRecord} (mem : x ∈ rs') :
    x ∈ rs := by
  unfold withFreeSlot at room
  split at room
  · cases room
    exact mem
  · split at room
    · cases room
    · cases room
      exact List.mem_of_mem_filter mem

/-- The state woken from HOLD by a notice, or as it was, in what a wake writes (R174). -/
def WokenOrNot (s t : State) (wakes : Bool) : Prop :=
  t.sp.mode = (if wakes then .active else s.sp.mode) ∧
  t.vl.pollAt = (if wakes then pollIn s .active else s.vl.pollAt) ∧
  t.sp.events.count .callWake =
    if wakes then min 255 (s.sp.events.count .callWake + 1) else s.sp.events.count .callWake

/-- The new table of a handling with its events, none of which is a wake. -/
theorem setCalls_wokenOrNot {e : EventSet} (count : e.count .callWake = s.sp.events.count .callWake)
    (rs : List CallRecord) : WokenOrNot s ((withEvents s e).setCalls rs) false := by
  simp only [WokenOrNot, State.setCalls_sp, State.setCalls_vl]
  exact ⟨rfl, rfl, count⟩

/-- A notice in HOLD wakes as its record says. -/
theorem notice_wokenOrNot {e : EventSet} (count : e.count .callWake = s.sp.events.count .callWake)
    (rs : List CallRecord) (m : CallRecord) (hold : s.sp.mode = .hold) (ready : s.sp.restarting = none) :
    WokenOrNot s (((withEvents s e).setCalls rs).callNotice m) m.wakes := by
  obtain ⟨mode, poll, events⟩ := setCalls_wokenOrNot count rs
  cases wakes : m.wakes
  · rw [callNotice_stays (by simp [wakes])]
    exact ⟨mode, poll, events⟩
  · rw [callNotice_wakes (mode.trans hold) (by rw [State.setCalls_sp]; exact ready) wakes]
    refine ⟨rfl, ?_, ?_⟩
    · simp [woken, pollIn]
      rfl
    · show (((withEvents s e).setCalls rs).sp.events.raise .callWake).count .callWake = _
      rw [EventSet.count_raise_self, events, satSucc]
      simp only [if_true, Bool.false_eq_true, if_false]
      split <;> omega

theorem wakes_of_serving {r x : CallRecord} (same : r = x ∨ r = { x with serving := true }) : r.wakes = x.wakes := by
  rcases same with rfl | rfl <;> rfl

theorem callId_of_serving {r x : CallRecord} (same : r = x ∨ r = { x with serving := true }) : r.callId = x.callId := by
  rcases same with rfl | rfl <;> rfl

/-- The intake in HOLD wakes the post exactly where a created or revised record does (R174). -/
theorem intake_wokenOrNot {t : State} {d : CallFrame} {outcome : IntakeOutcome} {r : CallRecord}
    (answer : s.intake d = (t, outcome)) (hold : s.sp.mode = .hold) (ready : s.sp.restarting = none)
    (mem : r ∈ t.ct.records) (id : r.callId = d.callId) :
    WokenOrNot s t (decide (outcome = .created ∨ outcome = .revised) && r.wakes) := by
  have noWake : ∀ {e : EventSet} {k : EventKind} (n : Nat), k ≠ .callWake →
      (e.raiseTimes k n).count .callWake = e.count .callWake :=
    fun n other => EventSet.count_raiseTimes_of_ne _ other.symm n
  cases found : findCall d.callId s.ct.records with
  | none =>
    have unknown := findCall_none found
    rw [intake_unknown unknown] at answer
    by_cases ignored : d.kind = .echo ∧ d.carried = .ending
    · rw [createCall_ignored ignored.1 ignored.2] at answer
      cases answer
      exact ⟨rfl, rfl, rfl⟩
    · cases room : withFreeSlot s.ct.records with
      | none =>
        rw [createCall_discarded ignored room] at answer
        cases answer
        exact ⟨rfl, rfl, EventSet.count_raise_of_ne _ (by decide)⟩
      | some rs =>
        rw [createCall_created ignored room] at answer
        have count : (createdEvents s.sp.events d (d.createdRecord s.now (slotFree rs)).2).count .callWake =
            s.sp.events.count .callWake := by
          rw [createdEvents, noWake _ (by decide)]
          split
          · rfl
          · exact EventSet.count_raise_of_ne _ (by decide)
        have notified := notice_wokenOrNot count (placeCall (d.createdRecord s.now (slotFree rs)).1 rs)
          (d.createdRecord s.now (slotFree rs)).1 hold ready
        obtain ⟨rfl, rfl⟩ := Prod.mk.inj answer
        by_cases cancel : d.kind = .cancel
        · rw [if_pos cancel]
          rw [createdRecord_cancel cancel] at notified ⊢
          exact notified
        · rw [State.callNotice_ct] at mem
          obtain ⟨x, memx, same⟩ := mem_setCalls mem
          have record : x = (d.createdRecord s.now (slotFree rs)).1 := by
            refine mem_placeCall memx ?_ fun y memy => ?_
            · rw [createdRecord_callId, ← callId_of_serving same, id]
            · rw [createdRecord_callId]
              exact unknown y (mem_withFreeSlot room memy)
          rw [if_neg cancel, wakes_of_serving same, record]
          exact notified
  | some old =>
    obtain ⟨_, oldId⟩ := findCall_some found
    rcases lt_trichotomy old.revision d.revision with higher | equal | lower
    · rw [intake_revises found higher] at answer
      have count : (metEvents s.sp.events true (old.revised d s.now (slotFree s.ct.records)).2).count .callWake =
          s.sp.events.count .callWake := by
        rw [metEvents, noWake _ (by decide)]
        exact EventSet.count_raise_of_ne _ (by decide)
      have notified := notice_wokenOrNot count (putCall (old.revised d s.now (slotFree s.ct.records)).1 s.ct.records)
        (old.revised d s.now (slotFree s.ct.records)).1 hold ready
      obtain ⟨rfl, rfl⟩ := Prod.mk.inj answer
      rw [State.callNotice_ct] at mem
      obtain ⟨x, memx, same⟩ := mem_setCalls mem
      have record : x = (old.revised d s.now (slotFree s.ct.records)).1 := by
        refine mem_putCall memx ?_
        rw [(Onward.revised s.now _).callId, oldId, ← callId_of_serving same, id]
      rw [wakes_of_serving same, record]
      exact notified
    · rw [intake_merges found equal] at answer
      obtain ⟨rfl, rfl⟩ := Prod.mk.inj answer
      refine setCalls_wokenOrNot ?_ _
      exact noWake _ (by decide)
    · rw [intake_stale found lower] at answer
      cases answer
      exact ⟨rfl, rfl, rfl⟩

/-- A park that no reaction takes back: no precharge runs, and a converter that is ON is stopping (R126, R171). -/
structure Parked (s : State) : Prop where
  mode : s.sp.mode = .parking ∨ s.sp.mode = .hold ∨ (s.sp.mode = .dormant ∧ s.vl.plug = false)
  idle : s.cc.state ≠ .precharging
  stops : s.cc.state = .on → s.cc.stopPending = true

namespace Parked

variable {u : State}

theorem of_same (h : Parked s) (mode : u.sp.mode = s.sp.mode) (cc : u.cc = s.cc) (plug : u.vl.plug = s.vl.plug) :
    Parked u := by
  obtain ⟨m, i, e⟩ := h
  exact ⟨by rw [mode, plug]; exact m, by rw [cc]; exact i, by rw [cc]; exact e⟩

theorem holdSetpoint (h : Parked s) : Parked s.holdSetpoint := by
  rw [holdSetpoint_eq]
  exact { h with }

theorem noticeTest (h : Parked s) : Parked s.noticeTest := by
  rw [noticeTest_eq]
  exact { h with }

theorem gateNotice (h : Parked s) : Parked s.gateNotice := by
  rw [gateNotice_eq]
  exact { h with }

theorem shareZeroTest (h : Parked s) : Parked s.shareZeroTest := by
  rw [shareZeroTest_eq]
  exact { h with }

theorem stopTest (h : Parked s) : Parked s.stopTest := by
  rw [stopTest_eq]
  split
  · exact ⟨h.mode, by simp [converterOff], by simp [converterOff]⟩
  · exact h

theorem releaseTest (h : Parked s) : Parked s.releaseTest := by
  rw [releaseTest_eq]
  exact { h with }

theorem startTest (h : Parked s) : Parked s.startTest := by
  have request : s.startRequest = false := by
    rw [Bool.eq_false_iff]
    intro request
    rcases h.mode with m | m | ⟨m, _⟩ <;> simp [(startRequest_runs request).1] at m
  rw [startTest_eq]
  refine ⟨h.mode, ?_, ?_⟩
  · unfold startedConverter
    cases state : s.cc.state <;> simp [request, state]
    exact h.idle state
  · unfold startedConverter
    cases state : s.cc.state <;> simp [request, state]
    exact h.stops state

theorem engageTest (h : Parked s) : Parked s.engageTest := { h with }

theorem retuneTest (h : Parked s) : Parked s.retuneTest := by
  rw [retuneTest_eq]
  exact { h with }

theorem parkTest (h : Parked s) : Parked s.parkTest := by
  rw [parkTest_eq]
  split
  · rw [setMode_pollIn]
    refine ⟨?_, h.idle, h.stops⟩
    cases plug : s.vl.plug <;> simp
  · exact h

theorem plugWake (h : Parked s) : Parked s.plugWake := by
  refine plugWake_waits ?_ ▸ h
  rcases h.mode with m | m | ⟨_, low⟩
  · simp [m]
  · simp [m]
  · exact .inl low

theorem meetPlug (h : Parked s) : Parked s.meetPlug := by
  rw [meetPlug_eq]
  split
  · exact { h with }
  · exact h

theorem react (h : Parked s) : Parked s.react :=
  h.holdSetpoint.noticeTest.gateNotice.shareZeroTest.stopTest.releaseTest.startTest.engageTest.retuneTest.parkTest
    |>.plugWake.meetPlug

theorem finish (h : Parked s) : Parked s.finish := by
  unfold State.finish
  split
  · have settled : Parked s.settle := h.react.react.react.react.react
    exact settled.holdSetpoint.of_same (by simp) (by simp) (by simp)
  · exact h

end Parked

/-- The state that a PARK leaves (R126, R171). -/
def parkedBy (s : State) : State := { s with
  cc := if s.cc.state = .precharging then converterOff s.cc
    else if s.cc.state = .on then { s.cc with stopPending := true } else s.cc
  sp := { s.sp with mode := .parking } }

theorem setMode_parking (active : s.sp.mode = .active) : (s.setMode .parking).requestStop = parkedBy s := by
  have poll : pollIn s .parking = s.vl.pollAt := by simp [pollIn, active]
  rw [requestStop_eq, setMode_pollIn, poll]
  rfl

theorem parkedBy_parked (s : State) : Parked (parkedBy s) := by
  refine ⟨.inl rfl, ?_, ?_⟩
  · cases state : s.cc.state <;> simp [parkedBy, state, converterOff]
  · cases state : s.cc.state <;> simp [parkedBy, state, converterOff]

/-- Without a plug nothing wakes a DORMANT post at once (R174). -/
theorem finish_mode_dormant (dormant : s.sp.mode = .dormant) (low : s.vl.plug = false) :
    s.finish.sp.mode = .dormant := by
  rcases (finish_moves s).mode with same | ⟨_, ⟨parking, _⟩ | ⟨_, high, _⟩⟩
  · exact same.trans dormant
  · simp [dormant] at parking
  · simp [low] at high

/-- Settles O9: the two commands, the park's completion, the wake by a call, and the change of mode. -/
theorem parkAndWakeChangeTheMode : Obligations.ParkAndWakeChangeTheMode := by
  refine ⟨fun s admitted => ⟨fun active => ?_, fun other => ?_, fun asleep => ?_, fun awake => ?_⟩, fun s => ⟨?_, ?_⟩, ?_,
    setMode_pollIn⟩
  · have parked := (parkedBy_parked s).finish
    simp only [exec, execPark, refusal_admitted admitted, if_pos active, setMode_parking active]
    exact ⟨_, rfl, congrArg State.finish rfl, parked.idle, parked.stops⟩
  · simp only [exec, execPark, refusal_admitted admitted, if_neg other]
    rfl
  · have wakes : s.sp.mode.wakes = true := by
      rcases asleep with mode | mode | mode <;> rw [mode] <;> rfl
    simp only [exec, execWake, refusal_admitted admitted, wakes, setMode_pollIn]
    exact ⟨_, rfl, finish_mode _ (by simp) (by simp), rfl⟩
  · have stays : s.sp.mode.wakes = false := by
      rcases awake with mode | mode <;> rw [mode] <;> rfl
    simp only [exec, execWake, refusal_admitted admitted, stays]
    rfl
  · intro parking zero notPrecharging notOn free ready
    have off : s.enablePin = false := by
      rw [Bool.eq_false_iff, ne_eq, State.enablePin, enabled_cases]
      tauto
    have done : s.parkReady = true := parkReady_iff.mpr
      ⟨parking, zero, off, Bool.eq_false_iff.mpr (mt (holdsPark_iff _).mp (of_decide_eq_false free)), ready⟩
    rw [exec, execParkComplete, if_pos done, parkTest_eq, if_pos done, setMode_pollIn]
    refine ⟨_, rfl, ?_, congrArg State.finish rfl⟩
    cases plug : s.vl.plug
    · exact finish_mode_dormant rfl plug
    · exact finish_mode _ (by simp) (by simp)
  · intro waits
    have stays : ¬s.parkReady = true := by
      rw [parkReady_iff]
      rintro ⟨parking, zero, off, free, ready⟩
      have off : ¬(s.cc.state = .precharging ∨ s.cc.state = .on) := by
        rw [← enabled_cases, off]
        decide
      rcases waits with mode | above | precharging | on | holds | waits
      · exact mode parking
      · omega
      · exact off (.inl precharging)
      · exact off (.inr on)
      · rw [decide_eq_true_eq, ← holdsPark_iff, free] at holds
        cases holds
      · simp [ready] at waits
    rw [exec, execParkComplete, if_neg stays]
  · intro s t d outcome r answer hold ready mem id
    have notified := intake_wokenOrNot answer hold ready mem id
    constructor
    · intro made notDone notCancelled early
      have wakes : r.wakes = true := by
        rw [wakes_iff]
        cases state : r.state <;> cases deferred : r.deferred <;> simp_all
      rw [wakes, Bool.and_true, decide_eq_true made] at notified
      exact notified
    · intro stays
      have asleep : (decide (outcome = .created ∨ outcome = .revised) && r.wakes) = false := by
        rw [Bool.and_eq_false_iff]
        rcases stays with other | done | cancelled | ⟨pending, undeferred, late⟩
        · exact .inl (decide_eq_false (by tauto))
        · exact .inr (by simp [CallRecord.wakes, done])
        · exact .inr (by simp [CallRecord.wakes, cancelled])
        · exact .inr (by simp [CallRecord.wakes, pending, undeferred, late])
      rw [asleep] at notified
      obtain ⟨mode, poll, count⟩ := notified
      exact ⟨mode.trans hold, poll, count⟩

end Sys2Proof.Safety
end

