-- ==== Sys2Proof/Proofs/RestartCommand.lean ====
section
/-!
RESTART and the end of its wait (O10): what the reactions leave of a released session and of the cleared blocks.
-/
namespace Sys2Proof.Safety

open Sys2Proof Sys2Proof.Machine

variable {s : State}

/-! ### What every reaction keeps -/

/-- The reactions of one round, in their order (log 10). -/
def reactions : List (State → State) :=
  [State.holdSetpoint, State.noticeTest, State.gateNotice, State.shareZeroTest, State.stopTest, State.releaseTest,
    State.startTest, State.engageTest, State.retuneTest, State.parkTest, State.plugWake, State.meetPlug]

/-- What every reaction and the taking of a frame keep, the end of a handling keeps. -/
theorem finish_keeps {P : State → Prop} (reaction : ∀ f ∈ reactions, ∀ s, P s → P (f s))
    (take : ∀ s, P s → P s.takeFrame) (h : P s) : P s.finish := by
  have round : ∀ s, P s → P s.react := by
    intro s h
    simp only [reactions, List.forall_mem_cons] at reaction
    obtain ⟨r1, r2, r3, r4, r5, r6, r7, r8, r9, r10, r11, r12, _⟩ := reaction
    exact r12 _ (r11 _ (r10 _ (r9 _ (r8 _ (r7 _ (r6 _ (r5 _ (r4 _ (r3 _ (r2 _ (r1 _ h)))))))))))
  unfold State.finish
  split
  · exact take _ (reaction _ (by simp [reactions]) _ (round _ (round _ (round _ (round _ (round _ h))))))
  · exact h

theorem plugWake_eq (s : State) : s.plugWake =
    if s.sp.mode = .dormant ∧ s.vl.plug = true ∧ s.sp.restarting = none then s.setMode .active else s := rfl

/-- A RELEASE that is due stays so at once (R160). -/
theorem finish_releaseDue (due : s.vl.due.release = true) : s.finish.vl.due.release = true := by
  refine finish_keeps (P := fun s => s.vl.due.release = true) ?_ (fun s due => by simpa using due) due
  simp only [reactions, List.forall_mem_cons, holdSetpoint_eq, noticeTest_eq, gateNotice_eq, shareZeroTest_eq, stopTest_eq,
    releaseTest_eq, startTest_eq, engageTest_eq, retuneTest_eq, parkTest_eq, plugWake_eq, meetPlug_eq, setMode_pollIn]
  refine ⟨fun s due => due, fun s due => due, fun s due => due, fun s due => due, fun s due => due,
    fun s due => by rw [due, Bool.or_true], fun s due => due, fun s due => due, fun s due => due, fun s due => ?_,
    fun s due => ?_, fun s due => ?_, by simp⟩
  · split <;> exact due
  · split <;> exact due
  · split <;> exact due

/-! ### The cleared blocks -/

/-- The part as a restart's completion leaves it, and as it stays at once: nothing of the session but the plug's meeting,
no failure of the converter, and no event but VEHICLE_ATTACHED (R137, R178). -/
structure Cleared (events : EventSet) (s : State) : Prop where
  ready : s.sp.restarting = none
  mode : s.sp.mode = .lockout ∨ s.sp.mode = .dormant ∨ s.sp.mode = .active
  session : s.vl.session = .absent ∨ s.vl.session = .attached
  due : s.vl.due = .nothing
  retune : s.vl.retuneAt = none
  failures : s.cc.failures = 0
  retry : s.cc.retryAt = none
  side : s.ea.side = .noRecord
  events : ∀ k, k ≠ .vehicleAttached → s.sp.events.count k = events.count k

namespace Cleared

variable {e : EventSet}

theorem noOffer (h : Cleared e s) : s.startRequest = false ∧ s.releaseWanted = false ∧ s.engageWanted = false ∧
    s.vl.session.retunable = false := by
  refine ⟨?_, ?_, ?_, ?_⟩
  · rcases h.session with x | x <;> simp [State.startRequest, SessionState.canOffer, x]
  · rcases h.session with x | x <;> simp [State.releaseWanted, x]
  · rcases h.session with x | x <;> simp [State.engageWanted, x]
  · rcases h.session with x | x <;> simp [SessionState.retunable, x]

theorem startTest (h : Cleared e s) : Cleared e s.startTest := by
  have request := h.noOffer.1
  have events : startEvents s = s.sp.events := by simp [startEvents, request]
  rw [startTest_eq, events]
  refine { h with failures := ?_, retry := ?_ }
  · have none' := h.failures
    unfold startedConverter
    cases state : s.cc.state <;> simp [request, none']
  · have none' := h.retry
    unfold startedConverter
    cases state : s.cc.state <;> simp [request, none']

theorem finish (h : Cleared e s) : Cleared e s.finish := by
  refine finish_keeps (P := Cleared e) ?_ (fun s h => ?_) h
  · simp only [reactions, List.forall_mem_cons]
    refine ⟨fun s h => ?_, fun s h => ?_, fun s h => ?_, fun s h => ?_, fun s h => ?_, fun s h => ?_,
      fun s h => h.startTest, fun s h => ?_, fun s h => ?_, fun s h => ?_, fun s h => ?_, fun s h => ?_, by simp⟩
    · rw [holdSetpoint_eq]
      exact { h with }
    · rw [noticeTest_stays (.inl h.side)]
      exact h
    · rw [gateNotice_eq]
      exact { h with }
    · rw [shareZeroTest_eq]
      exact { h with }
    · rw [stopTest_eq]
      split
      · exact { h with failures := h.failures, retry := h.retry }
      · exact h
    · rw [State.releaseTest, if_neg (by simp [h.noOffer.2.1])]
      exact h
    · have due : s.engageTest.vl.due = .nothing := by
        rw [engageTest_eq, h.noOffer.2.2.1, h.due]
        rfl
      exact { h with due := due }
    · rw [retuneTest_eq, if_neg (by simp [h.noOffer.2.2.2])]
      exact { h with retune := rfl }
    · have stays : ¬s.parkReady = true := by
        rw [parkReady_iff]
        rintro ⟨parking, _⟩
        rcases h.mode with m | m | m <;> simp [m] at parking
      rw [parkTest_eq, if_neg stays]
      exact h
    · rw [plugWake_eq]
      split
      · rw [setMode_pollIn]
        exact { h with mode := .inr (.inr rfl) }
      · exact h
    · rw [meetPlug_eq]
      split
      · exact { h with
          session := .inr rfl
          events := fun k other => (EventSet.count_raise_of_ne _ other).trans (h.events k other) }
      · exact h
  · obtain ⟨ready, mode, session, due, retune, failures, retry, side, events⟩ := h
    constructor <;> simpa

end Cleared

theorem restartedInto_cleared {m : PostMode} (mode : m = .lockout ∨ m = .dormant ∨ m = .active) (echo standing : Nat) :
    Cleared s.sp.events (restartedInto s m echo standing) :=
  ⟨rfl, mode, .inl rfl, rfl, rfl, rfl, rfl, rfl, fun _ _ => rfl⟩

/-- A completed restart, with what follows at once (R137, R178). -/
theorem restarted_finish {m : PostMode} (mode : m = .lockout ∨ m = .dormant ∨ m = .active) (echo standing : Nat) :
    Restarted s (restartedInto s m echo standing).finish ∧
      (restartedInto s m echo standing).finish.sp.mode = if m = .dormant ∧ s.vl.plug = true then .active else m := by
  have cleared := restartedInto_cleared (s := s) mode echo standing
  have joined : (restartedInto s m echo standing).sp.mode ≠ .config := by
    rcases mode with rfl | rfl | rfl <;> simp [restartedInto]
  obtain ⟨frame, moves⟩ := finish_reacted (restartedInto s m echo standing)
  have quiet := (finish_settled joined).1
  have flows := finish_flows joined
  have after := cleared.finish
  have plug : (restartedInto s m echo standing).finish.vl.plug = s.vl.plug := (blank_vl_plug frame).trans rfl
  generalize (restartedInto s m echo standing).finish = t at *
  have setpoint : t.cc.setpoint = 0 := by
    by_contra above
    have exporting := flows (Nat.pos_of_ne_zero above)
    rcases after.session with x | x <;> simp [x] at exporting
  have reached : t.sp.mode = if m = .dormant ∧ s.vl.plug = true then .active else m := by
    rcases moves.mode with same | ⟨_, ⟨parking, _⟩ | ⟨dormant, high, active⟩⟩
    · have same : t.sp.mode = m := same
      rw [if_neg, same]
      rintro ⟨dormant, high⟩
      exact quiet.wake ⟨same.trans dormant, plug.trans high, after.ready⟩
    · have parking : m = .parking := parking
      rcases mode with rfl | rfl | rfl <;> cases parking
    · rw [if_pos ⟨dormant, high⟩, active]
  have session : t.vl.session = if s.vl.plug then .attached else .absent := by
    cases level : s.vl.plug
    · rcases moves.session with same | ⟨exporting, _⟩ | ⟨_, _, high⟩
      · exact same
      · cases exporting
      · exact absurd (level.symm.trans high) (by decide)
    · have awake : t.sp.mode ≠ .dormant := by
        rw [reached]
        rcases mode with rfl | rfl | rfl <;> simp [level]
      exact (after.session.resolve_left (quiet.plug (plug.trans level) awake))
  have records : t.ct.records = [] := by
    rcases moves.records with same | same
    · exact same
    · exact same
  exact ⟨⟨after.ready, records, blank_pv frame ▸ rfl, after.failures, after.retry, setpoint, blank_vl_inFlight frame,
    after.due, blank_vl_failures frame, after.retune, session, after.events⟩, reached⟩

/-! ### The command and its wait -/

theorem enqueue_setVl (s : State) (v : VehicleLink) (f : QueuedFrame) :
    (s.setVl v).enqueue f = (s.enqueue f).setVl v := by
  have takes : (s.setVl v).transmitEnabled = s.transmitEnabled := rfl
  unfold State.enqueue
  rw [takes]
  split
  · rw [enqueueNow_eq, enqueueNow_eq]
    rfl
  · rfl

/-- The session as a RESTART releases it (R150). -/
def releasedLink (v : VehicleLink) : VehicleLink :=
  if v.session = .ready ∨ v.session = .engaging ∨ v.session = .exporting then
    { v with session := .releasing, due := { v.due with release := true } }
  else v

/-- The state in which a restart's wait begins, before its LEAVE (R134, R150, R177). -/
def restartBegun (s : State) : State := { s with
  cc := if s.cc.state = .precharging ∨ s.cc.state = .on then converterOff s.cc else { s.cc with setpoint := 0 }
  vl := releasedLink s.vl
  sp := { s.sp with restarting := some ⟨s.sp.mode, false, s.now + 200⟩ } }

theorem releaseForRestart_setVl (s : State) : s.releaseForRestart = s.setVl (releasedLink s.vl) := releaseForRestart_eq s

theorem beginRestart_eq (s : State) : s.beginRestart = (restartBegun s).enqueue .leave := by
  unfold State.beginRestart
  dsimp only
  rw [releaseForRestart_setVl, State.enqueue_vl, ← enqueue_setVl, dropEnable_eq]
  simp only [enabled_cases]
  rfl

theorem restartBegun_off (s : State) : (restartBegun s).cc.setpoint = 0 ∧ (restartBegun s).cc.state.enabled = false := by
  unfold restartBegun
  dsimp only
  split
  · exact ⟨rfl, rfl⟩
  · next off => exact ⟨rfl, Bool.eq_false_iff.mpr (mt (enabled_cases _).mp off)⟩

theorem releasedLink_plug (v : VehicleLink) : (releasedLink v).plug = v.plug := by
  unfold releasedLink
  split <;> rfl

theorem releasedLink_holdsStop {v : VehicleLink} (held : v.session = .ready ∨ v.session = .engaging ∨
    v.session = .exporting ∨ v.session = .releasing) : (releasedLink v).session.holdsStop = true := by
  unfold releasedLink
  rcases held with x | x | x | x <;> simp [x, SessionState.holdsStop]

theorem releasedLink_releasing {v : VehicleLink}
    (held : v.session = .ready ∨ v.session = .engaging ∨ v.session = .exporting) :
    releasedLink v = { v with session := .releasing, due := { v.due with release := true } } := if_pos held

/-- In a restart's wait no reaction moves the mode, nor raises ENABLE (R119, R177). -/
theorem finish_waiting {r : Restarting} (waits : s.sp.restarting = some r) (off : s.cc.state.enabled = false) :
    s.finish.sp.mode = s.sp.mode ∧ s.finish.sp.restarting = some r ∧ s.finish.enablePin = false := by
  have moves := finish_moves s
  refine ⟨?_, moves.restarting.trans waits, ?_⟩
  · rcases moves.mode with same | ⟨ready, _⟩
    · exact same
    · simp [waits] at ready
  · rw [Bool.eq_false_iff]
    intro enabled
    rcases moves.enables enabled with on | ⟨_, ready⟩
    · simp [off] at on
    · simp [waits] at ready

/-- Settles O10: the wait, the completion from LOCKOUT, and the wait's end. -/
theorem restartWaitsAndCompletes : Obligations.RestartWaitsAndCompletes := by
  refine ⟨fun s admitted => ⟨fun open' => ?_, fun locked => ?_⟩, fun s r waits => ?_, fun s ready => ?_⟩
  · obtain ⟨zero, off⟩ := restartBegun_off s
    have waits : ((restartBegun s).enqueue .leave).sp.restarting = some ⟨s.sp.mode, false, s.now + 200⟩ := by
      rw [State.enqueue_sp_restarting]
      rfl
    obtain ⟨mode, restarting, enable⟩ := finish_waiting waits (by rw [State.enqueue_cc]; exact off)
    simp only [exec, execRestart, refusal_admitted admitted, if_neg open', beginRestart_eq]
    refine ⟨_, rfl, congrArg State.finish rfl, ?_, restarting, finish_setpoint_zero _ (by rw [State.enqueue_cc]; exact zero),
      enable, fun held => ?_⟩
    · rw [mode, State.enqueue_sp_mode]
      rfl
    · have link : ((restartBegun s).enqueue .leave).vl =
          { s.vl with session := .releasing, due := { s.vl.due with release := true } } := by
        rw [State.enqueue_vl]
        exact releasedLink_releasing held
      refine ⟨?_, finish_releaseDue (by rw [link])⟩
      have session : ((restartBegun s).enqueue .leave).vl.session = .releasing := by rw [link]
      rw [finish_session _ (by rw [session]; decide) (by rw [session]; decide), session]
  · obtain ⟨echoLow, echoHigh⟩ := State.drawn_range (s.setVl (releasedLink s.vl)) 10000 1000
    obtain ⟨standingLow, standingHigh⟩ := State.drawn_range (s.setVl (releasedLink s.vl)).countDraw 1000 100
    simp only [exec, execRestart, refusal_admitted admitted, if_pos locked, releaseForRestart_setVl,
      completeRestart_eq_restartedInto]
    refine ⟨_, _, _, rfl, echoLow, echoHigh, standingLow, standingHigh, congrArg State.finish rfl, ?_, ?_,
      fun held => ?_⟩
    · obtain ⟨⟨ready, records, entries, failures, retry, zero, flight, due, linkFailures, retune, session, events⟩, _⟩ :=
        restarted_finish (s := s.setVl (releasedLink s.vl)) (m := restartMode .lockout false)
          (.inr (.inr rfl)) _ _
      rw [show (s.setVl (releasedLink s.vl)).vl.plug = s.vl.plug from releasedLink_plug s.vl] at session
      exact ⟨ready, records, entries, failures, retry, zero, flight, due, linkFailures, retune, session, events⟩
    · exact finish_mode _ (by simp [restartedInto, restartMode]) (by simp [restartedInto, restartMode])
    · rw [blank_vl_releaseOwed (finish_reacted _).1]
      show ((releasedLink s.vl).releaseOwed || (releasedLink s.vl).session.holdsStop) = true
      rw [releasedLink_holdsStop held, Bool.or_true]
  · obtain ⟨echoLow, echoHigh⟩ := State.drawn_range (s.reach r.waitAt) 10000 1000
    obtain ⟨standingLow, standingHigh⟩ := State.drawn_range (s.reach r.waitAt).countDraw 1000 100
    simp only [exec, execRestartWaitExpiry, waits, completeRestart_eq_restartedInto, restartMode_eq]
    refine ⟨_, _, _, rfl, echoLow, echoHigh, standingLow, standingHigh, congrArg State.finish rfl, ?_⟩
    refine restarted_finish (s := s.reach r.waitAt) ?_ _ _
    split_ifs <;> simp
  · simp only [exec, execRestartWaitExpiry, ready]

end Sys2Proof.Safety
end

