-- ==== Sys2Proof/Proofs/CallCommand.lean ====
section
/-!
The supervisor's CALL (O8).
-/
namespace Sys2Proof.Safety

open Sys2Proof Sys2Proof.Machine

variable {s : State} {a : CallArgs}

theorem supervisorKind_unknown (other : a.kind < 1 ∨ 3 < a.kind) : supervisorKindOfCode a.kind = none := by
  match kind : a.kind with
  | 0 => rfl
  | 1 | 2 | 3 => omega
  | k + 4 => rfl

theorem outOfRange_iff (kind : CallKind) (stall : Nat) : a.outOfRange = true ↔
    a.target ≠ (a.corrected kind stall).target ∨ a.delay ≠ (a.corrected kind stall).countdown ∨
      a.duration ≠ (a.corrected kind stall).duration ∨ a.ramp ≠ (a.corrected kind stall).ramp := by
  simp only [CallArgs.outOfRange, CallArgs.corrected, decide_eq_true_eq, clampNat_eq (show 60 ≤ 14400 by decide),
    clampNat_eq (show 1 ≤ 1000 by decide)]
  omega

theorem withRepeats_eq (rs : List RepeatEntry) (d : CallFrame) (now : Nat) :
    withRepeats rs d now = rs.drop (rs.length - 7) ++ [⟨d, [now + 300, now + 600]⟩] := by
  unfold withRepeats
  split
  · rfl
  · next few => rw [show rs.length - 7 = 0 by omega, List.drop_zero]

/-- The repeat list after a CALL is sent, which no reaction touches (R54). -/
theorem sendCall_repeats (u : State) (d : CallFrame) : (u.sendCall d).finish.ct.repeats =
    u.ct.repeats.drop (u.ct.repeats.length - 7) ++ [⟨d, [u.now + 300, u.now + 600]⟩] := by
  rw [blank_ct_repeats (finish_reacted _).1, ← withRepeats_eq, State.sendCall, State.enqueue_ct]
  rfl

/-- A CALL that is taken (R41, R54). -/
theorem exec_call_taken (admitted : Admitted s) {kind : CallKind} (named : supervisorKindOfCode a.kind = some kind)
    (id : a.callId ≠ 0) : exec (.call a) s = .next ((s.takeCall (a.corrected kind s.lp.stall)).1.finish.respond
      (if a.outOfRange then .acceptedClamped else .accepted) (.intake (s.intake (a.corrected kind s.lp.stall)).2)) := by
  simp only [exec, execCall, refusal_admitted admitted, named, if_neg id]
  rfl

/-- Settles O8. -/
theorem callIsHandledAsADispatch : Obligations.CallIsHandledAsADispatch := by
  intro s a admitted
  constructor
  · intro invalid
    have unnamed : supervisorKindOfCode a.kind = none ∨ a.callId = 0 := by
      rcases invalid with id | other
      · exact .inr id
      · exact .inl (supervisorKind_unknown other)
    simp only [exec, execCall, refusal_admitted admitted]
    cases named : supervisorKindOfCode a.kind with
    | none => rfl
    | some kind =>
      have id : a.callId = 0 := unnamed.resolve_left (by simp [named])
      simp only [if_pos id]
      rfl
  · intro kind id code d clamped u outcome
    have named : supervisorKindOfCode a.kind = some kind := by
      rcases code with ⟨code, rfl⟩ | ⟨code, rfl⟩ | ⟨code, rfl⟩ <;> rw [code] <;> rfl
    have response : (if a.outOfRange then ResultCode.acceptedClamped else .accepted) =
        if clamped then .acceptedClamped else .accepted := if_congr (outOfRange_iff kind s.lp.stall) rfl rfl
    refine ⟨_, exec_call_taken admitted named id, ?_, ?_, ?_⟩
    · rw [response]
      rfl
    · intro ignored
      have sent : (s.takeCall (a.corrected kind s.lp.stall)).1 = u := if_pos ignored
      rw [sent]
      exact Reacted.finish_respond (Reacted.refl (u.respond _ _))
    · intro taken
      have sent : (s.takeCall (a.corrected kind s.lp.stall)).1 = u.sendCall d := if_neg taken
      have repeats := sendCall_repeats u d
      rw [sent]
      refine ⟨repeats, u.sendCall d, ?_, Reacted.finish_respond (Reacted.refl ((u.sendCall d).respond _ _))⟩
      show _ = ({ u with ct := { u.ct with repeats := (u.sendCall d).finish.ct.repeats } } : State).enqueue (.dispatch d)
      rw [repeats, ← withRepeats_eq]
      rfl

end Sys2Proof.Safety
end

