-- ==== Sys2Proof/Proofs/CurbCommands.lean ====
section
/-!
The sensor sample and the CURB (O39, O40), and JOIN, which takes the first sample (O7).
-/
namespace Sys2Proof.Safety

open Sys2Proof Sys2Proof.Machine

variable {s : State}

/-! ### The sample -/

/-- The condition of an origination at a moment (R108). -/
theorem originates_eq (s : State) (reading : Int) : s.originates reading =
    (decide (-40 ≤ reading ∧ reading ≤ 150) && decide (s.sp.config.curbTemp ≤ reading) &&
      s.cu.lastOrigination.all fun last => decide (10000 ≤ s.now - last)) := by
  unfold State.originates validReading
  cases s.cu.lastOrigination <;> rfl

/-- The sensor as a reading leaves it (R106). -/
theorem judgeReading_eq (s : State) (reading : Int) :
    let valid : Bool := decide (-40 ≤ reading ∧ reading ≤ 150)
    s.judgeReading reading = { s with
      cu := { s.cu with
        sensor := if valid then .valid else .invalid
        sample := if valid then some reading else none }
      sp := { s.sp with
        events := if !valid && s.cu.sensor == .valid then s.sp.events.raise .sensorFault else s.sp.events } } := by
  intro valid
  unfold State.judgeReading
  cases judged : valid
  · rw [if_neg (by simpa [validReading, valid] using judged), State.raiseIf_eq]
    cases lost : s.cu.sensor == .valid <;> simp <;> rfl
  · rw [if_pos (by simpa [validReading, valid] using judged)]
    rfl

/-- The frame that a post originates (R108). -/
def ownCurb (s : State) (reading : Int) : QueuedFrame :=
  .curb ⟨s.sp.config.curbLevel, s.sp.config.curbHold, reading⟩

/-- The state in which an originated CURB is computed (R108, R110). -/
def originated (s : State) (reading : Int) : State :=
  { s.enqueue (ownCurb s reading) with
    cu := { s.cu with
      lastOrigination := some s.now
      curb := some (curbApplied s.cu.curb s.now s.sp.config.curbLevel s.sp.config.curbHold) }
    sp := { (s.enqueue (ownCurb s reading)).sp with
      events := (s.enqueue (ownCurb s reading)).sp.events.raise .curbSent } }

theorem originate_eq (s : State) (reading : Int) : s.originate reading = (originated s reading).curbComputation := by
  unfold State.originate State.applyCurb originated ownCurb
  dsimp only
  simp only [State.setCu, State.raise, State.enqueue_cu, State.enqueue_now]
  rfl

theorem takeSample_judged {reading : Int} (stays : s.originates reading = false) :
    s.takeSample reading = s.judgeReading reading := by
  rw [State.takeSample]
  simp only [judgeReading_originates, stays, Bool.false_eq_true, if_false]

theorem takeSample_originates {reading : Int} (goes : s.originates reading = true) :
    s.takeSample reading = (s.judgeReading reading).originate reading := by
  rw [State.takeSample]
  simp only [judgeReading_originates, goes, if_true]

/-- The state that a due sample finds (R106). -/
def sampleDue (s : State) (at' : Nat) (reading : Int) : State := { s with
  now := max s.now at'
  cu := { s.cu with tsense := reading, sampleAt := some (at' + 1000) } }

/-- Settles O39. -/
theorem sensorSampleMayOriginateACurb : Obligations.SensorSampleMayOriginateACurb := by
  constructor
  · intro s reading timer
    have stopped : (s.setCu { s.cu with tsense := reading }).cu.sampleAt = none := timer
    simp only [exec, execSensorSample, stopped]
    rfl
  · intro s reading at' timer now valid originates u
    have effect : exec (.sensorSample reading) s = if (sampleDue s at' reading).originates reading then
        .next ((sampleDue s at' reading).takeSample reading).finish else .next ((sampleDue s at' reading).takeSample reading) := by
      have due : (s.setCu { s.cu with tsense := reading }).cu.sampleAt = some at' := timer
      simp only [exec, execSensorSample, due]
      rfl
    have judged : (sampleDue s at' reading).judgeReading reading = u := judgeReading_eq _ reading
    have condition : (sampleDue s at' reading).originates reading = originates := originates_eq _ reading
    rw [effect, condition]
    constructor
    · intro stays
      rw [stays, takeSample_judged (condition.trans stays), judged]
      rfl
    · intro goes sent
      rw [goes, takeSample_originates (condition.trans goes), judged, originate_eq]
      exact next_finish_of_eq rfl

/-- The computation on a curb notice (R97, R112, R129). -/
theorem curbComputation_eq (s : State) :
    let v := s.compute .curb
    let cut : Bool := decide (v.share = 0 ∧ 0 < s.cc.setpoint ∧ s.cu.cutHold = false)
    s.curbComputation = { v with
      cc := { s.cc with setpoint := min s.cc.setpoint v.share }
      cu := { s.cu with cutHold := s.cu.cutHold || cut }
      sp := { s.sp with events := if cut then s.sp.events.raise .cut else s.sp.events } } := by
  intro v cut
  have tested : v.cutBy s.cc.setpoint = cut := by
    have hold : v.cu.cutHold = s.cu.cutHold := by rw [State.compute_cu]
    simp only [State.cutBy, hold, cut]
    grind
  unfold State.curbComputation
  dsimp only
  rw [show (s.compute .curb).cutBy s.cc.setpoint = cut from tested]
  cases cuts : cut
  · simp [State.stepDown, State.setCc, v]
  · simp [State.stepDown, State.setCc, State.setCu, State.setSp, State.raise, v]

/-- Settles O40. -/
theorem curbIsAppliedAtOnce : Obligations.CurbIsAppliedAtOnce := by
  refine ⟨fun s stall seq f hears => ?_, fun now level hold => ⟨rfl, fun c => rfl⟩, fun s => ?_, fun s c curb => ?_⟩
  · obtain ⟨receives, other⟩ := hears
    simp only [exec, execCurb, receives, if_neg other, heardFrom_eq, Bool.not_true, Bool.false_eq_true, if_false]
    exact next_finish_of_eq rfl
  · exact curbComputation_eq s
  · simp only [exec, execCurbExpiry, curb]
    exact next_finish_of_eq rfl

/-! ### JOIN -/

/-- The blocks as JOIN starts them (R18, R25, R59, R77, R102, R115, R132, R152, R170). -/
def joined (s : State) (echo jitter : Nat) : State := { s with
  draws := s.draws + 2
  lp := { s.lp with queue := [.standing], standingAt := some (s.now + jitter) }
  pv := { s.pv with sweepAt := some (s.now + 1000), lastHeardAt := some (s.now + 4000) }
  ct := { s.ct with tickAt := some (s.now + 1000), echoAt := some (s.now + echo) }
  mt := { s.mt with sampleAt := some (s.now + 100) }
  ap := { s.ap with stepAt := some (s.now + 500) }
  cu := { s.cu with sampleAt := if s.sp.config.sensorFitted then some (s.now + 1000) else none }
  cc := { s.cc with slewAt := some (s.now + 100) }
  vl := { s.vl with desired := min s.sp.config.allowCeil (s.sp.config.convRating / 10) }
  sp := { s.sp with mode := .active, locked := true } }

/-- The state with the gates as last notified (R73). -/
def withGates (s : State) (g : GateView) : State := { s with ea := { s.ea with gates := g } }

/-- The blocks with their periodic timers running, before the echo timer and the STANDING (R170). -/
def timersStarted (s : State) : State := { s with
  pv := { s.pv with sweepAt := some (s.now + 1000), lastHeardAt := some (s.now + 4000) }
  ct := { s.ct with tickAt := some (s.now + 1000) }
  mt := { s.mt with sampleAt := some (s.now + 100) }
  ap := { s.ap with stepAt := some (s.now + 500) }
  cu := { s.cu with sampleAt := if s.sp.config.sensorFitted then some (s.now + 1000) else none }
  cc := { s.cc with slewAt := some (s.now + 100) }
  vl := { s.vl with desired := min s.sp.config.allowCeil (s.sp.config.convRating / 10) }
  sp := { s.sp with mode := .active, locked := true } }

/-- A draw is the part's count of draws alone (log 8). -/
theorem drawn_of_draws {s t : State} (same : t.draws = s.draws) (lo span : Nat) : t.drawn lo span = s.drawn lo span := by
  unfold State.drawn
  rw [same]

theorem startEchoTimer_eq (s : State) : s.startEchoTimer = { s with
    draws := s.draws + 1
    ct := { s.ct with echoAt := some (s.now + s.drawn 10000 1000) } } := rfl

theorem timersStarted_standing (empty : s.lp.queue = []) :
    (timersStarted s).startEchoTimer.startStanding = joined s (s.drawn 10000 1000) (s.countDraw.drawn 1000 100) := by
  have echo : (timersStarted s).drawn 10000 1000 = s.drawn 10000 1000 := drawn_of_draws (by rfl) _ _
  have jitter : (timersStarted s).startEchoTimer.drawn 1000 100 = s.countDraw.drawn 1000 100 := drawn_of_draws (by rfl) _ _
  have queue : (timersStarted s).startEchoTimer.lp.queue = [] := empty
  have mode : (timersStarted s).startEchoTimer.sp.mode = .active := rfl
  rw [startStanding_empty _ queue (by rw [mode]; decide) (by rw [mode]; decide), jitter, startEchoTimer_eq, echo]
  generalize s.drawn 10000 1000 = e
  generalize s.countDraw.drawn 1000 100 = j
  rfl

theorem startTimers_eq (s : State) : ((s.setSp { s.sp with mode := .active, locked := true }).setVl
    { s.vl with desired := desiredLevel s.sp.config }).startTimers = timersStarted s := by
  unfold State.startTimers timersStarted desiredLevel
  simp only [State.setSp, State.setVl, State.setPv, State.setCt, State.setMt, State.setAp, State.setCc, State.setCu]
  rfl

theorem startedBlocks_joined (empty : s.lp.queue = []) : ∃ g,
    startedBlocks s = withGates (joined s (s.drawn 10000 1000) (s.countDraw.drawn 1000 100)) g := by
  rw [← timersStarted_standing empty]
  unfold startedBlocks
  rw [startTimers_eq]
  exact ⟨_, rfl⟩

/-- The gates last notified are no part of a computation. -/
theorem curbComputation_withGates (s : State) (g : GateView) :
    (withGates s g).curbComputation = withGates s.curbComputation g := by
  have compute : (withGates s g).compute .curb = withGates (s.compute .curb) g := by
    rw [compute_eq, compute_eq]
    rfl
  have share : (withGates (s.compute .curb) g).share = (s.compute .curb).share := rfl
  rw [curbComputation_eq, curbComputation_eq, compute, share]
  rfl

theorem withGates_reacted (s : State) (g : GateView) : Reacted s (withGates s g) :=
  Reacted.of_same rfl rfl rfl rfl rfl rfl rfl rfl

/-- The joined post with its first sample judged (R106, R115). -/
def joinSampled (s : State) (echo jitter : Nat) : State :=
  let valid : Bool := decide (-40 ≤ s.cu.tsense ∧ s.cu.tsense ≤ 150)
  { joined s echo jitter with
    cu := { (joined s echo jitter).cu with
      sensor := if valid then .valid else .invalid
      sample := if valid then some s.cu.tsense else none }
    sp := { (joined s echo jitter).sp with
      events := if !valid && s.cu.sensor == .valid then s.sp.events.raise .sensorFault else s.sp.events } }

/-- The joined post that sends a CURB, ahead of its STANDING (R108). -/
def joinCurbed (s : State) (echo jitter : Nat) : State :=
  { joinSampled s echo jitter with
    lp := { (joinSampled s echo jitter).lp with queue := [ownCurb s s.cu.tsense, .standing] }
    cu := { (joinSampled s echo jitter).cu with
      lastOrigination := some s.now
      curb := some (curbApplied s.cu.curb s.now s.sp.config.curbLevel s.sp.config.curbHold) }
    sp := { (joinSampled s echo jitter).sp with events := (joinSampled s echo jitter).sp.events.raise .curbSent } }

theorem judgeReading_joined (s : State) (echo jitter : Nat) (g : GateView) :
    (withGates (joined s echo jitter) g).judgeReading s.cu.tsense = withGates (joinSampled s echo jitter) g := by
  rw [judgeReading_eq]
  rfl

theorem originated_joined (s : State) (echo jitter : Nat) (g : GateView) :
    originated (withGates (joinSampled s echo jitter) g) s.cu.tsense = withGates (joinCurbed s echo jitter) g := by
  have mode : (withGates (joinSampled s echo jitter) g).sp.mode = .active := rfl
  have room : (withGates (joinSampled s echo jitter) g).lp.queue.length < 8 := by
    show [QueuedFrame.standing].length < 8
    decide
  unfold originated
  rw [enqueue_of_room (by rw [mode]; decide) (by rw [mode]; decide) room]
  rfl

/-- What JOIN's start makes, but for the gates as last notified (R170). -/
theorem start_reacted (empty : s.lp.queue = []) :
    let echo := s.drawn 10000 1000
    let jitter := s.countDraw.drawn 1000 100
    let originates : Bool := decide (-40 ≤ s.cu.tsense ∧ s.cu.tsense ≤ 150) &&
      decide (s.sp.config.curbTemp ≤ s.cu.tsense) && s.cu.lastOrigination.all fun last => decide (10000 ≤ s.now - last)
    (s.sp.config.sensorFitted = false → Reacted (joined s echo jitter) s.start) ∧
    (s.sp.config.sensorFitted = true → originates = false → Reacted (joinSampled s echo jitter) s.start) ∧
    (s.sp.config.sensorFitted = true → originates = true → Reacted (joinCurbed s echo jitter).curbComputation s.start) := by
  intro echo jitter originates
  obtain ⟨g, blocks⟩ := startedBlocks_joined empty
  have condition : (withGates (joined s echo jitter) g).originates s.cu.tsense = originates := originates_eq _ _
  rw [start_eq, blocks]
  refine ⟨fun unfitted => ?_, fun fitted stays => ?_, fun fitted goes => ?_⟩
  · rw [unfitted]
    exact withGates_reacted _ g
  · rw [if_pos fitted, takeSample_judged (condition.trans stays), judgeReading_joined]
    exact withGates_reacted _ g
  · rw [if_pos fitted, takeSample_originates (condition.trans goes), judgeReading_joined, originate_eq,
      originated_joined, curbComputation_withGates]
    exact withGates_reacted _ g

theorem start_joins (s : State) : s.start.sp.mode = .active ∧ s.start.sp.locked = true := by
  rw [start_eq]
  split <;> simp [startedBlocks, State.startTimers]

/-- Settles O7: the two refusals, and the start. -/
theorem joinValidatesAndStartsThePost : Obligations.JoinValidatesAndStartsThePost := by
  constructor
  · intro s open' free
    constructor
    · intro outside
      have invalid : s.stallValid = false := decide_eq_false outside
      simp only [exec, execJoin, refusal_configurable .writing open' (.inl free) rfl, invalid]
      rfl
    · intro inside below
      have valid : s.stallValid = true := decide_eq_true inside
      have invalid : s.floorValid = false := decide_eq_false (by omega)
      simp only [exec, execJoin, refusal_configurable .writing open' (.inl free) rfl, valid, invalid]
      rfl
  · intro s open' free empty _ low high roster floor reading valid originates
    have validStall : s.stallValid = true := decide_eq_true ⟨low, high, roster⟩
    have validFloor : s.floorValid = true := decide_eq_true floor
    obtain ⟨echoLow, echoHigh⟩ := State.drawn_range s 10000 1000
    obtain ⟨jitterLow, jitterHigh⟩ := State.drawn_range s.countDraw 1000 100
    obtain ⟨unfitted, sampled, curbed⟩ := start_reacted empty
    have effect : exec .join s = .next (answered s.start.finish .accepted .empty) := by
      simp only [exec, execJoin, refusal_configurable .writing open' (.inl free) rfl, validStall, validFloor]
      rfl
    have active : s.start.sp.mode = .active := start_joins s |>.1
    have locked : s.start.sp.locked = true := start_joins s |>.2
    have frame := (finish_reacted s.start).1
    exact ⟨s.start.finish, _, _, effect, finish_mode _ (by rw [active]; decide) (by rw [active]; decide) |>.trans active,
      (blank_sp_locked frame).trans locked, by rw [blank_cu frame, start_sampleAt], echoLow, echoHigh, jitterLow, jitterHigh,
      fun no => (unfitted no).finish, fun yes stays => (sampled yes stays).finish, fun yes goes => (curbed yes goes).finish⟩

end Sys2Proof.Safety
end

