-- ==== Sys2Proof/Proofs/Reports.lean ====
section
/-!
The reports that the supervisor reads (R180): the words, codes and masks of a record in the terms of the contents
rules, each record as its rule lists it, where POINT leaves the pointer, and what READ returns.
-/

namespace Sys2Proof.Safety

open Sys2Proof Sys2Proof.Machine

/-! ### Words and codes -/

theorem natWord_eq_word (n : Nat) : natWord n = word n := rfl

theorem flagWord_eq_mark (b : Bool) : flagWord b = mark b := by cases b <;> rfl

theorem map_eq_bind_word {α : Type} (o : Option α) (f : α → Nat) :
    (o.map fun x => (f x : Int)) = o.bind fun x => word (f x) := by cases o <;> rfl

theorem map_ofNat_eq_bind_word (o : Option Nat) : o.map Int.ofNat = o.bind word := by cases o <;> rfl

theorem msLeft_eq_msOf (now : Nat) (t : Timer) : msLeft now t = msOf now t := by cases t <;> rfl

theorem secondsLeft_eq_sOf (now : Nat) (t : Timer) : secondsLeft now t = sOf now t := by cases t <;> rfl

theorem sum_masked_zipIdx {α : Type} (holds : α → Bool) (table : List α) (k : Nat) :
    ((table.zipIdx k).map fun p => if holds p.1 then 2 ^ p.2 else 0).sum = 2 ^ k * maskOf (table.map holds) := by
  induction table generalizing k with
  | nil => rfl
  | cons x rest ih =>
    simp only [List.zipIdx_cons, List.map_cons, List.sum_cons, ih, maskOf]
    cases holds x
    · simp only [Bool.false_eq_true, if_false]; ring
    · simp only [if_true]; ring

theorem natWord_maskOf {α : Type} (table : List α) (holds : α → Bool) :
    natWord (maskOf (table.map holds)) = maskIn table holds := by
  rw [maskIn, sum_masked_zipIdx, pow_zero, one_mul]
  rfl

theorem natWord_maskOf_flags (flags : List Bool) : natWord (maskOf flags) = maskIn flags id := by
  have key := natWord_maskOf flags id
  rwa [List.map_id] at key

theorem natWord_session_code (x : SessionState) : natWord x.code =
    codeIn [SessionState.absent, .attached, .identifying, .tuning, .ready, .engaging, .exporting, .releasing, .retryWait,
      .faulted] x := by cases x <;> rfl

theorem natWord_converter_code (x : ConverterState) : natWord x.code =
    codeIn [ConverterState.off, .precharging, .on, .retryWait, .convFault] x := by cases x <;> rfl

theorem natWord_callState_code (x : CallState) : natWord x.code =
    codeIn [CallState.pending, .active, .ending, .done, .cancelled] x := by cases x <;> rfl

theorem natWord_callKind_code (x : CallKind) : natWord x.code = codeIn [CallKind.new, .revise, .cancel, .echo] x := by
  cases x <;> rfl

theorem natWord_outcome_code (x : OwnOutcome) :
    natWord x.code = codeIn [OwnOutcome.noOutcome, .echoed, .notEchoed] x := by cases x <;> rfl

theorem natWord_term_code (x : SettingTerm) :
    natWord x.code = codeIn [SettingTerm.converter, .allowance, .energy, .gated] x := by cases x <;> rfl

theorem natWord_clip_code (x : ClipCause) :
    natWord x.code = codeIn [ClipCause.allowance, .energy, .converter, .headroom, .noCause] x := by cases x <;> rfl

theorem natWord_trigger_code (x : Trigger) : natWord x.code = codeIn [Trigger.step, .curb, .call, .gate] x := by
  cases x <;> rfl

theorem natWord_sensor_code (x : SensorState) : natWord x.code = codeIn [SensorState.noSample, .valid, .invalid] x := by
  cases x <;> rfl

theorem natWord_phase_code (x : TuningPhase) : natWord x.code = codeIn [TuningPhase.idle, .stepping, .settling] x := by
  cases x <;> rfl

theorem natWord_tuningKind_code (x : TuningKind) : natWord x.code = codeIn [TuningKind.initial, .retune] x := by
  cases x <;> rfl

theorem natWord_tune_code (x : TuneCode) : natWord x.code = codeIn tuneTable x := by cases x <;> rfl

theorem natWord_status_code (x : TuneStatus) :
    natWord x.code = codeIn [TuneStatus.moved, .atTop, .atBottom, .unchanged] x := by cases x <;> rfl

theorem map_tune_code (o : Option TuneCode) : (o.map fun c => (c.code : Int)) = o.bind (codeIn tuneTable) := by
  cases o with
  | none => rfl
  | some c => exact natWord_tune_code c

theorem map_status_code (o : Option TuneStatus) :
    (o.map fun x => (x.code : Int)) = o.bind (codeIn [TuneStatus.moved, .atTop, .atBottom, .unchanged]) := by
  cases o with
  | none => rfl
  | some x => exact natWord_status_code x

/-- A joined post announces itself by its own mode, and a LOCKOUT is announced as DORMANT (R1). -/
theorem natWord_announced_code {m : PostMode} (notConfig : m ≠ .config) (notLockout : m ≠ .lockout) :
    natWord m.announcedCode = codeIn [PostMode.active, .parking, .hold, .dormant] m := by
  cases m with
  | config => exact absurd rfl notConfig
  | lockout => exact absurd rfl notLockout
  | _ => rfl

/-! ### The records of the PEERS and CALLS reports -/

theorem entryState_code (e : PeerEntry) (now : Nat) :
    (e.state now).code = if now - e.received < 3000 then 0 else if now - e.received < 8000 then 1 else 2 := by
  unfold PeerEntry.state entryStateOfAge PeerEntry.age
  split_ifs <;> rfl

theorem peer_report_eq {e : PeerEntry} (now : Nat) (notConfig : e.announced.mode ≠ .config)
    (notLockout : e.announced.mode ≠ .lockout) : e.report now = peersContents now e := by
  simp only [PeerEntry.report, peersContents, natWord_announced_code notConfig notLockout, natWord_maskOf_flags,
    map_ofNat_eq_bind_word]
  simp only [entryState_code, natWord_eq_word, PeerEntry.age]

theorem isFinal_eq_decide (r : CallRecord) : r.isFinal = decide (r.state = .done ∨ r.state = .cancelled) := by
  rw [Bool.eq_iff_iff, isFinal_iff, decide_eq_true_iff]

theorem running_eq_decide (r : CallRecord) :
    r.running = decide (r.state = .active ∨ (r.state = .pending ∧ r.deferred = true)) := by
  rw [Bool.eq_iff_iff, running_iff, decide_eq_true_iff]

theorem waiting_eq_decide (r : CallRecord) : r.waiting = decide (r.state = .pending ∧ r.deferred = false) := by
  rw [Bool.eq_iff_iff, waiting_iff, decide_eq_true_iff]

theorem call_report_eq (r : CallRecord) : r.report = callsContents r := by
  simp only [CallRecord.report, callsContents, natWord_callState_code, natWord_callKind_code, flagWord_eq_mark,
    map_eq_bind_word]
  simp only [natWord_eq_word, isFinal_eq_decide, running_eq_decide, waiting_eq_decide, decide_eq_true_eq]

/-! ### The seven OWN records -/

theorem line_report_eq (s : State) : s.lineReport = lineContents s := by
  have rank (k : Nat) {p : QueuedFrame → Bool} (same : ∀ f : QueuedFrame, (f.rank == k) = p f) :
      s.lp.queue.countP (·.rank == k) = s.lp.queue.countP p := by congr 1; exact funext same
  unfold State.lineReport
  simp only [lineContents, natWord_eq_word, List.cons.injEq, true_and, and_true]
  refine ⟨congrArg word (rank 3 ?_), congrArg word (rank 2 ?_), congrArg word (rank 1 ?_), congrArg word (rank 0 ?_), ?_⟩
  case refine_5 =>
    cases s.lp.inFlight with
    | none => rfl
    | some f => rcases f with ⟨_, _ | _ | _ | _⟩ <;> rfl
  all_goals rintro ⟨⟩ <;> rfl

theorem present_eq (e : PeerEntry) (now : Nat) : e.present now = decide (now - e.received < 8000) := by
  unfold PeerEntry.present PeerEntry.state entryStateOfAge PeerEntry.age
  split_ifs with fresh stale
  · exact (decide_eq_true (by omega)).symm
  · exact (decide_eq_true (by omega)).symm
  · exact (decide_eq_false (by omega)).symm

theorem peerView_report_eq (s : State) : s.peerViewReport = peerViewContents s := by
  simp only [State.peerViewReport, peerViewContents, State.census, present_eq, flagWord_eq_mark, natWord_maskOf_flags,
    msLeft_eq_msOf, natWord_outcome_code]
  simp only [natWord_eq_word]

theorem natWord_gateCode_none : natWord (gateCode none) = word 0 := rfl

theorem natWord_gateCode_some (g : Gate) : natWord (gateCode (some g)) = word (1 + gateTable.idxOf g) := by
  cases g <;> rfl

theorem energy_report_eq (s : State) : s.energyReport = energyContents s := by
  have gates : natWord (maskOf (Gate.all.map s.gateHolds)) = maskIn gateTable s.gateHolds := natWord_maskOf _ _
  simp only [State.energyReport, energyContents, gates, natWord_term_code, map_ofNat_eq_bind_word, flagWord_eq_mark,
    State.energyPower]
  cases inForce : s.gateInForce with
  | none => cases s.ea.side <;> rfl
  | some g => cases s.ea.side <;> cases g <;> rfl

theorem apportioner_report_eq (s : State) : s.apportionerReport = apportionerContents s := by
  simp only [State.apportionerReport, apportionerContents, natWord_clip_code, natWord_trigger_code,
    map_ofNat_eq_bind_word, State.share]
  cases s.ap.source <;> rfl

theorem curb_report_eq (s : State) : s.curbReport = curbContents s := by
  simp only [State.curbReport, curbContents, natWord_sensor_code, flagWord_eq_mark, secondsLeft_eq_sOf,
    map_eq_bind_word]

theorem enabled_eq_decide (x : ConverterState) : x.enabled = decide (x = .precharging ∨ x = .on) := by cases x <;> rfl

theorem converter_report_eq (s : State) : s.converterReport = converterContents s := by
  have target : s.target = if s.cc.state = .on ∧ s.vl.session = .exporting then min s.ap.result s.offer else 0 := by
    simp only [State.target, State.powerPath, State.share, Bool.and_eq_true, beq_iff_eq]
  simp only [State.converterReport, converterContents, target, State.enablePin, enabled_eq_decide,
    natWord_converter_code, flagWord_eq_mark, secondsLeft_eq_sOf]
  simp only [natWord_eq_word]

theorem vehicle_report_eq (s : State) : s.vehicleReport = vehicleContents s := by
  simp only [State.vehicleReport, vehicleContents, natWord_session_code, natWord_phase_code, natWord_tuningKind_code,
    map_tune_code, map_status_code, map_ofNat_eq_bind_word, msLeft_eq_msOf, flagWord_eq_mark]
  cases s.vl.inFlight with
  | none => cases s.vl.lastFailure <;> rfl
  | some f =>
    obtain ⟨request, number, attempt, replyAt⟩ := f
    cases request with
    | tune c => cases c <;> cases s.vl.lastFailure <;> rfl
    | _ => cases s.vl.lastFailure <;> rfl

/-- The seven OWN records in their order, with the tags 3 to 9 (R180). -/
theorem ownRecords_eq (s : State) : s.ownRecords = (ownContents s).mapIdx fun p fields => (p + 3, fields) := by
  simp only [State.ownRecords, line_report_eq, peerView_report_eq, energy_report_eq, apportioner_report_eq,
    curb_report_eq, converter_report_eq, vehicle_report_eq]
  rfl

theorem ownRecords_length (s : State) : s.ownRecords.length = 7 := rfl

theorem configRecords_length (s : State) : s.configRecords.length = 25 := rfl

/-- The record of a key stands at the key's position in the CONFIG report. -/
theorem configRecords_key (s : State) (k : ConfigKey) :
    s.configRecords[(k.index : Nat)]? = some (10, s.sp.keyReport k) := by
  cases k <;> rfl

theorem configRecords_stall (s : State) (free : s.sp.pendingKey = none) :
    s.configRecords[24]? = some (10, [word s.lp.stall, mark s.sp.locked, none]) := by
  have last : s.configRecords[24]? = some (10, s.stallReport) := rfl
  rw [last, State.stallReport, free, flagWord_eq_mark]
  rfl

/-! ### Where POINT leaves the pointer -/

theorem heldKey_zero (keys : List Nat) : heldKey keys 0 = 0 := rfl

theorem heldKey_nil (index : Nat) : heldKey [] index = 0 := by rw [heldKey, List.take_nil]; rfl

theorem heldKey_within {α : Type} (f : α → Nat) (before : List α) (e : α) (after : List α) :
    heldKey ((before ++ e :: after).map f) (before.length + 1) = f e := by
  have split : before ++ e :: after = (before ++ [e]) ++ after := by simp
  have front : (before ++ [e]).length = before.length + 1 := by simp
  rw [heldKey, ← List.map_take, split, ← front, List.take_left, List.map_append]
  simp

theorem heldKey_beyond {α : Type} (f : α → Nat) (before : List α) (e : α) {index : Nat} (h : before.length < index) :
    heldKey ((before ++ [e]).map f) index = f e := by
  have whole : ((before ++ [e]).map f).take index = (before ++ [e]).map f :=
    List.take_of_length_le (by simp; omega)
  rw [heldKey, whole, List.map_append]
  simp

theorem exec_point {s : State} {report index : Nat} {p : ReadPointer} (running : s.sp.restarting = none)
    (free : s.sp.pendingKey = none) (points : s.pointerAt report index = some p) :
    exec (.point report index) s =
      .next (answered { s with sp := { s.sp with pointer := p } } .accepted .empty) := by
  simp only [exec, execPoint, refusal_always running free, points]
  rfl

theorem exec_point_invalid {s : State} {report index : Nat} (running : s.sp.restarting = none)
    (free : s.sp.pendingKey = none) (nowhere : s.pointerAt report index = none) :
    exec (.point report index) s = .next (answered s .invalid .empty) := by
  simp only [exec, execPoint, refusal_always running free, nowhere]
  rfl

theorem pointerAt_invalid (s : State) {report : Nat} (index : Nat) (outside : report < 1 ∨ 4 < report) :
    s.pointerAt report index = none := by
  unfold State.pointerAt
  split <;> [omega; omega; omega; omega; rfl]

/-! ### What READ returns -/

theorem exec_read {s : State} {d : ResponseData} {p : ReadPointer} (running : s.sp.restarting = none)
    (free : s.sp.pendingKey = none) (returns : s.nextRecord = some (d, p)) :
    exec .read s = .next (answered { s with sp := { s.sp with pointer := p } } .accepted d) := by
  simp only [exec, execRead, refusal_always running free, returns]
  rfl

theorem exec_read_end {s : State} (running : s.sp.restarting = none) (free : s.sp.pendingKey = none)
    (ended : s.nextRecord = none) : exec .read s = .next (answered s .accepted .endOfReport) := by
  simp only [exec, execRead, refusal_always running free, ended]
  rfl

theorem find?_above_key {α : Type} {f : α → Nat} {key : Nat} {l before after : List α} {e : α}
    (split : l = before ++ e :: after) (below : ∀ x ∈ before, f x ≤ key) (above : key < f e) :
    l.find? (fun x => decide (key < f x)) = some e := by
  rw [List.find?_eq_some_iff_append]
  refine ⟨decide_eq_true above, before, after, split, fun x hx => ?_⟩
  have := below x hx
  simpa using this

theorem find?_above_last {α : Type} {f : α → Nat} {key : Nat} {l : List α} (below : ∀ x ∈ l, f x ≤ key) :
    l.find? (fun x => decide (key < f x)) = none := by
  rw [List.find?_eq_none]
  intro x hx
  have := below x hx
  simpa using this

section
variable {s : State} {key p : Nat}

theorem nextRecord_peer {before after : List PeerEntry} {e : PeerEntry} (at' : s.sp.pointer = .peers key)
    (split : s.pv.entries = before ++ e :: after) (below : ∀ x ∈ before, x.stall ≤ key) (above : key < e.stall) :
    s.nextRecord = some (.record 1 (e.report s.now), .peers e.stall) := by
  simp only [State.nextRecord, at', find?_above_key (f := PeerEntry.stall) split below above, Option.map_some]

theorem nextRecord_peers_end (at' : s.sp.pointer = .peers key) (below : ∀ x ∈ s.pv.entries, x.stall ≤ key) :
    s.nextRecord = none := by
  simp only [State.nextRecord, at', find?_above_last (f := PeerEntry.stall) below, Option.map_none]

theorem nextRecord_call {before after : List CallRecord} {r : CallRecord} (at' : s.sp.pointer = .calls key)
    (split : s.ct.records = before ++ r :: after) (below : ∀ x ∈ before, x.callId ≤ key) (above : key < r.callId) :
    s.nextRecord = some (.record 2 r.report, .calls r.callId) := by
  simp only [State.nextRecord, at', find?_above_key (f := CallRecord.callId) split below above, Option.map_some]

theorem nextRecord_calls_end (at' : s.sp.pointer = .calls key) (below : ∀ x ∈ s.ct.records, x.callId ≤ key) :
    s.nextRecord = none := by
  simp only [State.nextRecord, at', find?_above_last (f := CallRecord.callId) below, Option.map_none]

theorem nextRecord_own {fields : List (Option Int)} (at' : s.sp.pointer = .own p)
    (stands : (ownContents s)[p]? = some fields) :
    s.nextRecord = some (.record (p + 3) fields, .own (p + 1)) := by
  simp only [State.nextRecord, at', ownRecords_eq, List.getElem?_mapIdx, stands, Option.map_some]

theorem nextRecord_own_end (at' : s.sp.pointer = .own p) (beyond : 7 ≤ p) : s.nextRecord = none := by
  have none' : s.ownRecords[p]? = none := List.getElem?_eq_none (by rw [ownRecords_length]; exact beyond)
  simp only [State.nextRecord, at', none', Option.map_none]

theorem nextRecord_config {tag : Nat} {fields : List ReportWord} (at' : s.sp.pointer = .config p)
    (stands : s.configRecords[p]? = some (tag, fields)) :
    s.nextRecord = some (.record tag fields, .config (p + 1)) := by
  simp only [State.nextRecord, at', stands, Option.map_some]

theorem nextRecord_config_end (at' : s.sp.pointer = .config p) (beyond : 25 ≤ p) : s.nextRecord = none := by
  have none' : s.configRecords[p]? = none := List.getElem?_eq_none (by rw [configRecords_length]; exact beyond)
  simp only [State.nextRecord, at', none', Option.map_none]

end

/-- Settles O12, with one lemma for where POINT leaves the pointer and one for what READ returns, by the report. -/
theorem pointAndReadWalkTheReports : Obligations.PointAndReadWalkTheReports := by
  unfold Obligations.PointAndReadWalkTheReports
  intro s running free pointed
  have point {report index : Nat} {p : ReadPointer} (points : s.pointerAt report index = some p) :
      exec (.point report index) s = .next (answered (pointed p) .accepted .empty) := exec_point running free points
  refine ⟨point rfl, ?peerAt, ?peerLast, ?peerNone, point rfl, ?callAt, ?callLast, ?callNone, fun _ => point rfl,
    fun _ => point rfl, fun report index outside => exec_point_invalid running free (pointerAt_invalid s index outside),
    ?peer, fun key at' below => exec_read_end running free (nextRecord_peers_end at' below), ?call,
    fun key at' below => exec_read_end running free (nextRecord_calls_end at' below),
    fun p fields at' stands => exec_read running free (nextRecord_own at' stands),
    fun p at' beyond => exec_read_end running free (nextRecord_own_end at' beyond), ?key,
    fun at' => exec_read running free (nextRecord_config at' (configRecords_stall s free)),
    fun p at' beyond => exec_read_end running free (nextRecord_config_end at' beyond)⟩
  case peerAt =>
    intro before e after split
    exact point (by rw [State.pointerAt, split, heldKey_within])
  case peerLast =>
    intro before e index split beyond
    exact point (by rw [State.pointerAt, split, heldKey_beyond _ _ _ beyond])
  case peerNone =>
    intro index none'
    exact point (by rw [State.pointerAt, none', List.map_nil, heldKey_nil])
  case callAt =>
    intro before r after split
    exact point (by rw [State.pointerAt, split, heldKey_within])
  case callLast =>
    intro before r index split beyond
    exact point (by rw [State.pointerAt, split, heldKey_beyond _ _ _ beyond])
  case callNone =>
    intro index none'
    exact point (by rw [State.pointerAt, none', List.map_nil, heldKey_nil])
  case peer =>
    intro key before e after at' split below above notConfig notLockout
    rw [exec_read running free (nextRecord_peer at' split below above), peer_report_eq _ notConfig notLockout]
  case call =>
    intro key before r after at' split below above
    rw [exec_read running free (nextRecord_call at' split below above), call_report_eq]
  case key =>
    intro k at'
    rw [exec_read running free (nextRecord_config at' (configRecords_key s k)), Supervisor.keyReport, flagWord_eq_mark]

end Sys2Proof.Safety
end

