-- ==== Sys2Proof/Proofs/CallTimer.lean ====
section
/-!
The passing of time for the call records (R48 to R50, R53, R57): the clip second, one second of one record and of the
table, the starts that fall in it, and the running out of one record's time.
-/

namespace Sys2Proof.Safety

open Sys2Proof Sys2Proof.Machine

/-! ### The clip second (R57) -/

theorem satSucc_eq_min (limit n : Nat) : satSucc limit n = min limit (n + 1) := by
  unfold satSucc
  split <;> omega

section
variable (a : Accumulators)

theorem clipSecond_allowance : a.clipSecond .allowance = { a with allowanceS := min 65535 (a.allowanceS + 1) } := by
  rw [← satSucc_eq_min, Accumulators.clipSecond]

theorem clipSecond_energy : a.clipSecond .energy = { a with energyS := min 65535 (a.energyS + 1) } := by
  rw [← satSucc_eq_min, Accumulators.clipSecond]

theorem clipSecond_converter : a.clipSecond .converter = { a with converterS := min 65535 (a.converterS + 1) } := by
  rw [← satSucc_eq_min, Accumulators.clipSecond]

theorem clipSecond_headroom : a.clipSecond .headroom = { a with headroomS := min 65535 (a.headroomS + 1) } := by
  rw [← satSucc_eq_min, Accumulators.clipSecond]

theorem clipSecond_noCause : a.clipSecond .noCause = a := rfl

end

theorem record_clipSaturates (r : CallRecord) (c : ClipCause) :
    r.clipSaturates c = (r.inForce && r.accumulators.any fun a => a.clipSaturates c) := by
  unfold CallRecord.clipSaturates
  cases r.accumulators <;> rfl

/-! ### One second of a record (R48 to R50, R53) -/

section
variable {r : CallRecord}

theorem second_waiting (pending : r.state = .pending) (waits : r.deferred = false) :
    r.second = (some { r with countdown := r.countdown - 1 }, 0) := by
  simp [CallRecord.second, CallRecord.running, CallRecord.isFinal, CallRecord.waiting, pending, waits]

theorem second_running (runs : r.running = true) :
    r.second = (some { r with remaining := r.remaining - 1 }.endedAtZero.1,
      { r with remaining := r.remaining - 1 }.endedAtZero.2) := by
  rw [CallRecord.second, if_pos runs]

theorem second_active_onward (active : r.state = .active) (more : 2 ≤ r.remaining) :
    r.second = (some { r with remaining := r.remaining - 1 }, 0) := by
  have more' : ¬r.remaining - 1 = 0 := by omega
  rw [second_running (running_iff.mpr (.inl active)), CallRecord.endedAtZero, if_neg (fun h => more' h.1),
    if_neg (fun h => more' h.1)]

theorem second_active_ends (active : r.state = .active) (last : r.remaining ≤ 1) :
    r.second = (some { r with remaining := 0, state := .ending }, 1) := by
  have zero : r.remaining - 1 = 0 := by omega
  rw [second_running (running_iff.mpr (.inl active)), CallRecord.endedAtZero, if_pos ⟨zero, active⟩, zero]

theorem second_deferred_onward (pending : r.state = .pending) (deferred : r.deferred = true) (more : 2 ≤ r.remaining) :
    r.second = (some { r with remaining := r.remaining - 1 }, 0) := by
  have more' : ¬r.remaining - 1 = 0 := by omega
  rw [second_running (running_iff.mpr (.inr ⟨pending, deferred⟩)), CallRecord.endedAtZero, if_neg (fun h => more' h.1),
    if_neg (fun h => more' h.1)]

theorem second_deferred_ends (pending : r.state = .pending) (deferred : r.deferred = true) (last : r.remaining ≤ 1) :
    r.second = (some { r with remaining := 0, state := .done, deferred := false, retention := 3600 }, 1) := by
  have zero : r.remaining - 1 = 0 := by omega
  have other : ¬r.state = .active := by rw [pending]; decide
  rw [second_running (running_iff.mpr (.inr ⟨pending, deferred⟩)), CallRecord.endedAtZero, if_neg (fun h => other h.2),
    if_pos ⟨zero, pending, deferred⟩, zero]
  rfl

theorem second_ending (ending : r.state = .ending) : r.second = (some r, 0) := by
  simp [CallRecord.second, CallRecord.running, CallRecord.isFinal, CallRecord.waiting, ending]

theorem second_final (final : r.state = .done ∨ r.state = .cancelled) :
    r.second = (if r.retention ≤ 1 then none else some { r with retention := r.retention - 1 }, 0) := by
  have idle : r.running = false := by rcases final with h | h <;> simp [CallRecord.running, h]
  rw [CallRecord.second, if_neg (by rw [idle]; decide), if_pos ((isFinal_iff r).mpr final)]
  split <;> rfl

end

theorem secondOf_changes (rs : List CallRecord) : (secondOf rs).2 = (rs.map fun r => r.second.2).sum := by
  induction rs with
  | nil => rfl
  | cons r rest ih => simp only [secondOf, List.map_cons, List.sum_cons, ih]

/-! ### The starts (R48) -/

section
variable (now : Nat)

theorem startDue_cons_due {r : CallRecord} (due : r.waiting = true ∧ r.countdown = 0) (free : Bool)
    (rest : List CallRecord) : startDue now free (r :: rest) =
      (r.started now r.duration free :: (startDue now false rest).1, (startDue now false rest).2 + 1) := by
  rw [startDue, if_pos due]

theorem startDue_cons_not_due {r : CallRecord} (stays : ¬(r.waiting = true ∧ r.countdown = 0)) (free : Bool)
    (rest : List CallRecord) : startDue now free (r :: rest) =
      (r :: (startDue now free rest).1, (startDue now free rest).2) := by
  rw [startDue, if_neg stays]

/-- The record waits for its start and its countdown stands at 0. -/
def startsNow (r : CallRecord) : Bool := decide (r.state = .pending ∧ r.deferred = false ∧ r.countdown = 0)

theorem startsNow_iff {r : CallRecord} : startsNow r = true ↔ r.waiting = true ∧ r.countdown = 0 := by
  rw [startsNow, decide_eq_true_iff, waiting_iff, and_assoc]

theorem startDue_none (free : Bool) {rs : List CallRecord} (none' : ∀ x ∈ rs, startsNow x = false) :
    startDue now free rs = (rs, 0) := by
  induction rs with
  | nil => rfl
  | cons r rest ih =>
    have stays : ¬(r.waiting = true ∧ r.countdown = 0) := by
      rw [← startsNow_iff, none' r (List.mem_cons_self ..)]
      decide
    rw [startDue_cons_not_due now stays, ih fun x hx => none' x (List.mem_cons_of_mem _ hx)]

theorem startDue_held (rs : List CallRecord) : startDue now false rs =
    (rs.map fun x => if startsNow x then x.started now x.duration false else x, rs.countP startsNow) := by
  induction rs with
  | nil => rfl
  | cons r rest ih =>
    by_cases due : startsNow r = true
    · rw [startDue_cons_due now (startsNow_iff.mp due), ih, List.map_cons, List.countP_cons, if_pos due, if_pos due]
    · rw [startDue_cons_not_due now (mt startsNow_iff.mpr due), ih, List.map_cons, List.countP_cons, if_neg due,
        if_neg due]
      rfl

theorem startDue_first (free : Bool) {before : List CallRecord} {r : CallRecord} (after : List CallRecord)
    (earlier : ∀ x ∈ before, startsNow x = false) (due : startsNow r = true) :
    startDue now free (before ++ r :: after) =
      (before ++ r.started now r.duration free ::
        after.map (fun x => if startsNow x then x.started now x.duration false else x),
      (before ++ r :: after).countP startsNow) := by
  induction before with
  | nil =>
    rw [List.nil_append, startDue_cons_due now (startsNow_iff.mp due), startDue_held, List.countP_cons, if_pos due]
    rfl
  | cons x rest ih =>
    have stays : ¬startsNow x = true := by rw [earlier x (List.mem_cons_self ..)]; decide
    rw [List.cons_append, startDue_cons_not_due now (mt startsNow_iff.mpr stays),
      ih fun y hy => earlier y (List.mem_cons_of_mem _ hy), List.countP_cons, if_neg stays]
    rfl

/-- A record that waits for its start, started: ACTIVE in a free slot, else deferred. -/
theorem started_eq {r : CallRecord} (pending : r.state = .pending) (free : Bool) :
    r.started now r.duration free = { r with
      startTime := some now
      remaining := r.duration
      countdown := 0
      state := if free then .active else .pending
      deferred := !free
      goal := if free then 0 else r.goal
      accumulators := if free then some ⟨0, 0, 0, 0, 0, 0, 0, 0⟩ else r.accumulators } := by
  cases free
  · simp only [CallRecord.started, Bool.false_eq_true, if_false, Bool.not_false, ← pending]
  · rfl

end

theorem tickedCalls_eq (now : Nat) (rs : List CallRecord) :
    tickedCalls now rs =
      ((startDue now (slotFree (rs.filterMap fun r => r.second.1)) (rs.filterMap fun r => r.second.1)).1,
        (rs.map fun r => r.second.2).sum +
          (startDue now (slotFree (rs.filterMap fun r => r.second.1)) (rs.filterMap fun r => r.second.1)).2) := by
  rw [tickedCalls, secondOf_eq, secondOf_changes]

/-! ### The call timer -/

/-- The events of one tick of the call timer: METER_SATURATED where a clip-second count first reaches its limit, and
CALL_STATE for each change of state. -/
def tickEvents (e : EventSet) (saturates : Bool) (changes : Nat) : EventSet :=
  (e.raiseTimes .meterSaturated saturates.toNat).raiseTimes .callState changes

theorem count_tickEvents {e : EventSet} (counts : ∀ k, e.count k ≤ 255) (saturates : Bool) (changes : Nat) :
    (tickEvents e saturates changes).count .callState = min 255 (e.count .callState + changes) ∧
    (tickEvents e saturates changes).count .meterSaturated =
      min 255 (e.count .meterSaturated + if saturates then 1 else 0) ∧
    (∀ k, k ≠ .callState → k ≠ .meterSaturated → (tickEvents e saturates changes).count k = e.count k) := by
  have state : (e.raiseTimes .meterSaturated saturates.toNat).count .callState = e.count .callState :=
    EventSet.count_raiseTimes_of_ne _ (by decide) _
  have one : saturates.toNat = if saturates then 1 else 0 := by cases saturates <;> rfl
  unfold tickEvents
  refine ⟨?_, ?_, fun k notState notSaturated => ?_⟩
  · rw [EventSet.count_raiseTimes _ _ _ (by rw [state]; exact counts _), state]
  · rw [EventSet.count_raiseTimes_of_ne _ (by decide), EventSet.count_raiseTimes _ _ _ (counts _), one]
  · rw [EventSet.count_raiseTimes_of_ne _ notState, EventSet.count_raiseTimes_of_ne _ notSaturated]

theorem exec_callTimer {s : State} {at' : Nat} (runs : s.ct.tickAt = some at') :
    let counted := s.ct.records.map (·.clipSecond s.ap.clip)
    let m := tickedCalls (max s.now at') counted
    exec .callTimer s = .next (State.setCalls { s with
      now := max s.now at'
      ct := { s.ct with records := counted, tickAt := some (at' + 1000) }
      sp := { s.sp with
        events := tickEvents s.sp.events (s.ct.records.any (·.clipSaturates s.ap.clip)) m.2 } } m.1).finish := by
  simp only [exec, execCallTimer, runs, State.raiseIf_eq, State.raiseTimes_eq]
  rfl

theorem exec_callTimer_stopped {s : State} (stopped : s.ct.tickAt = none) : exec .callTimer s = .next s := by
  simp only [exec, execCallTimer, stopped]

/-- Settles O27: the clip second, the second of each record, the starts, and the computation, each by its own lemma. -/
theorem callTimerPassesOneSecond : Obligations.CallTimerPassesOneSecond := by
  unfold Obligations.CallTimerPassesOneSecond
  refine ⟨?tick, fun s => exec_callTimer_stopped, ?second, ?table, ?calls⟩
  case tick =>
    intro s at' runs counts inForce counted saturates m
    have countedEq : s.ct.records.map (·.clipSecond s.ap.clip) = counted := by
      refine List.map_congr_left fun r _ => ?_
      rw [CallRecord.clipSecond]
      cases s.ap.clip
      · simp only [clipSecond_allowance]; rfl
      · simp only [clipSecond_energy]; rfl
      · simp only [clipSecond_converter]; rfl
      · simp only [clipSecond_headroom]; rfl
      · simp only [clipSecond_noCause]; rfl
    have saturatesEq : s.ct.records.any (·.clipSaturates s.ap.clip) = saturates := by
      refine congrArg (s.ct.records.any ·) (funext fun r => ?_)
      rw [record_clipSaturates]
      cases s.ap.clip <;> rfl
    have effect := exec_callTimer runs
    rw [countedEq, saturatesEq] at effect
    obtain ⟨state, meter, other⟩ := count_tickEvents (count_le counts) saturates m.2
    exact ⟨_, _, effect, state, meter, other, rfl⟩
  case second =>
    exact fun r => ⟨second_waiting, second_active_onward, second_active_ends, second_deferred_onward,
      second_deferred_ends, second_ending, second_final⟩
  case table =>
    intro now rs after1 changes due starts
    refine ⟨fun none' => ?_, fun before r after split earlier first => ?_⟩
    · rw [tickedCalls_eq, startDue_none now _ none']
      rfl
    · have pending : ∀ {x}, startsNow x = true → x.state = .pending := fun h => (of_decide_eq_true h).1
      have later : after.map (fun x => if startsNow x then x.started now x.duration false else x) =
          after.map fun x => if due x then starts x false else x := by
        refine List.map_congr_left fun x _ => ?_
        by_cases h : startsNow x = true
        · rw [if_pos h, if_pos (show due x = true from h), started_eq now (pending h)]
        · rw [if_neg h, if_neg (show ¬due x = true from h)]
      have run := startDue_first now (slotFree after1) after earlier first
      rw [← split, later, started_eq now (pending first), slotFree_eq] at run
      rw [tickedCalls_eq]
      show ((startDue now (slotFree after1) after1).1, changes + (startDue now (slotFree after1) after1).2) = _
      rw [slotFree_eq, run]
      rfl
  case calls => exact fun s rs => rfl

/-! ### The running out of one record's time (log 14) -/

section
variable {s : State} {before after : List CallRecord} {r : CallRecord}

/-- The table with one record replaced, and a change of state raised. -/
def becomes (s : State) (before : List CallRecord) (x : CallRecord) (after : List CallRecord) : State := { s with
  ct := { s.ct with records := before ++ x :: after }
  sp := { s.sp with events := s.sp.events.raise .callState } }

theorem putCall_split {x : CallRecord} (split : s.ct.records = before ++ r :: after)
    (others : ∀ x ∈ before ++ after, x.callId ≠ r.callId) (same : x.callId = r.callId) :
    putCall x s.ct.records = before ++ x :: after := by
  rw [split, putCall_at before r after x others same]

/-- A record whose time ran out is replaced, CALL_STATE is raised, and the share computed where the call in force
changed. -/
theorem replaced_reacted {x : CallRecord} (split : s.ct.records = before ++ r :: after)
    (others : ∀ x ∈ before ++ after, x.callId ≠ r.callId) (same : x.callId = r.callId) :
    Reacted (becomes s before x after) ((s.raise .callState).setCalls (putCall x s.ct.records)).finish := by
  rw [putCall_split split others same]
  exact (setCalls_reacted (s.raise .callState) (before ++ x :: after)).finish

theorem filter_split (split : s.ct.records = before ++ r :: after)
    (others : ∀ x ∈ before ++ after, x.callId ≠ r.callId) :
    s.ct.records.filter (·.callId != r.callId) = before ++ after := by
  have keep (l : List CallRecord) (sub : ∀ x ∈ l, x ∈ before ++ after) : l.filter (·.callId != r.callId) = l := by
    rw [List.filter_eq_self]
    exact fun x hx => by simpa using others x (sub x hx)
  rw [split, List.filter_append, List.filter_cons_of_neg (by simp), keep before fun x => List.mem_append_left after,
    keep after fun x => List.mem_append_right before]

end

/-- Settles O28, by the expiry: its record is found by its id and replaced. -/
theorem recordTimesRunOut : Obligations.RecordTimesRunOut := by
  unfold Obligations.RecordTimesRunOut
  intro s before r after split others free becomes'
  have found : findCall r.callId s.ct.records = some r := split ▸ findCall_at before r after others
  have slot : slotFree s.ct.records = free := slotFree_eq _
  refine ⟨?start, ?ending, ?deferred, ?retention⟩
  case start =>
    intro pending waits
    have waiting : r.waiting = true := waiting_iff.mpr ⟨pending, waits⟩
    have effect : exec (.startCountdownExpiry r.callId) s = .next ((s.raise .callState).setCalls
        (putCall (r.started s.now r.duration free) s.ct.records)).finish := by
      simp only [exec, execStartCountdownExpiry, found, waiting, slot, if_true]
    rw [started_eq s.now pending] at effect
    exact ⟨_, effect, replaced_reacted split others rfl⟩
  case ending =>
    intro active
    have effect : exec (.remainingActiveExpiry r.callId) s = .next ((s.raise .callState).setCalls
        (putCall { r with remaining := 0, state := .ending } s.ct.records)).finish := by
      simp only [exec, execRemainingActiveExpiry, found, active, if_true]
    exact ⟨_, effect, replaced_reacted split others rfl⟩
  case deferred =>
    intro pending deferred
    have effect : exec (.deferredExpiry r.callId) s = .next ((s.raise .callState).setCalls
        (putCall ({ r with remaining := 0 }.finished false) s.ct.records)).finish := by
      simp only [exec, execDeferredExpiry, found, pending, deferred, and_self, if_true]
    exact ⟨_, effect, replaced_reacted split others rfl⟩
  case retention =>
    intro final
    have isFinal : r.isFinal = true := (isFinal_iff r).mpr final
    simp only [exec, execRetentionExpiry, found, isFinal, if_true, filter_split split others]
    rfl

end Sys2Proof.Safety
end

