-- ==== Sys2Proof/Proofs/CallEchoes.lean ====
section
/-!
The echoes of the live records and the repeated copies of a CALL (R54, R55): what each hands to the Line Port, and that
the drawn interval of the echo timer does not depend on the frames handed in.
-/

namespace Sys2Proof.Safety

open Sys2Proof Sys2Proof.Machine

/-- The echo timer started with an interval, by one draw (R55). -/
def echoing (s : State) (interval : Nat) : State := { s with
  draws := s.draws + 1
  ct := { s.ct with echoAt := some (s.now + interval) } }

theorem enqueue_echoing (s : State) (interval : Nat) (f : QueuedFrame) :
    (echoing s interval).enqueue f = echoing (s.enqueue f) interval := by
  have takes : (echoing s interval).transmitEnabled = s.transmitEnabled := rfl
  unfold State.enqueue
  rw [takes]
  split
  · rw [enqueueNow_eq, enqueueNow_eq]
    rfl
  · rfl

/-- Frames handed in for sending one after the other. -/
def handedIn (s : State) (frames : List CallFrame) : State := frames.foldl (fun v d => v.enqueue (.dispatch d)) s

theorem enqueueAll_eq_handedIn (s : State) (frames : List CallFrame) : s.enqueueAll frames = handedIn s frames := by
  induction frames generalizing s with
  | nil => rfl
  | cons d rest ih => exact ih (s.enqueue (.dispatch d))

theorem handedIn_echoing (s : State) (interval : Nat) (frames : List CallFrame) :
    handedIn (echoing s interval) frames = echoing (handedIn s frames) interval := by
  induction frames generalizing s with
  | nil => rfl
  | cons d rest ih =>
    show handedIn ((echoing s interval).enqueue (.dispatch d)) rest = _
    rw [enqueue_echoing, ih]
    rfl

theorem handedIn_draws (s : State) (frames : List CallFrame) : (handedIn s frames).draws = s.draws := by
  induction frames generalizing s with
  | nil => rfl
  | cons d rest ih => exact (ih (s.enqueue (.dispatch d))).trans (State.enqueue_draws s _)

theorem exec_echoTimer {s : State} {at' : Nat} (runs : s.ct.echoAt = some at') :
    exec .echoTimer s = .next (handedIn (echoing (s.reach at') (s.drawn 10000 1000))
      (s.ct.records.filterMap CallRecord.echo)).takeFrame := by
  have interval : (handedIn (s.reach at') (s.ct.records.filterMap CallRecord.echo)).drawn 10000 1000 =
      s.drawn 10000 1000 := drawn_of_draws (handedIn_draws _ _) _ _
  have started : (handedIn (s.reach at') (s.ct.records.filterMap CallRecord.echo)).startEchoTimer =
      echoing (handedIn (s.reach at') (s.ct.records.filterMap CallRecord.echo)) (s.drawn 10000 1000) := by
    rw [startEchoTimer_eq, interval]
    rfl
  rw [handedIn_echoing, ← started, ← enqueueAll_eq_handedIn]
  simp only [exec, execEchoTimer, runs]
  rfl

theorem exec_repeatCopyDue {s : State} {at' : Nat} {rest : List RepeatEntry} {d : CallFrame}
    (earliest : earliestCopy s.ct.repeats = some at') (taken : takeCopy at' s.ct.repeats = (some d, rest)) :
    exec .repeatCopyDue s = .next (State.takeFrame (State.enqueue { s with
      now := max s.now at'
      ct := { s.ct with repeats := rest } } (.dispatch d))) := by
  have taken' : takeCopy at' (s.reach at').ct.repeats = (some d, rest) := taken
  simp only [exec, execRepeatCopyDue, earliest, taken']
  rfl

theorem exec_repeatCopyDue_none {s : State} (outstanding : earliestCopy s.ct.repeats = none) :
    exec .repeatCopyDue s = .next s := by
  simp only [exec, execRepeatCopyDue, outstanding]

/-- Settles O29. -/
theorem echoesAndRepeatsAreSent : Obligations.EchoesAndRepeatsAreSent := by
  unfold Obligations.EchoesAndRepeatsAreSent
  refine ⟨fun s at' runs => ?echoes, fun r => ?content, ?copy, fun s none' =>
    exec_repeatCopyDue_none (earliestCopy_of_none _ none')⟩
  case echoes =>
    obtain ⟨low, high⟩ := State.drawn_range s 10000 1000
    exact ⟨s.drawn 10000 1000, low, high, exec_echoTimer runs⟩
  case content =>
    unfold CallRecord.echo
    cases r.state <;> rfl
  case copy =>
    intro s before e after at' split due least earlier
    have earliest : earliestCopy s.ct.repeats = some at' := by
      rw [split] at least ⊢
      exact earliestCopy_at before e after at' due least
    exact exec_repeatCopyDue earliest (by rw [split, takeCopy_at before e after at' due earlier])

end Sys2Proof.Safety
end

