-- ==== Sys2Proof/Proofs/GoalSteps.lean ====
section
/-!
The apportion step (R49, R51, R83): the goal move of the call in force by its state, the passing on of a freed slot,
and why the values computed stand where no gate changes in what follows at once (R73).
-/

namespace Sys2Proof.Safety

open Sys2Proof Sys2Proof.Machine

/-! ### The values of a computation stand while no gate changes -/

section
variable {s : State}

/-- The gates stand as they were last notified (R73). -/
def GatesNotified (s : State) : Prop := s.ea.gates = s.gateView

/-- The values of the latest computation, and the gates as last notified. -/
def computed (s : State) : Apportioner × GateView := (s.ap, s.ea.gates)

theorem computed_holdSetpoint (s : State) : computed s.holdSetpoint = computed s := by rw [holdSetpoint_eq]; rfl

theorem holdSetpoint_ap (s : State) : s.holdSetpoint.ap = s.ap := by rw [holdSetpoint_eq]

theorem computed_noticeTest (s : State) : computed s.noticeTest = computed s := by rw [noticeTest_eq]; rfl

theorem computed_shareZeroTest (s : State) : computed s.shareZeroTest = computed s := by rw [shareZeroTest_eq]; rfl

theorem computed_startTest (s : State) : computed s.startTest = computed s := by rw [startTest_eq]; rfl

theorem computed_engageTest (s : State) : computed s.engageTest = computed s := by rw [engageTest_eq]; rfl

theorem computed_retuneTest (s : State) : computed s.retuneTest = computed s := by rw [retuneTest_eq]; rfl

theorem gateNotice_notified (notified : GatesNotified s) : s.gateNotice = s := by
  unfold State.gateNotice
  rw [if_pos (Eq.symm notified)]

/-- A round that keeps the control is no gate notice, so the computed values stand. -/
theorem react_keeps_computed (same : control s.react = control s) (notified : GatesNotified s) :
    s.react.ap = s.ap ∧ GatesNotified s.react := by
  have round := steadyRound_of_control same
  have first : SameView s s.holdSetpoint.noticeTest := (holdSetpoint_sameView s).trans (noticeTest_sameView _)
  have kept : computed s.holdSetpoint.noticeTest = computed s := by rw [computed_noticeTest, computed_holdSetpoint]
  have notified' : GatesNotified s.holdSetpoint.noticeTest := by
    have keptGates : s.holdSetpoint.noticeTest.ea.gates = s.ea.gates := congrArg Prod.snd kept
    rw [GatesNotified, first.gateView, keptGates]
    exact notified
  have whole : computed (steadied s) = computed s := by
    rw [steadied, readied, gateNotice_notified notified', computed_retuneTest, computed_engageTest, computed_startTest,
      computed_shareZeroTest, kept]
  have view : SameView s (steadied s) := (readied_sameView s).trans round.sameView
  rw [round.react]
  have keptGates : (steadied s).ea.gates = s.ea.gates := congrArg Prod.snd whole
  refine ⟨congrArg Prod.fst whole, ?_⟩
  rw [GatesNotified, view.gateView, keptGates]
  exact notified

theorem iterate_react_descends (n : Nat) (s : State) : Descends s (State.react^[n] s) := by
  induction n generalizing s with
  | zero => exact .refl s
  | succ n ih => exact (react_descends s).trans (ih s.react)

theorem iterate_react_keeps_computed (n : Nat) {s : State} (same : control (State.react^[n] s) = control s)
    (notified : GatesNotified s) : (State.react^[n] s).ap = s.ap := by
  induction n generalizing s with
  | zero => rfl
  | succ n ih =>
    obtain ⟨first, rest⟩ := (react_descends s).between (iterate_react_descends n s.react) same
    obtain ⟨ap, notified'⟩ := react_keeps_computed first notified
    exact (ih rest notified').trans ap

/-- The values computed stand at the end of a handling in which no gate changed (R73). -/
theorem finish_keeps_computed (notified : GatesNotified s) (mode : s.finish.sp.mode = s.sp.mode)
    (session : s.finish.vl.session = s.vl.session) (converter : s.finish.cc.state = s.cc.state) :
    s.finish.ap = s.ap := by
  have same : control s.finish = control s := by simp only [control, mode, session, converter]
  by_cases joined : s.joined = true
  · have finish : s.finish = s.settle.holdSetpoint.takeFrame := if_pos joined
    have last : control s.settle.holdSetpoint.takeFrame = control s.settle := by
      rw [holdSetpoint_eq]
      simp [control]
    rw [finish, last] at same
    rw [finish, State.takeFrame_ap, holdSetpoint_ap]
    have rounds := iterate_react_keeps_computed 5 (s := s)
    simp only [Function.iterate_succ_apply, Function.iterate_zero_apply] at rounds
    exact rounds same notified
  · have finish : s.finish = s := if_neg joined
    rw [finish]

end

/-! ### The goal move (R51) -/

section
variable {r : CallRecord}

theorem goalMoved_active (active : r.state = .active) : r.goalMoved = ({ r with
    goal := if r.goal < r.target then min r.target (r.goal + max 1 (r.ramp / 2))
      else max r.target (r.goal - max 1 (r.ramp / 2)) }, 0) := by
  simp only [CallRecord.goalMoved, CallRecord.movedGoal, goalStep, active, reduceCtorEq, if_false, false_and]

theorem movedGoal_ending (ending : r.state = .ending) : r.movedGoal = r.goal - max 1 (r.ramp / 2) := by
  rw [CallRecord.movedGoal, if_pos ending, if_neg (Nat.not_lt_zero _), Nat.zero_max, goalStep]

theorem goalMoved_ending_onward (ending : r.state = .ending) (above : max 1 (r.ramp / 2) < r.goal) :
    r.goalMoved = ({ r with goal := r.goal - max 1 (r.ramp / 2) }, 0) := by
  have more : ¬r.goal - max 1 (r.ramp / 2) = 0 := by omega
  rw [CallRecord.goalMoved, movedGoal_ending ending]
  exact if_neg fun h => more h.2

theorem goalMoved_ending_final (ending : r.state = .ending) (last : r.goal ≤ max 1 (r.ramp / 2)) :
    r.goalMoved = ({ r with
      goal := 0
      state := if r.cancelledMark then .cancelled else .done
      deferred := false
      retention := 3600 }, 1) := by
  have zero : r.goal - max 1 (r.ramp / 2) = 0 := by omega
  rw [CallRecord.goalMoved, movedGoal_ending ending, zero]
  exact if_pos ⟨ending, rfl⟩

end

/-! ### The freed slot (R49) -/

/-- The record is deferred: it waits for the active slot. -/
def Deferred (r : CallRecord) : Prop := r.state = .pending ∧ r.deferred = true

theorem nextDeferred_cons_of_not {r : CallRecord} (waits : ¬Deferred r) (rs : List CallRecord) :
    nextDeferred (r :: rs) = nextDeferred rs := by
  rw [nextDeferred, if_neg (by simpa [Deferred] using waits)]

theorem nextDeferred_cons {r : CallRecord} (waits : Deferred r) {rs : List CallRecord} :
    (nextDeferred rs = none → nextDeferred (r :: rs) = some r) ∧
    (∀ m, nextDeferred rs = some m → nextDeferred (r :: rs) =
      if r.startTime.getD 0 ≤ m.startTime.getD 0 then some r else some m) := by
  have waits' : (r.state == .pending && r.deferred) = true := by simpa [Deferred] using waits
  constructor
  · intro last
    rw [nextDeferred, if_pos waits', last]
  · intro m next
    rw [nextDeferred, if_pos waits', next]

theorem nextDeferred_eq_none {rs : List CallRecord} (none' : ∀ x ∈ rs, ¬Deferred x) : nextDeferred rs = none := by
  induction rs with
  | nil => rfl
  | cons r rest ih =>
    rw [nextDeferred_cons_of_not (none' r (List.mem_cons_self ..)), ih fun x hx => none' x (List.mem_cons_of_mem _ hx)]

theorem nextDeferred_deferred {rs : List CallRecord} {m : CallRecord} (next : nextDeferred rs = some m) :
    m ∈ rs ∧ Deferred m := by
  induction rs generalizing m with
  | nil => cases next
  | cons r rest ih =>
    by_cases waits : Deferred r
    · cases rested : nextDeferred rest with
      | none =>
        rw [(nextDeferred_cons waits).1 rested] at next
        obtain rfl := Option.some.inj next
        exact ⟨List.mem_cons_self .., waits⟩
      | some k =>
        rw [(nextDeferred_cons waits).2 k rested] at next
        obtain ⟨mem, waits'⟩ := ih rested
        split at next
        · obtain rfl := Option.some.inj next
          exact ⟨List.mem_cons_self .., waits⟩
        · obtain rfl := Option.some.inj next
          exact ⟨List.mem_cons_of_mem _ mem, waits'⟩
    · rw [nextDeferred_cons_of_not waits] at next
      obtain ⟨mem, waits'⟩ := ih next
      exact ⟨List.mem_cons_of_mem _ mem, waits'⟩

/-- The deferred record of the earliest start, the first of them, takes the slot. -/
theorem nextDeferred_at {front back : List CallRecord} {d : CallRecord} (waits : Deferred d)
    (earlier : ∀ x ∈ front, Deferred x → d.startTime.getD 0 < x.startTime.getD 0)
    (later : ∀ x ∈ back, Deferred x → d.startTime.getD 0 ≤ x.startTime.getD 0) :
    nextDeferred (front ++ d :: back) = some d := by
  induction front with
  | nil =>
    cases rested : nextDeferred back with
    | none => exact (nextDeferred_cons waits).1 rested
    | some m =>
      obtain ⟨mem, waits'⟩ := nextDeferred_deferred rested
      rw [List.nil_append, (nextDeferred_cons waits).2 m rested, if_pos (later m mem waits')]
  | cons x rest ih =>
    have rested := ih fun y hy => earlier y (List.mem_cons_of_mem _ hy)
    rw [List.cons_append]
    by_cases waits' : Deferred x
    · have before := earlier x (List.mem_cons_self ..) waits'
      rw [(nextDeferred_cons waits').2 d rested, if_neg (by omega)]
    · rw [nextDeferred_cons_of_not waits', rested]

theorem freeSlot_held {rs : List CallRecord} (held : slotFree rs = false) : freeSlot rs = (rs, 0) := by
  rw [freeSlot, if_neg (by rw [held]; decide)]

theorem freeSlot_none {rs : List CallRecord} (free : slotFree rs = true) (none' : nextDeferred rs = none) :
    freeSlot rs = (rs, 0) := by
  rw [freeSlot, if_pos free, none']

theorem freeSlot_next {rs : List CallRecord} {d : CallRecord} (free : slotFree rs = true)
    (next : nextDeferred rs = some d) : freeSlot rs = (putCall d.activated rs, 1) := by
  rw [freeSlot, if_pos free, next]

/-! ### The apportion step -/

section
variable {before after : List CallRecord} {r : CallRecord}

theorem moveGoal_at (others : ∀ x ∈ before ++ after, x.inForce = false)
    (ids : ∀ x ∈ before ++ after, x.callId ≠ r.callId) (inForce : r.inForce = true) {m : CallRecord} {n : Nat}
    (moved : r.goalMoved = (m, n)) (same : m.callId = r.callId) :
    moveGoal (before ++ r :: after) =
      ((freeSlot (before ++ m :: after)).1, n + (freeSlot (before ++ m :: after)).2) := by
  have found : callInForce (before ++ r :: after) = some r :=
    callInForce_at before r after (fun x hx => others x (List.mem_append_left _ hx)) inForce
  simp only [moveGoal, found, moved, putCall_at before r after m ids same]

/-- The record in force keeps the slot. -/
theorem moveGoal_kept (others : ∀ x ∈ before ++ after, x.inForce = false)
    (ids : ∀ x ∈ before ++ after, x.callId ≠ r.callId) (inForce : r.inForce = true) {m : CallRecord} {n : Nat}
    (moved : r.goalMoved = (m, n)) (same : m.callId = r.callId) (kept : m.inForce = true) :
    moveGoal (before ++ r :: after) = (before ++ m :: after, n) := by
  have held : slotFree (before ++ m :: after) = false := slotFree_false_iff.mpr ⟨m, by simp, kept⟩
  rw [moveGoal_at others ids inForce moved same, freeSlot_held held]
  rfl

end

theorem exec_apportionStep {s : State} {at' : Nat} (runs : s.ap.stepAt = some at') :
    exec .apportionStep s = .next (State.compute { s with
      now := max s.now at'
      ct := { s.ct with records := (moveGoal s.ct.records).1 }
      ap := { s.ap with stepAt := some (at' + 500) }
      sp := { s.sp with
        events := s.sp.events.raiseTimes .callState (moveGoal s.ct.records).2 } } .step).finish := by
  simp only [exec, execApportionStep, runs, State.raiseTimes_eq]
  rfl

theorem exec_apportionStep_stopped {s : State} (stopped : s.ap.stepAt = none) : exec .apportionStep s = .next s := by
  simp only [exec, execApportionStep, stopped]

/-- Settles O30: the goal by the state of the record in force, the freed slot, and the values that stand. -/
theorem apportionStepMovesTheGoal : Obligations.ApportionStepMovesTheGoal := by
  unfold Obligations.ApportionStepMovesTheGoal
  refine ⟨?step, fun s => exec_apportionStep_stopped, ?none, ?goal⟩
  case step =>
    intro s at' runs counts
    refine ⟨_, _, _, exec_apportionStep runs, raiseTimes_spec _ _ _ (count_le counts _), rfl, rfl, ?_⟩
    intro gates mode session converter
    generalize moved : ({ s with
      now := max s.now at'
      ct := { s.ct with records := (moveGoal s.ct.records).1 }
      ap := { s.ap with stepAt := some (at' + 500) }
      sp := { s.sp with
        events := s.sp.events.raiseTimes .callState (moveGoal s.ct.records).2 } } : State) = v at mode session converter ⊢
    have kept : v.ea.gates = s.ea.gates ∧ v.gateView = s.gateView ∧ control v = control s := by
      subst moved
      exact ⟨rfl, rfl, rfl⟩
    obtain ⟨keptGates, view, same⟩ := kept
    simp only [control, Prod.mk.injEq] at same
    obtain ⟨sameMode, sameSession, sameConverter⟩ := same
    have notified : GatesNotified (v.compute .step) := by
      rw [compute_eq]
      exact keptGates.trans (gates.trans view.symm)
    have ap := finish_keeps_computed notified (by rw [mode, compute_eq, sameMode])
      (by rw [session, compute_eq, sameSession]) (by rw [converter, compute_eq, sameConverter])
    rw [ap, compute_eq]
    exact ⟨rfl, computation_trigger v .step⟩
  case none =>
    intro rs none'
    have idle : callInForce rs = none := callInForce_of_none rs fun x hx => by
      obtain ⟨notActive, notEnding⟩ := none' x hx
      simp [CallRecord.inForce, notActive, notEnding]
    rw [moveGoal, idle]
  case goal =>
    intro before r after others ids step
    refine ⟨fun active => ?_, fun ending above => ?_, ?final⟩
    · exact moveGoal_kept others ids ((inForce_iff r).mpr (.inl active)) (goalMoved_active active) rfl
        ((inForce_iff _).mpr (.inl active))
    · exact moveGoal_kept others ids ((inForce_iff r).mpr (.inr ending)) (goalMoved_ending_onward ending above) rfl
        ((inForce_iff _).mpr (.inr ending))
    intro ending last final table waits start
    have moved := moveGoal_at others ids ((inForce_iff r).mpr (.inr ending)) (goalMoved_ending_final ending last) rfl
    have out : final.inForce = false ∧ ¬Deferred final := by
      cases mark : r.cancelledMark <;> simp [final, CallRecord.inForce, Deferred, mark]
    have free : slotFree table = true := slotFree_iff.mpr fun x hx => by
      rcases List.mem_append.mp hx with front | rest
      · exact others x (List.mem_append_left _ front)
      · rcases List.mem_cons.mp rest with rfl | back
        · exact out.1
        · exact others x (List.mem_append_right _ back)
    refine ⟨fun none' => ?_, ?_⟩
    · have next : nextDeferred table = none := nextDeferred_eq_none fun x hx => by
        rcases List.mem_append.mp hx with front | rest
        · exact none' x (List.mem_append_left _ front)
        · rcases List.mem_cons.mp rest with rfl | back
          · exact out.2
          · exact none' x (List.mem_append_right _ back)
      have kept : freeSlot table = (table, 0) := freeSlot_none free next
      rw [moved]
      exact Prod.ext (congrArg (·.1) kept) (congrArg (1 + ·.2) kept)
    · intro front d back split waits' ids' earlier later
      have next : nextDeferred table = some d := split ▸ nextDeferred_at waits' earlier later
      have passed : freeSlot table = (front ++ d.activated :: back, 1) := by
        rw [freeSlot_next free next, split, putCall_at front d back d.activated ids' rfl]
      rw [moved]
      exact Prod.ext (congrArg (·.1) passed) (congrArg (1 + ·.2) passed)

end Sys2Proof.Safety
end

