-- ==== Sys2Proof/Proofs/MeterCommands.lean ====
section
/-!
The meter sample (R56, R57, R66, R77, R78): what the total, the estimate and the record in force take of it, and how
many counts first reach their limits; and a departure minute (R64).
-/

namespace Sys2Proof.Safety

open Sys2Proof Sys2Proof.Machine

theorem firstReaches_toNat (limit before after : Nat) :
    (firstReaches limit before after).toNat = if before < limit ∧ limit ≤ after then 1 else 0 := by
  unfold firstReaches
  by_cases first : before < limit ∧ limit ≤ after
  · rw [decide_eq_true first, if_pos first]
    rfl
  · rw [decide_eq_false first, if_neg first]
    rfl

/-- A count that stops at its limit first reaches it where the amount without the limit does. -/
theorem firstReaches_min (limit before more : Nat) :
    (firstReaches limit before (min limit (before + more))).toNat =
      if before < limit ∧ limit ≤ before + more then 1 else 0 := by
  rw [firstReaches_toNat]
  have same : (before < limit ∧ limit ≤ min limit (before + more)) ↔ (before < limit ∧ limit ≤ before + more) := by omega
  simp only [same]

theorem totalAdd_eq (wh residue joules : Nat) : totalAdd wh residue joules =
    (min 999999999 (wh + (residue + joules) / 3600),
      if 999999999 ≤ wh then residue else (residue + joules) % 3600) := by
  unfold totalAdd meterAdd totalLimit
  split
  · rw [Nat.min_eq_left (by omega)]
  · rfl

theorem drained_eq (a : EnergyAccount) (measured : Nat) : a.drained measured =
    if a.record.isSome then { a with
      estimate := a.estimate - (a.residue + 10 * measured) / 360000
      residue := (a.residue + 10 * measured) % 360000 }
    else a := by
  unfold EnergyAccount.drained
  split
  · next none' => rw [none']; rfl
  · next some' => rw [some']; rfl

theorem record_sampled_eq (r : CallRecord) (measured share : Nat) : r.sampled measured share =
    if r.state = .active ∨ r.state = .ending then { r with accumulators := r.accumulators.map fun a => { a with
      delivered := min 999999 (a.delivered + (a.deliveredJ + 10 * measured) / 3600)
      deliveredJ := (a.deliveredJ + 10 * measured) % 3600
      shortfall := min 999999 (a.shortfall + (a.shortfallJ + 10 * (share - measured)) / 3600)
      shortfallJ := (a.shortfallJ + 10 * (share - measured)) % 3600 } }
    else r := by
  unfold CallRecord.sampled
  simp only [inForce_iff]
  rfl

theorem accumulators_saturations (a : Accumulators) (measured share : Nat) : a.saturations measured share =
    (if a.delivered < 999999 ∧ 999999 ≤ a.delivered + (a.deliveredJ + 10 * measured) / 3600 then 1 else 0) +
      (if a.shortfall < 999999 ∧ 999999 ≤ a.shortfall + (a.shortfallJ + 10 * (share - measured)) / 3600 then 1
        else 0) :=
  congrArg₂ (· + ·) (firstReaches_min 999999 a.delivered _) (firstReaches_min 999999 a.shortfall _)

theorem record_saturations (r : CallRecord) (measured share : Nat) : r.saturations measured share =
    if r.state = .active ∨ r.state = .ending then
      (r.accumulators.map fun a => a.saturations measured share).getD 0 else 0 := by
  unfold CallRecord.saturations
  simp only [inForce_iff]
  cases r.accumulators <;> rfl

/-- The state that has taken a meter sample: the total with its residue, the records, the account and the events. -/
def metered (s : State) (at' : Nat) (total : Nat × Nat) (records : List CallRecord) (account : EnergyAccount)
    (events : EventSet) : State := { s with
  now := max s.now at'
  mt := { total := total.1, residue := total.2, sampleAt := some (at' + 100) }
  ct := { s.ct with records := records }
  ea := account
  sp := { s.sp with events := events } }

/-- How many counts first reach their limits with a sample (R57, R78). -/
def meterSaturations (s : State) : Nat :=
  (s.ct.records.map (·.saturations s.cc.measured s.share)).sum +
    (firstReaches totalLimit s.mt.total (totalAdd s.mt.total s.mt.residue (10 * s.cc.measured)).1).toNat

/-- A meter sample; an estimate that falls lets the reactions follow. -/
theorem exec_meterSample {s : State} {at' : Nat} (runs : s.mt.sampleAt = some at') :
    ∃ t, exec .meterSample s = .next t ∧ Reacted
      (metered s at' (totalAdd s.mt.total s.mt.residue (10 * s.cc.measured))
        (s.ct.records.map (·.sampled s.cc.measured s.share)) (s.ea.drained s.cc.measured)
        (s.sp.events.raiseTimes .meterSaturated (meterSaturations s))) t := by
  simp only [exec, execMeterSample, runs, State.raiseTimes_eq]
  split
  · exact ⟨_, rfl, (Reacted.refl _).finish⟩
  · exact ⟨_, rfl, Reacted.refl _⟩

theorem exec_departureMinute {s : State} {at' : Nat} (runs : s.ea.minuteAt = some at') :
    exec .departureMinute s = .next (State.finish { s with
      now := max s.now at'
      ea := { s.ea with
        departureLeft := s.ea.departureLeft.map (· - 1)
        minuteAt := some (at' + 60000) } }) := by
  simp only [exec, execDepartureMinute, runs]
  rfl

/-- Settles O31. -/
theorem meterSampleIsIntegrated : Obligations.MeterSampleIsIntegrated := by
  unfold Obligations.MeterSampleIsIntegrated
  refine ⟨?_, fun s at' runs => ⟨_, exec_departureMinute runs, (Reacted.refl _).finish⟩⟩
  intro s at' runs counts j wh share short first
  obtain ⟨t, effect, reacted⟩ := exec_meterSample runs
  simp only [totalAdd_eq, drained_eq, record_sampled_eq] at reacted
  refine ⟨t, s.sp.events.raiseTimes .meterSaturated (meterSaturations s), effect, ?_, reacted⟩
  have spec := raiseTimes_spec s.sp.events .meterSaturated (meterSaturations s) (count_le counts _)
  simp only [meterSaturations, record_saturations, accumulators_saturations, totalAdd_eq, totalLimit, firstReaches_min]
    at spec ⊢
  exact spec

end Sys2Proof.Safety
end

