-- ==== Sys2Proof/Proofs/Offers.lean ====
section
/-!
The exportable energy, the class, the gates and the offer (R69 to R72, R74), the time base by the call in force and the
nearest PENDING record (R71), and the order in which an apportionment fills its tiers (R93).
-/

namespace Sys2Proof.Safety

open Sys2Proof Sys2Proof.Machine

/-! ### The tiers in order (R93) -/

theorem tierShares_cls {ps : List Participant} {t remainder : Nat} {x : Participant × Nat}
    (member : x ∈ tierShares remainder (ps.filter (·.cls == t))) : x.1.cls = t := by
  have listed := (tierShares_members remainder (ps.filter (·.cls == t))).subset (List.mem_map_of_mem (f := (·.1)) member)
  simpa using (List.mem_filter.mp listed).2

theorem fillTiers_cls {ps : List Participant} {tiers : List Nat} {remainder : Nat} {x : Participant × Nat}
    (member : x ∈ fillTiers ps remainder tiers) : x.1.cls ∈ tiers := by
  have listed := (fillTiers_members ps remainder tiers).subset (List.mem_map_of_mem (f := (·.1)) member)
  obtain ⟨t, named, inTier⟩ := List.mem_flatMap.mp listed
  have cls : x.1.cls = t := by simpa using (List.mem_filter.mp inTier).2
  exact cls ▸ named

/-- A tier whose members do not all get their offers leaves nothing to the later ones. -/
theorem fillTiers_nothing {ps : List Participant} {tiers : List Nat} {y : Participant × Nat}
    (member : y ∈ fillTiers ps 0 tiers) : y.2 = 0 := by
  have sum := fillTiers_sum ps 0 tiers
  rw [Nat.zero_min] at sum
  exact List.sum_eq_zero_iff.mp sum y.2 (List.mem_map_of_mem member)

theorem fillTiers_in_order {ps : List Participant} {tiers : List Nat} (ascending : tiers.Pairwise (· < ·)) (remainder : Nat)
    {x y : Participant × Nat} (hx : x ∈ fillTiers ps remainder tiers) (hy : y ∈ fillTiers ps remainder tiers)
    (before : x.1.cls < y.1.cls) (gets : 0 < y.2) : x.2 = x.1.offer := by
  induction tiers generalizing remainder with
  | nil => exact absurd hx List.not_mem_nil
  | cons t ts ih =>
    obtain ⟨first, rest⟩ := List.pairwise_cons.mp ascending
    rcases List.mem_append.mp hx with xTier | xLater <;> rcases List.mem_append.mp hy with yTier | yLater
    · rw [tierShares_cls xTier, tierShares_cls yTier] at before
      exact absurd before (Nat.lt_irrefl t)
    · by_cases full : offerSum (ps.filter (·.cls == t)) ≤ remainder
      · rw [tierShares, if_pos full] at xTier
        obtain ⟨p, _, rfl⟩ := List.mem_map.mp xTier
        rfl
      · rw [tierLeaves, Nat.sub_eq_zero_of_le (Nat.le_of_not_le full)] at yLater
        rw [fillTiers_nothing yLater] at gets
        exact absurd gets (Nat.lt_irrefl 0)
    · have above := first _ (fillTiers_cls xLater)
      rw [tierShares_cls yTier] at before
      exact absurd before (Nat.lt_asymm above)
    · exact ih rest _ xLater yLater

/-- Settles O38. -/
theorem sharesSumToTheAvailable : Obligations.SharesSumToTheAvailable := by
  unfold Obligations.SharesSumToTheAvailable
  intro available ps proper
  have classes : ∀ p ∈ ps, p.cls ≤ 3 := fun p hp => (proper p hp).1
  have offers : ∀ p ∈ ps, 0 < p.offer := fun p hp => (proper p hp).2
  exact ⟨apportion_members classes available, apportion_le_offer offers available, apportion_sum classes available,
    fun x hx y hy => fillTiers_in_order (by decide) available hx hy⟩

/-! ### The gates (R74) -/

/-- Of a table without repetition the search finds the first entry that holds. -/
theorem find?_eq_some_split {α : Type} {p : α → Bool} {before after : List α} {g : α} (once : g ∉ before) :
    (before ++ g :: after).find? p = some g ↔ p g = true ∧ ∀ x ∈ before, p x = false := by
  induction before with
  | nil =>
    rw [List.nil_append, List.find?_cons]
    cases holds : p g
    · simp only [Bool.false_eq_true, false_and, iff_false]
      intro found
      have := List.find?_some found
      rw [holds] at this
      cases this
    · simp
  | cons x rest ih =>
    have other : x ≠ g := fun same => once (same ▸ List.mem_cons_self ..)
    have once' : g ∉ rest := fun later => once (List.mem_cons_of_mem _ later)
    rw [List.cons_append, List.find?_cons]
    cases holds : p x
    · simp only [List.forall_mem_cons, holds, true_and]
      exact ih once'
    · simp [other, holds]

section
variable (s : State)

theorem gateInForce_eq_none_iff : s.gateInForce = none ↔ ∀ g, s.gateHolds g = false := by
  simp only [State.gateInForce, List.find?_eq_none, Bool.not_eq_true]
  exact ⟨fun none' g => none' g (Gate.mem_all g), fun none' g _ => none' g⟩

theorem gated_eq_false_iff : s.gated = false ↔ s.gateInForce = none := by
  rw [gateInForce_eq_none_iff]
  simp only [State.gated, List.any_eq_false, Bool.not_eq_true]
  exact ⟨fun none' g => none' g (Gate.mem_all g), fun none' g _ => none' g⟩

theorem gateInForce_eq_some_iff {before after : List Gate} {g : Gate} (split : gateTable = before ++ g :: after) :
    s.gateInForce = some g ↔ s.gateHolds g = true ∧ ∀ x ∈ before, s.gateHolds x = false := by
  have once : gateTable.Nodup := by decide
  rw [split] at once
  have fresh : g ∉ before := fun early => (List.nodup_append.mp once).2.2 g early g (List.mem_cons_self ..) rfl
  have table : s.gateInForce = gateTable.find? s.gateHolds := rfl
  rw [table, split, find?_eq_some_split fresh]

theorem gateHolds_mode : s.gateHolds .mode = true ↔ s.sp.mode ≠ .active := by simp [State.gateHolds]

theorem gateHolds_session : s.gateHolds .session = true ↔ s.vl.session ≠ .ready ∧ s.vl.session ≠ .exporting := by
  simp only [State.gateHolds, Bool.not_eq_true', ← Bool.not_eq_true, canOffer_iff, not_or, ne_eq]

theorem gateHolds_allowanceFloor : s.gateHolds .allowanceFloor = true ↔ s.vl.allowance < s.sp.config.allowFloor := by
  simp [State.gateHolds]

theorem gateHolds_departureGuard : s.gateHolds .departureGuard = true ↔
    ∃ m, s.ea.departureLeft = some m ∧ m ≤ s.sp.config.departGuard := by
  unfold State.gateHolds
  cases s.ea.departureLeft <;> simp

theorem gateHolds_coldLock : s.gateHolds .coldLock = true ↔ ∃ r, s.ea.record = some r ∧ r.packTemp < r.minTemp := by
  unfold State.gateHolds
  cases s.ea.record <;> simp

theorem gateHolds_energyMinimum : s.gateHolds .energyMinimum = true ↔ s.energy < 5 := by simp [State.gateHolds]

theorem gateHolds_isolation : s.gateHolds .isolation = true ↔ s.pv.isolated = true ∨ s.pv.rejoining = true := by
  simp [State.gateHolds]

theorem gateHolds_cutHold : s.gateHolds .cutHold = true ↔ s.cu.cutHold = true := Iff.rfl

theorem gateHolds_converterDown :
    s.gateHolds .converterDown = true ↔ s.cc.state = .convFault ∨ s.cc.state = .retryWait := by
  simp [State.gateHolds, or_comm]

theorem gateHolds_busStop : s.gateHolds .busStop = true ↔ s.vl.stopLatch = true := Iff.rfl

/-- No gate is in force exactly where the condition of none of the ten stands. -/
theorem gateInForce_eq_none_iff_conditions {r : BusRecord} (held : s.ea.record = some r) : s.gateInForce = none ↔
    s.sp.mode = .active ∧ (s.vl.session = .ready ∨ s.vl.session = .exporting) ∧
    s.sp.config.allowFloor ≤ s.vl.allowance ∧
    (∀ m, s.ea.departureLeft = some m → s.sp.config.departGuard < m) ∧
    r.minTemp ≤ r.packTemp ∧ 5 ≤ s.energy ∧
    s.pv.isolated = false ∧ s.pv.rejoining = false ∧ s.cu.cutHold = false ∧
    s.cc.state ≠ .retryWait ∧ s.cc.state ≠ .convFault ∧ s.vl.stopLatch = false := by
  have each : (∀ g, s.gateHolds g = false) ↔ ∀ g ∈ gateTable, ¬s.gateHolds g = true := by
    simp only [Bool.not_eq_true]
    exact ⟨fun none' g _ => none' g, fun none' g => none' g (Gate.mem_all g)⟩
  rw [gateInForce_eq_none_iff, each]
  simp only [gateTable, List.forall_mem_cons, List.not_mem_nil, false_implies, implies_true, and_true, gateHolds_mode,
    gateHolds_session, gateHolds_allowanceFloor, gateHolds_departureGuard, gateHolds_coldLock, gateHolds_energyMinimum,
    gateHolds_isolation, gateHolds_cutHold, gateHolds_converterDown, gateHolds_busStop, held, Option.some.injEq,
    exists_eq_left', not_exists, not_and, not_or, not_not, not_lt, not_le, ne_eq]
  simp only [Bool.not_eq_true, or_iff_not_imp_left]
  tauto

/-! ### The offer (R69, R70, R72) -/

theorem offer_of_gated (gated : s.gateInForce ≠ none) : s.offer = 0 := by
  have holds : s.gated = true := by
    by_contra no
    exact gated ((gated_eq_false_iff s).mp (Bool.eq_false_iff.mpr no))
  rw [State.offer, if_pos holds]

theorem offer_of_ungated (free : s.gateInForce = none) :
    s.offer = min s.sp.config.convRating (min (10 * s.vl.allowance) (3600 * s.energy / s.timeBase)) := by
  rw [State.offer, (gated_eq_false_iff s).mpr free]
  rfl

theorem settingTerm_eq_gated_iff : s.settingTerm = .gated ↔ s.gateInForce ≠ none := by
  rw [ne_eq, ← gated_eq_false_iff, Bool.not_eq_false, State.settingTerm]
  split_ifs <;> simp_all

theorem settingTerm_of_ungated (free : s.gateInForce = none) : s.settingTerm =
    if s.sp.config.convRating = s.offerLimit then .converter
    else if 10 * s.vl.allowance = s.offerLimit then .allowance
    else .energy := by
  rw [State.settingTerm, (gated_eq_false_iff s).mpr free]
  rfl

/-- With no gate in force the term is the first of the three that is least (R72). -/
theorem settingTerm_of_ungated_iff (free : s.gateInForce = none) :
    (s.settingTerm = .converter ↔ s.sp.config.convRating ≤ 10 * s.vl.allowance ∧
      s.sp.config.convRating ≤ 3600 * s.energy / s.timeBase) ∧
    (s.settingTerm = .allowance ↔ 10 * s.vl.allowance < s.sp.config.convRating ∧
      10 * s.vl.allowance ≤ 3600 * s.energy / s.timeBase) ∧
    (s.settingTerm = .energy ↔ 3600 * s.energy / s.timeBase < s.sp.config.convRating ∧
      3600 * s.energy / s.timeBase < 10 * s.vl.allowance) := by
  rw [settingTerm_of_ungated s free, State.offerLimit, State.energyPower]
  generalize 3600 * s.energy / s.timeBase = e
  split_ifs <;> simp only [false_iff, true_iff] <;> omega

theorem sixty_le_timeBase : 60 ≤ s.timeBase := by
  unfold State.timeBase
  split
  · split <;> omega
  · split <;> omega

end

/-! ### The time base (R71) -/

theorem nearestPending_cons_of_not {r : CallRecord} (other : r.state ≠ .pending) (rs : List CallRecord) :
    nearestPending (r :: rs) = nearestPending rs := by
  rw [nearestPending]
  cases state : r.state with
  | pending => exact absurd state other
  | _ => rfl

theorem nearestPending_cons {r : CallRecord} (pending : r.state = .pending) {rs : List CallRecord} :
    (nearestPending rs = none → nearestPending (r :: rs) = some r) ∧
    (∀ m, nearestPending rs = some m → nearestPending (r :: rs) = if r.lead ≤ m.lead then some r else some m) := by
  constructor
  · intro last
    rw [nearestPending, pending, last]
  · intro m next
    rw [nearestPending, pending, next]

theorem nearestPending_eq_none {rs : List CallRecord} (none' : ∀ x ∈ rs, x.state ≠ .pending) :
    nearestPending rs = none := by
  induction rs with
  | nil => rfl
  | cons r rest ih =>
    rw [nearestPending_cons_of_not (none' r (List.mem_cons_self ..)), ih fun x hx => none' x (List.mem_cons_of_mem _ hx)]

theorem nearestPending_pending {rs : List CallRecord} {m : CallRecord} (nearest : nearestPending rs = some m) :
    m ∈ rs ∧ m.state = .pending := by
  induction rs generalizing m with
  | nil => cases nearest
  | cons r rest ih =>
    by_cases pending : r.state = .pending
    · cases rested : nearestPending rest with
      | none =>
        rw [(nearestPending_cons pending).1 rested] at nearest
        obtain rfl := Option.some.inj nearest
        exact ⟨List.mem_cons_self .., pending⟩
      | some k =>
        rw [(nearestPending_cons pending).2 k rested] at nearest
        obtain ⟨mem, pending'⟩ := ih rested
        split at nearest
        · obtain rfl := Option.some.inj nearest
          exact ⟨List.mem_cons_self .., pending⟩
        · obtain rfl := Option.some.inj nearest
          exact ⟨List.mem_cons_of_mem _ mem, pending'⟩
    · rw [nearestPending_cons_of_not pending] at nearest
      obtain ⟨mem, pending'⟩ := ih nearest
      exact ⟨List.mem_cons_of_mem _ mem, pending'⟩

/-- The PENDING record of the least lead, the first of them, is the nearest. -/
theorem nearestPending_at {before after : List CallRecord} {r : CallRecord} (pending : r.state = .pending)
    (earlier : ∀ x ∈ before, x.state = .pending → r.lead < x.lead)
    (later : ∀ x ∈ after, x.state = .pending → r.lead ≤ x.lead) : nearestPending (before ++ r :: after) = some r := by
  induction before with
  | nil =>
    cases rested : nearestPending after with
    | none => exact (nearestPending_cons pending).1 rested
    | some m =>
      obtain ⟨mem, pending'⟩ := nearestPending_pending rested
      rw [List.nil_append, (nearestPending_cons pending).2 m rested, if_pos (later m mem pending')]
  | cons x rest ih =>
    have rested := ih fun y hy => earlier y (List.mem_cons_of_mem _ hy)
    rw [List.cons_append]
    by_cases pending' : x.state = .pending
    · have first := earlier x (List.mem_cons_self ..) pending'
      rw [(nearestPending_cons pending').2 r rested, if_neg (by omega)]
    · rw [nearestPending_cons_of_not pending', rested]

section
variable {s : State}

theorem timeBase_of_call {r : CallRecord} (call : s.call = some r) :
    s.timeBase = if r.state = .active then max 60 r.remaining else 60 := by
  rw [State.timeBase, call]

theorem timeBase_of_nearest {r : CallRecord} (noCall : s.call = none) (nearest : nearestPending s.ct.records = some r) :
    s.timeBase = max 60 r.duration := by
  rw [State.timeBase, noCall, nearest]

theorem timeBase_of_none (noCall : s.call = none) (nearest : nearestPending s.ct.records = none) : s.timeBase = 60 := by
  rw [State.timeBase, noCall, nearest]

end

/-- Settles O34: the record's terms, each gate, the setting term, and the time base. -/
theorem classAndOfferFollowTheRecord : Obligations.ClassAndOfferFollowTheRecord := by
  unfold Obligations.ClassAndOfferFollowTheRecord
  refine ⟨?record, ?gates, ?term, ?base⟩
  case record =>
    intro s r held
    have energy : s.energy = s.ea.estimate - s.reserveFloor := by rw [State.energy, held]
    have cls : s.cls = min 3 (baseClass s.energy r.capacity + s.sp.config.classBias) := by rw [State.cls, held]
    exact ⟨energy, cls, offer_of_gated s, offer_of_ungated s, gateInForce_eq_none_iff_conditions s held,
      sixty_le_timeBase s⟩
  case gates =>
    exact fun s => ⟨gateHolds_mode s, gateHolds_session s, gateHolds_allowanceFloor s, gateHolds_departureGuard s,
      gateHolds_coldLock s, gateHolds_energyMinimum s, gateHolds_isolation s, gateHolds_cutHold s,
      gateHolds_converterDown s, gateHolds_busStop s, gateInForce_eq_none_iff s,
      fun before g after => gateInForce_eq_some_iff s⟩
  case term =>
    intro s allowance energy
    refine ⟨settingTerm_eq_gated_iff s, ?_⟩
    by_cases free : s.gateInForce = none
    · obtain ⟨converter, allowance', energy'⟩ := settingTerm_of_ungated_iff s free
      exact ⟨converter.trans (and_iff_right free).symm, allowance'.trans (and_iff_right free).symm,
        energy'.trans (and_iff_right free).symm⟩
    · have gated := (settingTerm_eq_gated_iff s).mpr free
      simp only [gated, free, reduceCtorEq, false_and, iff_self, and_self]
  case base =>
    intro s inForce lead
    have out {x : CallRecord} (h : ¬inForce x) : x.inForce = false := Bool.eq_false_iff.mpr (mt (inForce_iff x).mp h)
    refine ⟨fun before r after split none' => ?_, fun none' => ?_⟩
    · have call (force : r.inForce = true) : s.call = some r := by
        rw [State.call, split]
        exact callInForce_at before r after (fun x hx => out (none' x hx)) force
      refine ⟨fun active => ?_, fun ending => ?_⟩
      · rw [timeBase_of_call (call ((inForce_iff r).mpr (.inl active))), if_pos active]
      · rw [timeBase_of_call (call ((inForce_iff r).mpr (.inr ending))), if_neg (by rw [ending]; decide)]
    · have noCall : s.call = none := callInForce_of_none _ fun x hx => out (none' x hx)
      refine ⟨fun before r after split pending earlier later => ?_, fun other => ?_⟩
      · exact timeBase_of_nearest noCall (split ▸ nearestPending_at pending earlier later)
      · exact timeBase_of_none noCall (nearestPending_eq_none other)

end Sys2Proof.Safety
end

