-- ==== Sys2Proof/Proofs/Converters.lean ====
section
/-!
Converter Control's commands (O41): what each makes of the converter, and what the reactions that follow leave of it: a
converter that failed stays so, one that is OFF goes on by a start request alone, one that is ON with a stop pending
keeps it but for a start request.
-/

namespace Sys2Proof.Safety

open Sys2Proof Sys2Proof.Machine

section
variable {s t : State}

/-! ### What the other reactions leave of the converter -/

/-- The converter and what its timers are set from stay, but for the setpoint, which stays in the power path; no session
comes to EXPORTING, and a start request, once no release can follow, holds on. -/
structure LeavesConverter (s t : State) : Prop where
  now : t.now = s.now
  config : t.sp.config = s.sp.config
  converter : t.cc = { s.cc with setpoint := t.cc.setpoint }
  setpoint : s.powerPath = true → t.cc.setpoint = s.cc.setpoint
  session : t.vl.session = .exporting → s.vl.session = .exporting
  request : s.releaseWanted = false → s.startRequest = true → t.startRequest = true

theorem holdSetpoint_leaves (s : State) : LeavesConverter s s.holdSetpoint := by
  have request := (holdSetpoint_sameView s).startRequest
  rw [holdSetpoint_eq] at request ⊢
  exact ⟨rfl, rfl, rfl, fun path => if_pos path, id, fun _ h => request.trans h⟩

theorem noticeTest_leaves (s : State) : LeavesConverter s s.noticeTest := by
  have request := (noticeTest_sameView s).startRequest
  rw [noticeTest_eq] at request ⊢
  exact ⟨rfl, rfl, rfl, fun _ => rfl, id, fun _ h => request.trans h⟩

theorem gateNotice_leaves (s : State) : LeavesConverter s s.gateNotice := by
  have request := (gateNotice_sameView s).startRequest
  rw [gateNotice_eq] at request ⊢
  exact ⟨rfl, rfl, rfl, fun _ => rfl, id, fun _ h => request.trans h⟩

theorem shareZeroTest_leaves (s : State) : LeavesConverter s s.shareZeroTest := by
  have request := (shareZeroTest_sameView s).startRequest
  rw [shareZeroTest_eq] at request ⊢
  exact ⟨rfl, rfl, rfl, fun _ => rfl, id, fun _ h => request.trans h⟩

theorem engageTest_leaves (s : State) : LeavesConverter s s.engageTest := by
  have request := (engageTest_sameView s).startRequest
  rw [engageTest_eq] at request ⊢
  exact ⟨rfl, rfl, rfl, fun _ => rfl, id, fun _ h => request.trans h⟩

theorem retuneTest_leaves (s : State) : LeavesConverter s s.retuneTest := by
  have request := (retuneTest_sameView s).startRequest
  rw [retuneTest_eq] at request ⊢
  exact ⟨rfl, rfl, rfl, fun _ => rfl, id, fun _ h => request.trans h⟩

theorem LeavesConverter.refl (s : State) : LeavesConverter s s := ⟨rfl, rfl, rfl, fun _ => rfl, id, fun _ h => h⟩

theorem releaseTest_leaves (s : State) : LeavesConverter s s.releaseTest := by
  unfold State.releaseTest
  split
  · next wanted =>
    refine ⟨rfl, rfl, rfl, fun _ => rfl, fun exporting => ?_, fun unwanted => ?_⟩
    · cases exporting
    · rw [wanted] at unwanted
      cases unwanted
  · exact .refl s

theorem parkTest_leaves (s : State) : LeavesConverter s s.parkTest := by
  unfold State.parkTest
  split
  · next ready =>
    have parking : s.sp.mode = .parking := (parkReady_iff.mp ready).1
    refine ⟨by simp, by simp, by simp, by simp, by simp [setMode_eq], fun _ request => ?_⟩
    rw [(startRequest_runs request).1] at parking
    cases parking
  · exact .refl s

theorem plugWake_leaves (s : State) : LeavesConverter s s.plugWake := by
  unfold State.plugWake
  split
  · next wakes =>
    refine ⟨by simp, by simp, by simp, by simp, by simp [setMode_eq], fun _ request => ?_⟩
    have dormant := wakes.1
    rw [(startRequest_runs request).1] at dormant
    cases dormant
  · exact .refl s

theorem meetPlug_leaves (s : State) : LeavesConverter s s.meetPlug := by
  rw [meetPlug_eq]
  split
  · next met =>
    refine ⟨rfl, rfl, rfl, fun _ => rfl, fun exporting => ?_, fun _ request => ?_⟩
    · cases exporting
    have session := (startRequest_iff.mp request).2.1
    rw [met.2.2] at session
    rcases session with h | h <;> cases h
  · exact .refl s

theorem takeFrame_sameView (s : State) : SameView s s.takeFrame := by
  constructor
  case records => exact .inl (by simp)
  all_goals simp [control]

theorem takeFrame_startRequest (s : State) : s.takeFrame.startRequest = s.startRequest :=
  (takeFrame_sameView s).startRequest

theorem takeFrame_leaves (s : State) : LeavesConverter s s.takeFrame :=
  ⟨by simp, by simp, by simp, fun _ => by simp, by simp, fun _ request => (takeFrame_startRequest s).trans request⟩

/-- What the reactions but for the held stop and the start request keep, and the taking of a frame, and those two, the
end of a handling keeps. -/
theorem finish_keeps_converter {P : State → Prop} (leaves : ∀ s t, LeavesConverter s t → P s → P t)
    (stop : ∀ s, P s → P s.stopTest) (start : ∀ s, P s → P s.startTest) (h : P s) : P s.finish := by
  refine finish_keeps (P := P) ?_ (fun s => leaves _ _ (takeFrame_leaves s)) h
  simp only [reactions, List.forall_mem_cons, List.not_mem_nil, false_implies, implies_true, and_true]
  exact ⟨fun s => leaves _ _ (holdSetpoint_leaves s), fun s => leaves _ _ (noticeTest_leaves s),
    fun s => leaves _ _ (gateNotice_leaves s), fun s => leaves _ _ (shareZeroTest_leaves s), stop,
    fun s => leaves _ _ (releaseTest_leaves s), start, fun s => leaves _ _ (engageTest_leaves s),
    fun s => leaves _ _ (retuneTest_leaves s), fun s => leaves _ _ (parkTest_leaves s),
    fun s => leaves _ _ (plugWake_leaves s), fun s => leaves _ _ (meetPlug_leaves s)⟩

section
variable (h : LeavesConverter s t)
include h

theorem LeavesConverter.state : t.cc.state = s.cc.state := by rw [h.converter]
theorem LeavesConverter.retryAt : t.cc.retryAt = s.cc.retryAt := by rw [h.converter]
theorem LeavesConverter.stableAt : t.cc.stableAt = s.cc.stableAt := by rw [h.converter]
theorem LeavesConverter.prechargeAt : t.cc.prechargeAt = s.cc.prechargeAt := by rw [h.converter]
theorem LeavesConverter.lingerAt : t.cc.lingerAt = s.cc.lingerAt := by rw [h.converter]
theorem LeavesConverter.startHeld : t.cc.startHeld = s.cc.startHeld := by rw [h.converter]
theorem LeavesConverter.failures : t.cc.failures = s.cc.failures := by rw [h.converter]
theorem LeavesConverter.fault : t.cc.fault = s.cc.fault := by rw [h.converter]
theorem LeavesConverter.stopPending : t.cc.stopPending = s.cc.stopPending := by rw [h.converter]

end

/-! ### A converter that failed, and one that runs -/

/-- A held stop completes from ON alone. -/
theorem stopTest_of_not_ready (unready : s.stopReady = false) : s.stopTest = s := by
  rw [State.stopTest, unready]
  rfl

theorem stopReady_of_not_on (off : s.cc.state ≠ .on) : s.stopReady = false :=
  Bool.eq_false_iff.mpr fun ready => off (stopReady_iff.mp ready).1

theorem stopReady_of_not_pending (unpending : s.cc.stopPending = false) : s.stopReady = false :=
  Bool.eq_false_iff.mpr fun ready => by
    have pending := (stopReady_iff.mp ready).2.1
    rw [unpending] at pending
    cases pending

/-- A converter in RETRY_WAIT or CONV_FAULT stays there, with its timer and its count. -/
theorem finish_failed (down : s.cc.state = .retryWait ∨ s.cc.state = .convFault) :
    s.finish.cc.state = s.cc.state ∧ s.finish.cc.retryAt = s.cc.retryAt ∧ s.finish.cc.failures = s.cc.failures := by
  have stays {x : ConverterState} (there : x = .retryWait ∨ x = .convFault) {r : Timer} {n : Nat} {s : State}
      (begins : s.cc.state = x ∧ s.cc.retryAt = r ∧ s.cc.failures = n) :
      s.finish.cc.state = x ∧ s.finish.cc.retryAt = r ∧ s.finish.cc.failures = n := by
    refine finish_keeps_converter (P := fun s => s.cc.state = x ∧ s.cc.retryAt = r ∧ s.cc.failures = n) ?_ ?_ ?_ begins
    · rintro s t leaves ⟨state, retryAt, failures⟩
      exact ⟨leaves.state.trans state, leaves.retryAt.trans retryAt, leaves.failures.trans failures⟩
    · rintro s ⟨state, rest⟩
      have off : s.cc.state ≠ .on := by rcases there with rfl | rfl <;> simp [state]
      rw [stopTest_of_not_ready (stopReady_of_not_on off)]
      exact ⟨state, rest⟩
    · rintro s ⟨state, rest⟩
      have elsewhere : s.cc.state = .retryWait ∨ s.cc.state = .convFault := by rcases there with rfl | rfl <;> simp [state]
      rw [startTest_elsewhere (elsewhere.imp_right .inl)]
      exact ⟨state, rest⟩
  exact stays down ⟨rfl, rfl, rfl⟩

/-- A converter that is ON with no stop pending stays so. -/
theorem finish_on {stable : Timer} (begins : s.cc.state = .on ∧ s.cc.stopPending = false ∧ s.cc.stableAt = stable) :
    s.finish.cc.state = .on ∧ s.finish.cc.stopPending = false ∧ s.finish.cc.stableAt = stable := by
  refine finish_keeps_converter (P := fun s => s.cc.state = .on ∧ s.cc.stopPending = false ∧ s.cc.stableAt = stable)
    ?_ ?_ ?_ begins
  · rintro s t leaves ⟨state, pending, stableAt⟩
    exact ⟨leaves.state.trans state, leaves.stopPending.trans pending, leaves.stableAt.trans stableAt⟩
  · rintro s ⟨state, pending, stableAt⟩
    rw [stopTest_of_not_ready (stopReady_of_not_pending pending)]
    exact ⟨state, pending, stableAt⟩
  · rintro s ⟨state, pending, stableAt⟩
    cases request : s.startRequest
    · rw [startTest_ceases request (.inr state)]
      exact ⟨state, pending, stableAt⟩
    · rw [startTest_holds request (.inr state)]
      exact ⟨state, by rw [pending]; rfl, stableAt⟩

/-! ### What a start request alone ends -/

/-- No release of the session can be decided any more: an EXPORTING bus has power. -/
def Powered (s : State) : Prop := s.vl.session = .exporting → s.cc.state = .on ∧ 0 < s.cc.setpoint

theorem Powered.keeps_session (powered : Powered s) : s.releaseWanted = false :=
  Bool.eq_false_iff.mpr fun wanted => by
    obtain ⟨exporting, zero, _⟩ := releaseWanted_iff.mp wanted
    have := (powered exporting).2
    omega

theorem LeavesConverter.powered (h : LeavesConverter s t) (powered : Powered s) : Powered t := by
  intro exporting
  have exporting' := h.session exporting
  obtain ⟨on, above⟩ := powered exporting'
  have path : s.powerPath = true := by simp [State.powerPath, on, exporting']
  exact ⟨h.state.trans on, by rw [h.setpoint path]; exact above⟩

theorem stopTest_request (s : State) : s.stopTest.startRequest = s.startRequest := by rw [stopTest_eq]; rfl

theorem startTest_request (s : State) : s.startTest.startRequest = s.startRequest := by rw [startTest_eq]; rfl

theorem stopTest_powered (powered : Powered s) : Powered s.stopTest := by
  cases ready : s.stopReady
  · rw [stopTest_of_not_ready ready]
    exact powered
  · intro exporting
    obtain ⟨_, _, _, _, notExporting, _⟩ := stopReady_iff.mp ready
    rw [stopTest_eq] at exporting
    exact absurd exporting notExporting

theorem startTest_powered (powered : Powered s) : Powered s.startTest := by
  intro exporting
  have exporting' : s.vl.session = .exporting := by rw [startTest_eq] at exporting; exact exporting
  obtain ⟨on, above⟩ := powered exporting'
  cases request : s.startRequest
  · rw [startTest_ceases request (.inr on)]
    exact ⟨on, above⟩
  · rw [startTest_holds request (.inr on)]
    exact ⟨on, above⟩

/-- What only a start request changes: it stands, or the request holds and no release follows. -/
def UnlessRequested (Q : State → Prop) (s : State) : Prop := Powered s ∧ (s.startRequest = true ∨ Q s)

/-- As `finish_keeps`, of what stands only once the first round has decided a release. -/
theorem finish_keeps_from {P : State → Prop} (joined : s.joined = true) (reaction : ∀ f ∈ reactions, ∀ s, P s → P (f s))
    (take : ∀ s, P s → P s.takeFrame) (first : P (readied s).stopTest.releaseTest) : P s.finish := by
  simp only [reactions, List.forall_mem_cons] at reaction
  obtain ⟨r1, r2, r3, r4, r5, r6, r7, r8, r9, r10, r11, r12, _⟩ := reaction
  have round : ∀ s, P s → P s.react := fun s h =>
    r12 _ (r11 _ (r10 _ (r9 _ (r8 _ (r7 _ (r6 _ (r5 _ (r4 _ (r3 _ (r2 _ (r1 _ h)))))))))))
  have one : P s.react := r12 _ (r11 _ (r10 _ (r9 _ (r8 _ (r7 _ first)))))
  rw [State.finish, if_pos joined]
  exact take _ (r1 _ (round _ (round _ (round _ (round _ one)))))

/-- What a start request alone changes stands at the end of a handling without one, where it stands once a release has
been decided. -/
theorem finish_unlessRequested {Q : State → Prop} (leaves : ∀ s t, LeavesConverter s t → Q s → Q t)
    (stop : ∀ s, Q s → Q s.stopTest) (start : ∀ s, s.startRequest = false → Q s → Q s.startTest)
    (begins : Q s) (powered : Powered (readied s).stopTest.releaseTest) (idle : s.finish.startRequest = false) :
    Q s.finish := by
  have reaction : ∀ f ∈ reactions, ∀ s, UnlessRequested Q s → UnlessRequested Q (f s) := by
    have step {s t : State} (h : LeavesConverter s t) : UnlessRequested Q s → UnlessRequested Q t := by
      rintro ⟨powered, holds⟩
      exact ⟨h.powered powered, holds.imp (h.request powered.keeps_session) (leaves s t h)⟩
    simp only [reactions, List.forall_mem_cons, List.not_mem_nil, false_implies, implies_true, and_true]
    refine ⟨fun s => step (holdSetpoint_leaves s), fun s => step (noticeTest_leaves s),
      fun s => step (gateNotice_leaves s), fun s => step (shareZeroTest_leaves s), ?_,
      fun s => step (releaseTest_leaves s), ?_, fun s => step (engageTest_leaves s), fun s => step (retuneTest_leaves s),
      fun s => step (parkTest_leaves s), fun s => step (plugWake_leaves s), fun s => step (meetPlug_leaves s)⟩
    · rintro s ⟨powered, holds⟩
      exact ⟨stopTest_powered powered, holds.imp (stopTest_request s).trans (stop s)⟩
    · rintro s ⟨powered, holds⟩
      refine ⟨startTest_powered powered, ?_⟩
      rw [startTest_request]
      cases request : s.startRequest
      · exact .inr (start s request (holds.resolve_left (by rw [request]; decide)))
      · exact .inl rfl
  have quiet (v : State) (h : v.startRequest = false) : UnlessRequested Q v → Q v := fun ⟨_, holds⟩ =>
    holds.resolve_left (by rw [h]; decide)
  cases joined : s.joined
  · have alone : s.finish = s := by rw [State.finish, joined]; rfl
    rw [alone]
    exact begins
  · have first : UnlessRequested Q (readied s).stopTest.releaseTest := by
      refine ⟨powered, .inr (leaves _ _ (releaseTest_leaves _) (stop _ ?_))⟩
      exact leaves _ _ (shareZeroTest_leaves _) (leaves _ _ (gateNotice_leaves _) (leaves _ _ (noticeTest_leaves _)
        (leaves _ _ (holdSetpoint_leaves _) begins)))
    exact quiet _ idle (finish_keeps_from joined reaction
      (fun s ⟨powered, holds⟩ => ⟨(takeFrame_leaves s).powered powered,
        holds.imp (takeFrame_startRequest s).trans (leaves _ _ (takeFrame_leaves s))⟩) first)

/-- A converter that is not ON, or has a stop pending, is left by a release decided where nothing is exported. -/
theorem releaseTest_powered (held : s.powerPath = true ∨ s.cc.setpoint = 0)
    (asks : s.cc.state ≠ .on ∨ s.cc.stopPending = true) : Powered s.releaseTest := by
  intro exporting
  cases wanted : s.releaseWanted
  · have same : s.releaseTest = s := by rw [State.releaseTest, wanted]; rfl
    rw [same] at exporting ⊢
    have above : s.cc.setpoint ≠ 0 := fun zero => Bool.eq_false_iff.mp wanted (releaseWanted_iff.mpr
      ⟨exporting, zero, asks.elim (fun off => .inr (.inr (.inl off))) fun pending => .inr (.inl pending)⟩)
    have path := held.resolve_right above
    simp only [State.powerPath, Bool.and_eq_true, beq_iff_eq] at path
    exact ⟨path.1, Nat.pos_of_ne_zero above⟩
  · rw [releaseTest_eq, if_pos wanted] at exporting
    cases exporting

theorem readied_leaves (s : State) : (readied s).cc.state = s.cc.state ∧ (readied s).cc.stopPending = s.cc.stopPending :=
  ⟨(shareZeroTest_leaves _).state.trans ((gateNotice_leaves _).state.trans
    ((noticeTest_leaves _).state.trans (holdSetpoint_leaves s).state)),
  (shareZeroTest_leaves _).stopPending.trans ((gateNotice_leaves _).stopPending.trans
    ((noticeTest_leaves _).stopPending.trans (holdSetpoint_leaves s).stopPending))⟩

/-- Once a release has been decided in the first round, a converter that is not ON, or has a stop pending, is powered
where the bus exports at all. -/
theorem decided_powered (asks : s.cc.state ≠ .on ∨ s.cc.stopPending = true) :
    Powered (readied s).stopTest.releaseTest := by
  obtain ⟨state, pending⟩ := readied_leaves s
  cases ready : (readied s).stopReady
  · rw [stopTest_of_not_ready ready]
    refine releaseTest_powered ?_ (by rwa [state, pending])
    have path : (readied s).powerPath = s.powerPath := by
      rw [State.powerPath, State.powerPath, state, (readied_sameView s).session]
    rw [path]
    exact readied_setpoint s
  · refine releaseTest_powered (.inr ?_) (.inl ?_)
    · rw [stopTest_eq, if_pos ready]
      rfl
    · rw [stopTest_eq, if_pos ready]
      intro on
      cases on

/-- A converter that is OFF goes on by a start request alone. -/
theorem finish_off (off : s.cc.state = .off) (idle : s.finish.startRequest = false) :
    s.finish.cc.state = .off ∧ s.finish.cc.retryAt = s.cc.retryAt := by
  have powered : Powered (readied s).stopTest.releaseTest := decided_powered (.inl (by rw [off]; decide))
  refine finish_unlessRequested (Q := fun v => v.cc.state = .off ∧ v.cc.retryAt = s.cc.retryAt) ?_ ?_ ?_ ⟨off, rfl⟩
    powered idle
  · rintro v w leaves ⟨state, retryAt⟩
    exact ⟨leaves.state.trans state, leaves.retryAt.trans retryAt⟩
  · rintro v ⟨state, retryAt⟩
    rw [stopTest_of_not_ready (stopReady_of_not_on (by rw [state]; decide))]
    exact ⟨state, retryAt⟩
  · rintro v request ⟨state, retryAt⟩
    rw [startTest_elsewhere (.inr (.inr ⟨state, request⟩))]
    exact ⟨state, retryAt⟩

/-- A stop that is pending is lifted by a start request alone, while the converter is ON. -/
theorem finish_stopPending (pending : s.cc.stopPending = true) (idle : s.finish.startRequest = false)
    (on : s.finish.cc.state = .on) : s.finish.cc.stopPending = true := by
  refine finish_unlessRequested (Q := fun v => v.cc.state = .on → v.cc.stopPending = true) ?_ ?_ ?_ (fun _ => pending)
    (decided_powered (.inr pending)) idle on
  · intro v w leaves holds on
    exact leaves.stopPending.trans (holds (leaves.state.symm.trans on))
  · intro v holds on
    cases ready : v.stopReady
    · rw [stopTest_of_not_ready ready] at on ⊢
      exact holds on
    · rw [stopTest_eq, if_pos ready] at on
      cases on
  · intro v request holds on
    have state : v.cc.state = .on := by
      rw [startTest_eq] at on
      unfold startedConverter at on
      rw [request] at on
      cases held : v.cc.state <;> simp [held] at on ⊢
    rw [startTest_ceases request (.inr state)]
    exact holds state

/-- With no FAULT high a converter goes from OFF to PRECHARGING alone, by the precharge timer. -/
theorem finish_precharges (fault : s.cc.fault = false) (off : s.cc.state = .off) : s.finish.cc.state = .off ∨
    (s.finish.cc.state = .precharging ∧ s.finish.cc.prechargeAt = some (s.now + 1000 * s.sp.config.precharge)) := by
  suffices whole : s.finish.now = s.now ∧ s.finish.sp.config = s.sp.config ∧ s.finish.cc.fault = false ∧
      (s.finish.cc.state = .off ∨ (s.finish.cc.state = .precharging ∧
        s.finish.cc.prechargeAt = some (s.now + 1000 * s.sp.config.precharge))) from whole.2.2.2
  refine finish_keeps_converter (P := fun v => v.now = s.now ∧ v.sp.config = s.sp.config ∧ v.cc.fault = false ∧
    (v.cc.state = .off ∨ (v.cc.state = .precharging ∧
      v.cc.prechargeAt = some (s.now + 1000 * s.sp.config.precharge)))) ?_ ?_ ?_ ⟨rfl, rfl, fault, .inl off⟩
  · rintro v w leaves ⟨now, config, fault, state⟩
    rw [leaves.now, leaves.config, leaves.fault, leaves.state, leaves.prechargeAt]
    exact ⟨now, config, fault, state⟩
  · rintro v ⟨now, config, fault, state⟩
    have notOn : v.cc.state ≠ .on := by rcases state with h | ⟨h, _⟩ <;> simp [h]
    rw [stopTest_of_not_ready (stopReady_of_not_on notOn)]
    exact ⟨now, config, fault, state⟩
  · rintro v ⟨now, config, fault, state⟩
    cases request : v.startRequest
    · rcases state with off | ⟨charging, at'⟩
      · rw [startTest_elsewhere (.inr (.inr ⟨off, request⟩))]
        exact ⟨now, config, fault, .inl off⟩
      · rw [startTest_ceases request (.inl charging)]
        exact ⟨now, config, fault, .inr ⟨charging, at'⟩⟩
    · rcases state with off | ⟨charging, at'⟩
      · rw [startTest_precharges request off fault]
        exact ⟨now, config, fault, .inr ⟨rfl, by rw [now, config]⟩⟩
      · rw [startTest_holds request (.inl charging)]
        exact ⟨now, config, fault, .inr ⟨charging, at'⟩⟩

/-! ### The start of a run in a settled post -/

/-- A converter just ON, its start request evaluated and its linger started, in a post where no other reaction is
open. -/
structure Started (u v : State) : Prop where
  view : SameView u v
  pending : v.cc.stopPending = false
  held : v.cc.startHeld = u.startRequest
  linger : v.cc.lingerAt = u.cc.lingerAt

theorem LeavesConverter.started {u : State} (h : LeavesConverter s t) (view : SameView s t) (started : Started u s) :
    Started u t :=
  ⟨started.view.trans view, h.stopPending.trans started.pending, h.startHeld.trans started.held,
    h.lingerAt.trans started.linger⟩

theorem finish_started {u : State} (on : u.cc.state = .on) (session : u.vl.session ≠ .exporting)
    (wake : ¬(u.sp.mode = .dormant ∧ u.vl.plug = true ∧ u.sp.restarting = none))
    (plug : u.vl.plug = true → u.sp.mode ≠ .dormant → u.vl.session ≠ .absent)
    (linger : u.startRequest = true → u.cc.lingerAt = none) (started : Started u u) : Started u u.finish := by
  refine finish_keeps (P := Started u) ?_ (fun v h => (takeFrame_leaves v).started (takeFrame_sameView v) h) started
  simp only [reactions, List.forall_mem_cons, List.not_mem_nil, false_implies, implies_true, and_true]
  refine ⟨fun v => (holdSetpoint_leaves v).started (holdSetpoint_sameView v),
    fun v => (noticeTest_leaves v).started (noticeTest_sameView v),
    fun v => (gateNotice_leaves v).started (gateNotice_sameView v),
    fun v => (shareZeroTest_leaves v).started (shareZeroTest_sameView v), fun v h => ?stop, fun v h => ?release,
    fun v h => ?start, fun v => (engageTest_leaves v).started (engageTest_sameView v),
    fun v => (retuneTest_leaves v).started (retuneTest_sameView v), fun v h => ?park, fun v h => ?wakes, fun v h => ?meets⟩
  case stop =>
    rw [stopTest_of_not_ready (stopReady_of_not_pending h.pending)]
    exact h
  case release =>
    have unwanted : v.releaseWanted = false := Bool.eq_false_iff.mpr fun wanted =>
      session (h.view.session.symm.trans (releaseWanted_iff.mp wanted).1)
    rw [State.releaseTest, unwanted]
    exact h
  case start =>
    have runs : v.cc.state = .on := h.view.converter.trans on
    cases request : v.startRequest
    · have idle : u.startRequest = false := h.view.startRequest.symm.trans request
      have after := startTest_ceases request (.inr runs)
      rw [h.held, idle] at after
      refine ⟨h.view.trans (startTest_sameView ?_), ?_, ?_, ?_⟩
      all_goals rw [after]
      · rfl
      · exact h.pending
      · exact idle.symm
      · exact h.linger
    · have asks : u.startRequest = true := h.view.startRequest.symm.trans request
      have after := startTest_holds request (.inr runs)
      rw [h.pending] at after
      refine ⟨h.view.trans (startTest_sameView ?_), ?_, ?_, ?_⟩
      all_goals rw [after]
      · rfl
      · rfl
      · exact asks.symm
      · exact (linger asks).symm
  case park =>
    have enabled : v.cc.state.enabled = true := by rw [h.view.converter, on]; rfl
    have unready : ¬v.parkReady = true := fun ready => by
      have low := (parkReady_iff.mp ready).2.2.1
      rw [enabled] at low
      cases low
    rw [State.parkTest, if_neg unready]
    exact h
  case wakes =>
    rw [State.plugWake, if_neg (by rw [h.view.mode, h.view.plug, h.view.restarting]; exact wake)]
    exact h
  case meets =>
    have unmet : ¬(v.linkRuns = true ∧ v.vl.plug = true ∧ v.vl.session = .absent) := by
      rintro ⟨runs, high, absent⟩
      simp only [State.linkRuns, Bool.and_eq_true, bne_iff_ne] at runs
      rw [h.view.plug] at high
      exact plug high (h.view.mode ▸ runs.2) (h.view.session.symm.trans absent)
    rw [meetPlug_eq, if_neg unmet]
    exact h

end

/-! ### The commands -/

section
variable {s : State} {at' : Nat}

theorem exec_faultHigh_tripped (runs : s.cc.state = .precharging ∨ s.cc.state = .on) :
    exec .faultHigh s = .next (State.finish { s with
      cc := { converterFailed s.cc s.now with fault := true }
      sp := { s.sp with
        events := if s.cc.failures < 2 then s.sp.events.raise .convTrip
          else (s.sp.events.raise .convTrip).raise .convFault } }) := by
  have enabled : s.cc.state.enabled = true := by rcases runs with h | h <;> rw [h] <;> rfl
  have enabled' : (s.setCc { s.cc with fault := true }).cc.state.enabled = true := enabled
  simp only [exec, execFaultHigh, enabled', if_true, convFails_eq]
  rfl

theorem exec_faultHigh_idle (notCharging : s.cc.state ≠ .precharging) (notOn : s.cc.state ≠ .on) :
    exec .faultHigh s = .next { s with cc := { s.cc with fault := true } } := by
  have low : ¬(s.setCc { s.cc with fault := true }).cc.state.enabled = true := fun high => by
    rcases (enabled_cases _).mp high with charging | on
    · exact notCharging charging
    · exact notOn on
  simp only [exec, execFaultHigh, if_neg low]
  rfl

theorem exec_prechargeExpiry_low (runs : s.cc.prechargeAt = some at') :
    exec (.prechargeExpiry false) s = .next (State.finish { s with
      now := max s.now at'
      cc := { converterFailed s.cc (max s.now at') with ready := false }
      sp := { s.sp with
        events := if s.cc.failures < 2 then s.sp.events.raise .convStartFail
          else (s.sp.events.raise .convStartFail).raise .convFault } }) := by
  have runs' : (s.setCc { s.cc with ready := false }).cc.prechargeAt = some at' := runs
  simp only [exec, execPrechargeExpiry, runs', convFails_eq]
  rfl

theorem exec_prechargeExpiry_high (runs : s.cc.prechargeAt = some at') :
    exec (.prechargeExpiry true) s = .next (State.finish { s with
      now := max s.now at'
      cc := { s.cc with
        ready := true
        state := .on
        prechargeAt := none
        stableAt := some (max s.now at' + 60000)
        lingerAt := if s.startRequest then none else some (max s.now at' + 30000) } }) := by
  have runs' : (s.setCc { s.cc with ready := true }).cc.prechargeAt = some at' := runs
  simp only [exec, execPrechargeExpiry, runs']
  rfl

theorem exec_stableExpiry (runs : s.cc.stableAt = some at') : exec .stableExpiry s = .next { s with
    now := max s.now at', cc := { s.cc with stableAt := none, failures := 0 } } := by
  simp only [exec, execStableExpiry, runs]
  rfl

theorem exec_retryExpiry (runs : s.cc.retryAt = some at') : exec .retryExpiry s = .next (State.finish { s with
    now := max s.now at', cc := { s.cc with retryAt := none, state := .off } }) := by
  simp only [exec, execRetryExpiry, runs]
  rfl

theorem exec_lingerExpiry (runs : s.cc.lingerAt = some at') : exec .lingerExpiry s = .next (State.finish { s with
    now := max s.now at'
    cc := if s.cc.state = .precharging then converterOff s.cc
      else if s.cc.state = .on then { s.cc with lingerAt := none, stopPending := true }
      else { s.cc with lingerAt := none } }) := by
  simp only [exec, execLingerExpiry, runs, requestStop_eq]
  rfl

theorem exec_stopComplete (ready : s.stopReady = true) :
    exec .stopComplete s = .next (State.finish { s with cc := converterOff s.cc }) := by
  simp only [exec, execStopComplete, ready, if_true]
  rfl

theorem exec_stopComplete_held (unready : s.stopReady = false) : exec .stopComplete s = .next s := by
  simp only [exec, execStopComplete, unready]
  rfl

/-- The state after a slew step to a setpoint (R128). -/
def slewedTo (s : State) (at' setpoint : Nat) : State := { s with
  now := max s.now at'
  cc := { s.cc with setpoint := setpoint, slewAt := some (at' + 100) } }

theorem target_eq (s : State) :
    s.target = if s.cc.state = .on ∧ s.vl.session = .exporting then min s.ap.result s.offer else 0 := by
  simp only [State.target, State.powerPath, State.share, Bool.and_eq_true, beq_iff_eq]

theorem exec_slewStep (runs : s.cc.slewAt = some at') :
    let setpoint := slewed s.cc.setpoint s.target s.sp.config.riseStep
    (setpoint = s.cc.setpoint → exec .slewStep s = .next (slewedTo s at' setpoint)) ∧
    (setpoint ≠ s.cc.setpoint → exec .slewStep s = .next (slewedTo s at' setpoint).finish) := by
  intro setpoint
  have effect : exec .slewStep s = if (setpoint != s.cc.setpoint) = true then .next (slewedTo s at' setpoint).finish
      else .next (slewedTo s at' setpoint) := by
    simp only [exec, execSlewStep, runs]
    rfl
  refine ⟨fun same => ?_, fun moves => ?_⟩
  · rw [effect, if_neg (by simpa using same)]
  · rw [effect, if_pos (by simpa using moves)]

end

/-- A converter that has failed with its count: RETRY_WAIT for 60 s, or CONV_FAULT at the third. -/
theorem finish_converterFailed {s : State} {c : Converter} {now : Nat} (failed : s.cc.state = (converterFailed c now).state)
    (retry : s.cc.retryAt = (converterFailed c now).retryAt) (count : s.cc.failures = (converterFailed c now).failures) :
    s.finish.cc.state = (if c.failures < 2 then .retryWait else .convFault) ∧
    s.finish.cc.retryAt = (if c.failures < 2 then some (now + 60000) else none) ∧
    s.finish.cc.failures = min 3 (c.failures + 1) := by
  have down : s.cc.state = .retryWait ∨ s.cc.state = .convFault := by
    rw [failed, converterFailed]
    split <;> simp
  obtain ⟨state, retryAt, failures⟩ := finish_failed down
  refine ⟨state.trans failed, retryAt.trans retry, failures.trans (count.trans ?_)⟩
  show (if c.failures < 2 then c.failures + 1 else 3) = _
  split <;> omega

/-- Settles O41, command by command: the effect is an equation of the command, what follows it a lemma on the end of the
handling. -/
theorem converterCommandsFollowTheirRules : Obligations.ConverterCommandsFollowTheirRules := by
  unfold Obligations.ConverterCommandsFollowTheirRules
  refine ⟨?sample, fun s => exec_faultHigh_idle, ?trip, ?precharge, ?timers, ?slew⟩
  case sample =>
    intro s sample within
    have same : sample % 1024 = sample := Nat.mod_eq_of_lt within
    simp only [exec, execMeasStb, same]
    rfl
  case trip =>
    intro s runs
    obtain ⟨state, retry, count⟩ := finish_converterFailed (c := s.cc) (now := s.now) (s := { s with
      cc := { converterFailed s.cc s.now with fault := true }
      sp := { s.sp with
        events := if s.cc.failures < 2 then s.sp.events.raise .convTrip
          else (s.sp.events.raise .convTrip).raise .convFault } }) rfl rfl rfl
    exact ⟨_, exec_faultHigh_tripped runs, state, retry, count, rfl⟩
  case precharge =>
    intro s at' runs now
    refine ⟨?low, _, exec_prechargeExpiry_high runs, fun unpending => ?on, fun settled timers joined => ?linger, rfl⟩
    case low =>
      obtain ⟨state, retry, count⟩ := finish_converterFailed (c := s.cc) (now := now) (s := { s with
        now := now
        cc := { converterFailed s.cc now with ready := false }
        sp := { s.sp with
          events := if s.cc.failures < 2 then s.sp.events.raise .convStartFail
            else (s.sp.events.raise .convStartFail).raise .convFault } }) rfl rfl rfl
      exact ⟨_, exec_prechargeExpiry_low runs, state, retry, count, rfl⟩
    case on =>
      obtain ⟨on, _, stable⟩ := finish_on (stable := some (now + 60000)) (s := { s with
        now := now
        cc := { s.cc with
          ready := true
          state := .on
          prechargeAt := none
          stableAt := some (now + 60000)
          lingerAt := if s.startRequest then none else some (now + 30000) } }) ⟨rfl, unpending, rfl⟩
      exact ⟨on, stable⟩
    case linger =>
      obtain ⟨quiet, _⟩ := settled
      obtain ⟨_, _, charging, _, pending, _⟩ := timers
      have state : s.cc.state = .precharging := charging.mp (by rw [runs]; rfl)
      have off : s.cc.state ≠ .on := by rw [state]; decide
      have zero : s.cc.setpoint = 0 := quiet.setpoint.resolve_left fun path => by
        simp only [State.powerPath, Bool.and_eq_true, beq_iff_eq] at path
        exact off path.1
      have session : s.vl.session ≠ .exporting := fun exporting =>
        quiet.release ⟨exporting, zero, .inr (.inr (.inl off))⟩
      have unpending : s.cc.stopPending = false := Bool.eq_false_iff.mpr fun h => off (pending h)
      have started := finish_started (u := { s with
        now := now
        cc := { s.cc with
          ready := true
          state := .on
          prechargeAt := none
          stableAt := some (now + 60000)
          lingerAt := if s.startRequest then none else some (now + 30000) } }) rfl session quiet.wake quiet.plug
        (fun request => if_pos request) ⟨.refl _, unpending, quiet.held, rfl⟩
      exact ⟨started.view.converter, started.view.startRequest, started.linger⟩
  case timers =>
    intro s
    refine ⟨fun at' runs => exec_stableExpiry runs, fun at' runs => ⟨_, exec_retryExpiry runs, fun idle => finish_off rfl idle,
      fun request joined fault => ?charge, rfl⟩, fun at' runs => ⟨_, exec_lingerExpiry runs, fun charging idle => ?abandon,
      fun on idle still => ?pending, rfl⟩, ?_⟩
    case charge =>
      have settled := finish_settled (s := { s with
        now := max s.now at', cc := { s.cc with retryAt := none, state := .off } }) joined
      have goes := finish_precharges (s := { s with
        now := max s.now at', cc := { s.cc with retryAt := none, state := .off } }) fault rfl
      exact goes.resolve_left (settled.1.start request).1
    case abandon =>
      refine (finish_off ?_ idle).1
      rw [if_pos charging]
      rfl
    case pending =>
      refine finish_stopPending ?_ idle still
      rw [if_neg (by rw [on]; decide), if_pos on]
    intro holds
    have ready : s.stopReady = true ↔ s.cc.state = .on ∧ s.cc.stopPending = true ∧ s.cc.setpoint = 0 ∧ holds = false := by
      rw [stopReady_iff, decide_eq_false_iff_not, not_or, not_or]
    refine ⟨fun on pending zero free => ?_, fun held => ?_⟩
    · exact ⟨_, exec_stopComplete (ready.mpr ⟨on, pending, zero, free⟩), fun idle => (finish_off rfl idle).1, rfl⟩
    · refine exec_stopComplete_held (Bool.eq_false_iff.mpr fun h => ?_)
      obtain ⟨on, pending, zero, free⟩ := ready.mp h
      rcases held with off | unpending | above | busy
      · exact off on
      · rw [pending] at unpending
        cases unpending
      · omega
      · rw [free] at busy
        cases busy
  case slew =>
    intro s at' runs target setpoint u
    have same : slewed s.cc.setpoint s.target s.sp.config.riseStep = setpoint := by rw [target_eq]; rfl
    obtain ⟨stays, moves⟩ := exec_slewStep runs
    rw [same] at stays moves
    exact ⟨stays, fun other => ⟨_, moves other, rfl, finish_setpoint_le _⟩⟩

end Sys2Proof.Safety
end

