-- ==== Sys2Proof/Proofs/PlugCommands.lean ====
section
/-!
The plug and the entries to IDENTIFYING (O42): how a plug that is high is met at once, and what stays of a session that
no reaction leaves.
-/

namespace Sys2Proof.Safety

open Sys2Proof Sys2Proof.Machine

section
variable {s t : State}

/-! ### The plug is met once -/

theorem count_noticeEvents (s : State) {k : EventKind} (notLow : k ≠ .energyLow) (notRestored : k ≠ .energyRestored) :
    (noticeEvents s).count k = s.sp.events.count k := by
  unfold noticeEvents
  split
  · exact EventSet.count_raise_of_ne _ notLow
  · exact EventSet.count_raise_of_ne _ notRestored
  · rfl

theorem count_startEvents (s : State) {k : EventKind} (notTrip : k ≠ .convTrip) (notFault : k ≠ .convFault) :
    (startEvents s).count k = s.sp.events.count k := by
  unfold startEvents
  split_ifs
  · exact EventSet.count_raise_of_ne _ notTrip
  · rw [EventSet.count_raise_of_ne _ notFault, EventSet.count_raise_of_ne _ notTrip]
  · rfl

/-- The plug of an ABSENT session is not met yet, or has been met once (R137). -/
def MetOnce (now count : Nat) (s : State) : Prop :=
  s.now = now ∧ ((s.vl.session = .absent ∧ s.sp.events.count .vehicleAttached = count) ∨
    (s.vl.session = .attached ∧ s.vl.wakeAt = some (now + 200) ∧
      s.sp.events.count .vehicleAttached = min 255 (count + 1)))

theorem MetOnce.of_same {now count : Nat} (h : MetOnce now count s) (clock : t.now = s.now)
    (session : t.vl.session = s.vl.session) (wake : t.vl.wakeAt = s.vl.wakeAt)
    (events : t.sp.events.count .vehicleAttached = s.sp.events.count .vehicleAttached) : MetOnce now count t := by
  unfold MetOnce
  rw [clock, session, wake, events]
  exact h

theorem MetOnce.finish {now count : Nat} (h : MetOnce now count s) : MetOnce now count s.finish := by
  refine finish_keeps (P := MetOnce now count) ?_ (fun s h => h.of_same (by simp) (by simp) (by simp) (by simp)) h
  simp only [reactions, List.forall_mem_cons, List.not_mem_nil, false_implies, implies_true, and_true]
  refine ⟨fun s h => ?_, fun s h => ?_, fun s h => ?_, fun s h => ?_, fun s h => ?_, fun s h => ?_, fun s h => ?_,
    fun s h => ?_, fun s h => ?_, fun s h => ?_, fun s h => ?_, fun s h => ?_⟩
  · rw [holdSetpoint_eq]
    exact h.of_same rfl rfl rfl rfl
  · rw [noticeTest_eq]
    exact h.of_same rfl rfl rfl (count_noticeEvents s (by decide) (by decide))
  · rw [gateNotice_eq]
    exact h.of_same rfl rfl rfl rfl
  · rw [shareZeroTest_eq]
    exact h.of_same rfl rfl rfl rfl
  · rw [stopTest_eq]
    exact h.of_same rfl rfl rfl rfl
  · have unwanted : ¬s.releaseWanted = true := fun wanted => by
      have exporting := (releaseWanted_iff.mp wanted).1
      rcases h.2 with ⟨absent, _⟩ | ⟨attached, _⟩
      · rw [absent] at exporting
        cases exporting
      · rw [attached] at exporting
        cases exporting
    rw [State.releaseTest, if_neg unwanted]
    exact h
  · rw [startTest_eq]
    exact h.of_same rfl rfl rfl (count_startEvents s (by decide) (by decide))
  · rw [engageTest_eq]
    exact h.of_same rfl rfl rfl rfl
  · rw [retuneTest_eq]
    exact h.of_same rfl rfl rfl rfl
  · rw [parkTest_eq]
    split
    · rw [setMode_pollIn]
      exact h.of_same rfl rfl rfl rfl
    · exact h
  · rw [plugWake_eq]
    split
    · rw [setMode_pollIn]
      exact h.of_same rfl rfl rfl rfl
    · exact h
  · rw [meetPlug_eq]
    split
    · next met =>
      obtain ⟨clock, ⟨_, unmet⟩ | ⟨attached, _⟩⟩ := h
      · refine ⟨clock, .inr ⟨rfl, congrArg (fun n => some (n + 200)) clock, ?_⟩⟩
        show (s.sp.events.raise .vehicleAttached).count .vehicleAttached = _
        rw [EventSet.count_raise_self, satSucc_eq_min, unmet]
      · exact absurd (attached.symm.trans met.2.2) (by decide)
    · exact h

/-- A plug high wakes a DORMANT post at once, but not during a restart's wait (R174, R177). -/
theorem finish_awake (high : s.vl.plug = true) (joined : s.sp.mode ≠ .config)
    (wakes : s.sp.mode ≠ .dormant ∨ s.sp.restarting = none) : s.finish.sp.mode ≠ .dormant := by
  intro dormant
  have moves := finish_moves s
  have still : s.finish.sp.restarting ≠ none := fun none' =>
    (finish_settled joined).1.wake ⟨dormant, moves.plug.trans high, none'⟩
  rw [moves.restarting] at still
  rcases moves.mode with same | ⟨none', _⟩
  · exact wakes.elim (fun other => other (same.symm.trans dormant)) still
  · exact still none'

/-- A plug high is met at once in ABSENT (R137). -/
theorem finish_attached (high : s.vl.plug = true) (absent : s.vl.session = .absent) (joined : s.sp.mode ≠ .config)
    (wakes : s.sp.mode ≠ .dormant ∨ s.sp.restarting = none) :
    s.finish.vl.session = .attached ∧ s.finish.vl.wakeAt = some (s.now + 200) ∧
      s.finish.sp.events.count .vehicleAttached = min 255 (s.sp.events.count .vehicleAttached + 1) := by
  have present : s.finish.vl.session ≠ .absent :=
    (finish_settled joined).1.plug ((finish_moves s).plug.trans high) (finish_awake high joined wakes)
  have met : MetOnce s.now (s.sp.events.count .vehicleAttached) s := ⟨rfl, .inl ⟨absent, rfl⟩⟩
  exact met.finish.2.resolve_left fun unmet => present unmet.1

/-- A DORMANT post whose plug goes high is ACTIVE (R174). -/
theorem finish_woken (high : s.vl.plug = true) (dormant : s.sp.mode = .dormant) (ready : s.sp.restarting = none) :
    s.finish.sp.mode = .active := by
  have awake := finish_awake high (by rw [dormant]; decide) (.inr ready)
  rcases (finish_moves s).mode with same | ⟨_, ⟨parking, _⟩ | ⟨_, _, active⟩⟩
  · exact absurd (same.trans dormant) awake
  · exact absurd (dormant.symm.trans parking) (by decide)
  · exact active

/-! ### A session that no reaction leaves -/

/-- Outside EXPORTING no reaction makes a RELEASE due. -/
theorem finish_release_due (notExporting : s.vl.session ≠ .exporting) :
    s.finish.vl.due.release = s.vl.due.release := by
  have kept : s.finish.vl.session ≠ .exporting ∧ s.finish.vl.due.release = s.vl.due.release := by
    refine finish_keeps (P := fun v => v.vl.session ≠ .exporting ∧ v.vl.due.release = s.vl.due.release) ?_
      (fun v h => by simpa using h) ⟨notExporting, rfl⟩
    simp only [reactions, List.forall_mem_cons, List.not_mem_nil, false_implies, implies_true, and_true, holdSetpoint_eq,
      noticeTest_eq, gateNotice_eq, shareZeroTest_eq, stopTest_eq, startTest_eq, engageTest_eq, retuneTest_eq, parkTest_eq,
      plugWake_eq, meetPlug_eq, setMode_pollIn]
    refine ⟨fun _ h => h, fun _ h => h, fun _ h => h, fun _ h => h, fun _ h => h, fun v h => ?_, fun _ h => h, fun _ h => h,
      fun _ h => h, fun v h => ?_, fun v h => ?_, fun v h => ?_⟩
    · have unwanted : ¬v.releaseWanted = true := fun wanted => h.1 (releaseWanted_iff.mp wanted).1
      rw [State.releaseTest, if_neg unwanted]
      exact h
    · split <;> exact h
    · split <;> exact h
    · split
      · refine ⟨fun exporting => ?_, h.2⟩
        cases exporting
      · exact h
  exact kept.2

/-- Without a plug a session that is ABSENT stays so. -/
theorem finish_absent (absent : s.vl.session = .absent) (low : s.vl.plug = false) : s.finish.vl.session = .absent := by
  rcases (finish_moves s).session with same | ⟨exporting, _⟩ | ⟨_, _, high⟩
  · exact same.trans absent
  · exact absurd (absent.symm.trans exporting) (by decide)
  · exact absurd (low.symm.trans high) (by decide)

end

/-! ### The commands -/

/-- IDENTIFYING as the session enters it (R142, R162, R163). -/
def identifying (s : State) (now : Nat) : State := { withoutRecord s with
  now := now
  vl := { s.vl with
    session := .identifying
    wakeAt := none
    retryAt := none
    identifyAt := some (now + 5000)
    items := []
    due := { s.vl.due with release := s.vl.releaseOwed, identify := true }
    stopLatch := false
    lastCeiling := none } }

theorem identifying_finish (s : State) (now : Nat) :
    (identifying s now).finish.vl.session = .identifying ∧
    (identifying s now).finish.vl.due.release = s.vl.releaseOwed ∧
    (identifying s now).finish.vl.due.identify = true := by
  have session : (identifying s now).vl.session = .identifying := rfl
  refine ⟨(finish_session _ ?_ ?_).trans session, finish_release_due ?_, State.finish_vl_due_identify _⟩
  all_goals
    rw [session]
    decide

theorem exec_wakeExpiry {s : State} {at' : Nat} (runs : s.vl.wakeAt = some at') :
    exec .wakeExpiry s = .next (identifying s (max s.now at')).finish := by
  simp only [exec, execWakeExpiry, runs]
  rfl

theorem exec_sessionRetryExpiry {s : State} {at' : Nat} (runs : s.vl.retryAt = some at') :
    exec .sessionRetryExpiry s = .next (identifying s (max s.now at')).finish := by
  simp only [exec, execSessionRetryExpiry, runs]
  rfl

theorem exec_plugLow_absent {s : State} (absent : s.vl.session = .absent) :
    exec .plugLow s = .next { s with vl := { s.vl with plug := false, releaseOwed := false } } := by
  simp only [exec, execPlugLow, if_pos absent]
  rfl

theorem exec_plugLow_present {s : State} (present : s.vl.session ≠ .absent) :
    exec .plugLow s = .next (State.finish { withoutRecord s with
      vl := { sessionGone s.vl false with plug := false }
      cc := { s.cc with setpoint := 0 }
      sp := { s.sp with events := s.sp.events.raise .vehicleDetached } }) := by
  have stepped : ((s.setVl { s.vl.absentWith false with plug := false }).discardRecord.stepDown 0) =
      { withoutRecord s with
        vl := { sessionGone s.vl false with plug := false }
        cc := { s.cc with setpoint := 0 } } := by
    rw [State.stepDown, Nat.min_zero]
    rfl
  simp only [exec, execPlugLow, if_neg present, stepped]
  rfl

/-- Settles O42. -/
theorem plugAndWakeBeginTheSession : Obligations.PlugAndWakeBeginTheSession := by
  unfold Obligations.PlugAndWakeBeginTheSession
  refine ⟨fun s => ?high, fun s => exec_plugLow_absent, fun s present => ?low, ?wake⟩
  case high =>
    have high : ({ s with vl := { s.vl with plug := true } } : State).vl.plug = true := rfl
    exact ⟨_, rfl, rfl, (State.finish_vl_plug _).trans high, fun dormant ready => finish_woken high dormant ready,
      fun absent joined wakes => finish_attached high absent joined wakes⟩
  case low =>
    exact ⟨_, exec_plugLow_present present, finish_absent rfl rfl, finish_setpoint_zero _ rfl, rfl⟩
  case wake =>
    intro s at' u begun
    have began : begun u.finish := ⟨rfl, identifying_finish s (max s.now at')⟩
    exact ⟨fun runs => ⟨_, exec_wakeExpiry runs, began⟩, fun runs => ⟨_, exec_sessionRetryExpiry runs, began⟩⟩

end Sys2Proof.Safety
end

