-- ==== Sys2Proof/Proofs/LinkRequests.lean ====
section
/-!
The requests of the pilot link (O43), the replies to an identify QUERY (O44), and the failures of the session (O45).
-/

namespace Sys2Proof.Safety

open Sys2Proof Sys2Proof.Machine

section
variable {s : State}

/-! ### Taking and repeating a request (R139, R140) -/

theorem nextRequest_of_flight {v : VehicleLink} (flies : v.inFlight ≠ none) : v.nextRequest = none := by
  obtain ⟨f, flight⟩ := Option.ne_none_iff_exists'.mp flies
  rw [VehicleLink.nextRequest, flight]

theorem nextRequest_of_idle {v : VehicleLink} (idle : v.inFlight = none) :
    v.nextRequest = (dueInOrder v).find? (sentIn v) := by
  rw [VehicleLink.nextRequest, idle, dueList_eq, funext (allows_eq v)]

theorem nextRequest_at {v : VehicleLink} {before after : List Request} {r : Request} (idle : v.inFlight = none)
    (split : dueInOrder v = before ++ r :: after) (sent : sentIn v r = true) (earlier : ∀ x ∈ before, sentIn v x = false) :
    v.nextRequest = some r := by
  rw [nextRequest_of_idle idle, split, List.find?_eq_some_iff_append]
  exact ⟨sent, before, after, rfl, fun x hx => by rw [earlier x hx]; rfl⟩

theorem nextRequest_none {v : VehicleLink} (none' : v.inFlight ≠ none ∨ ∀ x ∈ dueInOrder v, sentIn v x = false) :
    v.nextRequest = none := by
  rcases none' with flies | unsent
  · exact nextRequest_of_flight flies
  · cases flight : v.inFlight with
    | some f => exact nextRequest_of_flight (by rw [flight]; exact Option.some_ne_none f)
    | none =>
      rw [nextRequest_of_idle flight, List.find?_eq_none]
      exact fun x hx => by rw [unsent x hx]; decide

theorem exec_pilotRequestTaken_next {r : Request} (next : s.vl.nextRequest = some r) :
    (r ≠ .engage → exec .pilotRequestTaken s = .next (s.takeRequest r)) ∧
    (r = .engage → exec .pilotRequestTaken s = .next (s.takeRequest r).finish) := by
  refine ⟨fun other => ?_, fun engage => ?_⟩
  · simp only [exec, execPilotRequestTaken, next, if_neg other]
  · simp only [exec, execPilotRequestTaken, next, if_pos engage]

theorem exec_pilotRequestTaken_none (none' : s.vl.nextRequest = none) : exec .pilotRequestTaken s = .next s := by
  simp only [exec, execPilotRequestTaken, none']

theorem exec_requestSent {f : RequestInFlight} (flight : s.vl.inFlight = some f) (sending : f.replyAt = none) :
    exec .requestSent s = .next { s with vl := { s.vl with
      inFlight := some { f with replyAt := some (s.now + 200) } } } := by
  simp only [exec, execRequestSent, flight, sending]
  rfl

theorem exec_replyTimerExpiry_again {f : RequestInFlight} {at' : Nat} (flight : s.vl.inFlight = some f)
    (waits : f.replyAt = some at') (more : f.attempt < 3) :
    exec .replyTimerExpiry s = .next { s with
      now := max s.now at'
      vl := { s.vl with inFlight := some { f with attempt := f.attempt + 1, replyAt := none } } } := by
  simp only [exec, execReplyTimerExpiry, flight, waits, if_pos more]
  rfl

/-- Settles O43. -/
theorem requestsAreTakenAndRepeated : Obligations.RequestsAreTakenAndRepeated := by
  unfold Obligations.RequestsAreTakenAndRepeated
  refine ⟨?taken, fun s none' => exec_pilotRequestTaken_none (nextRequest_none none'),
    fun s f flight => ⟨exec_requestSent flight, fun at' => exec_replyTimerExpiry_again flight⟩, fun s => rfl⟩
  intro s r idle ⟨before, after, split, sent, earlier⟩ number u
  obtain ⟨others, engages⟩ := exec_pilotRequestTaken_next (nextRequest_at idle split sent earlier)
  have taken : s.takeRequest r = u := by cases r <;> rfl
  rw [taken] at others engages
  exact ⟨others, fun engage => ⟨_, engages engage, (Reacted.refl u).finish⟩⟩

/-! ### The failures (R141, R143, R145, R156) -/

/-- The event set of a failure: VEHICLE_FAULT at the third (R145). -/
def failureEvents (s : State) (e : EventSet) : EventSet := if s.vl.failures < 2 then e else e.raise .vehicleFault

/-- The state with the session failed. -/
def failed (s : State) (now : Nat) (cause : LastFailure) (wait : Nat) (owed : Bool) (flight : Option RequestInFlight)
    (e : EventSet) : State := { s with
  now := now
  vl := sessionFailed s.vl now cause wait owed flight
  sp := { s.sp with events := failureEvents s e } }

theorem failed_finish_session {now wait : Nat} {cause : LastFailure} {owed : Bool} {flight : Option RequestInFlight}
    {e : EventSet} : (failed s now cause wait owed flight e).finish.vl.session =
      if s.vl.failures < 2 then .retryWait else .faulted := by
  have session : (failed s now cause wait owed flight e).vl.session =
      if s.vl.failures < 2 then .retryWait else .faulted := rfl
  refine (finish_session _ ?_ ?_).trans session
  all_goals
    rw [session]
    split <;> decide

theorem exec_identifyExpiry {at' : Nat} (runs : s.vl.identifyAt = some at') : exec .identifyExpiry s = .next
    (failed s (max s.now at') .identifyTimeout 60000 s.vl.releaseOwed none s.sp.events).finish := by
  simp only [exec, execIdentifyExpiry, runs, State.identifyFails, failSession_eq]
  rfl

theorem exec_tuningExpiry {at' : Nat} (runs : s.vl.tuningAt = some at') : exec .tuningExpiry s = .next
    (failed s (max s.now at') .tuning 60000 s.vl.releaseOwed
      (if s.vl.tuneInFlight then none else s.vl.inFlight) (s.sp.events.raise .tuneFailed)).finish := by
  simp only [exec, execTuningExpiry, runs, failSession_eq]
  have flight : (s.reach at').vl.tuneInFlight = s.vl.tuneInFlight := rfl
  rw [flight]
  cases s.vl.tuneInFlight <;> rfl

theorem holdsStop_eq (x : SessionState) :
    x.holdsStop = decide (x = .engaging ∨ x = .exporting ∨ x = .releasing) := by cases x <;> rfl

theorem exec_replyTimerExpiry_lost {f : RequestInFlight} {at' : Nat} (flight : s.vl.inFlight = some f)
    (waits : f.replyAt = some at') (last : 3 ≤ f.attempt) : exec .replyTimerExpiry s = .next
    (failed s (max s.now at') .link 10000 (s.vl.releaseOwed || decide (s.vl.session = .engaging ∨
      s.vl.session = .exporting ∨ s.vl.session = .releasing)) none (s.sp.events.raise .linkLost)).finish := by
  rw [← holdsStop_eq]
  simp only [exec, execReplyTimerExpiry, flight, waits, if_neg (Nat.not_lt.mpr last), State.linkLost, failSession_eq]
  rfl

/-- Settles O45. -/
theorem sessionFailuresWaitOrLatch : Obligations.SessionFailuresWaitOrLatch := by
  unfold Obligations.SessionFailuresWaitOrLatch
  intro s faulted
  exact ⟨fun at' runs => ⟨_, exec_identifyExpiry runs, failed_finish_session, (Reacted.refl _).finish⟩,
    fun at' runs => ⟨_, exec_tuningExpiry runs, failed_finish_session, (Reacted.refl _).finish⟩,
    fun f at' flight waits last =>
      ⟨_, exec_replyTimerExpiry_lost flight waits last, failed_finish_session, (Reacted.refl _).finish⟩⟩

/-! ### The replies to an identify QUERY (R142, R143, R185) -/

section
variable {number k : Nat}

theorem exec_item_identify (awaits : Awaits s number (.identifyQuery k)) (v : Int) :
    exec (.item number k v) s = .next (s.endRequest.identifyItem k v).finish := by
  simp only [exec, execItem, answeredBy_of_awaits awaits, if_true]

theorem identifyFails_eq (s : State) (cause : LastFailure) :
    s.endRequest.identifyFails cause = failed s s.now cause 60000 s.vl.releaseOwed none s.sp.events := by
  simp only [State.identifyFails, failSession_eq]
  rfl

theorem exec_item_held (awaits : Awaits s number (.identifyQuery k)) (v : Int) (within : k ≤ 6) :
    exec (.item number k v) s = .next (State.finish { s with vl := { s.vl with
      inFlight := none
      items := s.vl.items ++ [some (itemCorrected k v)]
      due := { s.vl.due with identify := true } } }) := by
  rw [exec_item_identify awaits, State.identifyItem, if_neg (by omega)]
  rfl

theorem exec_item_refused (awaits : Awaits s number (.identifyQuery k)) (v : Int) (last : k = 7) (refused : v ≠ 1) :
    exec (.item number k v) s =
      .next (failed s s.now (.identifyItem k) 60000 s.vl.releaseOwed none s.sp.events).finish := by
  rw [exec_item_identify awaits, State.identifyItem, if_pos last, if_neg refused, identifyFails_eq, last]

theorem exec_notReady_identify (awaits : Awaits s number (.identifyQuery k)) :
    exec (.notReady number k) s = .next { s with vl := { s.vl with
      inFlight := none, requeryAt := some (s.now + 100) } } := by
  simp only [exec, execNotReady, answeredBy_of_awaits awaits, if_true]
  rfl

theorem exec_unsupported_held (awaits : Awaits s number (.identifyQuery k)) (may : k = 3 ∨ k = 4 ∨ k = 6) :
    exec (.unsupported number k) s = .next { s with vl := { s.vl with
      inFlight := none
      items := s.vl.items ++ [none]
      due := { s.vl.due with identify := true } } } := by
  have optional : optionalItem k = true := by
    simp only [optionalItem, Bool.or_eq_true, beq_iff_eq]
    omega
  simp only [exec, execUnsupported, answeredBy_of_awaits awaits, if_true, optional]
  rfl

theorem exec_unsupported_fails (awaits : Awaits s number (.identifyQuery k)) (not3 : k ≠ 3) (not4 : k ≠ 4)
    (not6 : k ≠ 6) : exec (.unsupported number k) s =
      .next (failed s s.now (.identifyItem k) 60000 s.vl.releaseOwed none s.sp.events).finish := by
  have mandatory : ¬optionalItem k = true := by
    simp only [optionalItem, Bool.or_eq_true, beq_iff_eq]
    omega
  simp only [exec, execUnsupported, answeredBy_of_awaits awaits, if_true, if_neg mandatory, identifyFails_eq]

/-- A reply for another item answers nothing (R142). -/
theorem exec_other_item (awaits : Awaits s number (.identifyQuery k)) {j : Nat} (v : Int) (other : j ≠ k) :
    exec (.item number j v) s = .next s ∧ exec (.notReady number j) s = .next s ∧
      exec (.unsupported number j) s = .next s := by
  simp only [exec, execItem, execNotReady, execUnsupported, answeredBy_of_awaits awaits, if_neg other, and_self]

end

/-- A reply of a number that is not awaited answers nothing (R139). -/
theorem exec_item_unanswered {n : Nat} (j : Nat) (v : Int) (unanswered : s.answeredBy n = none) :
    exec (.item n j v) s = .next s ∧ exec (.notReady n j) s = .next s ∧ exec (.unsupported n j) s = .next s := by
  simp only [exec, execItem, execNotReady, execUnsupported, unanswered, and_self]

theorem exec_requeryExpiry {at' : Nat} (runs : s.vl.requeryAt = some at') : exec .requeryExpiry s = .next { s with
    now := max s.now at'
    vl := { s.vl with requeryAt := none, due := { s.vl.due with identify := true } } } := by
  simp only [exec, execRequeryExpiry, runs]
  rfl

/-! ### The completed identify (R62, R76, R142, R153) -/

theorem busRecordOf_seven (bus capacity soe pack : Int) (route departure minTemp : Option Int) (routeDefault : Nat) :
    busRecordOf [some bus, some capacity, some soe, route, departure, some pack, minTemp] routeDefault = some {
      bus := bus.toNat
      capacity := capacity.toNat
      soe := min soe.toNat capacity.toNat
      route := (route.map Int.toNat).getD routeDefault
      routeDefaulted := route.isNone
      departure := departure.map Int.toNat
      packTemp := pack
      minTemp := minTemp.getD (-20)
      minTempDefaulted := minTemp.isNone } := by
  cases route <;> rfl

theorem firstCode_eq (x : TuneStart) : firstCode x = if x = .default then .startDefault else .startTop := by
  cases x <;> rfl

/-- The notice comparator stands on its side, with the two counts of its events (R76). -/
structure Noticed (e threshold low restored : Nat) (s : State) : Prop where
  energy : s.energy = e
  key : s.sp.config.energyNotice = threshold
  side : s.ea.side = noticeSideOf e threshold
  low : s.sp.events.count .energyLow = low
  restored : s.sp.events.count .energyRestored = restored

theorem Noticed.noticeTest_eq {e threshold low restored : Nat} (h : Noticed e threshold low restored s) :
    s.noticeTest = s := by
  have side := h.side
  refine noticeTest_stays (.inr ?_)
  rw [h.key, h.energy]
  by_cases high : threshold ≤ e
  · exact .inl ⟨side.trans (noticeSideOf_above high), high⟩
  · exact .inr ⟨side.trans (noticeSideOf_below (by omega)), by omega⟩

/-- No event of the comparator is raised where it stands on its side already (R76). -/
theorem Noticed.finish {e threshold low restored : Nat} (h : Noticed e threshold low restored s) :
    Noticed e threshold low restored s.finish := by
  refine finish_keeps (P := Noticed e threshold low restored) ?_ (fun s h => ?_) h
  · simp only [reactions, List.forall_mem_cons, List.not_mem_nil, false_implies, implies_true, and_true]
    refine ⟨fun s h => ?_, fun s h => ?_, fun s h => ?_, fun s h => ?_, fun s h => ?_, fun s h => ?_, fun s h => ?_,
      fun s h => ?_, fun s h => ?_, fun s h => ?_, fun s h => ?_, fun s h => ?_⟩
    · rw [holdSetpoint_eq]
      exact ⟨h.energy, h.key, h.side, h.low, h.restored⟩
    · rw [h.noticeTest_eq]
      exact h
    · rw [gateNotice_eq]
      exact ⟨h.energy, h.key, h.side, h.low, h.restored⟩
    · rw [shareZeroTest_eq]
      exact ⟨h.energy, h.key, h.side, h.low, h.restored⟩
    · rw [stopTest_eq]
      exact ⟨h.energy, h.key, h.side, h.low, h.restored⟩
    · rw [releaseTest_eq]
      exact ⟨h.energy, h.key, h.side, h.low, h.restored⟩
    · rw [startTest_eq]
      exact ⟨h.energy, h.key, h.side, (count_startEvents s (by decide) (by decide)).trans h.low,
        (count_startEvents s (by decide) (by decide)).trans h.restored⟩
    · rw [engageTest_eq]
      exact ⟨h.energy, h.key, h.side, h.low, h.restored⟩
    · rw [retuneTest_eq]
      exact ⟨h.energy, h.key, h.side, h.low, h.restored⟩
    · rw [parkTest_eq]
      split
      · rw [setMode_pollIn]
        exact ⟨h.energy, h.key, h.side, h.low, h.restored⟩
      · exact h
    · rw [plugWake_eq]
      split
      · rw [setMode_pollIn]
        exact ⟨h.energy, h.key, h.side, h.low, h.restored⟩
      · exact h
    · rw [meetPlug_eq]
      split
      · exact ⟨h.energy, h.key, h.side, (EventSet.count_raise_of_ne _ (by decide)).trans h.low,
          (EventSet.count_raise_of_ne _ (by decide)).trans h.restored⟩
      · exact h
  · exact ⟨(takeFrame_sameView s).energy.trans h.energy, by rw [State.takeFrame_sp]; exact h.key,
      by rw [State.takeFrame_ea]; exact h.side, by rw [State.takeFrame_sp]; exact h.low,
      by rw [State.takeFrame_sp]; exact h.restored⟩

/-- The identify completed with a record, but for the side of the comparator (R62, R142, R153). -/
def identified (s : State) (record : BusRecord) (first : TuneCode) : State := { s with
  ea := { s.ea with
    record := some record
    estimate := record.soe
    reported := record.soe
    residue := 0
    departureLeft := record.departure
    minuteAt := record.departure.map fun _ => s.now + 60000 }
  vl := { s.vl with
    session := .tuning
    inFlight := none
    identifyAt := none
    requeryAt := none
    items := []
    phase := .stepping
    kind := .initial
    code := some first
    busLevel := none
    busStatus := none
    tuningAt := some (s.now + 10000)
    due := { s.vl.due with identify := false, tune := some first } } }

/-- The notice comparator taken to its side (R76). -/
def sided (s : State) : State := { s with ea := { s.ea with
  side := if s.sp.config.energyNotice ≤ s.energy then .above else .below } }

theorem exec_item_completes {number : Nat} {record : BusRecord} (awaits : Awaits s number (.identifyQuery 7))
    (made : busRecordOf s.vl.items s.sp.config.routeDefault = some record) :
    exec (.item number 7 1) s =
      .next (sided (identified s record (firstCode s.sp.config.tuneStart))).finish := by
  have made' : busRecordOf s.endRequest.vl.items s.endRequest.sp.config.routeDefault = some record := made
  rw [exec_item_identify awaits, State.identifyItem, if_pos rfl, if_pos rfl, State.identifyCompletes, made']
  rfl

/-- Settles O44: the replies one by one, and the completed identify. -/
theorem identifyReadsItemsIntoTheRecord : Obligations.IdentifyReadsItemsIntoTheRecord := by
  unfold Obligations.IdentifyReadsItemsIntoTheRecord
  refine ⟨?replies, fun s at' => exec_requeryExpiry, ?completes⟩
  case replies =>
    intro s number k awaits fails
    exact ⟨failed_finish_session, exec_item_held awaits, exec_item_refused awaits, exec_notReady_identify awaits,
      exec_unsupported_held awaits, exec_unsupported_fails awaits, fun j v => exec_other_item awaits v,
      fun n j v other => exec_item_unanswered j v (answeredBy_of_ne awaits other)⟩
  case completes =>
    intro s number bus capacity soe pack route departure minTemp awaits items record first v
    have made : busRecordOf s.vl.items s.sp.config.routeDefault = some record := by
      rw [items]
      exact busRecordOf_seven ..
    have effect := exec_item_completes awaits made
    rw [firstCode_eq] at effect
    have session : (sided v).vl.session = .tuning := rfl
    have noticed : Noticed v.energy s.sp.config.energyNotice (s.sp.events.count .energyLow)
        (s.sp.events.count .energyRestored) (sided v) := ⟨rfl, rfl, rfl, rfl, rfl⟩
    refine ⟨_, effect, (finish_session _ ?_ ?_).trans session, rfl, noticed.finish.low, noticed.finish.restored⟩
    · exact fun exporting => absurd (session.symm.trans exporting) (by decide)
    · exact fun absent => absurd (session.symm.trans absent) (by decide)

end

end Sys2Proof.Safety
end

