-- ==== Sys2Proof/Proofs/TuningCommands.lean ====
section
/-!
Tuning, the retune and the settle wait (O47, O48): what a TUNED leads to by the first row of R154's table that fits, and
what the end of the settle wait makes of the link (R155).
-/

namespace Sys2Proof.Safety

open Sys2Proof Sys2Proof.Machine

section
variable {s : State}

/-! ### The rows of R154 -/

theorem tuneStatus_atTop (status : Nat) : tuneStatusOfCode status = .atTop ↔ status = 1 := by
  rw [tuneStatusOfCode_eq]
  split_ifs <;> simp <;> omega

theorem tuneStatus_atBottom (status : Nat) : tuneStatusOfCode status = .atBottom ↔ status = 2 := by
  rw [tuneStatusOfCode_eq]
  split_ifs <;> simp <;> omega

theorem tuneStatus_unchanged (status : Nat) : tuneStatusOfCode status = .unchanged ↔ 3 ≤ status := by
  rw [tuneStatusOfCode_eq]
  split_ifs <;> simp <;> omega

/-- The bus stands at the desired level, or at the end of its range on the way to it (R154). -/
def TuningDone (level desired status : Nat) : Prop :=
  level = desired ∨ (level < desired ∧ status = 1) ∨ (desired < level ∧ status = 2)

section
variable {level desired status : Nat}

theorem tuneAction_done (done : TuningDone level desired status) :
    tuneAction level desired (tuneStatusOfCode status) = .done := by
  simp only [tuneAction, tuneStatus_atTop, tuneStatus_atBottom]
  rcases done with at' | top | bottom
  · rw [if_pos at']
  · rw [if_neg (by omega), if_pos top]
  · rw [if_neg (by omega), if_neg (by omega), if_pos bottom]

theorem tuneAction_onward (onward : ¬TuningDone level desired status) :
    tuneAction level desired (tuneStatusOfCode status) =
      if 3 ≤ status then .again else if level < desired then .up else .down := by
  unfold TuningDone at onward
  simp only [tuneAction, tuneStatus_atTop, tuneStatus_atBottom, tuneStatus_unchanged]
  rw [if_neg (by omega), if_neg (by omega), if_neg (by omega)]

end

/-- The state that holds the level and status of a TUNED (R154). -/
def told (s : State) (status : TuneStatus) (level : Nat) : State :=
  s.setVl { s.vl with busLevel := some level, busStatus := some status }

section
variable {status : TuneStatus} {level : Nat}

theorem tuneReply_done (action : tuneAction level s.vl.desired status = .done) :
    s.tuneReply status level = (told s status level).beginSettle := by
  have action' : tuneAction level (told s status level).vl.desired status = .done := action
  unfold told at action'
  simp only [State.tuneReply, action']
  rfl

theorem tuneReply_again (action : tuneAction level s.vl.desired status = .again) :
    s.tuneReply status level = (told s status level).setVl { (told s status level).vl with stepAt := some (s.now + 100) } := by
  have action' : tuneAction level (told s status level).vl.desired status = .again := action
  unfold told at action'
  simp only [State.tuneReply, action']
  rfl

theorem tuneReply_up (action : tuneAction level s.vl.desired status = .up) :
    s.tuneReply status level = (told s status level).makeTune .up := by
  have action' : tuneAction level (told s status level).vl.desired status = .up := action
  unfold told at action'
  simp only [State.tuneReply, action']
  rfl

theorem tuneReply_down (action : tuneAction level s.vl.desired status = .down) :
    s.tuneReply status level = (told s status level).makeTune .down := by
  have action' : tuneAction level (told s status level).vl.desired status = .down := action
  unfold told at action'
  simp only [State.tuneReply, action']
  rfl

end

theorem exec_tuned_stepping {number : Nat} {code : TuneCode} (awaits : Awaits s number (.tune code)) (other : code ≠ .hold)
    (stepping : s.vl.phase = .stepping) (status level : Nat) :
    exec (.tuned number status level) s =
      .next (s.endRequest.tuneReply (tuneStatusOfCode status) (min 63 level)).finish := by
  have stepping' : s.endRequest.vl.phase = .stepping := stepping
  simp only [exec, execTuned, answeredBy_of_awaits awaits]
  rw [if_neg fun h => other h.1, if_pos ⟨other, stepping'⟩]
  rfl

theorem exec_tuned_unanswered {number : Nat} (status level : Nat) (unanswered : s.answeredBy number = none) :
    exec (.tuned number status level) s = .next s := by
  simp only [exec, execTuned, unanswered]

theorem exec_stepDelayExpiry {at' : Nat} (runs : s.vl.stepAt = some at') : exec .stepDelayExpiry s = .next { s with
    now := max s.now at'
    vl := { s.vl with stepAt := none, due := { s.vl.due with tune := s.vl.code } } } := by
  simp only [exec, execStepDelayExpiry, runs]
  rfl

/-! ### The retune (R157) -/

theorem exec_retuneExpiry {at' : Nat} (runs : s.vl.retuneAt = some at') : exec .retuneExpiry s = .next { s with
    now := max s.now at'
    vl := { s.vl with retuneDue := true, retuneAt := some (max s.now at' + 60000) } } := by
  simp only [exec, execRetuneExpiry, runs]
  rfl

theorem engageInFlight_eq_false (none' : ∀ f, s.vl.inFlight = some f → f.request ≠ .engage) :
    s.vl.engageInFlight = false := by
  unfold VehicleLink.engageInFlight
  split
  · next f flight => exact beq_eq_false_iff_ne.mpr (none' f flight)
  · rfl

theorem exec_retuneBegin (opens : s.retuneOpen = true) :
    exec .retuneBegin s = .next (s.enterTuning .retune .up).finish := by
  simp only [exec, execRetuneBegin, opens, if_true]

theorem exec_retuneBegin_closed (closed : s.retuneOpen = false) : exec .retuneBegin s = .next s := by
  simp only [exec, execRetuneBegin, closed]
  rfl

/-- Settles O47: a TUNED by the row of the table, the delay, and the retune. -/
theorem tuningAndRetuneStep : Obligations.TuningAndRetuneStep := by
  unfold Obligations.TuningAndRetuneStep
  refine ⟨⟨?reply, fun s at' => exec_stepDelayExpiry, ?other⟩, fun s at' => exec_retuneExpiry, ?begins, ?closed⟩
  case reply =>
    intro s number status level code awaits other stepping l u done
    have effect : exec (.tuned number status level) s =
        .next (s.endRequest.tuneReply (tuneStatusOfCode status) l).finish :=
      exec_tuned_stepping awaits other stepping status level
    refine ⟨_, effect, ?_⟩
    refine ⟨fun h => ?_, fun h unchanged => ?_, fun h moved below => ?_, fun h moved above => ?_⟩
    · rw [tuneReply_done (s := s.endRequest) (tuneAction_done h)]
      exact (Reacted.refl _).finish
    · rw [tuneReply_again (s := s.endRequest) ((tuneAction_onward h).trans (if_pos unchanged))]
      exact (Reacted.refl _).finish
    · rw [tuneReply_up (s := s.endRequest) ((tuneAction_onward h).trans ((if_neg (by omega)).trans (if_pos below)))]
      exact (Reacted.refl _).finish
    · rw [tuneReply_down (s := s.endRequest)
        ((tuneAction_onward h).trans ((if_neg (by omega)).trans (if_neg (Nat.lt_asymm above))))]
      exact (Reacted.refl _).finish
  case other =>
    intro s f number status level flight other
    exact exec_tuned_unanswered status level (answeredBy_of_ne ⟨f, flight, rfl, rfl⟩ (Ne.symm other))
  case begins =>
    intro s due ready unengaged none'
    have opens : s.retuneOpen = true := by
      rw [State.retuneOpen, due, ready, unengaged, engageInFlight_eq_false none']
      rfl
    have session : (s.enterTuning .retune .up).vl.session = .tuning := rfl
    refine ⟨_, exec_retuneBegin opens, (finish_session _ ?_ ?_).trans session, (Reacted.refl _).finish⟩
    all_goals
      rw [session]
      decide
  case closed =>
    intro s stays
    refine exec_retuneBegin_closed (Bool.eq_false_iff.mpr fun opens => ?_)
    simp only [State.retuneOpen, Bool.and_eq_true, beq_iff_eq, Bool.not_eq_true'] at opens
    obtain ⟨⟨⟨due, ready⟩, unengaged⟩, _⟩ := opens
    rcases stays with undue | other | engaged
    · rw [due] at undue
      cases undue
    · exact other ready
    · rw [engaged] at unengaged
      cases unengaged

/-! ### The settle wait (R155) -/

theorem pollPeriod_eq (m : PostMode) : m.pollPeriod = if m = .hold ∨ m = .lockout then 5000 else 500 := by
  cases m <;> rfl

/-- The events at the end of the settle wait (R155, R144). -/
def settledEvents (s : State) (level : Nat) : EventSet :=
  if s.vl.kind = .initial then
    (if s.sp.config.allowCeil < level then s.sp.events.raise .rangeClamp else s.sp.events).raise .vehicleReady
  else if s.sp.config.allowCeil < level then s.sp.events.raise .rangeClamp else s.sp.events

/-- The end of the settle wait: READY with the agreed allowance (R155). -/
def settledInto (s : State) (level : Nat) : State := { s with
  vl := { s.vl with
    session := .ready
    allowance := agreedAllowance level s.vl.desired s.vl.lastCeiling
    phase := .idle
    settleAt := none
    failures := if s.vl.kind = .initial then 0 else s.vl.failures
    pollAt := if s.vl.kind = .initial then
        some (s.now + if s.sp.mode = .hold ∨ s.sp.mode = .lockout then 5000 else 500)
      else s.vl.pollAt
    refreshAt := if s.vl.kind = .initial then some (s.now + 60000) else s.vl.refreshAt }
  sp := { s.sp with events := settledEvents s level } }

theorem settleEnds_eq {level : Nat} (held : s.vl.busLevel = some level) : s.settleEnds = settledInto s level := by
  unfold State.settleEnds settledInto settledEvents
  rw [held, ← pollPeriod_eq]
  by_cases clamps : s.sp.config.allowCeil < level
  · cases kind : s.vl.kind <;> simp [State.raiseIf, clamps] <;> rfl
  · cases kind : s.vl.kind <;> simp [State.raiseIf, clamps] <;> rfl

theorem settledInto_finish (level : Nat) : (settledInto s level).finish.vl.session = .ready :=
  finish_session (settledInto s level) (fun h => by cases h) fun h => by cases h

theorem exec_settleExpiry_ends {at' level : Nat} (runs : s.vl.settleAt = some at') (held : s.vl.busLevel = some level)
    (answered : s.vl.holdAnswered = true) : exec .settleExpiry s = .next
      (settledInto { s with now := max s.now at', vl := { s.vl with settleAt := none } } level).finish := by
  have ends : (({ s with now := max s.now at', vl := { s.vl with settleAt := none } } : State)).settleEnds = _ :=
    settleEnds_eq (level := level) held
  simp only [exec, execSettleExpiry, runs]
  rw [← ends]
  exact if_pos answered

theorem exec_settleExpiry_waits {at' : Nat} (runs : s.vl.settleAt = some at') (unanswered : s.vl.holdAnswered = false) :
    exec .settleExpiry s = .next { s with now := max s.now at', vl := { s.vl with settleAt := none } } := by
  have unanswered' : ¬((s.reach at').setVl { (s.reach at').vl with settleAt := none }).vl.holdAnswered = true := by
    show ¬s.vl.holdAnswered = true
    rw [unanswered]
    decide
  simp only [exec, execSettleExpiry, runs, if_neg unanswered']
  rfl

/-- HOLD answered with a level (R155). -/
def holdAnswered (s : State) (status : TuneStatus) (level : Nat) : State := { s with vl := { s.vl with
  inFlight := none
  busLevel := some level
  busStatus := some status
  holdAnswered := true } }

theorem exec_tuned_hold {number : Nat} (awaits : Awaits s number (.tune .hold)) (settling : s.vl.phase = .settling)
    (status wire : Nat) : exec (.tuned number status wire) s = .next (if s.vl.settleAt.isNone then
      (settledInto (holdAnswered s (tuneStatusOfCode status) (min 63 wire)) (min 63 wire)).finish
      else (holdAnswered s (tuneStatusOfCode status) (min 63 wire)).finish) := by
  have settling' : s.endRequest.vl.phase = .settling := settling
  have ends := settleEnds_eq (s := holdAnswered s (tuneStatusOfCode status) (min 63 wire)) (level := min 63 wire) rfl
  rw [← ends]
  simp only [exec, execTuned, answeredBy_of_awaits awaits, settling', and_self, if_true]
  unfold State.holdReply
  dsimp only
  by_cases passed : s.vl.settleAt.isNone = true
  · rw [if_pos passed]
    exact congrArg (fun v : State => Host.Outcome.next v.finish) (if_pos passed)
  · rw [if_neg passed]
    exact congrArg (fun v : State => Host.Outcome.next v.finish) (if_neg passed)

/-- Settles O48: the second and the reply in either order. -/
theorem settlingEndsInReady : Obligations.SettlingEndsInReady := by
  unfold Obligations.SettlingEndsInReady
  intro s level ready
  refine ⟨fun at' runs held => ⟨fun answered => ?_, fun unanswered => exec_settleExpiry_waits runs unanswered⟩,
    fun number status wire awaits settling same => ⟨fun passed => ?_, fun runs => ?_⟩⟩
  · have same : settledInto { s with now := max s.now at', vl := { s.vl with settleAt := none } } level =
        ready (max s.now at') := by
      simp only [ready, settledInto, ← held]
      cases s.vl.lastCeiling <;> rfl
    refine ⟨_, exec_settleExpiry_ends runs held answered, settledInto_finish level, ?_⟩
    rw [same]
    exact (Reacted.refl _).finish
  · have effect := exec_tuned_hold awaits settling status wire
    rw [passed, ← same] at effect
    refine ⟨_, effect, settledInto_finish level, ?_⟩
    have whole : settledInto (holdAnswered s (tuneStatusOfCode status) level) level =
        { ready s.now with vl := { (ready s.now).vl with
          inFlight := none
          busStatus := some (tuneStatusOfCode status)
          holdAnswered := true } } := by
      simp only [ready, settledInto, holdAnswered]
      cases s.vl.lastCeiling <;> rfl
    rw [← whole]
    exact (Reacted.refl _).finish
  · have effect := exec_tuned_hold awaits settling status wire
    have waits : ¬s.vl.settleAt.isNone = true := by simpa using runs
    rw [if_neg waits, ← same] at effect
    exact ⟨_, effect, (Reacted.refl _).finish⟩

end

end Sys2Proof.Safety
end

