-- ==== Sys2Proof/Proofs/SessionCommands.lean ====
section
/-!
The polls and the refresh (O46), and the replies to ENGAGE and RELEASE with the share-zero timer (O49).
-/

namespace Sys2Proof.Safety

open Sys2Proof Sys2Proof.Machine

section
variable {s : State}

/-! ### Polling and refresh (R147, R148) -/

theorem exec_pollExpiry {at' : Nat} (runs : s.vl.pollAt = some at') : exec .pollExpiry s = .next { s with
    now := max s.now at'
    vl := { s.vl with
      due := { s.vl.due with poll := s.vl.due.poll || !s.vl.pollInFlight }
      pollAt := some (max s.now at' + if s.sp.mode = .hold ∨ s.sp.mode = .lockout then 5000 else 500) } } := by
  rw [← pollPeriod_eq]
  simp only [exec, execPollExpiry, runs]
  rfl

theorem exec_refreshExpiry {at' : Nat} (runs : s.vl.refreshAt = some at') : exec .refreshExpiry s = .next { s with
    now := max s.now at'
    vl :=
      if s.vl.due.refresh.isSome || s.vl.refreshInFlight then
        { s.vl with refreshAt := some (max s.now at' + 60000) }
      else { s.vl with refreshAt := none, due := { s.vl.due with refresh := some 2 } } } := by
  have same : ((s.reach at').vl.due.refresh.isSome || (s.reach at').vl.refreshInFlight) =
      (s.vl.due.refresh.isSome || s.vl.refreshInFlight) := rfl
  simp only [exec, execRefreshExpiry, runs, same]
  split <;> rfl

theorem exec_item_refresh {number k : Nat} (awaits : Awaits s number (.refreshQuery k)) (v : Int) :
    exec (.item number k v) s = .next (s.endRequest.refreshItem k v).finish := by
  simp only [exec, execItem, answeredBy_of_awaits awaits, if_true]

theorem refreshItem_energy {r : BusRecord} (held : s.ea.record = some r) (polling : s.vl.polling = true) (v : Int) :
    s.endRequest.refreshItem 2 v = { s with
      vl := { s.vl with inFlight := none, due := { s.vl.due with refresh := some 5 } }
      ea := { s.ea with
        estimate := min s.ea.estimate (min (itemCorrected 2 v).toNat r.capacity)
        reported := min (itemCorrected 2 v).toNat r.capacity } } := by
  have held' : s.endRequest.ea.record = some r := held
  rw [State.refreshItem, if_pos rfl, State.refreshEnergy, held']
  exact if_pos ⟨rfl, polling⟩

theorem refreshItem_pack {r : BusRecord} (held : s.ea.record = some r) (v : Int) :
    s.endRequest.refreshItem 5 v = { s with
      vl := { s.vl with inFlight := none }
      ea := { s.ea with record := some { r with packTemp := itemCorrected 5 v } } } := by
  have held' : s.endRequest.ea.record = some r := held
  rw [State.refreshItem, if_neg (by decide), State.replacePack, held']
  rfl

theorem refreshGoesOn_eq (s : State) (k : Nat) : s.endRequest.refreshGoesOn k = { s with vl := { s.vl with
    inFlight := none
    due := if k = 2 ∧ s.vl.polling = true then { s.vl.due with refresh := some 5 } else s.vl.due } } := by
  have same : s.endRequest.vl.polling = s.vl.polling := rfl
  rw [State.refreshGoesOn, same]
  split <;> rfl

theorem exec_unread_refresh {number k : Nat} (awaits : Awaits s number (.refreshQuery k)) :
    exec (.notReady number k) s = .next (s.endRequest.refreshGoesOn k) ∧
    exec (.unsupported number k) s = .next (s.endRequest.refreshGoesOn k) := by
  simp only [exec, execNotReady, execUnsupported, answeredBy_of_awaits awaits, if_true, and_self]

/-! ### POLLED (R65, R162, R163) -/

/-- The pack temperature of a POLLED (R65). -/
def packed (s : State) (t : Int) : State := { s with
  ea := { s.ea with record := s.ea.record.map fun r => { r with packTemp := max (-40) (min 100 t) } }
  vl := { s.vl with inFlight := none } }

/-- The ceiling of a POLLED (R163). -/
def ceiled (s : State) (c : Nat) : State := { s with
  vl := { s.vl with lastCeiling := some c, allowance := min s.vl.allowance c }
  sp := { s.sp with
    events := if c < s.vl.allowance then s.sp.events.raise .ceilingLowered else s.sp.events } }

/-- The STOP flag of a POLLED (R162). -/
def stopped (s : State) (stop : Bool) : State := { s with
  vl := { s.vl with stopLatch := stop }
  cc := { s.cc with setpoint := if stop && !s.vl.stopLatch then 0 else s.cc.setpoint }
  sp := { s.sp with
    events := if stop && !s.vl.stopLatch then s.sp.events.raise .stopRequest else s.sp.events } }

theorem replacePack_eq (s : State) (t : Int) : s.endRequest.replacePack (packTempCorrected t) = packed s t := by
  rw [packTempCorrected, clampInt_eq (by decide)]
  unfold State.replacePack packed
  have same : s.endRequest.ea.record = s.ea.record := rfl
  rw [same]
  cases held : s.ea.record with
  | none =>
    have whole : { s.ea with record := none } = s.ea := by rw [← held]
    rw [Option.map_none, whole]
    rfl
  | some r => rfl

theorem meetCeiling_eq (s : State) (c : Nat) : s.meetCeiling c = ceiled s c := by
  unfold State.meetCeiling ceiled
  by_cases lowers : c < s.vl.allowance
  · simp only [decide_eq_true lowers, if_pos lowers]
    rfl
  · simp only [decide_eq_false lowers, if_neg lowers]
    rfl

theorem meetStop_eq (s : State) (stop : Bool) : s.meetStop stop = stopped s stop := by
  unfold State.meetStop stopped
  cases stop
  · rfl
  · cases latch : s.vl.stopLatch
    · simp only [if_true, Bool.false_eq_true, if_false, State.stepDown, Nat.min_zero]
      rfl
    · have same : { s.vl with stopLatch := true } = s.vl := by rw [← latch]
      rw [if_pos rfl, if_pos rfl, same]
      rfl

theorem exec_polled {number : Nat} (awaits : Awaits s number .poll) (flags ceiling : Nat) (t : Int) :
    exec (.polled number flags ceiling t) s = .next
      (stopped (ceiled (packed s t).finish (min 63 ceiling)).finish (flags.testBit 0)).finish := by
  simp only [exec, execPolled, answeredBy_of_awaits awaits, replacePack_eq, meetCeiling_eq, meetStop_eq]
  rfl

/-- The reactions raise none of the two events of a POLLED. -/
theorem finish_count (s : State) {k : EventKind} (commanded : raisedAtOnce k = false) :
    s.finish.sp.events.count k = s.sp.events.count k := (finish_moves s).others k commanded

theorem count_ceiled (s : State) (c : Nat) : (ceiled s c).sp.events.count .ceilingLowered =
    (if c < s.vl.allowance then min 255 (s.sp.events.count .ceilingLowered + 1)
      else s.sp.events.count .ceilingLowered) ∧
    (ceiled s c).sp.events.count .stopRequest = s.sp.events.count .stopRequest := by
  unfold ceiled
  by_cases lowers : c < s.vl.allowance
  · simp only [if_pos lowers]
    exact ⟨by rw [EventSet.count_raise_self, satSucc_eq_min], EventSet.count_raise_of_ne _ (by decide)⟩
  · simp only [if_neg lowers, and_self]

theorem count_stopped (s : State) (stop : Bool) : (stopped s stop).sp.events.count .stopRequest =
    (if stop = true ∧ s.vl.stopLatch = false then min 255 (s.sp.events.count .stopRequest + 1)
      else s.sp.events.count .stopRequest) ∧
    (stopped s stop).sp.events.count .ceilingLowered = s.sp.events.count .ceilingLowered := by
  unfold stopped
  by_cases latches : stop = true ∧ s.vl.stopLatch = false
  · have latches' : (stop && !s.vl.stopLatch) = true := by rw [latches.1, latches.2]; rfl
    simp only [if_pos latches, if_pos latches']
    exact ⟨by rw [EventSet.count_raise_self, satSucc_eq_min], EventSet.count_raise_of_ne _ (by decide)⟩
  · have latches' : ¬(stop && !s.vl.stopLatch) = true := by simpa using latches
    simp only [if_neg latches, if_neg latches', and_self]

/-- Settles O46: the two timers, the replies of a refresh, and the three values of a POLLED in their order. -/
theorem pollAndRefreshReadTheBus : Obligations.PollAndRefreshReadTheBus := by
  unfold Obligations.PollAndRefreshReadTheBus
  refine ⟨fun s at' => exec_pollExpiry, fun s at' => exec_refreshExpiry, ?energy, ?pack, ?unread, ?polled⟩
  case energy =>
    intro s number v r held awaits polling soe
    exact ⟨_, (exec_item_refresh awaits v).trans (by rw [refreshItem_energy held polling]), (Reacted.refl _).finish⟩
  case pack =>
    intro s number v r held awaits
    exact ⟨_, (exec_item_refresh awaits v).trans (by rw [refreshItem_pack held]), (Reacted.refl _).finish⟩
  case unread =>
    intro s number k awaits u
    obtain ⟨notReady, unsupported⟩ := exec_unread_refresh awaits
    rw [refreshGoesOn_eq] at notReady unsupported
    exact ⟨notReady, unsupported⟩
  case polled =>
    intro s number flags ceiling t awaits c stop packs lowered latches
    have record : packs.ea.record = _ := State.finish_ea_record (packed s t)
    have allowance : packs.vl.allowance = s.vl.allowance := State.finish_vl_allowance (packed s t)
    have latch : lowered.vl.stopLatch = s.vl.stopLatch :=
      (State.finish_vl_stopLatch (ceiled packs c)).trans (State.finish_vl_stopLatch (packed s t))
    obtain ⟨lowers, keeps⟩ := count_ceiled packs c
    obtain ⟨asks, keeps'⟩ := count_stopped lowered stop
    have first (k : EventKind) (commanded : raisedAtOnce k = false) : packs.sp.events.count k = s.sp.events.count k :=
      finish_count (packed s t) commanded
    have second (k : EventKind) (commanded : raisedAtOnce k = false) :
        lowered.sp.events.count k = (ceiled packs c).sp.events.count k := finish_count (ceiled packs c) commanded
    have third (k : EventKind) (commanded : raisedAtOnce k = false) :
        (stopped lowered stop).finish.sp.events.count k = (stopped lowered stop).sp.events.count k :=
      finish_count (stopped lowered stop) commanded
    refine ⟨_, exec_polled awaits flags ceiling t, rfl, ?_, ?_, ?_, ?_, ?_, ?_, ?_, ?_⟩
    · exact (State.finish_ea_record _).trans ((State.finish_ea_record (ceiled packs c)).trans record)
    · exact (State.finish_vl_inFlight _).trans ((State.finish_vl_inFlight (ceiled packs c)).trans
        (State.finish_vl_inFlight (packed s t)))
    · exact (State.finish_vl_lastCeiling _).trans (State.finish_vl_lastCeiling (ceiled packs c))
    · exact (State.finish_vl_allowance _).trans ((State.finish_vl_allowance (ceiled packs c)).trans
        (congrArg (min · c) allowance))
    · exact State.finish_vl_stopLatch (stopped lowered stop)
    · rw [first _ rfl, allowance] at lowers
      exact (third _ rfl).trans (keeps'.trans ((second _ rfl).trans lowers))
    · rw [second _ rfl, keeps, first _ rfl, latch] at asks
      exact (third _ rfl).trans asks
    · intro stops unlatched
      refine finish_setpoint_zero (stopped lowered stop) (if_pos ?_)
      rw [stops, latch, unlatched]
      rfl

/-! ### ENGAGE and RELEASE (R159, R161) -/

theorem exec_engaged {number : Nat} (awaits : Awaits s number .engage) : exec (.engaged number) s =
    if s.vl.session = .engaging then
      .next (State.finish { s with vl := { s.vl with inFlight := none, session := .exporting } })
    else .next { s with vl := { s.vl with inFlight := none } } := by
  simp only [exec, execEngaged, answeredBy_of_awaits awaits]
  rfl

theorem exec_declined {number : Nat} (awaits : Awaits s number .engage) : exec (.declined number) s =
    if s.vl.session = .engaging then
      .next (State.finish { s with vl := { s.vl with
        inFlight := none, session := .ready, engageHoldAt := some (s.now + 10000) } })
    else .next { s with vl := { s.vl with inFlight := none } } := by
  simp only [exec, execDeclined, answeredBy_of_awaits awaits]
  rfl

theorem exec_engageHoldExpiry {at' : Nat} (runs : s.vl.engageHoldAt = some at') : exec .engageHoldExpiry s =
    .next (State.finish { s with now := max s.now at', vl := { s.vl with engageHoldAt := none } }) := by
  simp only [exec, execEngageHoldExpiry, runs]
  rfl

theorem exec_released {number : Nat} (awaits : Awaits s number .release) : exec (.released number) s =
    if s.vl.session = .releasing then
      .next (State.finish { s with vl := { s.vl with inFlight := none, releaseOwed := false, session := .ready } })
    else .next { s with vl := { s.vl with inFlight := none, releaseOwed := false } } := by
  simp only [exec, execReleased, answeredBy_of_awaits awaits]
  rfl

theorem finish_ready (ready : s.vl.session = .ready) : s.finish.vl.session = .ready := by
  refine (finish_session s ?_ ?_).trans ready
  all_goals
    rw [ready]
    decide

/-! ### The share-zero timer (R160) -/

theorem exec_shareZeroExpiry {at' : Nat} (runs : s.vl.shareZeroAt = some at') : exec .shareZeroExpiry s =
    .next (State.finish { s with
      now := max s.now at'
      vl := { s.vl with shareZeroAt := none, shareZeroOut := true } }) := by
  simp only [exec, execShareZeroExpiry, runs]
  rfl

/-- An EXPORTING bus without a share whose share-zero timer has run out, in a post whose gates have been notified. -/
structure RunOut (s : State) : Prop where
  exporting : s.vl.session = .exporting
  out : s.vl.shareZeroOut = true
  share : s.share = 0
  notified : GatesNotified s
  awake : s.sp.mode ≠ .dormant

theorem RunOut.of_view {t : State} (h : RunOut s) (view : SameView s t) (computed' : computed t = computed s)
    (out : t.vl.shareZeroOut = s.vl.shareZeroOut) : RunOut t := by
  have result : t.ap.result = s.ap.result := congrArg (fun p => p.1.result) computed'
  have gates : t.ea.gates = s.ea.gates := congrArg Prod.snd computed'
  refine ⟨view.session.trans h.exporting, out.trans h.out, (view.share result).trans h.share, ?_, view.mode ▸ h.awake⟩
  rw [GatesNotified, gates, view.gateView]
  exact h.notified

theorem RunOut.holdSetpoint (h : RunOut s) : RunOut s.holdSetpoint :=
  h.of_view (holdSetpoint_sameView s) (computed_holdSetpoint s) (by rw [holdSetpoint_eq])

theorem RunOut.noticeTest (h : RunOut s) : RunOut s.noticeTest :=
  h.of_view (noticeTest_sameView s) (computed_noticeTest s) (by rw [noticeTest_eq])

theorem RunOut.gateNotice (h : RunOut s) : s.gateNotice = s := gateNotice_notified h.notified

theorem RunOut.shareZeroTest (h : RunOut s) : RunOut s.shareZeroTest :=
  h.of_view (shareZeroTest_sameView s) (computed_shareZeroTest s) (by
    rw [shareZeroTest_eq]
    simp only [h.exporting, h.share, and_self, decide_true, Bool.true_and])

theorem RunOut.readied (h : RunOut s) : RunOut (readied s) := by
  rw [Sys2Proof.Safety.readied, h.holdSetpoint.noticeTest.gateNotice]
  exact h.holdSetpoint.noticeTest.shareZeroTest

theorem RunOut.not_stopReady (h : RunOut s) : s.stopReady = false :=
  Bool.eq_false_iff.mpr fun ready => (stopReady_iff.mp ready).2.2.2.2.1 h.exporting

/-- With no power to release, the release is decided at once (R160). -/
theorem RunOut.releases (h : RunOut s) (joined : s.sp.mode ≠ .config) (still : s.cc.setpoint = 0 ∨ s.cc.state ≠ .on) :
    s.finish.vl.session = .releasing ∧ s.finish.vl.due.release = true ∧ s.finish.cc.setpoint = 0 := by
  have zero : (Sys2Proof.Safety.readied s).cc.setpoint = 0 := by
    rcases still with zero | off
    · have held : s.holdSetpoint.cc.setpoint = 0 := by
        rw [holdSetpoint_eq]
        simp only [zero, ite_self]
      rw [Sys2Proof.Safety.readied, shareZeroTest_eq, gateNotice_eq, noticeTest_eq]
      exact held
    · refine (readied_setpoint s).resolve_left fun path => ?_
      simp only [State.powerPath, Bool.and_eq_true, beq_iff_eq] at path
      exact off path.1
  have wanted : (Sys2Proof.Safety.readied s).releaseWanted = true :=
    releaseWanted_iff.mpr ⟨h.readied.exporting, zero, .inl h.readied.out⟩
  have joined' : s.joined = true := bne_iff_ne.mpr joined
  have kept : s.finish.vl.session = .releasing ∧ s.finish.vl.due.release = true := by
    refine finish_keeps_from (P := fun v => v.vl.session = .releasing ∧ v.vl.due.release = true) joined' ?_
      (fun v h => by simpa using h) ?_
    · simp only [reactions, List.forall_mem_cons, List.not_mem_nil, false_implies, implies_true, and_true, holdSetpoint_eq,
        noticeTest_eq, gateNotice_eq, shareZeroTest_eq, stopTest_eq, releaseTest_eq, startTest_eq, engageTest_eq,
        retuneTest_eq, parkTest_eq, plugWake_eq, meetPlug_eq, setMode_pollIn]
      refine ⟨fun _ h => h, fun _ h => h, fun _ h => h, fun _ h => h, fun _ h => h, fun v h => ?_, fun _ h => h,
        fun _ h => h, fun _ h => h, fun v h => ?_, fun v h => ?_, fun v h => ?_⟩
      · exact ⟨by rw [h.1, ite_self], by rw [h.2, Bool.or_true]⟩
      · split <;> exact h
      · split <;> exact h
      · rw [if_neg fun met => absurd (h.1.symm.trans met.2.2) (by decide)]
        exact h
    · rw [stopTest_of_not_ready h.readied.not_stopReady, releaseTest_eq, wanted]
      exact ⟨rfl, rfl⟩
  refine ⟨kept.1, kept.2, (finish_settled joined).1.setpoint.resolve_left fun path => ?_⟩
  simp only [State.powerPath, Bool.and_eq_true, beq_iff_eq] at path
  exact absurd (kept.1.symm.trans path.2) (by decide)

/-- While power flows the session stays, until the setpoint reaches 0 (R160). -/
theorem RunOut.waits (h : RunOut s) (above : 0 < s.cc.setpoint) (on : s.cc.state = .on) :
    s.finish.vl.session = .exporting ∧ s.finish.vl.shareZeroOut = true ∧ s.finish.cc.setpoint = s.cc.setpoint := by
  suffices kept : RunOut s.finish ∧ s.finish.cc.state = .on ∧ s.finish.cc.setpoint = s.cc.setpoint from
    ⟨kept.1.exporting, kept.1.out, kept.2.2⟩
  refine finish_keeps (P := fun v => RunOut v ∧ v.cc.state = .on ∧ v.cc.setpoint = s.cc.setpoint) ?_ ?_ ⟨h, on, rfl⟩
  · simp only [reactions, List.forall_mem_cons, List.not_mem_nil, false_implies, implies_true, and_true]
    refine ⟨fun v ⟨run, on, setpoint⟩ => ?_, fun v ⟨run, on, setpoint⟩ => ?_, fun v ⟨run, on, setpoint⟩ => ?_,
      fun v ⟨run, on, setpoint⟩ => ?_, fun v ⟨run, on, setpoint⟩ => ?_, fun v ⟨run, on, setpoint⟩ => ?_,
      fun v ⟨run, on, setpoint⟩ => ?_, fun v ⟨run, on, setpoint⟩ => ?_, fun v ⟨run, on, setpoint⟩ => ?_,
      fun v ⟨run, on, setpoint⟩ => ?_, fun v ⟨run, on, setpoint⟩ => ?_, fun v ⟨run, on, setpoint⟩ => ?_⟩
    · have path : v.powerPath = true := by simp [State.powerPath, on, run.exporting]
      rw [State.holdSetpoint, if_pos path]
      exact ⟨run, on, setpoint⟩
    · exact ⟨run.noticeTest, by rw [noticeTest_eq]; exact on, by rw [noticeTest_eq]; exact setpoint⟩
    · rw [run.gateNotice]
      exact ⟨run, on, setpoint⟩
    · exact ⟨run.shareZeroTest, by rw [shareZeroTest_eq]; exact on, by rw [shareZeroTest_eq]; exact setpoint⟩
    · rw [stopTest_of_not_ready run.not_stopReady]
      exact ⟨run, on, setpoint⟩
    · have unwanted : ¬v.releaseWanted = true := fun wanted => by
        have zero := (releaseWanted_iff.mp wanted).2.1
        omega
      rw [State.releaseTest, if_neg unwanted]
      exact ⟨run, on, setpoint⟩
    · have kept : v.startTest.cc.state = .on ∧ v.startTest.cc.setpoint = v.cc.setpoint := by
        cases request : v.startRequest
        · rw [startTest_ceases request (.inr on)]
          exact ⟨on, rfl⟩
        · rw [startTest_holds request (.inr on)]
          exact ⟨on, rfl⟩
      have same : control v.startTest = control v := by
        rw [control, control, kept.1, on, startTest_eq]
      exact ⟨run.of_view (startTest_sameView same) (computed_startTest v) (by rw [startTest_eq]), kept.1,
        kept.2.trans setpoint⟩
    · exact ⟨run.of_view (engageTest_sameView v) (computed_engageTest v) (by rw [engageTest_eq]),
        by rw [engageTest_eq]; exact on, by rw [engageTest_eq]; exact setpoint⟩
    · exact ⟨run.of_view (retuneTest_sameView v) (computed_retuneTest v) (by rw [retuneTest_eq]),
        by rw [retuneTest_eq]; exact on, by rw [retuneTest_eq]; exact setpoint⟩
    · have unready : ¬v.parkReady = true := fun ready => by
        have zero := (parkReady_iff.mp ready).2.1
        omega
      rw [State.parkTest, if_neg unready]
      exact ⟨run, on, setpoint⟩
    · rw [State.plugWake, if_neg fun wakes => run.awake wakes.1]
      exact ⟨run, on, setpoint⟩
    · rw [meetPlug_eq, if_neg fun met => absurd (run.exporting.symm.trans met.2.2) (by decide)]
      exact ⟨run, on, setpoint⟩
  · rintro v ⟨run, on, setpoint⟩
    exact ⟨run.of_view (takeFrame_sameView v) (by simp [computed]) (by simp), by simpa using on, by simpa using setpoint⟩

/-- Settles O49: the replies, and the release once the setpoint is 0. -/
theorem engageAndReleaseMoveTheSession : Obligations.EngageAndReleaseMoveTheSession := by
  unfold Obligations.EngageAndReleaseMoveTheSession
  refine ⟨?engaging, ?moved, fun s at' => exec_engageHoldExpiry, ?zero, ?released⟩
  case engaging =>
    intro s number awaits engaging
    exact ⟨(exec_engaged awaits).trans (if_pos engaging), _, (exec_declined awaits).trans (if_pos engaging),
      finish_ready rfl, State.finish_vl_engageHoldAt _, rfl⟩
  case moved =>
    intro s number awaits other
    exact ⟨(exec_engaged awaits).trans (if_neg other), (exec_declined awaits).trans (if_neg other)⟩
  case zero =>
    intro s at' runs
    refine ⟨_, exec_shareZeroExpiry runs, rfl, fun exporting share gates joined awake => ?_⟩
    have runOut : RunOut { s with
        now := max s.now at'
        vl := { s.vl with shareZeroAt := none, shareZeroOut := true } } := ⟨exporting, rfl, share, gates, awake⟩
    exact ⟨runOut.releases joined, runOut.waits⟩
  case released =>
    intro s number awaits
    exact ⟨fun releasing => ⟨_, (exec_released awaits).trans (if_pos releasing), finish_ready rfl, rfl⟩,
      fun other => (exec_released awaits).trans (if_neg other)⟩

end

end Sys2Proof.Safety
end

