-- ==== Sys2Proof/Proofs/FrameReading.lean ====
section
/-!
Reading back what a frame carries (O60): the fields from their bytes, the bytes before the frame check, and each frame of
the depot line and each reply of the pilot link (sections 11.1 and 11.2).
-/

namespace Sys2Proof.Safety

open Sys2Proof Sys2Proof.Machine

/-! ### Fields -/

theorem toNat_byte {n : Nat} (fits : FitsByte n) : (BitVec.ofNat 8 n).toNat = n := by
  rw [BitVec.toNat_ofNat]
  exact Nat.mod_eq_of_lt fits

/-- The two bytes of a word, put together again. -/
theorem append_extract (w : BitVec 16) : w.extractLsb' 8 8 ++ w.extractLsb' 0 8 = w := by
  refine BitVec.eq_of_getLsbD_eq fun i hi => ?_
  rw [BitVec.getLsbD_append, BitVec.getLsbD_extractLsb', BitVec.getLsbD_extractLsb']
  by_cases low : i < 8
  · simp [low]
  · have high : i - 8 < 8 := by omega
    have back : 8 + (i - 8) = i := by omega
    simp [low, high, back]

theorem wordOf_field {n : Nat} (fits : FitsWord n) :
    wordOf ((BitVec.ofNat 16 n).extractLsb' 8 8) ((BitVec.ofNat 16 n).extractLsb' 0 8) = n := by
  rw [wordOf, append_extract, BitVec.toNat_ofNat]
  exact Nat.mod_eq_of_lt fits

theorem signedOf_field {v : Int} (fits : FitsSigned v) :
    signedOf ((BitVec.ofInt 16 v).extractLsb' 8 8) ((BitVec.ofInt 16 v).extractLsb' 0 8) = v := by
  obtain ⟨low, high⟩ := fits
  rw [signedOf, append_extract, BitVec.toInt_ofInt]
  exact Int.bmod_eq_of_le (by omega) (by omega)

/-! ### The frame check -/

theorem checked_withCheck (bs : List Byte) : checked (withCheck bs) = some bs := by
  have length : (withCheck bs).length = bs.length + 2 := by simp [withCheck, wordBytes]
  have body : (withCheck bs).take bs.length = bs := List.take_left
  have check : (withCheck bs).drop bs.length = wordBytes (frameCheck bs) := List.drop_left
  have short : bs.length + 2 - 2 = bs.length := Nat.add_sub_cancel ..
  simp only [checked, length, short, body, check]
  exact if_pos ⟨by omega, trivial⟩

/-! ### The depot line (section 11.1) -/

theorem standingOf_payload {f : StandingWire} (fits : f.WellFormed) : standingOf (standingPayload f) = some f := by
  obtain ⟨mode, flags, cls, offer, share, actual, energy, served, temperature⟩ := fits
  simp only [standingPayload, byteField, wordField, signedField, wordBytes, List.cons_append, List.nil_append, standingOf,
    toNat_byte mode, toNat_byte flags, toNat_byte cls, wordOf_field offer, wordOf_field share, wordOf_field actual,
    wordOf_field energy, wordOf_field served, signedOf_field temperature]

theorem dispatchOf_payload {f : DispatchWire} (fits : f.WellFormed) : dispatchOf (dispatchPayload f) = some f := by
  obtain ⟨callId, revision, kind, origin, carried, target, ramp, duration, countdown⟩ := fits
  simp only [dispatchPayload, byteField, wordField, wordBytes, List.cons_append, List.nil_append, dispatchOf,
    toNat_byte revision, toNat_byte kind, toNat_byte origin, toNat_byte carried, wordOf_field callId, wordOf_field target,
    wordOf_field ramp, wordOf_field duration, wordOf_field countdown]

theorem curbOf_payload {f : CurbWire} (fits : f.WellFormed) : curbOf (curbPayload f) = some f := by
  obtain ⟨level, hold, temperature⟩ := fits
  simp only [curbPayload, byteField, wordField, signedField, wordBytes, List.cons_append, List.nil_append, curbOf,
    toNat_byte level, wordOf_field hold, signedOf_field temperature]

/-- A frame is read by the content before its check, and by its stall. -/
theorem lineCommand_lineFrame {own kind stall seq : Nat} {payload : List Byte} {i : Instr}
    (content : lineContent (byteField kind ++ byteField stall ++ byteField seq ++ payload) = some i) :
    lineCommand own (lineFrame kind stall seq payload) = meetStall own i := by
  rw [lineCommand, lineFrame, checked_withCheck, Option.bind_some, content]

section
variable {own stall seq : Nat} (fitsStall : FitsByte stall) (fitsSeq : FitsByte seq)
include fitsStall fitsSeq

theorem lineContent_standing {f : StandingWire} (fits : f.WellFormed) :
    lineContent (byteField 1 ++ byteField stall ++ byteField seq ++ standingPayload f) = some (.standing stall seq f) := by
  have read : lineContent (byteField 1 ++ byteField stall ++ byteField seq ++ standingPayload f) =
      (standingOf (standingPayload f)).map
        (Instr.standing (BitVec.ofNat 8 stall).toNat (BitVec.ofNat 8 seq).toNat) := rfl
  rw [read, standingOf_payload fits, toNat_byte fitsStall, toNat_byte fitsSeq, Option.map_some]

theorem lineContent_dispatch {f : DispatchWire} (fits : f.WellFormed) :
    lineContent (byteField 2 ++ byteField stall ++ byteField seq ++ dispatchPayload f) = some (.dispatch stall seq f) := by
  have read : lineContent (byteField 2 ++ byteField stall ++ byteField seq ++ dispatchPayload f) =
      (dispatchOf (dispatchPayload f)).map
        (Instr.dispatch (BitVec.ofNat 8 stall).toNat (BitVec.ofNat 8 seq).toNat) := rfl
  rw [read, dispatchOf_payload fits, toNat_byte fitsStall, toNat_byte fitsSeq, Option.map_some]

theorem lineContent_curb {f : CurbWire} (fits : f.WellFormed) :
    lineContent (byteField 3 ++ byteField stall ++ byteField seq ++ curbPayload f) = some (.curb stall seq f) := by
  have read : lineContent (byteField 3 ++ byteField stall ++ byteField seq ++ curbPayload f) =
      (curbOf (curbPayload f)).map (Instr.curb (BitVec.ofNat 8 stall).toNat (BitVec.ofNat 8 seq).toNat) := rfl
  rw [read, curbOf_payload fits, toNat_byte fitsStall, toNat_byte fitsSeq, Option.map_some]

theorem lineContent_leave {reason : Nat} (fits : FitsByte reason) :
    lineContent (byteField 4 ++ byteField stall ++ byteField seq ++ byteField reason) = some (.leave stall seq reason) := by
  have read : lineContent (byteField 4 ++ byteField stall ++ byteField seq ++ byteField reason) =
      some (.leave (BitVec.ofNat 8 stall).toNat (BitVec.ofNat 8 seq).toNat (BitVec.ofNat 8 reason).toNat) := rfl
  rw [read, toNat_byte fitsStall, toNat_byte fitsSeq, toNat_byte fits]

end

/-! ### The pilot link (section 11.2) -/

theorem pilotCommand_withCheck {bs : List Byte} {i : Instr} (content : replyContent bs = some i) :
    pilotCommand (withCheck bs) = i := by
  rw [pilotCommand, checked_withCheck, Option.bind_some, content]

section
variable {number : Nat} (fits : FitsByte number)
include fits

theorem replyContent_item {k : Nat} {v : Int} (item : FitsByte k) (value : FitsSigned v) :
    replyContent (byteField number ++ byteField 0x20 ++ byteField k ++ signedField v) = some (.item number k v) := by
  have read : replyContent (byteField number ++ byteField 0x20 ++ byteField k ++ signedField v) =
      some (.item (BitVec.ofNat 8 number).toNat (BitVec.ofNat 8 k).toNat
        (signedOf ((BitVec.ofInt 16 v).extractLsb' 8 8) ((BitVec.ofInt 16 v).extractLsb' 0 8))) := rfl
  rw [read, toNat_byte fits, toNat_byte item, signedOf_field value]

theorem replyContent_notReady {k : Nat} (item : FitsByte k) :
    replyContent (byteField number ++ byteField 0x21 ++ byteField k) = some (.notReady number k) := by
  have read : replyContent (byteField number ++ byteField 0x21 ++ byteField k) =
      some (.notReady (BitVec.ofNat 8 number).toNat (BitVec.ofNat 8 k).toNat) := rfl
  rw [read, toNat_byte fits, toNat_byte item]

theorem replyContent_unsupported {k : Nat} (item : FitsByte k) :
    replyContent (byteField number ++ byteField 0x22 ++ byteField k) = some (.unsupported number k) := by
  have read : replyContent (byteField number ++ byteField 0x22 ++ byteField k) =
      some (.unsupported (BitVec.ofNat 8 number).toNat (BitVec.ofNat 8 k).toNat) := rfl
  rw [read, toNat_byte fits, toNat_byte item]

theorem replyContent_tuned {status level : Nat} (first : FitsByte status) (second : FitsByte level) :
    replyContent (byteField number ++ byteField 0x23 ++ byteField status ++ byteField level) =
      some (.tuned number status level) := by
  have read : replyContent (byteField number ++ byteField 0x23 ++ byteField status ++ byteField level) =
      some (.tuned (BitVec.ofNat 8 number).toNat (BitVec.ofNat 8 status).toNat (BitVec.ofNat 8 level).toNat) := rfl
  rw [read, toNat_byte fits, toNat_byte first, toNat_byte second]

theorem replyContent_engaged : replyContent (byteField number ++ byteField 0x24) = some (.engaged number) := by
  have read : replyContent (byteField number ++ byteField 0x24) = some (.engaged (BitVec.ofNat 8 number).toNat) := rfl
  rw [read, toNat_byte fits]

theorem replyContent_declined : replyContent (byteField number ++ byteField 0x25) = some (.declined number) := by
  have read : replyContent (byteField number ++ byteField 0x25) = some (.declined (BitVec.ofNat 8 number).toNat) := rfl
  rw [read, toNat_byte fits]

theorem replyContent_released : replyContent (byteField number ++ byteField 0x26) = some (.released number) := by
  have read : replyContent (byteField number ++ byteField 0x26) = some (.released (BitVec.ofNat 8 number).toNat) := rfl
  rw [read, toNat_byte fits]

theorem replyContent_polled {flags ceiling : Nat} {t : Int} (first : FitsByte flags) (second : FitsByte ceiling)
    (third : FitsSigned t) :
    replyContent (byteField number ++ byteField 0x27 ++ byteField flags ++ byteField ceiling ++ signedField t) =
      some (.polled number flags ceiling t) := by
  have read :
      replyContent (byteField number ++ byteField 0x27 ++ byteField flags ++ byteField ceiling ++ signedField t) =
      some (.polled (BitVec.ofNat 8 number).toNat (BitVec.ofNat 8 flags).toNat (BitVec.ofNat 8 ceiling).toNat
        (signedOf ((BitVec.ofInt 16 t).extractLsb' 8 8) ((BitVec.ofInt 16 t).extractLsb' 0 8))) := rfl
  rw [read, toNat_byte fits, toNat_byte first, toNat_byte second, signedOf_field third]

end

/-- A reply of the pilot link is read back (R185). -/
theorem pilotCommand_replyBytes {i : Instr} {bytes : List Byte} (fits : i.WellFormed) (carries : replyBytes i = some bytes) :
    pilotCommand bytes = i := by
  cases i with
  | item number k v =>
    obtain ⟨number', item, value⟩ := of_decide_eq_true fits
    obtain rfl := Option.some.inj carries
    exact pilotCommand_withCheck (replyContent_item number' item value)
  | notReady number k =>
    obtain ⟨number', item⟩ := of_decide_eq_true fits
    obtain rfl := Option.some.inj carries
    exact pilotCommand_withCheck (replyContent_notReady number' item)
  | unsupported number k =>
    obtain ⟨number', item⟩ := of_decide_eq_true fits
    obtain rfl := Option.some.inj carries
    exact pilotCommand_withCheck (replyContent_unsupported number' item)
  | tuned number status level =>
    obtain ⟨number', status', level'⟩ := of_decide_eq_true fits
    obtain rfl := Option.some.inj carries
    exact pilotCommand_withCheck (replyContent_tuned number' status' level')
  | engaged number =>
    obtain rfl := Option.some.inj carries
    exact pilotCommand_withCheck (replyContent_engaged (of_decide_eq_true fits))
  | declined number =>
    obtain rfl := Option.some.inj carries
    exact pilotCommand_withCheck (replyContent_declined (of_decide_eq_true fits))
  | released number =>
    obtain rfl := Option.some.inj carries
    exact pilotCommand_withCheck (replyContent_released (of_decide_eq_true fits))
  | polled number flags ceiling t =>
    obtain ⟨number', flags', ceiling', t'⟩ := of_decide_eq_true fits
    obtain rfl := Option.some.inj carries
    exact pilotCommand_withCheck (replyContent_polled number' flags' ceiling' t')
  | _ => cases carries

/-- Settles O60, by the kind of the frame. -/
theorem framesAreReadBack : Obligations.FramesAreReadBack := by
  unfold Obligations.FramesAreReadBack
  refine ⟨?line, fun i bytes => pilotCommand_replyBytes⟩
  intro own stall seq i bytes fits kinds carries
  rcases kinds with ⟨f, rfl⟩ | ⟨f, rfl⟩ | ⟨f, rfl⟩ | ⟨reason, rfl⟩
  all_goals
    obtain ⟨stall', seq', payload⟩ := of_decide_eq_true fits
    obtain rfl := Option.some.inj carries
  · have read := lineCommand_lineFrame (own := own) (lineContent_standing stall' seq' payload)
    exact ⟨fun other => read.trans (if_neg other), fun same => ⟨.standing, read.trans (if_pos same)⟩⟩
  · have read := lineCommand_lineFrame (own := own) (lineContent_dispatch stall' seq' payload)
    exact ⟨fun other => read.trans (if_neg other), fun same => ⟨.dispatch, read.trans (if_pos same)⟩⟩
  · have read := lineCommand_lineFrame (own := own) (lineContent_curb stall' seq' payload)
    exact ⟨fun other => read.trans (if_neg other), fun same => ⟨.curb, read.trans (if_pos same)⟩⟩
  · have read := lineCommand_lineFrame (own := own) (lineContent_leave stall' seq' payload)
    exact ⟨fun other => read.trans (if_neg other), fun same => ⟨.leave, read.trans (if_pos same)⟩⟩

end Sys2Proof.Safety
end
